-- ==== Sys2Proof/Word.lean ====
section
/-! DEFINITION. The words of the VES block: 32-bit host words (rule R33), 64-bit command words (rule R150),
bytes, and binary32 values as their bit patterns (rules R12 and R102). -/

namespace Sys2Proof

/-- A 32-bit word of the host interface (rule R7, rule R33). -/
abbrev Word := BitVec 32

/-- One byte of the block address space (rule R100). -/
abbrev Byte := BitVec 8

/-- A 64-bit command word (rule R150). -/
abbrev Cmd := BitVec 64

/-- A binary32 value, held as its IEEE 754 bit pattern in one word (rules R12, R102). -/
abbrev F32 := BitVec 32

/-- `sat32(a + 1)` of rule R9: the successor clamped to 2^32 - 1. -/
def Word.satSucc (a : Word) : Word := if a = BitVec.allOnes 32 then a else a + 1

end Sys2Proof
end

