-- ==== Sys2Proof/Syntax.lean ====
section
/-! DEFINITION. The command set of the VES block: the three channels (rule R152) and one constructor for each of
the 37 rows of spec/opcode_table.json (rule R155). -/

namespace Sys2Proof

/-- The channel a command word reaches the block through (rule R152). -/
inductive Channel where
  | doorbell
  | queue
  | event
  deriving DecidableEq, Repr

/-- The instructions of rule R155. Reserved fields are not operands (rule R157). The value operand `v` is read as
a binary32 bit pattern, an enumeration or a Boolean, as the instruction's own rule says (rule R151). -/
inductive Instr where
  -- doorbell commands
  | nop
  | prepare
  | synRender (buf : BitVec 8) (events : BitVec 16) (frames : Word)
  | eqProcess (buf : BitVec 8) (frames : Word)
  | specProcess (buf : BitVec 8) (frames : Word)
  -- synth parameter setters, OP = 0x10
  | synWaveform (v : Word)
  | synAttack (v : Word)
  | synHold (v : Word)
  | synDecay (v : Word)
  | synSustain (v : Word)
  | synRelease (v : Word)
  | synCurve (v : Word)
  | synFilterType (v : Word)
  | synFilterCutoff (v : Word)
  | synFilterQ (v : Word)
  | synLfoWaveform (v : Word)
  | synLfoRate (v : Word)
  | synLfoAmpDepth (v : Word)
  | synLfoPitchDepth (v : Word)
  | synGain (v : Word)
  -- equalizer band parameter setters, OP = 0x20
  | eqType (band : BitVec 8) (v : Word)
  | eqFreq (band : BitVec 8) (v : Word)
  | eqGain (band : BitVec 8) (v : Word)
  | eqQ (band : BitVec 8) (v : Word)
  | eqSlope (band : BitVec 8) (v : Word)
  | eqDrive (band : BitVec 8) (v : Word)
  | eqSaturation (band : BitVec 8) (v : Word)
  | eqMix (band : BitVec 8) (v : Word)
  | eqEnable (band : BitVec 8) (v : Word)
  | eqSolo (band : BitVec 8) (v : Word)
  | eqBypass (band : BitVec 8) (v : Word)
  -- equalizer global parameter setters, OP = 0x21
  | eqInputGain (v : Word)
  | eqOutputGain (v : Word)
  | eqModel (v : Word)
  | eqGlobalBypass (v : Word)
  -- note events
  | noteOn (note : BitVec 8) (vel : BitVec 8) (offset : Word)
  | noteOff (note : BitVec 8) (offset : Word)
  deriving DecidableEq, Repr

/-- The one channel each instruction is legal on (rules R152, R155). -/
def Instr.channel : Instr → Channel
  | .nop => .doorbell
  | .prepare => .doorbell
  | .synRender _ _ _ => .doorbell
  | .eqProcess _ _ => .doorbell
  | .specProcess _ _ => .doorbell
  | .synWaveform _ => .queue
  | .synAttack _ => .queue
  | .synHold _ => .queue
  | .synDecay _ => .queue
  | .synSustain _ => .queue
  | .synRelease _ => .queue
  | .synCurve _ => .queue
  | .synFilterType _ => .queue
  | .synFilterCutoff _ => .queue
  | .synFilterQ _ => .queue
  | .synLfoWaveform _ => .queue
  | .synLfoRate _ => .queue
  | .synLfoAmpDepth _ => .queue
  | .synLfoPitchDepth _ => .queue
  | .synGain _ => .queue
  | .eqType _ _ => .queue
  | .eqFreq _ _ => .queue
  | .eqGain _ _ => .queue
  | .eqQ _ _ => .queue
  | .eqSlope _ _ => .queue
  | .eqDrive _ _ => .queue
  | .eqSaturation _ _ => .queue
  | .eqMix _ _ => .queue
  | .eqEnable _ _ => .queue
  | .eqSolo _ _ => .queue
  | .eqBypass _ _ => .queue
  | .eqInputGain _ => .queue
  | .eqOutputGain _ => .queue
  | .eqModel _ => .queue
  | .eqGlobalBypass _ => .queue
  | .noteOn _ _ _ => .event
  | .noteOff _ _ => .event

end Sys2Proof
end

