-- ==== Sys2Proof/WellFormed.lean ====
section
/-! DEFINITION. The instructions the encoding admits: the band field of an EQ_BAND_PARAM is 0 to 7 (rules R155,
R156, R159). Every other operand takes every value of its field: the buffer index, the note and the velocity are
range-checked by the instruction rules, not by the decoder (rule R159). -/

namespace Sys2Proof

/-- The band operand of an equalizer band setter, if the instruction has one (rule R155). -/
def Instr.band? : Instr → Option (BitVec 8)
  | .eqType b _ => some b
  | .eqFreq b _ => some b
  | .eqGain b _ => some b
  | .eqQ b _ => some b
  | .eqSlope b _ => some b
  | .eqDrive b _ => some b
  | .eqSaturation b _ => some b
  | .eqMix b _ => some b
  | .eqEnable b _ => some b
  | .eqSolo b _ => some b
  | .eqBypass b _ => some b
  | .nop => none
  | .prepare => none
  | .synRender _ _ _ => none
  | .eqProcess _ _ => none
  | .specProcess _ _ => none
  | .synWaveform _ => none
  | .synAttack _ => none
  | .synHold _ => none
  | .synDecay _ => none
  | .synSustain _ => none
  | .synRelease _ => none
  | .synCurve _ => none
  | .synFilterType _ => none
  | .synFilterCutoff _ => none
  | .synFilterQ _ => none
  | .synLfoWaveform _ => none
  | .synLfoRate _ => none
  | .synLfoAmpDepth _ => none
  | .synLfoPitchDepth _ => none
  | .synGain _ => none
  | .eqInputGain _ => none
  | .eqOutputGain _ => none
  | .eqModel _ => none
  | .eqGlobalBypass _ => none
  | .noteOn _ _ _ => none
  | .noteOff _ _ => none

/-- An instruction is well formed when its band operand, if it has one, is 0 to 7 (rule R159). -/
def Instr.wellFormed (i : Instr) : Bool :=
  match i.band? with
  | some b => b.toNat < 8
  | none => true

end Sys2Proof
end

