-- ==== Sys2Proof/Decode.lean ====
section
/-! DEFINITION. The decoder of rule R159, total on a channel and any bytes, rejecting by name, and the encoder of
the same tables (rules R150, R155). A command word is eight bytes in memory, the low 32-bit word first and each
word little-endian (rules R8, R102). -/

namespace Sys2Proof

/-- Why the decoder refuses some bytes. `illegalOpcode` and `illegalSelector` are the `Ill` of rule R159;
`tooFewBytes` is no command word at all (rule R150: there is one length, 64 bits). -/
inductive DecodeError where
  | tooFewBytes
  | illegalOpcode (channel : Channel) (op : BitVec 8)
  | illegalSelector (op : BitVec 8) (a b : BitVec 8)
  deriving DecidableEq, Repr

/-- OP, bits [63:56] (rule R150). -/
def Cmd.op (w : Cmd) : BitVec 8 := w.extractLsb' 56 8
/-- A, bits [55:48] (rule R150). -/
def Cmd.fieldA (w : Cmd) : BitVec 8 := w.extractLsb' 48 8
/-- B, bits [47:40] (rule R150). -/
def Cmd.fieldB (w : Cmd) : BitVec 8 := w.extractLsb' 40 8
/-- E, bits [47:32]: B and C read together, by SYN_RENDER alone (rule R150). -/
def Cmd.fieldE (w : Cmd) : BitVec 16 := w.extractLsb' 32 16
/-- V, bits [31:0] (rule R150). -/
def Cmd.fieldV (w : Cmd) : Word := w.extractLsb' 0 32
/-- The low word of a command word (rule R8). -/
def Cmd.lo (w : Cmd) : Word := w.extractLsb' 0 32
/-- The high word of a command word (rule R8). -/
def Cmd.hi (w : Cmd) : Word := w.extractLsb' 32 32
/-- The command word `{hi, lo}` (rule R8). -/
def Cmd.ofWords (hi lo : Word) : Cmd := hi ++ lo

/-- The doorbell rows of rule R159. -/
def decodeDoorbell (w : Cmd) : Except DecodeError Instr :=
  match (Cmd.op w).toNat with
  | 0x00 => .ok .nop
  | 0x01 => .ok .prepare
  | 0x02 => .ok (.synRender (Cmd.fieldA w) (Cmd.fieldE w) (Cmd.fieldV w))
  | 0x03 => .ok (.eqProcess (Cmd.fieldA w) (Cmd.fieldV w))
  | 0x04 => .ok (.specProcess (Cmd.fieldA w) (Cmd.fieldV w))
  | _ => .error (.illegalOpcode .doorbell (Cmd.op w))

/-- SYN_PARAM: the parameter id B selects the instruction (rules R155, R156, R159). -/
def decodeSynParam (w : Cmd) : Except DecodeError Instr :=
  match (Cmd.fieldB w).toNat with
  | 0 => .ok (.synWaveform (Cmd.fieldV w))
  | 1 => .ok (.synAttack (Cmd.fieldV w))
  | 2 => .ok (.synHold (Cmd.fieldV w))
  | 3 => .ok (.synDecay (Cmd.fieldV w))
  | 4 => .ok (.synSustain (Cmd.fieldV w))
  | 5 => .ok (.synRelease (Cmd.fieldV w))
  | 6 => .ok (.synCurve (Cmd.fieldV w))
  | 7 => .ok (.synFilterType (Cmd.fieldV w))
  | 8 => .ok (.synFilterCutoff (Cmd.fieldV w))
  | 9 => .ok (.synFilterQ (Cmd.fieldV w))
  | 10 => .ok (.synLfoWaveform (Cmd.fieldV w))
  | 11 => .ok (.synLfoRate (Cmd.fieldV w))
  | 12 => .ok (.synLfoAmpDepth (Cmd.fieldV w))
  | 13 => .ok (.synLfoPitchDepth (Cmd.fieldV w))
  | 14 => .ok (.synGain (Cmd.fieldV w))
  | _ => .error (.illegalSelector (Cmd.op w) (Cmd.fieldA w) (Cmd.fieldB w))

/-- EQ_BAND_PARAM: the band A must be below 8 and the parameter id B selects the instruction (rules R155, R156,
R159). -/
def decodeBandParam (w : Cmd) : Except DecodeError Instr :=
  if (Cmd.fieldA w).toNat < 8 then
    match (Cmd.fieldB w).toNat with
    | 0 => .ok (.eqType (Cmd.fieldA w) (Cmd.fieldV w))
    | 1 => .ok (.eqFreq (Cmd.fieldA w) (Cmd.fieldV w))
    | 2 => .ok (.eqGain (Cmd.fieldA w) (Cmd.fieldV w))
    | 3 => .ok (.eqQ (Cmd.fieldA w) (Cmd.fieldV w))
    | 4 => .ok (.eqSlope (Cmd.fieldA w) (Cmd.fieldV w))
    | 5 => .ok (.eqDrive (Cmd.fieldA w) (Cmd.fieldV w))
    | 6 => .ok (.eqSaturation (Cmd.fieldA w) (Cmd.fieldV w))
    | 7 => .ok (.eqMix (Cmd.fieldA w) (Cmd.fieldV w))
    | 8 => .ok (.eqEnable (Cmd.fieldA w) (Cmd.fieldV w))
    | 9 => .ok (.eqSolo (Cmd.fieldA w) (Cmd.fieldV w))
    | 10 => .ok (.eqBypass (Cmd.fieldA w) (Cmd.fieldV w))
    | _ => .error (.illegalSelector (Cmd.op w) (Cmd.fieldA w) (Cmd.fieldB w))
  else .error (.illegalSelector (Cmd.op w) (Cmd.fieldA w) (Cmd.fieldB w))

/-- EQ_GLOBAL_PARAM: the parameter id B selects the instruction (rules R155, R156, R159). -/
def decodeGlobalParam (w : Cmd) : Except DecodeError Instr :=
  match (Cmd.fieldB w).toNat with
  | 0 => .ok (.eqInputGain (Cmd.fieldV w))
  | 1 => .ok (.eqOutputGain (Cmd.fieldV w))
  | 2 => .ok (.eqModel (Cmd.fieldV w))
  | 3 => .ok (.eqGlobalBypass (Cmd.fieldV w))
  | _ => .error (.illegalSelector (Cmd.op w) (Cmd.fieldA w) (Cmd.fieldB w))

/-- The queue rows of rule R159. -/
def decodeQueue (w : Cmd) : Except DecodeError Instr :=
  match (Cmd.op w).toNat with
  | 0x10 => decodeSynParam w
  | 0x20 => decodeBandParam w
  | 0x21 => decodeGlobalParam w
  | _ => .error (.illegalOpcode .queue (Cmd.op w))

/-- The event rows of rule R159. -/
def decodeEvent (w : Cmd) : Except DecodeError Instr :=
  match (Cmd.op w).toNat with
  | 0x30 => .ok (.noteOn (Cmd.fieldA w) (Cmd.fieldB w) (Cmd.fieldV w))
  | 0x31 => .ok (.noteOff (Cmd.fieldA w) (Cmd.fieldV w))
  | _ => .error (.illegalOpcode .event (Cmd.op w))

/-- `decode(ch, w)` of rule R159, as a total function from a channel and a 64-bit word. -/
def decodeWord (ch : Channel) (w : Cmd) : Except DecodeError Instr :=
  match ch with
  | .doorbell => decodeDoorbell w
  | .queue => decodeQueue w
  | .event => decodeEvent w

/-- A 32-bit word from its four bytes, lowest address first (rule R102). -/
def wordOfBytes (b0 b1 b2 b3 : Byte) : Word := b3 ++ b2 ++ b1 ++ b0

/-- The four bytes of a word, lowest address first (rule R102). -/
def bytesOfWord (w : Word) : List Byte :=
  [w.extractLsb' 0 8, w.extractLsb' 8 8, w.extractLsb' 16 8, w.extractLsb' 24 8]

/-- The eight bytes a command word occupies in memory: low word first, each word little-endian (rules R8, R102). -/
def bytesOfCmd (w : Cmd) : List Byte := bytesOfWord (Cmd.lo w) ++ bytesOfWord (Cmd.hi w)

/-- Decodes the command word at the front of some bytes and returns the bytes after it. -/
def decodeBytes (ch : Channel) : List Byte → Except DecodeError (Instr × List Byte)
  | b0 :: b1 :: b2 :: b3 :: b4 :: b5 :: b6 :: b7 :: rest =>
    match decodeWord ch (Cmd.ofWords (wordOfBytes b4 b5 b6 b7) (wordOfBytes b0 b1 b2 b3)) with
    | .ok i => .ok (i, rest)
    | .error e => .error e
  | _ => .error .tooFewBytes

/-- The channel an opcode is legal on: doorbell opcodes are 0x00 to 0x04, queue opcodes 0x10, 0x20 and 0x21, event
opcodes 0x30 and 0x31; the sets are disjoint (rule R155). A reserved opcode is sent to the doorbell, which refuses
it (rule R158). -/
def channelOfOpcode (op : BitVec 8) : Channel :=
  match op.toNat with
  | 0x10 => .queue
  | 0x20 => .queue
  | 0x21 => .queue
  | 0x30 => .event
  | 0x31 => .event
  | _ => .doorbell

/-- The instruction the decoder reads from a word of spec/opcode_table.json, whose bit 0 is the least significant
bit of the first (low) 32-bit word, laid out in memory as the hardware stores it and decoded on the channel its
opcode belongs to. The `nbits` low bits are the table's and every bit above them is 0. -/
def decodeTableWord (nbits w : Nat) : Option Instr :=
  let c : Cmd := BitVec.ofNat 64 (w % 2 ^ nbits)
  match decodeBytes (channelOfOpcode (Cmd.op c)) (bytesOfCmd c) with
  | .ok (i, _) => some i
  | .error _ => none

/-- Assembles the five fields of a command word (rule R150), with C = 0. -/
def assemble (op a b : BitVec 8) (v : Word) : Cmd := op ++ a ++ b ++ (0#8) ++ v

/-- Assembles a SYN_RENDER word, whose B and C are the 16-bit field E (rule R150). -/
def assembleE (op a : BitVec 8) (e : BitVec 16) (v : Word) : Cmd := op ++ a ++ e ++ v

/-- The command word of an instruction, reserved fields 0 (rules R150, R155, R160). -/
def encode : Instr → Cmd
  | .nop => assemble 0x00 0 0 0
  | .prepare => assemble 0x01 0 0 0
  | .synRender k e n => assembleE 0x02 k e n
  | .eqProcess k n => assemble 0x03 k 0 n
  | .specProcess k n => assemble 0x04 k 0 n
  | .synWaveform v => assemble 0x10 0 0 v
  | .synAttack v => assemble 0x10 0 1 v
  | .synHold v => assemble 0x10 0 2 v
  | .synDecay v => assemble 0x10 0 3 v
  | .synSustain v => assemble 0x10 0 4 v
  | .synRelease v => assemble 0x10 0 5 v
  | .synCurve v => assemble 0x10 0 6 v
  | .synFilterType v => assemble 0x10 0 7 v
  | .synFilterCutoff v => assemble 0x10 0 8 v
  | .synFilterQ v => assemble 0x10 0 9 v
  | .synLfoWaveform v => assemble 0x10 0 10 v
  | .synLfoRate v => assemble 0x10 0 11 v
  | .synLfoAmpDepth v => assemble 0x10 0 12 v
  | .synLfoPitchDepth v => assemble 0x10 0 13 v
  | .synGain v => assemble 0x10 0 14 v
  | .eqType b v => assemble 0x20 b 0 v
  | .eqFreq b v => assemble 0x20 b 1 v
  | .eqGain b v => assemble 0x20 b 2 v
  | .eqQ b v => assemble 0x20 b 3 v
  | .eqSlope b v => assemble 0x20 b 4 v
  | .eqDrive b v => assemble 0x20 b 5 v
  | .eqSaturation b v => assemble 0x20 b 6 v
  | .eqMix b v => assemble 0x20 b 7 v
  | .eqEnable b v => assemble 0x20 b 8 v
  | .eqSolo b v => assemble 0x20 b 9 v
  | .eqBypass b v => assemble 0x20 b 10 v
  | .eqInputGain v => assemble 0x21 0 0 v
  | .eqOutputGain v => assemble 0x21 0 1 v
  | .eqModel v => assemble 0x21 0 2 v
  | .eqGlobalBypass v => assemble 0x21 0 3 v
  | .noteOn note vel off => assemble 0x30 note vel off
  | .noteOff note off => assemble 0x31 note 0 off

end Sys2Proof
end

