-- ==== Sys2Proof/Config.lean ====
section
/-! DEFINITION. What an implementation of the VES block fixes: the parameters of rule R7, and the values the spec
leaves open, each an opaque constant no proof can evaluate. The transcendental functions and the transform stand here
as the raw `Numerics` record (rules R14, R463); the exact properties the hardware guarantees of them are imposed in
Machine/Numerics.lean. -/

namespace Sys2Proof.Config

/-! ## The parameters of rule R7 -/

/-- MAX_VOICES, the voice pool capacity (rule R7). -/
abbrev maxVoices : Nat := 32
/-- MAX_BLOCK, the largest block in frames (rule R7). -/
abbrev maxBlock : Nat := 4096
/-- MAX_CHANNELS (rule R7). -/
abbrev maxChannels : Nat := 2
/-- MAX_EVENTS per block (rule R7). -/
abbrev maxEvents : Nat := 256
/-- WT_LEN, the wavetable entries (rule R7). -/
abbrev wtLen : Nat := 2048
/-- EQ_BANDS (rule R7). -/
abbrev eqBands : Nat := 8
/-- LUT_LEN, the saturation table entries (rule R7). -/
abbrev lutLen : Nat := 4096
/-- PQ_SLOTS, the parameter queue slots, one of which is always empty (rule R7, rule R210). -/
abbrev pqSlots : Nat := 32
/-- RB_CAP, the ingestion ring's samples (rule R7). -/
abbrev rbCap : Nat := 16384
/-- The MFCC coefficients (rule R7). -/
abbrev nMfcc : Nat := 13
/-- NMEL, the mel filters (rule R7). -/
abbrev nMel : Nat := 26
/-- MAX_PEAKS (rule R7). -/
abbrev maxPeaks : Nat := 16
/-- FEATURE_HISTORY, the snapshot slots (rule R7). -/
abbrev featureHistory : Nat := 32
/-- ONSET_HIST, the onset-strength history (rule R7). -/
abbrev onsetHist : Nat := 128
/-- The ML vector length (rule R7). -/
abbrev mlLen : Nat := 42

/-! ## The `Numerics` record (rule R14, 93_implementation_defined.md I1 and I2)

Each is total and otherwise unconstrained. Log entry 5. -/

opaque tan : F32 → F32
opaque sin : F32 → F32
opaque cos : F32 → F32
opaque exp : F32 → F32
opaque ln : F32 → F32
opaque log10 : F32 → F32
opaque log2 : F32 → F32
opaque exp2 : F32 → F32
opaque pow10 : F32 → F32
/-- `pow x y`, x to the power y. -/
opaque pow : F32 → F32 → F32
/-- `atan2 y x`. -/
opaque atan2 : F32 → F32 → F32
opaque tanh : F32 → F32
/-- The real part of a bin of the forward transform of the windowed frame (rule R463). Log entry 6. -/
opaque dftRe : List F32 → Nat → F32
/-- The imaginary part of a bin of the forward transform of the windowed frame (rule R463). Log entry 6. -/
opaque dftIm : List F32 → Nat → F32

/-! ## Free values -/

/-- The binary32 operations that can produce a NaN (rule R13). -/
inductive FloatOp where
  | add
  | sub
  | mul
  | div
  | sqrt
  | neg
  | abs
  deriving DecidableEq, Repr

/-- Payload and sign of the NaN an operation yields on its operands (rule R13, I3): free. A one-operand operation
passes its operand twice. Log entry 4. -/
opaque nanBits : FloatOp → F32 → F32 → Word

/-- What `clamp` gives on a NaN, which rule R11 leaves undefined: free, and for a confidence free in [0, 1]. Log entry 7. -/
opaque clampOfNaN : F32 → F32 → F32 → F32

/-- What `max` or `min` of some binary32 values gives when one of them is a NaN: free. `true` asks for the maximum.
Log entry 7. -/
opaque extremumOfNaN : Bool → List F32 → F32

/-- Which index `argmax` gives when one of the values is a NaN: free, within the index set. Log entry 7. -/
opaque argmaxOfNaN : List F32 → Nat

/-- Which of two zeros of different sign `max` (`true`) or `min` (`false`) gives: free. Log entry 8. -/
opaque zeroTie : Bool → F32 → F32 → Bool

/-- The integer that `floor` or `ceil` gives on a NaN or an infinity, where rule R11 defines none: free. Log entry 9. -/
opaque floorOfNonFinite : F32 → Int

/-- The value LAST_CYCLES takes at a completion (rules R41, R200, I4): a fresh draw for each value of the draw
counter. Log entry 1. -/
opaque lastCycles : Nat → Word

/-- What a host read of a word that nothing has written returns (rule R112, I7, I8): a fresh draw for each value of the
host's draw counter. Log entry 2. -/
opaque hostWord : Nat → Word

/-- Which value the engine reads from a word that host writes race with (rule R670, I15): the number, modulo how many
values the word may have, of the one it sees. A fresh draw for each value of the draw counter and each offset. Log entry
19. -/
opaque raceChoice : Nat → Nat → Nat

/-- Whether a word that both the command and a racing host write have written ends with the command's value (rule
R670): a fresh draw for each command and each offset. Log entry 19. -/
opaque raceKeepsEngine : Nat → Nat → Bool

/-- Whether a host read, while a command runs, of a word the command writes sees the value before the command (rules
R118, R670, I15): a fresh draw for each value of the host's draw counter. Log entry 13. -/
opaque raceSeesOld : Nat → Bool

/-- Whether a host read, while a command runs, of a word the next part of the command writes sees the new value (rules
R118, R670, I15): a fresh draw for each value of the host's draw counter. Log entry 13. -/
opaque raceSeesNew : Nat → Bool

/-- Whether a host read, while a command runs, of a word both the command and a racing host write have written sees the
host's value (rule R670): a fresh draw for each value of the host's draw counter. Log entry 13. -/
opaque raceSeesHost : Nat → Bool

/-! ## The platform -/

/-- BLOCK_BASE, the block's base address in the platform, which the platform chooses (rule R100, I6). Log entry 25. -/
opaque blockBase : Nat

end Sys2Proof.Config
end

