-- ==== Sys2Proof/Machine/State.lean ====
section
/-! DEFINITION. The state of the VES block as plain data: every register, RAM and engine-internal field of
10_state.md (rules R33 to R61), how far the command in progress has come (rule R32), and the model's own fields (the
agenda of accesses, the data of the last host read, the draw counters, which agents rang and pushed, the words as they
were before the command in progress). Its reset value is rule R650's. -/

namespace Sys2Proof.Machine

/-- Why the machine stops with a fault. -/
inductive Fault where
  /-- Raised by the bus: an access of a width other than 32 bits, at an offset that is not a multiple of 4, or at an
  unmapped offset (rules R104, R105, I11). The access is not performed. Safe: the spec treats it as a fault of the
  accessing agent. -/
  | busError (off : Nat)
  /-- Raised by the platform: an access at a platform address outside the block's window (rule R100). Safe: it is no
  access of the block. Log entry 25. -/
  | outsideWindow (addr : Nat)
  /-- Raised by the engine: a command rule reads a word of EVT, WT, BUF0 or BUF1 that nothing has written since
  hardware reset (rules R112, R650, I7). Safe: the spec gives the word no value and calls the read a fault. -/
  | unspecifiedRead (off : Nat)
  deriving DecidableEq, Repr

/-- Why the machine refuses to move. -/
inductive Refusal where
  /-- Raised by exec's arm of an instruction that has no meaning yet. Safe: the model stops. -/
  | notModelled (mnemonic : String)
  /-- Raised by the bus: an act that breaks a host duty (rules R670, R682, I16): a write of a CFG_* register while a
  PREPARE is in progress (H3), a write of CMD_HI by a second agent (H1), a write of PQ_PUSH_LO or PQ_PUSH_HI by a second
  agent, or of PQ_PUSH_HI before the PQ_PUSH_LO of the same push (H2). Safe: the spec gives the act no move. -/
  | hostDuty (off : Nat)
  deriving DecidableEq, Repr

/-- What a computation of the machine answers: a value, a fault or a refusal. -/
abbrev Res (α : Type) := Host.Outcome α Fault Refusal

/-- The 17 configuration registers, in ascending offset order (rules R43, R44). The pending CFG_* and the active
ACT_* registers are one of these each. -/
structure CfgRegs where
  sampleRate : Word
  maxBlock : Word
  channels : Word
  voices : Word
  fftSize : Word
  hop : Word
  window : Word
  oversample : Word
  analogModel : Word
  featureEn : Word
  pitchMin : F32
  pitchMax : F32
  tempoMin : F32
  tempoMax : F32
  onsetLambda : F32
  onsetRefract : Word
  yinThresh : F32
  deriving DecidableEq, Repr

/-- The envelope stages, in the encoding order of VOICE_STATUS.STAGE (rules R49, R261). -/
inductive Stage where
  | idle
  | attack
  | hold
  | decay
  | sustain
  | release
  deriving DecidableEq, Repr

/-- One voice of the voice file (rule R55). -/
structure Voice where
  active : Bool
  note : BitVec 8
  vel : BitVec 8
  age : Word
  phase : F32
  tri : F32
  lfoPhase : F32
  noise : Word
  ic1 : F32
  ic2 : F32
  stage : Stage
  t : Word
  value : F32
  relLevel : F32
  deriving DecidableEq, Repr

/-- The Direct Form I history of one section and channel (rule R56). -/
structure Hist where
  x1 : F32
  x2 : F32
  y1 : F32
  y2 : F32
  deriving DecidableEq, Repr

/-- The analog-model state of one channel: A.lp, A.hpx and A.hpy (rule R57). -/
structure Analog where
  lp : F32
  hpx : F32
  hpy : F32
  deriving DecidableEq, Repr

/-- The oversampler state of one channel: O.u[1..3] and O.p[1..6], newest first (rule R58). -/
structure Over where
  u1 : F32
  u2 : F32
  u3 : F32
  p1 : F32
  p2 : F32
  p3 : F32
  p4 : F32
  p5 : F32
  p6 : F32
  deriving DecidableEq, Repr

/-- The equalizer's signal state: band histories by band, section and channel, analog state and oversampler state by
channel, and the shared noise state A.noise (rules R56, R57, R58). -/
structure EqEngine where
  hist : Vector (Vector (Vector Hist 2) 4) 8
  analog : Vector Analog 2
  noise : Word
  ovs : Vector Over 2
  deriving DecidableEq, Repr

/-- The three saturation tables (rules R57, R408). -/
structure Luts where
  soft : Vector F32 4096
  tube : Vector F32 4096
  tape : Vector F32 4096
  deriving DecidableEq, Repr

/-- The spectral engine's state (rule R60). The fields `pending`, `samples`, `frame`, `latest`, `valid`, `since` and
`onsets` are at once the registers SPEC_PENDING, SPEC_SAMPLES_LO/HI, SPEC_FRAME, SPEC_LATEST, SPEC_VALID, ONSET_SINCE
and ONSET_COUNT (rules R46, R47, R60). The window table has N entries and the previous magnitude spectrum N/2 + 1. -/
structure SpecEngine where
  ring : Vector F32 16384
  wr : Fin 16384
  pending : Word
  samples : BitVec 64
  frame : Word
  win : Array F32
  prevMag : Array F32
  oh : Vector F32 128
  ohWr : Fin 128
  since : Word
  onsets : Word
  tempo : F32
  tempoConf : F32
  latest : Word
  valid : Word
  deriving DecidableEq, Repr

/-- The tracker registers that mirror words of the latest snapshot (rule R47); ONSET_SINCE and ONSET_COUNT are
fields of `SpecEngine`. -/
structure Trackers where
  pitchHz : F32
  pitchConf : F32
  onsetStrength : F32
  onsetFlag : Word
  tempoBpm : F32
  tempoConf : F32
  harmRatio : F32
  percRatio : F32
  deriving DecidableEq, Repr

/-- One host-side access to the block: its width in bytes, its offset and, for a write, the value (rules R100,
R104). The model's own data: the spec's agents issue them (rule R30). -/
inductive Access where
  | read (width off : Nat)
  | write (width off : Nat) (v : Word)
  deriving DecidableEq, Repr

/-- Whose turn is next (rules R30, R115, R650): an access of an agent, named by a number, at a platform address; the
engine's, for the rest of the command in progress or for one part of it; or the platform's reset input. The model's own
data (log entry 11). -/
inductive Turn where
  | access (agent : Nat) (a : Access)
  | engine
  | part
  | reset
  deriving DecidableEq, Repr

/-- The result codes a doorbell command completes with (rule R600). -/
inductive ResultCode where
  | ok
  | notPrepared
  | zeroSampleRate
  | fftNotPow2
  | range
  | illegalOpcode
  | badBuffer
  deriving DecidableEq, Repr

/-- How far the command in progress has come (rule R32): nothing of it done; in the drain, with its tail snapshot,
before an entry or with the entry `w` taken off the queue and not yet applied (rule R211); drained, the body not begun;
in the body, with the next frame or, in EQ_PROCESS, the next sample `i`, and with the next event `ei` (rules R250, R350,
R450), before the words it reads or with their result `w` not yet written; with a sample ingested and its hop not yet
looked at (rules R450, R451); inside a publication, SPEC_SEQ odd, with the next frame (rules R121, R655); at the end of
the body; or at its completion, with its result code (rule R200). -/
inductive Progress where
  | start
  | draining (t : Fin 32)
  | applying (t : Fin 32) (w : Cmd)
  | beginning
  | running (i ei : Nat)
  | writing (i ei : Nat) (w : Word)
  | ingested (i : Nat)
  | publishing (i : Nat)
  | ending
  | finishing (c : ResultCode)
  deriving DecidableEq, Repr

/-- The state of the block. -/
structure State where
  /-- STATUS.PREPARED (rule R36). -/
  prepared : Bool
  /-- STATUS.BUSY (rule R36). -/
  busy : Bool
  cmdLo : Word
  cmdHi : Word
  /-- The latched word of the command in progress (rules R61, R200). -/
  latched : Cmd
  /-- How far the command in progress has come (rule R32). -/
  progress : Progress
  cmdResult : Word
  cmdCount : Word
  busyDrop : Word
  illegalCount : Word
  cfgErrField : Word
  lastCycles : Word
  pushLatch : Word
  /-- The parameter queue's 32 slots, its head, its tail and PQ_STATUS.LAST_PUSH_OK (rule R42). -/
  slots : Vector Cmd 32
  head : Fin 32
  tail : Fin 32
  lastPushOk : Bool
  pqOverflow : Word
  cfg : CfgRegs
  act : CfgRegs
  synActive : Word
  synSteals : Word
  /-- The steal counter that SYN_STEALS publishes (rules R262, R267). -/
  steals : Word
  voiceStatus : Vector Word 32
  voiceAge : Vector Word 32
  specSeq : Word
  trackers : Trackers
  mlVec : Vector Word 42
  synp : Vector Word 15
  eqg : Vector Word 4
  eqb : Vector (Vector Word 11) 8
  eqc : Vector (Vector F32 5) 8
  voices : Vector Voice 32
  eq : EqEngine
  luts : Luts
  spec : SpecEngine
  /-- The RAM windows EVT, WT, BUF0, BUF1, HIST, MAG, PHASE and POWER, byte by byte, addresses strictly rising; an
  unlisted address holds no value (rules R101, R112). -/
  mem : List Host.Cell
  /-- The host writes that race with the command in progress, in their order: offset and value. Until the command
  completes, `mem` holds what those words held before them (rule R670; the model's own; log entry 19). -/
  raced : List (Nat × Word)
  /-- The turns still to be taken, first one first (the model's own; log entry 11). -/
  agenda : List Turn
  /-- The word the last host read returned (the model's own; log entry 12). -/
  readData : Word
  /-- How many draws the engine has made (the model's own; log entry 10). -/
  draws : Nat
  /-- How many draws host reads have made (the model's own; log entry 10). -/
  hostDraws : Nat
  /-- The agent that writes CMD_HI, once it has (rule R682, H1; the model's own; log entry 22). -/
  doorbellAgent : Option Nat
  /-- The agent that pushes, once it has (rule R682, H2; the model's own; log entry 22). -/
  producer : Option Nat
  /-- Whether the LO word of the next push has been written (rule R682, H2; the model's own; log entry 22). -/
  pushLow : Bool
  /-- The CSR words from offset 0 on as they were before the command in progress; PQ_STATUS as it was after the last push,
  if one came later (rule R118; the model's own; log entry 13). -/
  oldCsrs : List Word
  /-- The RAM windows as they were before the command in progress (rules R118, R670; the model's own; log entry 13). -/
  oldMem : List Host.Cell
  deriving DecidableEq, Repr

/-- The reset values of the CFG_* registers (rule R43). -/
def CfgRegs.reset : CfgRegs where
  sampleRate := 48000
  maxBlock := 512
  channels := 2
  voices := 16
  fftSize := 2048
  hop := 512
  window := 0
  oversample := 1
  analogModel := 0
  featureEn := 0x000003FF
  pitchMin := 0x42480000
  pitchMax := 0x44FA0000
  tempoMin := 0x42700000
  tempoMax := 0x43340000
  onsetLambda := 0x3FC00000
  onsetRefract := 3
  yinThresh := 0x3E19999A

/-- All 17 registers zero: the reset value of the ACT_* registers (rule R44). -/
def CfgRegs.zero : CfgRegs where
  sampleRate := 0
  maxBlock := 0
  channels := 0
  voices := 0
  fftSize := 0
  hop := 0
  window := 0
  oversample := 0
  analogModel := 0
  featureEn := 0
  pitchMin := 0
  pitchMax := 0
  tempoMin := 0
  tempoMax := 0
  onsetLambda := 0
  onsetRefract := 0
  yinThresh := 0

/-- An inactive voice with every field at the value PREPARE gives it (rule R655); `v` is its index. -/
def Voice.idle (v : Nat) : Voice where
  active := false
  note := 0
  vel := 0
  age := 0
  phase := 0
  tri := 0
  lfoPhase := 0
  noise := 0x12345678 + BitVec.ofNat 32 v
  ic1 := 0
  ic2 := 0
  stage := .idle
  t := 0
  value := 0
  relLevel := 0

/-- All 32 voices inactive (rule R655). -/
def idleVoices : Vector Voice 32 := Vector.ofFn fun v => Voice.idle v.val

/-- A Direct Form I history of zeros (rule R655). -/
def Hist.zero : Hist := ⟨0, 0, 0, 0⟩

/-- The equalizer's signal state as PREPARE leaves it (rule R655). -/
def EqEngine.cleared : EqEngine where
  hist := Vector.replicate 8 (Vector.replicate 4 (Vector.replicate 2 Hist.zero))
  analog := Vector.replicate 2 ⟨0, 0, 0⟩
  noise := 0xACE1ACE1
  ovs := Vector.replicate 2 ⟨0, 0, 0, 0, 0, 0, 0, 0, 0⟩

/-- The reset values of SYNP (rule R50). -/
def synpReset : Vector Word 15 :=
  #v[0, 0x3C23D70A, 0, 0x3DCCCCCD, 0x3F333333, 0x3E4CCCCD, 0x3F800000, 0, 0x469C4000, 0x3F3504F3, 0, 0x40A00000, 0,
    0, 0x3F800000]

/-- The reset values of one band's EQB registers (rule R52). -/
def eqbReset : Vector Word 11 :=
  #v[0, 0x447A0000, 0, 0x3F3504F3, 0, 0x3F800000, 0, 0x3F800000, 0, 0, 0]

/-- The identity section's coefficients, the reset values of one band's EQC registers (rule R53). -/
def eqcReset : Vector F32 5 := #v[0x3F800000, 0, 0, 0, 0]

/-- The spectral engine's state after hardware reset: the registers of rules R46 and R47 are 0; the rest is
unspecified (rule R650) and holds zeros here. -/
def SpecEngine.reset : SpecEngine where
  ring := Vector.replicate 16384 0
  wr := 0
  pending := 0
  samples := 0
  frame := 0
  win := #[]
  prevMag := #[]
  oh := Vector.replicate 128 0
  ohWr := 0
  since := 0
  onsets := 0
  tempo := 0
  tempoConf := 0
  latest := 0
  valid := 0

/-- The tracker registers after hardware reset (rule R47), and after PREPARE (rule R655). -/
def Trackers.zero : Trackers := ⟨0, 0, 0, 0, 0, 0, 0, 0⟩

/-- The state after hardware reset (rules R34, R650, R651). The queue slots and the engine-internal fields, which
rule R650 leaves unspecified, hold the values of log entries 14 and 15. -/
def State.reset : State where
  prepared := false
  busy := false
  cmdLo := 0
  cmdHi := 0
  latched := 0
  progress := .start
  cmdResult := 0
  cmdCount := 0
  busyDrop := 0
  illegalCount := 0
  cfgErrField := 0
  lastCycles := 0
  pushLatch := 0
  slots := Vector.replicate 32 0
  head := 0
  tail := 0
  lastPushOk := false
  pqOverflow := 0
  cfg := CfgRegs.reset
  act := CfgRegs.zero
  synActive := 0
  synSteals := 0
  steals := 0
  voiceStatus := Vector.replicate 32 0
  voiceAge := Vector.replicate 32 0
  specSeq := 0
  trackers := Trackers.zero
  mlVec := Vector.replicate 42 0
  synp := synpReset
  eqg := #v[0, 0, 0, 0]
  eqb := Vector.replicate 8 eqbReset
  eqc := Vector.replicate 8 eqcReset
  voices := idleVoices
  eq := EqEngine.cleared
  luts := ⟨Vector.replicate 4096 0, Vector.replicate 4096 0, Vector.replicate 4096 0⟩
  spec := SpecEngine.reset
  mem := []
  raced := []
  agenda := []
  readData := 0
  draws := 0
  hostDraws := 0
  doorbellAgent := none
  producer := none
  pushLow := false
  oldCsrs := []
  oldMem := []

end Sys2Proof.Machine
end

