-- ==== Sys2Proof/Machine/Flags.lean ====
section
/-! DEFINITION. The words software reads that pack several fields: STATUS (rule R36), PQ_STATUS (rule R42),
CMD_RESULT (rule R38), VOICE_STATUS (rule R49), and the result codes (rule R600). STATUS.PREPARED and STATUS.BUSY are
the block's only flags (rule R36). -/

namespace Sys2Proof.Machine

/-- The number of a result code (rule R600). -/
def codeNumber : ResultCode → BitVec 8
  | .ok => 0
  | .notPrepared => 1
  | .zeroSampleRate => 2
  | .fftNotPow2 => 3
  | .range => 4
  | .illegalOpcode => 5
  | .badBuffer => 6

/-- CMD_RESULT: CODE in bits [7:0], OPCODE in bits [15:8], 0 above (rule R38). -/
def resultWord (op : BitVec 8) (c : ResultCode) : Word := (0#16) ++ op ++ codeNumber c

/-- STATUS: bit 0 PREPARED, bit 1 BUSY, 0 above (rule R36). -/
def statusWord (s : State) : Word :=
  (if s.prepared then 1#32 else 0#32) ||| (if s.busy then 2#32 else 0#32)

/-- PQ_STATUS.DEPTH, (tail - head) mod 32 (rule R42). -/
def queueDepth (s : State) : Nat := (s.tail - s.head).val

/-- PQ_STATUS.FULL, (tail + 1) mod 32 = head (rule R42). -/
def queueFull (s : State) : Bool := s.tail + 1 == s.head

/-- PQ_STATUS.EMPTY, head = tail (rule R42). -/
def queueEmpty (s : State) : Bool := s.head == s.tail

/-- PQ_STATUS: DEPTH in bits [5:0], bit 8 LAST_PUSH_OK, bit 9 FULL, bit 10 EMPTY (rule R42). -/
def pqStatusWord (s : State) : Word :=
  BitVec.ofNat 32 (queueDepth s) ||| (if s.lastPushOk then 0x100#32 else 0#32) |||
    (if queueFull s then 0x200#32 else 0#32) ||| (if queueEmpty s then 0x400#32 else 0#32)

/-- The encoding of an envelope stage in VOICE_STATUS.STAGE (rule R49). -/
def stageNumber : Stage → BitVec 3
  | .idle => 0
  | .attack => 1
  | .hold => 2
  | .decay => 3
  | .sustain => 4
  | .release => 5

/-- VOICE_STATUS: bit 0 ACTIVE, bits [3:1] STAGE, bits [15:8] NOTE, bits [22:16] VELOCITY, 0 elsewhere (rule R49). -/
def voiceStatusWord (v : Voice) : Word :=
  (0#9) ++ v.vel.extractLsb' 0 7 ++ v.note ++ (0#4) ++ stageNumber v.stage ++ BitVec.ofBool v.active

end Sys2Proof.Machine
end

