-- ==== Sys2Proof/Machine/Float.lean ====
section
/-! DEFINITION. The numeric model of rules R9, R11, R12, R13, R15, R16: binary32 arithmetic computed exactly and
rounded once, to nearest, ties to even; comparisons; conversions; sums; `clamp`, `floor`, `round`, `argmax`.

Every finite binary32 value is a whole multiple of 2^-149. `unitsOf` is that multiple, so each operation is done on
integers and `roundUnits` narrows the exact result at the end. -/

namespace Sys2Proof.Machine

/-! ## The fields of a binary32 value -/

/-- The biased exponent field, bits [30:23]. -/
def expField (x : F32) : Nat := (x.extractLsb' 23 8).toNat
/-- The fraction field, bits [22:0]. -/
def fracField (x : F32) : Nat := (x.extractLsb' 0 23).toNat
/-- The sign bit, bit 31. -/
def signBit (x : F32) : Bool := x.msb
/-- A NaN: exponent field all ones and a nonzero fraction. -/
def isNaN (x : F32) : Bool := expField x == 255 && fracField x != 0
/-- An infinity: exponent field all ones and a zero fraction. -/
def isInf (x : F32) : Bool := expField x == 255 && fracField x == 0
/-- Neither a NaN nor an infinity. -/
def isFinite (x : F32) : Bool := expField x != 255

/-- The magnitude of a value in units of 2^-149; an infinity counts as 2^128, above every finite value. -/
def magUnits (x : F32) : Nat :=
  if expField x = 0 then fracField x else (2 ^ 23 + fracField x) * 2 ^ (expField x - 1)

/-- The exact value of a finite binary32 in units of 2^-149. -/
def unitsOf (x : F32) : Int := if signBit x then -(magUnits x : Int) else magUnits x

/-- A zero of either sign. -/
def isZero (x : F32) : Bool := magUnits x == 0

/-! ## Rounding -/

/-- The binary32 pattern with the given sign and 31 low bits. -/
def packF32 (neg : Bool) (p : Nat) : F32 := (if neg then 0x80000000#32 else 0#32) ||| BitVec.ofNat 32 p

/-- The binary32 nearest to `num / den` units of 2^-149, ties to even, with the given sign; beyond the largest finite
value, the infinity of that sign (rule R12). Subnormals are kept. -/
def roundUnits (neg : Bool) (num den : Nat) : F32 :=
  let shift := Nat.log2 (num / den) - 23
  let d := den * 2 ^ shift
  let q := num / d
  let r := num % d
  let q' := if d < 2 * r ∨ (2 * r = d ∧ q % 2 = 1) then q + 1 else q
  packF32 neg (min (shift * 2 ^ 23 + q') 0x7F800000)

/-- The NaN an operation yields: sign and payload are free (rule R13). -/
def nanOf (op : Config.FloatOp) (a b : F32) : F32 :=
  let w := Config.nanBits op a b
  (w &&& 0x80000000#32) ||| 0x7F800000#32 |||
    (if w &&& 0x007FFFFF#32 = 0 then 0x00400000#32 else w &&& 0x007FFFFF#32)

/-- The binary32 constant nearest to `n / 10^k` (rule R12: a decimal constant in a rule). -/
def decimal (n k : Nat) : F32 := roundUnits false (n * 2 ^ 149) (10 ^ k)

/-- `f32(u)`: the binary32 nearest to an unsigned integer (rule R16). -/
def f32OfNat (n : Nat) : F32 := roundUnits false (n * 2 ^ 149) 1

/-- `f32(i)`: the binary32 nearest to a signed integer (rule R16). -/
def f32OfInt (i : Int) : F32 := roundUnits (i < 0) (i.natAbs * 2 ^ 149) 1

/-! ## Constants (rules R12, R15) -/

/-- +0.0. -/
abbrev fZero : F32 := 0x00000000
/-- 1.0. -/
abbrev fOne : F32 := 0x3F800000
/-- 2.0. -/
abbrev fTwo : F32 := 0x40000000
/-- 0.5. -/
abbrev fHalf : F32 := 0x3F000000
/-- PI (rule R15). -/
abbrev fPi : F32 := 0x40490FDB
/-- TWO_PI (rule R15). -/
abbrev fTwoPi : F32 := 0x40C90FDB
/-- EPS, 1e-10 (rule R15). -/
abbrev fEps : F32 := 0x2EDBE6FF

/-! ## Arithmetic (rules R12, R13) -/

/-- Reverses the sign bit. -/
def flipSign (x : F32) : F32 := x ^^^ 0x80000000#32

/-- The exact sum rounded once. An exact zero sum is +0.0 unless both operands are -0.0. -/
def addWith (op : Config.FloatOp) (a b : F32) : F32 :=
  if isNaN a || isNaN b then nanOf op a b
  else if isInf a then (if isInf b && signBit a != signBit b then nanOf op a b else a)
  else if isInf b then b
  else
    let s := unitsOf a + unitsOf b
    if s = 0 then packF32 (signBit a && signBit b) 0 else roundUnits (s < 0) s.natAbs 1

/-- `a + b`. -/
def fadd (a b : F32) : F32 := addWith .add a b
/-- `a - b`. -/
def fsub (a b : F32) : F32 := addWith .sub a (flipSign b)

/-- `a x b`. -/
def fmul (a b : F32) : F32 :=
  if isNaN a || isNaN b then nanOf .mul a b
  else if (isInf a && isZero b) || (isZero a && isInf b) then nanOf .mul a b
  else if isInf a || isInf b then packF32 (signBit a != signBit b) 0x7F800000
  else roundUnits (signBit a != signBit b) (magUnits a * magUnits b) (2 ^ 149)

/-- `a / b`. -/
def fdiv (a b : F32) : F32 :=
  if isNaN a || isNaN b then nanOf .div a b
  else if (isInf a && isInf b) || (isZero a && isZero b) then nanOf .div a b
  else if isInf a || isZero b then packF32 (signBit a != signBit b) 0x7F800000
  else if isInf b then packF32 (signBit a != signBit b) 0
  else roundUnits (signBit a != signBit b) (magUnits a * 2 ^ 149) (magUnits b)

/-- Fills the bits of the integer square root of `n` from bit `b - 1` down, above the root `r` found so far. -/
def isqrtFrom (n : Nat) : Nat → Nat → Nat
  | 0, r => r
  | b + 1, r => if (r + 2 ^ b) * (r + 2 ^ b) ≤ n then isqrtFrom n b (r + 2 ^ b) else isqrtFrom n b r

/-- The integer square root, rounded down. -/
def isqrt (n : Nat) : Nat := isqrtFrom n (Nat.log2 n / 2 + 1) 0

/-- `sqrt(x)`. The root of a negative number is a NaN and the root of -0.0 is -0.0. The integer root of the value
scaled by 2^298 has over 70 bits, so the bit below it that marks an inexact root decides every rounding. -/
def fsqrt (x : F32) : F32 :=
  if isNaN x then nanOf .sqrt x x
  else if isZero x then x
  else if signBit x then nanOf .sqrt x x
  else if isInf x then x
  else
    let m := magUnits x * 2 ^ 149
    let r := isqrt m
    roundUnits false (2 * r + (if r * r = m then 0 else 1)) 2

/-- `-x`. -/
def fneg (x : F32) : F32 := if isNaN x then nanOf .neg x x else flipSign x

/-- `abs(x)`. -/
def fabs (x : F32) : F32 := if isNaN x then nanOf .abs x x else x &&& 0x7FFFFFFF#32

/-! ## Comparisons: false when an operand is a NaN (rule R13) -/

/-- `a < b`. -/
def flt (a b : F32) : Bool := !isNaN a && !isNaN b && unitsOf a < unitsOf b
/-- `a <= b`. -/
def fle (a b : F32) : Bool := !isNaN a && !isNaN b && unitsOf a ≤ unitsOf b
/-- `a = b`. -/
def feq (a b : F32) : Bool := !isNaN a && !isNaN b && unitsOf a == unitsOf b

/-! ## Minimum, maximum and clamp (rule R11) -/

/-- `max(a, b)`. On a NaN the result is free; of two zeros of different sign, which one is free. -/
def fmax (a b : F32) : F32 :=
  if isNaN a || isNaN b then Config.extremumOfNaN true [a, b]
  else if flt a b then b
  else if flt b a then a
  else if a = b then a
  else if Config.zeroTie true a b then a else b

/-- `min(a, b)`. On a NaN the result is free; of two zeros of different sign, which one is free. -/
def fmin (a b : F32) : F32 :=
  if isNaN a || isNaN b then Config.extremumOfNaN false [a, b]
  else if flt a b then a
  else if flt b a then b
  else if a = b then a
  else if Config.zeroTie false a b then a else b

/-- `clamp(x, lo, hi) = min(max(x, lo), hi)` (rule R11); free on a NaN. -/
def fclamp (x lo hi : F32) : F32 :=
  if isNaN x then Config.clampOfNaN x lo hi else fmin (fmax x lo) hi

/-- The greatest of some values, the first one if several are equal; free if one is a NaN, +0.0 for none. -/
def fmaxList (xs : List F32) : F32 :=
  if xs.any isNaN then Config.extremumOfNaN true xs
  else match xs with
    | [] => fZero
    | x :: rest => rest.foldl (fun m y => if flt m y then y else m) x

/-- The least of some values, the first one if several are equal; free if one is a NaN, +0.0 for none. -/
def fminList (xs : List F32) : F32 :=
  if xs.any isNaN then Config.extremumOfNaN false xs
  else match xs with
    | [] => fZero
    | x :: rest => rest.foldl (fun m y => if flt y m then y else m) x

/-- The position of the first greatest of `best` (at position `bi`) and the values `xs` from position `i` on. -/
def argmaxFrom (best : F32) (bi : Nat) : List F32 → Nat → Nat
  | [], _ => bi
  | x :: xs, i => if flt best x then argmaxFrom x i xs (i + 1) else argmaxFrom best bi xs (i + 1)

/-- `argmax` over the values at positions 0, 1, ...: the smallest position among those of the greatest value (rule
R11); a free position if one of them is a NaN. -/
def fargmax (xs : List F32) : Nat :=
  if xs.any isNaN then Config.argmaxOfNaN xs % xs.length
  else match xs with
    | [] => 0
    | x :: rest => argmaxFrom x 0 rest 1

/-! ## Conversions to integers (rules R9, R11, R16) -/

/-- `floor(x)` of the exact value; free on a NaN or an infinity. -/
def floorInt (x : F32) : Int :=
  if isFinite x then unitsOf x / 2 ^ 149 else Config.floorOfNonFinite x

/-- `ceil(x)` of the exact value; free on a NaN or an infinity. -/
def ceilInt (x : F32) : Int :=
  if isFinite x then -(-unitsOf x / 2 ^ 149) else Config.floorOfNonFinite x

/-- `round(x) = floor(x + 1/2)` of the exact value (rule R11); free on a NaN or an infinity. -/
def roundInt (x : F32) : Int :=
  if isFinite x then (2 * unitsOf x + 2 ^ 149) / 2 ^ 150 else Config.floorOfNonFinite x

/-- `frac(x) = x - f32(floor(x))` (41_voice_engine.md, notation). -/
def frac (x : F32) : F32 := fsub x (f32OfInt (floorInt x))

/-- `u32sat(x)`: the floor clamped to a u32; 0 for a negative number or a NaN (rule R16). -/
def u32sat (x : F32) : Word :=
  if isNaN x then 0
  else if unitsOf x < 0 then 0
  else if 2 ^ 32 * 2 ^ 149 ≤ unitsOf x then BitVec.allOnes 32
  else BitVec.ofNat 32 (magUnits x / 2 ^ 149)

/-! ## Sums (rule R12) -/

/-- The sequential sum of some values, from +0.0, each addition rounded. -/
def fsum (xs : List F32) : F32 := xs.foldl fadd fZero

/-- `Σ_{i=0}^{n-1} e_i`, sequential and ascending. -/
def fsumTo (n : Nat) (e : Nat → F32) : F32 := fsum ((List.range n).map e)

end Sys2Proof.Machine
end

