-- ==== Sys2Proof/Machine/Numerics.lean ====
section
/-! DEFINITION. The `Numerics` functions with the exact properties rule R14 guarantees imposed on the free functions
of Config, the transform with the properties of rule R463, and the xorshift noise of rule R269. Where a property names
an argument 0 without a sign, it is imposed at +0.0 only. -/

namespace Sys2Proof.Machine

/-- `tan` (rule R14). -/
def tanN (x : F32) : F32 := Config.tan x
/-- `sin`; `sin(0) = +0` (rule R14). -/
def sinN (x : F32) : F32 := if x = fZero then fZero else Config.sin x
/-- `cos`; `cos(0) = 1` (rule R14). -/
def cosN (x : F32) : F32 := if x = fZero then fOne else Config.cos x
/-- `exp`; `exp(+0) = 1` (rule R14). -/
def expN (x : F32) : F32 := if x = fZero then fOne else Config.exp x
/-- `ln`; `ln(1) = +0` (rule R14). -/
def lnN (x : F32) : F32 := if x = fOne then fZero else Config.ln x
/-- `log10`; `log10(1) = +0` (rule R14). -/
def log10N (x : F32) : F32 := if x = fOne then fZero else Config.log10 x
/-- `log2`; `log2(1) = +0` (rule R14). -/
def log2N (x : F32) : F32 := if x = fOne then fZero else Config.log2 x
/-- `exp2`; `exp2(+0) = exp2(-0) = 1` (rule R14). -/
def exp2N (x : F32) : F32 := if isZero x then fOne else Config.exp2 x
/-- `pow10`; `pow10(+0) = pow10(-0) = 1` (rule R14). -/
def pow10N (x : F32) : F32 := if isZero x then fOne else Config.pow10 x
/-- `tanh`; `tanh(0) = +0` (rule R14). -/
def tanhN (x : F32) : F32 := if x = fZero then fZero else Config.tanh x
/-- `atan2`; `atan2(+0, +0) = +0` (rule R14). -/
def atan2N (y x : F32) : F32 := if y = fZero ∧ x = fZero then fZero else Config.atan2 y x

/-- `pow(x, y)` for x >= 0; `pow(x, 1) = x`, `pow(0, c) = +0` for c > 0 and `pow(1, c) = 1` (rule R14). DESIGN CHOICE:
the three properties hold at infinite operands too, as rule R14 writes them without exception, while 93 I1 calls a result
on an infinite argument any value; with a NaN operand, or x below +0.0, the result is free. Log entry 5. -/
def powN (x y : F32) : F32 :=
  if isNaN x || isNaN y then Config.pow x y
  else if y = fOne && !signBit x then x
  else if x = fZero && flt fZero y then fZero
  else if x = fOne then fOne
  else Config.pow x y

/-- `dft(xw)[k]` (rule R463): (a) an all-zero frame gives +0.0 and +0.0; (b) the imaginary parts of bins 0 and N/2
are +0.0; otherwise free. N is the frame's length. -/
def dftBin (xw : List F32) (k : Nat) : F32 × F32 :=
  if xw.all isZero then (fZero, fZero)
  else (Config.dftRe xw k, if k = 0 ∨ k = xw.length / 2 then fZero else Config.dftIm xw k)

/-- `xs(s)`, the 32-bit xorshift with shifts 13, 17 and 5 (rule R269). -/
def xorshift32 (s : Word) : Word :=
  let s1 := s ^^^ (s <<< 13)
  let s2 := s1 ^^^ (s1 >>> 17)
  s2 ^^^ (s2 <<< 5)

/-- `f32(i32(s)) x 2^-31`, the noise value of a generator state (rules R257, R413). DESIGN CHOICE: rule R257 also says
that the value lies in [-1, 1), while its formula, rounded as rule R12 says, gives 1.0 for the states 0x7FFFFFC0 to
0x7FFFFFFF; the model follows the formula. Log entry 27. -/
def noiseValue (s : Word) : F32 := fmul (f32OfInt s.toInt) 0x30000000

end Sys2Proof.Machine
end

