-- ==== Sys2Proof/Machine/Ops.lean ====
section
/-! DEFINITION. The named operations over the block's state: sequencing of computations that can stop, memory by
byte and by word (rules R100 to R112), the completion of a command (rule R200), the counters (rule R39), the parameter
registers and the parameter store template (rules R50 to R52, R212), and the parameter queue (rules R42, R210). -/

namespace Sys2Proof.Machine

/-! ## Computations that can stop -/

/-- Goes on with a computation's value; a fault or a refusal ends the whole. -/
def andThen {α β : Type} (r : Res α) (f : α → Res β) : Res β :=
  match r with
  | .next a => f a
  | .fault e => .fault e
  | .refused e => .refused e

/-! ## Memory -/

/-- The canonical form of the memory: addresses strictly rising. An unlisted address holds no value (rule R112), so
no listed byte equals what an unlisted address reads as. -/
abbrev Memory.wf (m : List Host.Cell) : Prop := m.Pairwise fun a b => a.1 < b.1

/-- The byte at an address, if it holds one: an unlisted address holds no value (rule R112). -/
def Memory.byte (m : List Host.Cell) (a : Nat) : Option Byte :=
  match m with
  | [] => none
  | (k, b) :: rest => if k = a then some b else Memory.byte rest a

/-- Writes one byte, keeping the addresses in order. -/
def Memory.setByte (m : List Host.Cell) (a : Nat) (b : Byte) : List Host.Cell :=
  match m with
  | [] => [(a, b)]
  | (k, c) :: rest =>
    if a < k then (a, b) :: (k, c) :: rest
    else if a = k then (a, b) :: rest
    else (k, c) :: Memory.setByte rest a b

/-- The little-endian word at a byte offset (rules R100, R102), if all its bytes hold a value. -/
def Memory.word (m : List Host.Cell) (a : Nat) : Option Word :=
  match Memory.byte m a, Memory.byte m (a + 1), Memory.byte m (a + 2), Memory.byte m (a + 3) with
  | some b0, some b1, some b2, some b3 => some (wordOfBytes b0 b1 b2 b3)
  | _, _, _, _ => none

/-- Writes the little-endian word at a byte offset (rules R100, R102). -/
def Memory.setWord (m : List Host.Cell) (a : Nat) (w : Word) : List Host.Cell :=
  Memory.setByte
    (Memory.setByte
      (Memory.setByte (Memory.setByte m a (w.extractLsb' 0 8)) (a + 1) (w.extractLsb' 8 8))
      (a + 2) (w.extractLsb' 16 8))
    (a + 3) (w.extractLsb' 24 8)

/-- Writes consecutive words from an offset on. -/
def Memory.setWords (m : List Host.Cell) (a : Nat) : List Word → List Host.Cell
  | [] => m
  | w :: ws => Memory.setWords (Memory.setWord m a w) (a + 4) ws

/-- `len` zero bytes from an address on, in order. -/
def Memory.zeroCells (a : Nat) : Nat → List Host.Cell
  | 0 => []
  | n + 1 => (a, 0#8) :: Memory.zeroCells (a + 1) n

/-- Sets every byte of the `len` bytes at `lo` to 0 and keeps every other byte. -/
def Memory.clear (m : List Host.Cell) (lo len : Nat) : List Host.Cell :=
  m.filter (fun c => c.1 < lo) ++ Memory.zeroCells lo len ++ m.filter (fun c => lo + len ≤ c.1)

/-- The values that host writes racing with the command in progress give a word, in their order (rule R670). -/
def racedValues (s : State) (a : Nat) : List Word := (s.raced.filter fun r => r.1 == a).map (·.2)

/-- The value of a word as the engine sees it: what the memory holds, or freely one of the values of racing host
writes (rules R112, R670, I15). -/
def seenWord (s : State) (a : Nat) : Option Word :=
  match racedValues s a with
  | [] => Memory.word s.mem a
  | v :: vs =>
    (Memory.word s.mem a :: some v :: vs.map some).getD
      (Config.raceChoice s.draws a % (vs.length + 2)) (some v)

/-- `MemRead(addr, 4)` by the engine: a word nothing has written is a fault (rules R10, R112). -/
def readWord (s : State) (a : Nat) : Res Word :=
  match seenWord s a with
  | some w => .next w
  | none => .fault (.unspecifiedRead a)

/-- Takes a fresh draw number: two reads of a word in one command are two draws (rule R670). -/
def nextDraw (s : State) : State := { s with draws := s.draws + 1 }

/-- `MemWrite(addr, 4, v)` (rule R10). -/
def writeWord (s : State) (a : Nat) (w : Word) : State := { s with mem := Memory.setWord s.mem a w }

/-! ## The address map (rule R101) -/

/-- The regions of the address space (rule R101). -/
inductive Region where
  | csr
  | evt
  | wt
  | buf (k : Fin 2)
  | hist
  | mag
  | phase
  | power
  deriving DecidableEq, Repr

/-- The region of a byte offset; `none` for an unmapped one (rules R101, R105). -/
def regionOf (off : Nat) : Option Region :=
  if off < 0x01000 then some .csr
  else if off < 0x01800 then some .evt
  else if off < 0x02000 then none
  else if off < 0x04000 then some .wt
  else if off < 0x10000 then none
  else if off < 0x18000 then some (.buf 0)
  else if off < 0x20000 then some (.buf 1)
  else if off < 0x24000 then some .hist
  else if off < 0x30000 then none
  else if off < 0x38000 then some .mag
  else if off < 0x40000 then some .phase
  else if off < 0x48000 then some .power
  else none

/-- The base of the event RAM (rule R107). -/
abbrev evtBase : Nat := 0x01000
/-- The base of the wavetable RAM (rule R108). -/
abbrev wtBase : Nat := 0x02000
/-- BUFBASE(k) (rule R109). -/
def bufBase (k : Nat) : Nat := 0x10000 + 0x8000 * k
/-- The base of a history slot (rule R110). -/
def histBase (slot : Nat) : Nat := 0x20000 + 0x200 * slot
/-- The base of the magnitude window (rule R111). -/
abbrev magBase : Nat := 0x30000
/-- The base of the phase window (rule R111). -/
abbrev phaseBase : Nat := 0x38000
/-- The base of the power window (rule R111). -/
abbrev powerBase : Nat := 0x40000

/-- Every word of HIST, MAG, PHASE and POWER set to 0, as PREPARE leaves them (rule R655). -/
def clearResults (m : List Host.Cell) : List Host.Cell :=
  Memory.clear (Memory.clear m 0x20000 0x4000) 0x30000 0x18000

/-! ## Completion and counters -/

/-- `finish(code)` (rule R200): CMD_RESULT, CMD_COUNT, LAST_CYCLES (a draw) and BUSY, in that order; no command is under
way any more. `op` is bits [63:56] of the command word. -/
def finish (c : ResultCode) (op : BitVec 8) (s : State) : State :=
  { s with
    cmdResult := resultWord op c
    cmdCount := s.cmdCount + 1
    lastCycles := Config.lastCycles s.draws
    draws := s.draws + 1
    busy := false
    progress := .start }

/-- The command in progress has come as far as `p` (rule R32). -/
def reach (p : Progress) (s : State) : State := { s with progress := p }

/-- One step of the sequence lock, SPEC_SEQ +32 1: to odd before a publication's writes and to even after them (rule
R121). -/
def advanceSeq (s : State) : State := { s with specSeq := s.specSeq + 1 }

/-- `count(ILLEGAL)` (rule R10): ILLEGAL_COUNT + 1, with wrap. -/
def countIllegal (s : State) : State := { s with illegalCount := s.illegalCount + 1 }

/-! ## Parameter registers (rules R50, R51, R52) -/

/-- A parameter register: SYNP[id], EQG[id] or EQB[b][id]. -/
inductive ParamReg where
  | synp (id : Fin 15)
  | eqg (id : Fin 4)
  | eqb (b : Fin 8) (id : Fin 11)
  deriving DecidableEq, Repr

/-- Reads a parameter register. -/
def readParam (r : ParamReg) (s : State) : Word :=
  match r with
  | .synp id => s.synp[id]
  | .eqg id => s.eqg[id]
  | .eqb b id => s.eqb[b][id]

/-- Writes a parameter register. -/
def writeParam (r : ParamReg) (v : Word) (s : State) : State :=
  match r with
  | .synp id => { s with synp := s.synp.set id v }
  | .eqg id => { s with eqg := s.eqg.set id v }
  | .eqb b id => { s with eqb := s.eqb.set b (s.eqb[b].set id v) }

/-- `storeReal(r, v)` (rule R212): a NaN is counted and not stored. -/
def storeReal (r : ParamReg) (v : Word) (s : State) : State :=
  if isNaN v then countIllegal s else writeParam r v s

/-- `storeEnum(r, v, m)` (rule R212): a value above `m` is counted and not stored. -/
def storeEnum (r : ParamReg) (m : Nat) (v : Word) (s : State) : State :=
  if v.toNat ≤ m then writeParam r v s else countIllegal s

/-- `storeBool(r, v)` (rule R212): 1 if the value is nonzero, else 0. -/
def storeBool (r : ParamReg) (v : Word) (s : State) : State :=
  writeParam r (if v = 0 then 0 else 1) s

/-- A store into a register of the band `b`. A band of 8 or more is the illegal selector of rule R156, consumed,
ignored and counted. -/
def inBand (b : BitVec 8) (store : Fin 8 → State → State) (s : State) : State :=
  if h : b.toNat < 8 then store ⟨b.toNat, h⟩ s else countIllegal s

/-! ## The parameter queue (rules R42, R210) -/

/-- The queue after a push of `{h, PUSH_LATCH}` (rule R210). -/
def enqueue (h : Word) (s : State) : State :=
  if queueFull s then { s with pqOverflow := s.pqOverflow + 1, lastPushOk := false }
  else { s with slots := s.slots.set s.tail (Cmd.ofWords h s.pushLatch), tail := s.tail + 1, lastPushOk := true }

/-- A push of `{h, PUSH_LATCH}` (rule R210). It writes PQ_STATUS, whose value before the command in progress is then no
longer to be found (rule R118; log entry 13). -/
def pushQueue (h : Word) (s : State) : State :=
  let t := enqueue h s
  { t with oldCsrs := t.oldCsrs.set 14 (pqStatusWord t) }

/-- Consumes the entry at the head (rule R211): advances the head; the entry is the slot the head named. -/
def popQueue (s : State) : State := { s with head := s.head + 1 }

/-! ## The voice file -/

/-- Replaces voice `v`; an index of 32 or more names no voice. -/
def setVoice (v : Nat) (x : Voice) (s : State) : State := { s with voices := s.voices.setIfInBounds v x }

/-- Voice `v`; an index of 32 or more names no voice and reads as an inactive one. -/
def voiceAt (s : State) (v : Nat) : Voice := s.voices.getD v (Voice.idle v)

end Sys2Proof.Machine
end

