-- ==== Sys2Proof/Machine/Operands.lean ====
section
/-! DEFINITION. The operand forms: the active configuration as the engines read it (rule R44), the operands of the
process commands (rules R204, R250), of the events (rules R250, R262), and every applied parameter clamped to its
legal range at its use (rules R17, R251 to R265, R350 to R355). -/

namespace Sys2Proof.Machine

/-! ## The active configuration (rule R44) -/

/-- ACT.fs, the sample rate as a binary32. -/
def actFs (s : State) : F32 := f32OfNat s.act.sampleRate.toNat
/-- ACT.C, the channels. -/
def actC (s : State) : Nat := s.act.channels.toNat
/-- ACT.V, the voices. -/
def actV (s : State) : Nat := s.act.voices.toNat
/-- ACT.N, the FFT size. -/
def actN (s : State) : Nat := s.act.fftSize.toNat
/-- K = N/2 + 1, the number of bins. -/
def actK (s : State) : Nat := actN s / 2 + 1
/-- fsE, the rate the equalizer's filters run at (42_equalizer.md, notation). -/
def fsEff (s : State) : F32 := fmul (actFs s) (f32OfNat s.act.oversample.toNat)
/-- 0.45 x fs, the top of the frequency clamps (rule R7). -/
def freqTop (s : State) : F32 := fmul (decimal 45 2) (actFs s)

/-! ## Operands of commands and events -/

/-- n, the frames operand clamped to ACT.maxBlock (rule R204). -/
def frameCount (frames : Word) (s : State) : Nat := min frames.toNat s.act.maxBlock.toNat

/-- Ecnt, the event count clamped to 256 (rule R250). -/
def eventCount (e : BitVec 16) : Nat := min e.toNat Config.maxEvents

/-- A note or a velocity clamped to 127 (rules R262, R263). -/
def midi7 (x : BitVec 8) : BitVec 8 := if x.toNat ≤ 127 then x else 127

/-! ## Synth parameters, clamped at use -/

/-- clamp(P.gain, 0, 4) (rule R250). A zero of it is +0.0, for a gain of -0.0 too: the rule says that silence is
`+0.0 x gain = +0.0` at every gain. -/
def pGain (s : State) : F32 :=
  let g := fclamp s.synp[14] fZero (f32OfNat 4)
  if isZero g then fZero else g
/-- A duration parameter in samples, dur(d) (rule R261). -/
def durSamples (s : State) (d : F32) : Word :=
  u32sat (fadd (fmul (fclamp d fZero (f32OfNat 30)) (actFs s)) fHalf)
/-- clamp(P.sustain, 0, 1) (rule R261). -/
def pSustain (s : State) : F32 := fclamp s.synp[4] fZero fOne
/-- clamp(P.curve, 0.1, 10) (rule R261). -/
def pCurve (s : State) : F32 := fclamp s.synp[6] (decimal 1 1) (f32OfNat 10)
/-- clamp(P.cutoff, 10, 0.45 x fs) (rule R260). -/
def pCutoff (s : State) : F32 := fclamp s.synp[8] (f32OfNat 10) (freqTop s)
/-- clamp(P.q, 0.1, 40) (rule R260). -/
def pQ (s : State) : F32 := fclamp s.synp[9] (decimal 1 1) (f32OfNat 40)
/-- clamp(P.lfoRate, 0, 50) (rule R259). -/
def pLfoRate (s : State) : F32 := fclamp s.synp[11] fZero (f32OfNat 50)
/-- clamp(P.lfoAmpDepth, 0, 1) (rule R251). -/
def pLfoAmp (s : State) : F32 := fclamp s.synp[12] fZero fOne
/-- clamp(P.lfoPitchDepth, 0, 12) (rule R252). -/
def pLfoPitch (s : State) : F32 := fclamp s.synp[13] fZero (f32OfNat 12)

/-! ## Equalizer parameters -/

/-- EQB[b][id] as a word; a band of 8 or more does not exist and reads 0. -/
def bandParam (s : State) (b : Nat) (id : Fin 11) : Word := (s.eqb.getD b (Vector.replicate 11 0))[id]
/-- A Boolean band parameter: ENABLED (8), SOLO (9), BYPASS (10) (rules R52, R212). -/
def bandFlag (s : State) (b : Nat) (id : Fin 11) : Bool := bandParam s b id == 1
/-- clamp(Eb.freq, 10, 0.45 x fs) (rule R351). -/
def bandFreq (s : State) (b : Nat) : F32 := fclamp (bandParam s b 1) (f32OfNat 10) (freqTop s)
/-- A gain in dB clamped to [-24, 24] (rules R351, R364). -/
def clampDb (g : F32) : F32 := fclamp g (f32OfInt (-24)) (f32OfNat 24)
/-- clamp(Eb.q, 0.1, 40) (rule R351). -/
def bandQ (s : State) (b : Nat) : F32 := fclamp (bandParam s b 3) (decimal 1 1) (f32OfNat 40)
/-- S, the sections of band b: 1, 2 or 4 for SLOPE 0, 1, 2 (rules R355, R358). -/
def bandSections (s : State) (b : Nat) : Nat :=
  match (bandParam s b 4).toNat with
  | 0 => 1
  | 1 => 2
  | _ => 4
/-- clamp(Eb.drive, 0.1, 10) (rule R355). -/
def bandDrive (s : State) (b : Nat) : F32 := fclamp (bandParam s b 5) (decimal 1 1) (f32OfNat 10)
/-- clamp(Eb.saturation, 0, 1) (rule R355). -/
def bandSaturation (s : State) (b : Nat) : F32 := fclamp (bandParam s b 6) fZero fOne
/-- clamp(Eb.mix, 0, 1) (rule R355). -/
def bandMix (s : State) (b : Nat) : F32 := fclamp (bandParam s b 7) fZero fOne
/-- A global gain EQG[id] in dB as a factor, pow10(clamp(g, -24, 24) / 20) (rule R364). -/
def globalGain (s : State) (id : Fin 4) : F32 := pow10N (fdiv (clampDb s.eqg[id]) (f32OfNat 20))

end Sys2Proof.Machine
end

