-- ==== Sys2Proof/Machine/EqParam.lean ====
section
/-! DEFINITION. The fifteen equalizer parameter setters (rules R370 to R384): each stores its value into EQB[b][id] or
EQG[id] by the template of rule R212. The drain applies them at the start of the next process command (rule R211). -/

namespace Sys2Proof.Machine

/-- EQ.TYPE (rule R370). Band type, with the values of rule R357 of band `b`. -/
def execEqType (b : BitVec 8) (v : Word) (s : State) : Res State :=
  .next (inBand b (fun i => storeEnum (.eqb i 0) 6 v) s)

/-- EQ.FREQ (rule R371). Frequency, in Hz of band `b`. -/
def execEqFreq (b : BitVec 8) (v : Word) (s : State) : Res State :=
  .next (inBand b (fun i => storeReal (.eqb i 1) v) s)

/-- EQ.GAIN (rule R372). Gain, in dB of band `b`. -/
def execEqGain (b : BitVec 8) (v : Word) (s : State) : Res State :=
  .next (inBand b (fun i => storeReal (.eqb i 2) v) s)

/-- EQ.Q (rule R373). Q of band `b`. -/
def execEqQ (b : BitVec 8) (v : Word) (s : State) : Res State :=
  .next (inBand b (fun i => storeReal (.eqb i 3) v) s)

/-- EQ.SLOPE (rule R374). Slope, with the values of rule R358 of band `b`. -/
def execEqSlope (b : BitVec 8) (v : Word) (s : State) : Res State :=
  .next (inBand b (fun i => storeEnum (.eqb i 4) 2 v) s)

/-- EQ.DRIVE (rule R375). Drive into the saturation table of band `b`. -/
def execEqDrive (b : BitVec 8) (v : Word) (s : State) : Res State :=
  .next (inBand b (fun i => storeReal (.eqb i 5) v) s)

/-- EQ.SATURATION (rule R376). Saturation blend of band `b`. -/
def execEqSaturation (b : BitVec 8) (v : Word) (s : State) : Res State :=
  .next (inBand b (fun i => storeReal (.eqb i 6) v) s)

/-- EQ.MIX (rule R377). Wet/dry fraction of band `b`. -/
def execEqMix (b : BitVec 8) (v : Word) (s : State) : Res State :=
  .next (inBand b (fun i => storeReal (.eqb i 7) v) s)

/-- EQ.ENABLE (rule R378). Enabled flag of band `b`. -/
def execEqEnable (b : BitVec 8) (v : Word) (s : State) : Res State :=
  .next (inBand b (fun i => storeBool (.eqb i 8) v) s)

/-- EQ.SOLO (rule R379). Solo flag of band `b`. -/
def execEqSolo (b : BitVec 8) (v : Word) (s : State) : Res State :=
  .next (inBand b (fun i => storeBool (.eqb i 9) v) s)

/-- EQ.BYPASS (rule R380). Bypass flag of band `b`. -/
def execEqBypass (b : BitVec 8) (v : Word) (s : State) : Res State :=
  .next (inBand b (fun i => storeBool (.eqb i 10) v) s)

/-- EQ.INPUT_GAIN (rule R381). Input gain, in dB. -/
def execEqInputGain (v : Word) (s : State) : Res State := .next (storeReal (.eqg 0) v s)

/-- EQ.OUTPUT_GAIN (rule R382). Output gain, in dB. -/
def execEqOutputGain (v : Word) (s : State) : Res State := .next (storeReal (.eqg 1) v s)

/-- EQ.MODEL (rule R383). Vintage model, with the values of rule R412. -/
def execEqModel (v : Word) (s : State) : Res State := .next (storeEnum (.eqg 2) 3 v s)

/-- EQ.GLOBAL_BYPASS (rule R384). Global bypass. -/
def execEqGlobalBypass (v : Word) (s : State) : Res State := .next (storeBool (.eqg 3) v s)

end Sys2Proof.Machine
end

