-- ==== Sys2Proof/Machine/SynParam.lean ====
section
/-! DEFINITION. The fifteen synth parameter setters (rules R270 to R284): each stores its value into SYNP[id] by the
template of rule R212. The drain applies them at the start of the next process command (rule R211). -/

namespace Sys2Proof.Machine

/-- SYN.WAVEFORM (rule R270). Waveform: 0 Saw, 1 Square, 2 Triangle, 3 Wavetable, 4 Noise. -/
def execSynWaveform (v : Word) (s : State) : Res State := .next (storeEnum (.synp 0) 4 v s)

/-- SYN.ATTACK (rule R271). Attack, in seconds. -/
def execSynAttack (v : Word) (s : State) : Res State := .next (storeReal (.synp 1) v s)

/-- SYN.HOLD (rule R272). Hold, in seconds. -/
def execSynHold (v : Word) (s : State) : Res State := .next (storeReal (.synp 2) v s)

/-- SYN.DECAY (rule R273). Decay, in seconds. -/
def execSynDecay (v : Word) (s : State) : Res State := .next (storeReal (.synp 3) v s)

/-- SYN.SUSTAIN (rule R274). Sustain level. -/
def execSynSustain (v : Word) (s : State) : Res State := .next (storeReal (.synp 4) v s)

/-- SYN.RELEASE (rule R275). Release, in seconds. -/
def execSynRelease (v : Word) (s : State) : Res State := .next (storeReal (.synp 5) v s)

/-- SYN.CURVE (rule R276). Envelope curve exponent. -/
def execSynCurve (v : Word) (s : State) : Res State := .next (storeReal (.synp 6) v s)

/-- SYN.FILTER_TYPE (rule R277). Filter type: 0 LowPass, 1 HighPass, 2 BandPass, 3 Notch, 4 Peak. -/
def execSynFilterType (v : Word) (s : State) : Res State := .next (storeEnum (.synp 7) 4 v s)

/-- SYN.FILTER_CUTOFF (rule R278). Filter cutoff, in Hz. -/
def execSynFilterCutoff (v : Word) (s : State) : Res State := .next (storeReal (.synp 8) v s)

/-- SYN.FILTER_Q (rule R279). Filter Q. -/
def execSynFilterQ (v : Word) (s : State) : Res State := .next (storeReal (.synp 9) v s)

/-- SYN.LFO_WAVEFORM (rule R280). LFO waveform: 0 Sine, 1 Triangle, 2 Saw, 3 Square. -/
def execSynLfoWaveform (v : Word) (s : State) : Res State := .next (storeEnum (.synp 10) 3 v s)

/-- SYN.LFO_RATE (rule R281). LFO rate, in Hz. -/
def execSynLfoRate (v : Word) (s : State) : Res State := .next (storeReal (.synp 11) v s)

/-- SYN.LFO_AMP_DEPTH (rule R282). LFO amplitude depth. -/
def execSynLfoAmpDepth (v : Word) (s : State) : Res State := .next (storeReal (.synp 12) v s)

/-- SYN.LFO_PITCH_DEPTH (rule R283). LFO pitch depth, in semitones. -/
def execSynLfoPitchDepth (v : Word) (s : State) : Res State := .next (storeReal (.synp 13) v s)

/-- SYN.GAIN (rule R284). Output gain of the voice sum. -/
def execSynGain (v : Word) (s : State) : Res State := .next (storeReal (.synp 14) v s)

end Sys2Proof.Machine
end

