-- ==== Sys2Proof/Machine/Queue.lean ====
section
/-! DEFINITION. The drain of the parameter queue (rule R211) and the prologue every process command shares (rule
R204). -/

namespace Sys2Proof.Machine

/-- Applies a decoded queue entry by its setter's rule (rule R211). An instruction of another channel is never decoded
from a queue entry (rule R159); it counts as illegal. -/
def applySetter (i : Instr) (s : State) : Res State :=
  match i with
  | .synWaveform v => execSynWaveform v s
  | .synAttack v => execSynAttack v s
  | .synHold v => execSynHold v s
  | .synDecay v => execSynDecay v s
  | .synSustain v => execSynSustain v s
  | .synRelease v => execSynRelease v s
  | .synCurve v => execSynCurve v s
  | .synFilterType v => execSynFilterType v s
  | .synFilterCutoff v => execSynFilterCutoff v s
  | .synFilterQ v => execSynFilterQ v s
  | .synLfoWaveform v => execSynLfoWaveform v s
  | .synLfoRate v => execSynLfoRate v s
  | .synLfoAmpDepth v => execSynLfoAmpDepth v s
  | .synLfoPitchDepth v => execSynLfoPitchDepth v s
  | .synGain v => execSynGain v s
  | .eqType b v => execEqType b v s
  | .eqFreq b v => execEqFreq b v s
  | .eqGain b v => execEqGain b v s
  | .eqQ b v => execEqQ b v s
  | .eqSlope b v => execEqSlope b v s
  | .eqDrive b v => execEqDrive b v s
  | .eqSaturation b v => execEqSaturation b v s
  | .eqMix b v => execEqMix b v s
  | .eqEnable b v => execEqEnable b v s
  | .eqSolo b v => execEqSolo b v s
  | .eqBypass b v => execEqBypass b v s
  | .eqInputGain v => execEqInputGain v s
  | .eqOutputGain v => execEqOutputGain v s
  | .eqModel v => execEqModel v s
  | .eqGlobalBypass v => execEqGlobalBypass v s
  | .nop => .next (countIllegal s)
  | .prepare => .next (countIllegal s)
  | .synRender _ _ _ => .next (countIllegal s)
  | .eqProcess _ _ => .next (countIllegal s)
  | .specProcess _ _ => .next (countIllegal s)
  | .noteOn _ _ _ => .next (countIllegal s)
  | .noteOff _ _ => .next (countIllegal s)

/-- Applies one queue entry: an ill-formed word is ignored and counted (rules R156, R211). -/
def applyEntry (w : Cmd) (s : State) : Res State :=
  match decodeWord .queue w with
  | .ok i => applySetter i s
  | .error _ => .next (countIllegal s)

/-- The drain's loop (rule R211): consumes entries until the head reaches the tail snapshot `t`, at most `fuel` of
them. -/
def drainTo (t : Fin 32) : Nat → State → Res State
  | 0, s => .next s
  | fuel + 1, s =>
    if s.head = t then .next s
    else andThen (applyEntry s.slots[s.head] (popQueue s)) (drainTo t fuel)

/-- `drain()` (rule R211): the tail is read once; a queue of 32 slots holds at most 31 entries. -/
def drain (s : State) : Res State := drainTo s.tail 31 s

/-- The check of the prologue that fails, the first one in its order, if any (rules R204, R601). -/
def prologueError (k : BitVec 8) (s : State) : Option ResultCode :=
  if s.prepared = false then some .notPrepared else if 1 < k.toNat then some .badBuffer else none

/-- A process command (rule R204): the checks, the drain, then the command's body and its completion. `op` is the
command's opcode and `k` its buffer index. -/
def processCommand (op : BitVec 8) (k : BitVec 8) (body : State → Res State) (s : State) : Res State :=
  match prologueError k s with
  | some c => .next (finish c op s)
  | none => andThen (drain s) fun s1 => andThen (body s1) fun s2 => .next (finish .ok op s2)

end Sys2Proof.Machine
end

