-- ==== Sys2Proof/Machine/Equalizer.lean ====
section
/-! DEFINITION. EQ_PROCESS and the equalizer's signal path (rules R350 to R369, R405 to R413): coefficient design, band
selection, Direct Form I sections, saturation and mix, the analog-model stage and the 2x oversampler. -/

namespace Sys2Proof.Machine

/-! ## Access to the signal state -/

/-- B[b].st[s][ch] (rule R56); zeros outside the band file. -/
def histAt (e : EqEngine) (b sec ch : Nat) : Hist :=
  ((e.hist.getD b (Vector.replicate 4 (Vector.replicate 2 Hist.zero))).getD sec
    (Vector.replicate 2 Hist.zero)).getD ch Hist.zero

/-- Replaces B[b].st[s][ch] (rule R56). -/
def setHist (b sec ch : Nat) (h : Hist) (e : EqEngine) : EqEngine :=
  let band := e.hist.getD b (Vector.replicate 4 (Vector.replicate 2 Hist.zero))
  let sect := band.getD sec (Vector.replicate 2 Hist.zero)
  { e with hist := e.hist.setIfInBounds b (band.setIfInBounds sec (sect.setIfInBounds ch h)) }

/-- The analog state of a channel (rule R57). -/
def analogAt (e : EqEngine) (ch : Nat) : Analog := e.analog.getD ch ⟨0, 0, 0⟩
/-- Replaces the analog state of a channel. -/
def setAnalog (ch : Nat) (a : Analog) (e : EqEngine) : EqEngine :=
  { e with analog := e.analog.setIfInBounds ch a }
/-- The oversampler state of a channel (rule R58). -/
def overAt (e : EqEngine) (ch : Nat) : Over := e.ovs.getD ch ⟨0, 0, 0, 0, 0, 0, 0, 0, 0⟩
/-- Replaces the oversampler state of a channel. -/
def setOver (ch : Nat) (o : Over) (e : EqEngine) : EqEngine := { e with ovs := e.ovs.setIfInBounds ch o }

/-! ## Coefficients (rules R351, R356) -/

/-- An unnormalised biquad row (b0, b1, b2, a0, a1, a2) (rule R356). -/
structure Biquad where
  b0 : F32
  b1 : F32
  b2 : F32
  a0 : F32
  a1 : F32
  a2 : F32
  deriving DecidableEq, Repr

/-- The row of rule R356 for a band type (rule R357), from A, cw and alpha. -/
def biquadRow (type : Nat) (A cw alpha : F32) : Biquad :=
  let m2cw := fmul (fneg fTwo) cw
  let sq := fmul (fmul fTwo (fsqrt A)) alpha
  let ap := fadd A fOne
  let am := fsub A fOne
  match type with
  | 0 =>
    ⟨fadd fOne (fmul alpha A), m2cw, fsub fOne (fmul alpha A),
      fadd fOne (fdiv alpha A), m2cw, fsub fOne (fdiv alpha A)⟩
  | 1 =>
    ⟨fmul A (fadd (fsub ap (fmul am cw)) sq), fmul (fmul fTwo A) (fsub am (fmul ap cw)),
      fmul A (fsub (fsub ap (fmul am cw)) sq),
      fadd (fadd ap (fmul am cw)) sq, fmul (fneg fTwo) (fadd am (fmul ap cw)), fsub (fadd ap (fmul am cw)) sq⟩
  | 2 =>
    ⟨fmul A (fadd (fadd ap (fmul am cw)) sq), fmul (fmul (fneg fTwo) A) (fadd am (fmul ap cw)),
      fmul A (fsub (fadd ap (fmul am cw)) sq),
      fadd (fsub ap (fmul am cw)) sq, fmul fTwo (fsub am (fmul ap cw)), fsub (fsub ap (fmul am cw)) sq⟩
  | 3 =>
    ⟨fdiv (fsub fOne cw) fTwo, fsub fOne cw, fdiv (fsub fOne cw) fTwo,
      fadd fOne alpha, m2cw, fsub fOne alpha⟩
  | 4 =>
    ⟨fdiv (fadd fOne cw) fTwo, fneg (fadd fOne cw), fdiv (fadd fOne cw) fTwo,
      fadd fOne alpha, m2cw, fsub fOne alpha⟩
  | 5 => ⟨alpha, fZero, fneg alpha, fadd fOne alpha, m2cw, fsub fOne alpha⟩
  | _ => ⟨fOne, m2cw, fOne, fadd fOne alpha, m2cw, fsub fOne alpha⟩

/-- The five coefficients normalised by a0 (rule R351). -/
def normalise (r : Biquad) : Vector F32 5 :=
  #v[fdiv r.b0 r.a0, fdiv r.b1 r.a0, fdiv r.b2 r.a0, fdiv r.a1 r.a0, fdiv r.a2 r.a0]

/-- The coefficients of band `b` from its clamped parameters (rule R351). -/
def designBand (s : State) (b : Nat) : Vector F32 5 :=
  let A := pow10N (fdiv (clampDb (bandParam s b 2)) (f32OfNat 40))
  let w0 := fdiv (fmul fTwoPi (bandFreq s b)) (fsEff s)
  let alpha := fdiv (sinN w0) (fmul fTwo (bandQ s b))
  normalise (biquadRow (bandParam s b 0).toNat A (cosN w0) alpha)

/-- recompute(b) for every enabled band (rules R350, R351). -/
def recomputeBands (s : State) : State :=
  { s with eqc := Vector.ofFn fun b => if bandFlag s b.val 8 then designBand s b.val else s.eqc[b] }

/-! ## Band selection (rule R352) -/

/-- soloMode: some enabled, not bypassed band is soloed. -/
def soloMode (s : State) : Bool :=
  (List.range 8).any fun b => bandFlag s b 9 && bandFlag s b 8 && !bandFlag s b 10

/-- proc(b): whether band `b` processes. -/
def bandProcesses (s : State) (b : Nat) : Bool :=
  bandFlag s b 8 && !bandFlag s b 10 && (!soloMode s || bandFlag s b 9)

/-- An idle EQ_PROCESS: no band processes and the model is Clean (rule R350). -/
def eqIdle (s : State) : Bool := (List.range 8).all (fun b => !bandProcesses s b) && s.eqg[2] == 0

/-! ## Saturation tables (rules R405, R408) -/

/-- xj, the input of table entry `j` (rule R408). -/
def lutInput (j : Nat) : F32 :=
  fadd (f32OfInt (-4)) (fdiv (fmul (f32OfNat 8) (f32OfNat j)) (f32OfNat 4095))

/-- The three tables as PREPARE fills them (rule R408). -/
def filledLuts : Luts where
  soft := Vector.ofFn fun j => tanhN (lutInput j.val)
  tube := Vector.ofFn fun j => fsub (tanhN (fadd (lutInput j.val) (decimal 2 1))) (tanhN (decimal 2 1))
  tape := Vector.ofFn fun j => fdiv (lutInput j.val) (fadd fOne (fabs (lutInput j.val)))

/-- lut(T, x) (rule R405). -/
def lut (T : Vector F32 4096) (x : F32) : F32 :=
  if isNaN x then x
  else if !flt (f32OfInt (-4)) x then T[0]
  else if !flt x (f32OfNat 4) then T[4095]
  else
    let pos := fdiv (fmul (fadd x (f32OfNat 4)) (f32OfNat 4095)) (f32OfNat 8)
    let j := min (floorInt pos).toNat 4094
    let fr := fsub pos (f32OfNat j)
    fadd (T.getD j fZero) (fmul fr (fsub (T.getD (j + 1) fZero) (T.getD j fZero)))

/-- The blend `x + amount x (shaped - x)` of the saturation passes (rules R355, R410). -/
def blend (x amount shaped : F32) : F32 := fadd x (fmul amount (fsub shaped x))

/-! ## One band (rules R353, R355) -/

/-- df1(b, s, ch, x) (rule R353): the output and the section's next history. DESIGN CHOICE: the formula is followed where
the identity coefficients do not give y = x exactly, for an x of -0.0. Log entry 26. -/
def df1 (coef : Vector F32 5) (h : Hist) (x : F32) : F32 × Hist :=
  let y :=
    fsub (fsub (fadd (fadd (fmul coef[0] x) (fmul coef[1] h.x1)) (fmul coef[2] h.x2)) (fmul coef[3] h.y1))
      (fmul coef[4] h.y2)
  (y, { x1 := x, x2 := h.x1, y1 := y, y2 := h.y1 })

/-- The cascade of a band's sections, in order (rule R355). -/
def cascade (coef : Vector F32 5) (b ch : Nat) : List Nat → F32 → EqEngine → F32 × EqEngine
  | [], x, e => (x, e)
  | sec :: rest, x, e =>
    let (y, h) := df1 coef (histAt e b sec ch) x
    cascade coef b ch rest y (setHist b sec ch h e)

/-- The band's output from its dry input and its filtered signal (rule R355). DESIGN CHOICE: the formula is followed where
the rule's corner cases for sat = 0, mix = 0 and mix = 1 fail of it: a term that one of them cancels is 0 times an infinity
or a NaN, or the exact value is -0.0. Log entry 26. -/
def bandMixOut (s : State) (b : Nat) (x f : F32) : F32 :=
  let shaped := blend f (bandSaturation s b) (lut s.luts.soft (fmul (bandDrive s b) f))
  fadd (fmul (fsub fOne (bandMix s b)) x) (fmul (bandMix s b) shaped)

/-- band(b, ch, x) (rule R355). -/
def bandOut (s : State) (b ch : Nat) (x : F32) (e : EqEngine) : F32 × EqEngine :=
  let (f, e1) := cascade (s.eqc.getD b eqcReset) b ch (List.range (bandSections s b)) x e
  (bandMixOut s b x f, e1)

/-- The bands in series (rule R354). -/
def bandsOut (s : State) (ch : Nat) : List Nat → F32 → EqEngine → F32 × EqEngine
  | [], x, e => (x, e)
  | b :: rest, x, e =>
    if bandProcesses s b then
      let (y, e1) := bandOut s b ch x e
      bandsOut s ch rest y e1
    else bandsOut s ch rest x e

/-! ## The analog-model stage (rules R410 to R413) -/

/-- A vintage model's preset: tube warmth, tape saturation, transformer drive (rule R412). -/
structure Preset where
  wm : F32
  tp : F32
  dr : F32
  deriving DecidableEq, Repr

/-- The preset of a model that is not Clean (rule R412). -/
def presetOf (model : Nat) : Preset :=
  match model with
  | 1 => ⟨decimal 3 1, decimal 2 1, decimal 2 1⟩
  | 2 => ⟨decimal 15 2, decimal 5 1, decimal 1 1⟩
  | _ => ⟨decimal 5 1, decimal 3 1, decimal 6 1⟩

/-- aLP (rule R411). -/
def coeffLP (s : State) : F32 :=
  fsub fOne (expN (fneg (fdiv (fmul fTwoPi (fmin (f32OfNat 20000) (freqTop s))) (fsEff s))))

/-- aHP (rule R411). -/
def coeffHP (s : State) : F32 :=
  fdiv fOne (fadd fOne (fdiv (fmul fTwoPi (f32OfNat 10)) (fsEff s)))

/-- analog(ch, x) (rule R410), with its noise draw (rule R413). -/
def analogOut (s : State) (ch : Nat) (x : F32) (e : EqEngine) : F32 × EqEngine :=
  let p := presetOf s.eqg[2].toNat
  let a := analogAt e ch
  let lp := fadd a.lp (fmul (coeffLP s) (fsub x a.lp))
  let x1 := blend lp p.wm (lut s.luts.tube lp)
  let x2 := blend x1 p.tp (lut s.luts.tape x1)
  let n := xorshift32 e.noise
  let x3 := fadd x2 (fmul (decimal 1 5) (noiseValue n))
  let x4 := if flt fZero p.dr then blend x3 p.dr (lut s.luts.soft (fmul (fadd fOne p.dr) x3)) else x3
  let y := fmul (coeffHP s) (fsub (fadd a.hpy x4) a.hpx)
  (y, setAnalog ch ⟨lp, x4, y⟩ { e with noise := n })

/-- path(ch, x) (rule R354). -/
def path (s : State) (ch : Nat) (x : F32) (e : EqEngine) : F32 × EqEngine :=
  let (y, e1) := bandsOut s ch (List.range 8) x e
  if s.eqg[2] = 0 then (y, e1) else analogOut s ch y e1

/-! ## The oversampler (rules R367, R368) -/

/-- The upsampler's even-phase output (rule R367). -/
def upEven (o : Over) (x : F32) : F32 :=
  let m := fneg (decimal 625 4)
  fadd (fadd (fadd (fmul m x) (fmul (decimal 5625 4) o.u1)) (fmul (decimal 5625 4) o.u2)) (fmul m o.u3)

/-- decim(ch, pe) (rule R368). -/
def decim (o : Over) (pe : F32) : F32 :=
  let m := fneg (decimal 3125 5)
  let h := decimal 28125 5
  fadd (fadd (fadd (fadd (fmul m pe) (fmul h o.p2)) (fmul fHalf o.p3)) (fmul h o.p4)) (fmul m o.p6)

/-- ovs(ch, x) (rule R367). -/
def oversample (s : State) (ch : Nat) (x : F32) (e : EqEngine) : F32 × EqEngine :=
  let o := overAt e ch
  let (pe, e1) := path s ch (upEven o x) e
  let (po, e2) := path s ch o.u1 e1
  (decim o pe, setOver ch ⟨x, o.u1, o.u2, po, pe, o.p1, o.p2, o.p3, o.p4⟩ e2)

/-! ## The command -/

/-- One sample of rule R350 between the input and the output gain. -/
def eqSample (s : State) (ch : Nat) (x : F32) : F32 × EqEngine :=
  if s.act.oversample = 2 ∧ eqIdle s = false then oversample s ch x s.eq else path s ch x s.eq

/-- Sample `j` of the block at `base`, of channel `j` modulo C since the channels of a frame are inner (rules R109, R350):
its value between the input and the output gain, before it is written, and the state with the signal state advanced. -/
def sampleOut (base j : Nat) (s : State) : Res (Word × State) :=
  andThen (readWord s (base + 4 * j)) fun w =>
    let (y, e) := eqSample s (j % actC s) (fmul w (globalGain s 0))
    .next (fmul y (globalGain s 1), { s with eq := e })

/-- The sample loop of rule R350 over a list of samples, in place. -/
def eqSamples (base : Nat) : List Nat → State → Res State
  | [], s => .next s
  | j :: rest, s => andThen (sampleOut base j s) fun (v, s1) => eqSamples base rest (writeWord s1 (base + 4 * j) v)

/-- How many samples EQ_PROCESS processes of a block of `n` frames: none if the equalizer is bypassed (rules R350,
R365). -/
def eqLength (n : Nat) (s : State) : Nat := if s.eqg[3] = 1 then 0 else n * actC s

/-- EQ_PROCESS's body before its samples: the enabled bands' coefficients, unless the equalizer is bypassed (rules R350,
R365). -/
def eqBegin (s : State) : State := if s.eqg[3] = 1 then s else recomputeBands s

/-- EQ_PROCESS's samples from sample `j` on (rules R350, R365). -/
def eqFrom (k : BitVec 8) (frames : Word) (j : Nat) (s : State) : Res State :=
  eqSamples (bufBase k.toNat) ((List.range (eqLength (frameCount frames s) s)).drop j) s

/-- EQ_PROCESS's body, after the prologue and before its completion (rules R350, R365). -/
def eqBlock (k : BitVec 8) (frames : Word) (s : State) : Res State := eqFrom k frames 0 (eqBegin s)

/-- EQ_PROCESS (rule R350). -/
def execEqProcess (k : BitVec 8) (frames : Word) (s : State) : Res State :=
  processCommand 0x03 k (eqBlock k frames) s

end Sys2Proof.Machine
end

