-- ==== Sys2Proof/Machine/Notes.lean ====
section
/-! DEFINITION. The note events and voice allocation (rules R262, R263, R264), and the published statistics of the
voice engine (rule R267). -/

namespace Sys2Proof.Machine

/-- Whether voice `u` is active (rule R55). -/
def isActive (s : State) (u : Nat) : Bool := (voiceAt s u).active

/-- `resetVoice(v, nt, vl)` (rule R264): the voice's state after allocation. -/
def freshVoice (v : Nat) (nt vl : BitVec 8) : Voice :=
  { Voice.idle v with active := true, note := nt, vel := vl, stage := .attack }

/-- One voice's part of `noteOff(nt)` (rule R263): a held voice of the note moves to Release. -/
def releaseVoice (nt : BitVec 8) (v : Voice) : Voice :=
  if v.active && v.note == nt && v.stage != .release && v.stage != .idle then
    { v with relLevel := v.value, stage := .release, t := 0 }
  else v

/-- `noteOff(nt)` for a note in 0..127 (rule R263): every voice below ACT.V, in index order. -/
def noteOff (nt : BitVec 8) (s : State) : State :=
  (List.range (actV s)).foldl (fun s u => setVoice u (releaseVoice nt (voiceAt s u)) s) s

/-- One voice's aging (rule R262): an active voice's age goes up by 1, saturating. -/
def ageVoice (v : Voice) : Voice := if v.active then { v with age := Word.satSucc v.age } else v

/-- Ages every active voice below ACT.V (rule R262). -/
def ageVoices (s : State) : State :=
  (List.range (actV s)).foldl (fun s u => setVoice u (ageVoice (voiceAt s u)) s) s

/-- The smallest inactive voice below ACT.V, if any (rule R262). -/
def freeVoice (s : State) : Option Nat := (List.range (actV s)).find? fun u => !isActive s u

/-- The smallest index among the voices below ACT.V of the greatest age (rules R11, R262); 0 if ACT.V is 0, which no
prepared block has (rule R43). -/
def oldestVoice (s : State) : Nat :=
  (List.range (actV s)).foldl
    (fun best u => if (voiceAt s best).age.toNat < (voiceAt s u).age.toNat then u else best) 0

/-- The allocation of a voice after aging (rule R262): the smallest free voice, else a steal of the oldest. -/
def allocate (nt vl : BitVec 8) (s : State) : State :=
  match freeVoice s with
  | some v => setVoice v (freshVoice v nt vl) s
  | none =>
    let v := oldestVoice s
    setVoice v (freshVoice v nt vl) { s with steals := s.steals + 1 }

/-- NOTE_ON (rule R262). The offset only says when the event is applied (rule R250). -/
def execNoteOn (note vel : BitVec 8) (_offset : Word) (s : State) : Res State :=
  let nt := midi7 note
  let vl := midi7 vel
  if vl = 0 then .next (noteOff nt s) else .next (allocate nt vl (ageVoices s))

/-- NOTE_OFF (rule R263). -/
def execNoteOff (note : BitVec 8) (_offset : Word) (s : State) : Res State := .next (noteOff (midi7 note) s)

/-- The number of active voices below ACT.V (rule R45). -/
def activeCount (s : State) : Nat := (List.range (actV s)).countP (isActive s)

/-- VOICE_STATUS of voice `v`: a voice at or beyond ACT.V reads as inactive with all fields 0 (rule R49). -/
def publishedStatus (s : State) (v : Nat) : Word := if v < actV s then voiceStatusWord (voiceAt s v) else 0

/-- VOICE_AGE of voice `v`; 0 at or beyond ACT.V (rule R49). -/
def publishedAge (s : State) (v : Nat) : Word := if v < actV s then (voiceAt s v).age else 0

/-- `publishSynth()` (rule R267). -/
def publishSynth (s : State) : State :=
  { s with
    synActive := BitVec.ofNat 32 (activeCount s)
    synSteals := s.steals
    voiceStatus := Vector.ofFn fun v => publishedStatus s v.val
    voiceAge := Vector.ofFn fun v => publishedAge s v.val }

end Sys2Proof.Machine
end

