-- ==== Sys2Proof/Machine/SpecFeatures.lean ====
section
/-! DEFINITION. The spectral features of one analysis pass (rules R500 to R560): statistics, MFCC, chroma, contrast,
tonnetz, YIN pitch, onset, tempo, harmonic/percussive split, peaks and the ML vector. -/

namespace Sys2Proof.Machine

/-- Entry `i` of a table; +0.0 past its end. -/
def tab (a : Array F32) (i : Nat) : F32 := a.getD i fZero

/-- The table of `f 0, ..., f (n - 1)`. -/
def tabulate (n : Nat) (f : Nat → F32) : Array F32 := ((List.range n).map f).toArray

/-- The current pass's spectra and frame (44_spectral_features.md, notation): x, M, P, and Mp of the pass before. -/
structure Pass where
  N : Nat
  K : Nat
  fs : F32
  x : Array F32
  M : Array F32
  P : Array F32
  Mp : Array F32
  deriving DecidableEq, Repr

/-- fk, the frequency of bin `k` (rule R465). -/
def binFreq (p : Pass) (k : Nat) : F32 := fdiv (fmul (f32OfNat k) p.fs) (f32OfNat p.N)

/-! ## Statistics (rules R501 to R505) -/

/-- sM, the sum of the magnitudes (rule R501). -/
def sumM (p : Pass) : F32 := fsumTo p.K (tab p.M)

/-- Centroid (rule R501). DESIGN CHOICE: the formula is followed where it does not round to fk for a spectrum of one
nonzero bin. Log entry 26. -/
def centroid (p : Pass) : F32 :=
  if flt fZero (sumM p) then fdiv (fsumTo p.K fun k => fmul (binFreq p k) (tab p.M k)) (sumM p) else fZero

/-- Spread (rule R501). DESIGN CHOICE: the formula is followed where it does not give 0 for a spectrum of one nonzero
bin. Log entry 26. -/
def spread (p : Pass) : F32 :=
  if flt fZero (sumM p) then
    let c := centroid p
    fsqrt (fdiv (fsumTo p.K fun k =>
      fmul (fmul (fsub (binFreq p k) c) (fsub (binFreq p k) c)) (tab p.M k)) (sumM p))
  else fZero

/-- Flatness (rule R502). DESIGN CHOICE: the formula is followed where a flat spectrum has no flatness near 1, for
magnitudes far below EPS or a sum that overflows. Log entry 26. -/
def flatness (p : Pass) : F32 :=
  if flt fZero (sumM p) then
    fdiv (expN (fdiv (fsumTo p.K fun k => lnN (fadd (tab p.M k) fEps)) (f32OfNat p.K)))
      (fdiv (sumM p) (f32OfNat p.K))
  else fZero

/-- The sequential partial sums of some values: entry `k` is the sum of the first `k + 1` (rule R503). -/
def partialSums : F32 → List F32 → List F32
  | _, [] => []
  | acc, x :: rest => fadd acc x :: partialSums (fadd acc x) rest

/-- The rolloff bin of a fraction of the total power (rule R503). -/
def rolloff (p : Pass) (fraction : F32) : Nat :=
  let total := fsumTo p.K (tab p.P)
  if flt fZero total then
    (partialSums fZero ((List.range p.K).map (tab p.P))).findIdx fun u => fle (fmul fraction total) u
  else 0

/-- Flux (rule R504). DESIGN CHOICE: the formula is followed where it differs from sM in the first pass, for a magnitude
that is a NaN. Log entry 26. -/
def flux (p : Pass) : F32 :=
  fsumTo p.K fun k =>
    let d := fsub (tab p.M k) (tab p.Mp k)
    if flt fZero d then d else fZero

/-- Slope (rule R505). -/
def slope (p : Pass) : F32 :=
  let mf := fdiv (fsumTo p.K (binFreq p)) (f32OfNat p.K)
  let mM := fdiv (sumM p) (f32OfNat p.K)
  fdiv (fsumTo p.K fun k => fmul (fsub (binFreq p k) mf) (fsub (tab p.M k) mM))
    (fsumTo p.K fun k => fmul (fsub (binFreq p k) mf) (fsub (binFreq p k) mf))

/-! ## MFCC (rules R510 to R512) -/

/-- mel(f) (rule R510). -/
def mel (f : F32) : F32 := fmul (f32OfNat 2595) (log10N (fadd fOne (fdiv f (f32OfNat 700))))
/-- imel(m) (rule R510). -/
def imel (m : F32) : F32 := fmul (f32OfNat 700) (fsub (pow10N (fdiv m (f32OfNat 2595))) fOne)

/-- hj, the filter edge `j` of 0..27 (rule R511). -/
def melEdge (fs : F32) (j : Nat) : F32 := imel (fdiv (fmul (f32OfNat j) (mel (fdiv fs fTwo))) (f32OfNat 27))

/-- A triangular filter's weight at `f` (rule R511). -/
def melWeight (lo c up f : F32) : F32 :=
  if flt lo f && fle f c then fdiv (fsub f lo) (fsub c lo)
  else if flt c f && flt f up then fdiv (fsub up f) (fsub up c)
  else fZero

/-- E_i, a filter's energy on the power spectrum (rule R511). -/
def melEnergy (p : Pass) (edges : Array F32) (i : Nat) : F32 :=
  fsumTo p.K fun k =>
    fmul (melWeight (tab edges i) (tab edges (i + 1)) (tab edges (i + 2)) (binFreq p k)) (tab p.P k)

/-- The 13 MFCC coefficients (rule R512). -/
def mfcc (p : Pass) : List F32 :=
  let edges := tabulate 28 (melEdge p.fs)
  let L := tabulate Config.nMel fun i => lnN (fadd (melEnergy p edges i) fEps)
  (List.range Config.nMfcc).map fun n =>
    fsumTo Config.nMel fun i =>
      fmul (tab L i)
        (cosN (fdiv (fmul (fmul fPi (f32OfNat n)) (fadd (f32OfNat i) fHalf)) (f32OfNat 26)))

/-! ## Chroma, contrast, tonnetz (rules R520 to R530) -/

/-- pc(k), the pitch class of bin `k` (rule R520). -/
def pitchClass (p : Pass) (k : Nat) : Nat :=
  ((roundInt (fmul (f32OfNat 12) (log2N (fdiv (binFreq p k) (f32OfNat 440)))) + 9) % 12).toNat

/-- The bins that contribute to chroma (rule R520). -/
def chromaBins (p : Pass) : List Nat :=
  (List.range p.K).filter fun k => 1 ≤ k && fle (decimal 275 1) (binFreq p k)

/-- The 12 chroma values (rule R521). DESIGN CHOICE: the formula is followed where it gives no value in [0, 1], for a
power that is an infinity or a NaN. Log entry 26. -/
def chroma (p : Pass) : List F32 :=
  let classes := (chromaBins p).map fun k => (k, pitchClass p k)
  let ch := (List.range 12).map fun c =>
    fsum ((classes.filter fun kc => kc.2 == c).map fun kc => tab p.P kc.1)
  let mx := fmaxList ch
  ch.map fun v => if flt fZero mx then fdiv v mx else fZero

/-- The edges of the contrast bands (rule R525). -/
def contrastEdge (p : Pass) (q : Nat) : F32 :=
  match q with
  | 0 => fZero
  | 1 => f32OfNat 200
  | 2 => f32OfNat 400
  | 3 => f32OfNat 800
  | 4 => f32OfNat 1600
  | 5 => f32OfNat 3200
  | _ => fdiv p.fs fTwo

/-- Whether contrast band `q` holds the frequency `f` (rule R525). The last band also holds fs/2, but where fs/2 is below
its lower edge it lies above fs/2 and is empty. -/
def inContrastBand (p : Pass) (q : Nat) (f : F32) : Bool :=
  fle (contrastEdge p q) f && (flt f (contrastEdge p (q + 1)) || (q == 5 && feq f (fdiv p.fs fTwo)))

/-- The 6 contrast values in dB (rule R525). DESIGN CHOICE: the formula is followed where the rule's remark on a band of
one bin fails of it, for a magnitude that is an infinity or a NaN. Log entry 26. -/
def contrast (p : Pass) : List F32 :=
  (List.range 6).map fun q =>
    match ((List.range p.K).filter fun k => inContrastBand p q (binFreq p k)).map (tab p.M) with
    | [] => fZero
    | m :: ms =>
      fmul (f32OfNat 20)
        (log10N (fdiv (fadd (fmaxList (m :: ms)) fEps) (fadd (fminList (m :: ms)) fEps)))

/-- φd(p), the tonnetz basis (rule R530). -/
def tonnetzBasis (d p : Nat) : F32 :=
  match d with
  | 0 => fmul fOne (sinN (fdiv (fmul fPi (f32OfNat (7 * p))) (f32OfNat 6)))
  | 1 => fmul fOne (cosN (fdiv (fmul fPi (f32OfNat (7 * p))) (f32OfNat 6)))
  | 2 => fmul fOne (sinN (fdiv (fmul fPi (f32OfNat (3 * p))) fTwo))
  | 3 => fmul fOne (cosN (fdiv (fmul fPi (f32OfNat (3 * p))) fTwo))
  | 4 => fmul fHalf (sinN (fdiv (fmul fPi (f32OfNat (2 * p))) (f32OfNat 3)))
  | _ => fmul fHalf (cosN (fdiv (fmul fPi (f32OfNat (2 * p))) (f32OfNat 3)))

/-- The 6 tonnetz values from the unmasked chroma (rule R530). DESIGN CHOICE: the formula is followed where a chroma value
is a NaN and the result does not lie in [-1, 1]. Log entry 26. -/
def tonnetz (ch : List F32) : List F32 :=
  let s := fsum (ch.map fabs)
  (List.range 6).map fun d =>
    if flt fZero s then fdiv (fsumTo 12 fun p => fmul (tonnetzBasis d p) (ch.getD p fZero)) s else fZero

/-! ## YIN pitch (rules R535 to R539) -/

/-- W = N/2 (rule R535). -/
def yinW (p : Pass) : Nat := p.N / 2

/-- d(τ) (rule R535). -/
def yinDiff (p : Pass) (τ : Nat) : F32 :=
  fsumTo (yinW p) fun j => fmul (fsub (tab p.x j) (tab p.x (j + τ))) (fsub (tab p.x j) (tab p.x (j + τ)))

/-- d'(τ) from d(τ) and the running sum of d up to τ (rule R535). -/
def yinNorm (d sum : F32) (τ : Nat) : F32 :=
  if feq sum fZero then fOne else fdiv (fmul d (f32OfNat τ)) sum

/-- d'(τ), d'(τ + 1), ... for the lags of a list, from the running sum of d before them (rule R535). -/
def yinNorms (p : Pass) : F32 → List Nat → List F32
  | _, [] => []
  | acc, τ :: rest =>
    let d := yinDiff p τ
    yinNorm d (fadd acc d) τ :: yinNorms p (fadd acc d) rest

/-- The table of d'(0), ..., d'(W - 1) (rule R535). -/
def yinTable (p : Pass) : Array F32 :=
  (fOne :: yinNorms p fZero ((List.range (yinW p - 1)).map (· + 1))).toArray

/-- `clamp` on integers (rule R11). -/
def clampInt (x lo hi : Int) : Int := min (max x lo) hi

/-- τmin and τmax (rule R536). -/
def lagRange (p : Pass) (pitchMin pitchMax : F32) : Nat × Nat :=
  let top : Int := (yinW p : Int) - 2
  let lo := clampInt (floorInt (fdiv p.fs pitchMax)) 2 top
  let hi := clampInt (ceilInt (fdiv p.fs pitchMin)) lo top
  (lo.toNat, hi.toNat)

/-- r(τ), the normalised autocorrelation (rule R537). DESIGN CHOICE: the formula is followed where a constant frame has no
r of 1, since a square or a product of sums overflows or underflows (the example of rule R538). Log entry 26. -/
def autocorr (p : Pass) (τ : Nat) : F32 :=
  let e0 := fsumTo (yinW p) fun j => fmul (tab p.x j) (tab p.x j)
  let et := fsumTo (yinW p) fun j => fmul (tab p.x (j + τ)) (tab p.x (j + τ))
  let e := fmul e0 et
  if flt fZero e then
    fdiv (fsumTo (yinW p) fun j => fmul (tab p.x j) (tab p.x (j + τ))) (fsqrt e)
  else fZero

/-- The descent to the local minimum of d' (rule R538), at most `fuel` steps. -/
def yinDescend (d' : Array F32) (τmax : Nat) : Nat → Nat → Nat
  | 0, τ => τ
  | fuel + 1, τ =>
    if τ + 1 ≤ τmax ∧ flt (tab d' (τ + 1)) (tab d' τ) = true then yinDescend d' τmax fuel (τ + 1) else τ

/-- The parabolic refinement of a lag (rule R538). -/
def yinRefine (d' : Array F32) (τ : Nat) : F32 :=
  let s0 := tab d' (τ - 1)
  let s1 := tab d' τ
  let s2 := tab d' (τ + 1)
  let den := fadd (fsub s0 (fmul fTwo s1)) s2
  if flt fZero den then fadd (f32OfNat τ) (fdiv (fmul fHalf (fsub s0 s2)) den) else f32OfNat τ

/-- The lags τmin..τmax in ascending order (rule R536). -/
def lags (lo hi : Nat) : List Nat := (List.range (hi + 1 - lo)).map (· + lo)

/-- The pitch in Hz and the lag τ*, if any (rule R538). DESIGN CHOICE: the formula is followed where the rule's example of
a constant frame and the remark of rule R536 on the lowest pitch fail of it. Log entry 26. -/
def yinPitch (p : Pass) (pitchMin pitchMax thresh : F32) : F32 × Option Nat :=
  if feq (fsumTo p.N fun j => fmul (tab p.x j) (tab p.x j)) fZero then (fZero, none)
  else
    let d' := yinTable p
    let (lo, hi) := lagRange p pitchMin pitchMax
    match (lags lo hi).find? fun τ => flt (tab d' τ) thresh with
    | some τ0 =>
      let τ := yinDescend d' hi (yinW p) τ0
      (fdiv p.fs (yinRefine d' τ), some τ)
    | none =>
      let τ := lo + fargmax ((lags lo hi).map (autocorr p))
      (fdiv p.fs (f32OfNat τ), some τ)

/-- `clamp(x, 0.0, 1.0)` of a confidence (rules R539, R551), which lies in [0, 1] (rule R565 (e)): so does every clamp of a
number, and the clamp of a NaN is any value there. Log entry 7. -/
def confidence (x : F32) : F32 :=
  let y := fclamp x fZero fOne
  if fle fZero y && fle y fOne then y else fZero

/-- The pitch confidence at τ* (rule R539). -/
def pitchConfidence (p : Pass) (τ : Option Nat) : F32 :=
  match τ with
  | some t => confidence (autocorr p t)
  | none => fZero

/-! ## Onset and tempo (rules R545 to R552) -/

/-- S.oh[(S.ohWr - 1 - j) mod 128] (rule R546). -/
def onsetBack (e : SpecEngine) (j : Nat) : F32 := e.oh.getD ((e.ohWr.val + 127 - j % 128) % 128) fZero

/-- The onset decision for the strength `o` (rule R546). -/
def isOnset (e : SpecEngine) (lambda : F32) (refract : Word) (o : F32) : Bool :=
  let μ := fdiv (fsumTo 8 (onsetBack e)) (f32OfNat 8)
  let θ := fadd (fmul lambda μ) (decimal 1 6)
  flt θ o && flt (onsetBack e 0) o && decide (refract.toNat ≤ e.since.toNat)

/-- The onset tracker's state after the strength `o` (rule R546). -/
def onsetStep (e : SpecEngine) (onset : Bool) (o : F32) : SpecEngine :=
  { e with
    since := if onset then 0 else Word.satSucc e.since
    onsets := if onset then e.onsets + 1 else e.onsets
    oh := e.oh.set e.ohWr o
    ohWr := e.ohWr + 1 }

/-- z[j], the mean-removed onset history in chronological order (rule R550). -/
def onsetCentred (e : SpecEngine) : Array F32 :=
  let h := tabulate 128 fun j => e.oh.getD ((e.ohWr.val + j) % 128) fZero
  let μ := fdiv (fsumTo 128 (tab h)) (f32OfNat 128)
  tabulate 128 fun j => fsub (tab h j) μ

/-- R(L) (rule R550). -/
def onsetAutocorr (z : Array F32) (L : Nat) : F32 := fsumTo (128 - L) fun j => fmul (tab z j) (tab z (j + L))

/-- The folding of a tempo into the range, at most `fuel` steps (rule R551). -/
def foldTempo (lo hi : F32) : Nat → F32 → F32
  | 0, bpm => bpm
  | fuel + 1, bpm =>
    if flt bpm lo then foldTempo lo hi fuel (fmul bpm fTwo)
    else if flt hi bpm then foldTempo lo hi fuel (fdiv bpm fTwo)
    else bpm

/-- The tempo estimate after this pass's onset write: S.tempo and S.tempoConf (rules R550, R551). The published tempo
is S.tempo in both cases of rule R551. -/
def tempoStep (act : CfgRegs) (fs : F32) (e : SpecEngine) : SpecEngine :=
  let z := onsetCentred e
  let lb := 2 + fargmax ((List.range 63).map fun i => onsetAutocorr z (i + 2))
  let r0 := onsetAutocorr z 0
  let rb := onsetAutocorr z lb
  if fle r0 fZero || fle rb fZero then { e with tempoConf := fZero }
  else
    let bpm0 := fdiv (fmul (f32OfNat 60) fs) (fmul (f32OfNat act.hop.toNat) (f32OfNat lb))
    let bpm := fclamp (foldTempo act.tempoMin act.tempoMax 32 bpm0) act.tempoMin act.tempoMax
    { e with tempo := bpm, tempoConf := confidence (fdiv rb r0) }

/-! ## Harmonic/percussive split and peaks (rules R555, R558) -/

/-- The order of the median's sort: ascending, a NaN after every number (rule R555). -/
def beforeNaNLast (a b : F32) : Bool := if isNaN a then false else if isNaN b then true else fle a b

/-- Inserts a value into a sorted list (rule R555). -/
def insertSorted (x : F32) : List F32 → List F32
  | [] => [x]
  | y :: ys => if beforeNaNLast x y then x :: y :: ys else y :: insertSorted x ys

/-- The third smallest of some values (rule R555). -/
def thirdSmallest (vs : List F32) : F32 := (vs.foldr insertSorted []).getD 2 fZero

/-- Pe[k], the five-point median across bins, clamped at the edges (rule R555). -/
def percussiveBin (p : Pass) (k : Nat) : F32 :=
  thirdSmallest ([0, 1, 2, 3, 4].map fun d => tab p.M (min (k + d - 2) (p.K - 1)))

/-- He[k], the median of the previous and the current magnitude (rule R555). -/
def harmonicBin (p : Pass) (k : Nat) : F32 := fmul (fadd (tab p.Mp k) (tab p.M k)) fHalf

/-- The harmonic and percussive ratios (rule R555). DESIGN CHOICE: the formula is followed where the ratios do not sum to
1, since an energy is infinite. Log entry 26. -/
def harmPerc (p : Pass) : F32 × F32 :=
  let eH := fsumTo p.K fun k => fmul (harmonicBin p k) (harmonicBin p k)
  let eP := fsumTo p.K fun k => fmul (percussiveBin p k) (percussiveBin p k)
  let tot := fadd eH eP
  if flt fZero tot then (fdiv eH tot, fdiv eP tot) else (fZero, fZero)

/-- Whether bin `k` is a peak (rule R558). -/
def isPeak (p : Pass) (k : Nat) : Bool :=
  decide (1 ≤ k) && decide (k + 2 ≤ p.K) && flt (tab p.M (k - 1)) (tab p.M k) && fle (tab p.M (k + 1)) (tab p.M k) &&
    flt fZero (tab p.M k)

/-- Inserts a bin into a list ordered by magnitude descending, after every bin of at least its magnitude (rule R558). -/
def insertPeak (p : Pass) (k : Nat) : List Nat → List Nat
  | [] => [k]
  | j :: js => if flt (tab p.M j) (tab p.M k) then k :: j :: js else j :: insertPeak p k js

/-- The peaks: the first 16 qualifying bins by magnitude descending, then bin ascending (rule R558). -/
def peaks (p : Pass) : List Nat :=
  (((List.range p.K).filter (isPeak p)).foldl (fun js k => insertPeak p k js) []).take Config.maxPeaks

/-- The three snapshot words of each peak (rules R470, R558). -/
def peakWords (p : Pass) (ps : List Nat) : List Word :=
  ps.flatMap fun k => [BitVec.ofNat 32 k, binFreq p k, tab p.M k]

/-! ## The ML feature vector (rule R560) -/

/-- ML_VEC from the masked snapshot words (rule R560): words 3 to 9 with the rolloffs as binary32, MFCC, chroma,
tonnetz, pitch, confidence, onset strength and tempo. -/
def mlVector (ws : List Word) : Vector Word 42 :=
  Vector.ofFn fun i =>
    let w (k : Nat) : Word := ws.getD k 0
    if i.val = 3 then f32OfNat (w 6).toNat
    else if i.val = 4 then f32OfNat (w 7).toNat
    else if i.val < 32 then w (i.val + 3)
    else if i.val < 38 then w (i.val + 9)
    else if i.val = 38 then w 47
    else if i.val = 39 then w 48
    else if i.val = 40 then w 49
    else w 51

end Sys2Proof.Machine
end

