-- ==== Sys2Proof/Machine/SpecFft.lean ====
section
/-! DEFINITION. SPEC_PROCESS: ingestion, the analysis frame, window and transform, the spectra, the feature snapshot and
its publication (rules R450 to R474). -/

namespace Sys2Proof.Machine

/-! ## Window (rule R461) -/

/-- S.win[j] for a window of ACT.window and N entries (rule R461). -/
def windowEntry (window N j : Nat) : F32 :=
  let c1 := cosN (fdiv (fmul fTwoPi (f32OfNat j)) (f32OfNat N))
  let c2 := cosN (fdiv (fmul fTwoPi (f32OfNat (2 * j))) (f32OfNat N))
  match window with
  | 0 => fsub fHalf (fmul fHalf c1)
  | 1 => fsub (decimal 54 2) (fmul (decimal 46 2) c1)
  | 2 => fadd (fsub (decimal 42 2) (fmul fHalf c1)) (fmul (decimal 8 2) c2)
  | _ => fOne

/-- The window table as PREPARE fills it (rule R461). -/
def windowTable (window N : Nat) : Array F32 := tabulate N (windowEntry window N)

/-! ## Ingestion (rules R450, R451) -/

/-- ingest(m) (rule R451). -/
def ingest (m : F32) (e : SpecEngine) : SpecEngine :=
  { e with
    ring := e.ring.set e.wr m
    wr := e.wr + 1
    samples := e.samples + 1
    pending := e.pending + 1 }

/-- The sum of a frame's channels from `ch` values at consecutive words (rule R450). -/
def sumChannels (s : State) (a : Nat) : Nat → F32 → Res F32
  | 0, m => .next m
  | ch + 1, m => andThen (readWord s a) fun w => sumChannels s (a + 4) ch (fadd m w)

/-- The mono value of frame `i` of the buffer at `base` (rule R450). -/
def monoFrame (s : State) (base i : Nat) : Res F32 :=
  andThen (sumChannels s (base + 4 * (i * actC s)) (actC s) fZero) fun m =>
    .next (fmul m (fdiv fOne (f32OfNat (actC s))))

/-! ## Frame and spectra (rules R460 to R464) -/

/-- x[j], the N most recent samples, oldest first (rule R460). -/
def frameSample (e : SpecEngine) (N j : Nat) : F32 :=
  e.ring.getD ((e.wr.val + 16384 - N % 16384 + j) % 16384) fZero

/-- The analysis frame x (rule R460). -/
def analysisFrame (e : SpecEngine) (N : Nat) : Array F32 := tabulate N (frameSample e N)

/-- xw, the windowed frame (rule R462). -/
def windowedFrame (e : SpecEngine) (x : Array F32) (N : Nat) : List F32 :=
  (List.range N).map fun j => fmul (tab x j) (tab e.win j)

/-- P[k] from a bin (rule R464). -/
def powerOf (z : F32 × F32) : F32 := fadd (fmul z.1 z.1) (fmul z.2 z.2)

/-- The spectra of a pass: power, magnitude and phase (rule R464). -/
structure Spectra where
  P : Array F32
  M : Array F32
  Φ : Array F32
  deriving DecidableEq, Repr

/-- The spectra of the K bins of a windowed frame (rules R463, R464). DESIGN CHOICE: the formula is followed where a zero
bin's phase is not `atan2(+0, +0)`, for a component of -0.0. Log entry 26. -/
def spectraOf (xw : List F32) (K : Nat) : Spectra :=
  let bins := (List.range K).map (dftBin xw)
  { P := (bins.map powerOf).toArray
    M := (bins.map fun z => fsqrt (powerOf z)).toArray
    Φ := (bins.map fun z => atan2N z.2 z.1).toArray }

/-- The frame and the spectra as the features read them (44_spectral_features.md, notation). -/
def passOf (s : State) (x : Array F32) (sp : Spectra) : Pass where
  N := actN s
  K := actK s
  fs := actFs s
  x := x
  M := sp.M
  P := sp.P
  Mp := s.spec.prevMag

/-! ## The snapshot (rules R470, R474) -/

/-- The feature bit a snapshot word belongs to; the frame number, the timestamp and the reserved words belong to none
(rule R474). -/
def featureBit (w : Nat) : Option Nat :=
  if w < 3 then none
  else if w < 10 then some 0
  else if w < 23 then some 1
  else if w < 35 then some 2
  else if w < 41 then some 3
  else if w < 47 then some 4
  else if w < 49 then some 5
  else if w < 51 then some 6
  else if w < 53 then some 7
  else if w < 55 then some 8
  else if w < 104 then some 9
  else none

/-- A snapshot word after enable masking (rule R474). -/
def maskWord (featEn : Word) (w : Nat) (v : Word) : Word :=
  match featureBit w with
  | some b => if featEn.getLsbD b then v else 0
  | none => v

/-- Masks the words of a snapshot from word `w` on (rule R474). -/
def maskFrom (featEn : Word) : Nat → List Word → List Word
  | _, [] => []
  | w, v :: vs => maskWord featEn w v :: maskFrom featEn (w + 1) vs

/-- A list cut or filled with zeros to a length. -/
def padTo (n : Nat) (ws : List Word) : List Word := (ws ++ List.replicate n 0).take n

/-- The 128 snapshot words before masking (rules R470, R471). `e` is the spectral engine after the onset and tempo
steps. -/
def snapshotWords (act : CfgRegs) (e : SpecEngine) (p : Pass) (onset : Bool) : List Word :=
  let ch := chroma p
  let (pitchHz, τ) := yinPitch p act.pitchMin act.pitchMax act.yinThresh
  let (harm, perc) := harmPerc p
  let ps := peaks p
  [e.frame, e.samples.extractLsb' 0 32, e.samples.extractLsb' 32 32,
    centroid p, spread p, flatness p,
    BitVec.ofNat 32 (rolloff p (decimal 85 2)), BitVec.ofNat 32 (rolloff p (decimal 95 2)), flux p, slope p] ++
  mfcc p ++ ch ++ contrast p ++ tonnetz ch ++
  [pitchHz, pitchConfidence p τ, flux p, if onset then 1 else 0, e.tempo, e.tempoConf, harm, perc,
    BitVec.ofNat 32 ps.length] ++
  padTo 48 (peakWords p ps) ++ List.replicate 24 0

/-! ## The analysis pass (rules R471 to R473) -/

/-- The first K words of a spectrum window from a table (rules R111, R464). -/
def binWords (K : Nat) (a : Array F32) : List Word := (List.range K).map (tab a)

/-- The tracker registers from the masked snapshot words (rule R473). -/
def trackersOf (ws : List Word) : Trackers where
  pitchHz := ws.getD 47 0
  pitchConf := ws.getD 48 0
  onsetStrength := ws.getD 49 0
  onsetFlag := ws.getD 50 0
  tempoBpm := ws.getD 51 0
  tempoConf := ws.getD 52 0
  harmRatio := ws.getD 53 0
  percRatio := ws.getD 54 0

/-- The memory after a pass: the spectrum windows and the snapshot slot (rules R464, R471). -/
def publishPass (m : List Host.Cell) (K slot : Nat) (sp : Spectra) (ws : List Word) : List Host.Cell :=
  Memory.setWords
    (Memory.setWords
      (Memory.setWords
        (Memory.setWords m magBase (binWords K sp.M))
        phaseBase (binWords K sp.Φ))
      powerBase (binWords K sp.P))
    (histBase slot) ws

/-- min(SPEC_VALID + 1, 32) (rule R471). -/
def nextValid (v : Word) : Word := if v.toNat + 1 ≤ Config.featureHistory then v + 1 else 32

/-- The writes of a pass between the two steps of SPEC_SEQ (rule R472). -/
def passWrites (s : State) : State :=
  let x := analysisFrame s.spec (actN s)
  let sp := spectraOf (windowedFrame s.spec x (actN s)) (actK s)
  let p := passOf s x sp
  let onset := isOnset s.spec s.act.onsetLambda s.act.onsetRefract (flux p)
  let e := tempoStep s.act (actFs s) (onsetStep s.spec onset (flux p))
  let ws := maskFrom s.act.featureEn 0 (snapshotWords s.act e p onset)
  let slot := e.frame.toNat % Config.featureHistory
  { s with
    mem := publishPass s.mem (actK s) slot sp ws
    trackers := trackersOf ws
    mlVec := mlVector ws
    spec := { e with
      latest := BitVec.ofNat 32 slot
      valid := nextValid e.valid
      frame := e.frame + 1
      prevMag := sp.M } }

/-- analysisPass() (rule R472): the pass's writes under the sequence lock. -/
def analysisPass (s : State) : State := advanceSeq (passWrites (advanceSeq s))

/-! ## The command -/

/-- Ingests one mono sample; SPEC_SAMPLES_LO/HI and SPEC_PENDING follow (rule R451). -/
def ingestFrame (m : F32) (s : State) : State := { s with spec := ingest m s.spec }

/-- Whether the samples pending make a hop (rules R450, R452). -/
def hopDue (s : State) : Bool := s.spec.pending == s.act.hop

/-- A hop's samples are no longer pending (rules R450, R452). -/
def clearPending (s : State) : State := { s with spec := { s.spec with pending := 0 } }

/-- What follows the ingestion of a sample: the pass of the hop it completes, if any (rules R450, R452). -/
def afterIngest (s : State) : State := if hopDue s then analysisPass (clearPending s) else s

/-- Ingests one mono sample and runs the pass it completes, if any (rules R450, R451, R452). -/
def ingestAndAnalyse (m : F32) (s : State) : State := afterIngest (ingestFrame m s)

/-- The sample loop of rule R450 over a list of frame indices. -/
def specFrames (base : Nat) : List Nat → State → Res State
  | [], s => .next s
  | i :: rest, s => andThen (monoFrame s base i) fun m => specFrames base rest (ingestAndAnalyse m s)

/-- SPEC_PROCESS's body from frame `j` on, before its completion (rule R450). -/
def specFrom (k : BitVec 8) (frames : Word) (j : Nat) (s : State) : Res State :=
  specFrames (bufBase k.toNat) ((List.range (frameCount frames s)).drop j) s

/-- SPEC_PROCESS's body, after the prologue and before its completion (rule R450). -/
def specBlock (k : BitVec 8) (frames : Word) (s : State) : Res State := specFrom k frames 0 s

/-- SPEC_PROCESS (rule R450). -/
def execSpecProcess (k : BitVec 8) (frames : Word) (s : State) : Res State :=
  processCommand 0x04 k (specBlock k frames) s

end Sys2Proof.Machine
end

