-- ==== Sys2Proof/Machine/Control.lean ====
section
/-! DEFINITION. The control commands NOP and PREPARE (rules R201, R202, R203, R655). -/

namespace Sys2Proof.Machine

/-- NOP (rule R201). -/
def execNop (s : State) : Res State := .next (finish .ok 0x00 s)

/-! ## PREPARE's checks (rules R43, R202) -/

/-- Whether a word is nonzero and a power of two, by the test of rule R202. -/
def isPow2 (w : Word) : Bool := w != 0 && (w &&& (w - 1)) == 0

/-- Whether a binary32 is finite and greater than +0.0. -/
def finitePos (x : F32) : Bool := isFinite x && flt fZero x

/-- The "legal" column of rule R43, register by register in ascending offset order. -/
def cfgChecks (c : CfgRegs) : List (Word × Bool) :=
  [(0x040, 1 ≤ c.sampleRate.toNat && c.sampleRate.toNat ≤ 768000),
   (0x044, 1 ≤ c.maxBlock.toNat && c.maxBlock.toNat ≤ Config.maxBlock),
   (0x048, 1 ≤ c.channels.toNat && c.channels.toNat ≤ Config.maxChannels),
   (0x04C, 1 ≤ c.voices.toNat && c.voices.toNat ≤ Config.maxVoices),
   (0x050, isPow2 c.fftSize && 64 ≤ c.fftSize.toNat && c.fftSize.toNat ≤ 8192),
   (0x054, 1 ≤ c.hop.toNat && c.hop.toNat ≤ c.fftSize.toNat),
   (0x058, c.window.toNat ≤ 3),
   (0x05C, c.oversample.toNat = 1 || c.oversample.toNat = 2),
   (0x060, c.analogModel.toNat ≤ 3),
   (0x064, c.featureEn.toNat < 2 ^ 10),
   (0x068, finitePos c.pitchMin && flt c.pitchMin c.pitchMax),
   (0x06C, isFinite c.pitchMax && flt c.pitchMin c.pitchMax),
   (0x070, finitePos c.tempoMin && flt c.tempoMin c.tempoMax),
   (0x074, isFinite c.tempoMax && flt c.tempoMin c.tempoMax),
   (0x078, isFinite c.onsetLambda && fle fZero c.onsetLambda),
   (0x07C, true),
   (0x080, finitePos c.yinThresh && fle c.yinThresh fOne)]

/-- The offset of the first CFG_* register that violates its legal column, in ascending order (rules R40, R202). -/
def firstIllegal (c : CfgRegs) : Option Word := ((cfgChecks c).find? fun oc => !oc.2).map (·.1)

/-- PREPARE's checks in order (rules R202, R601): the failing result code and the value of CFG_ERR_FIELD, if any check
fails. -/
def prepareError (c : CfgRegs) : Option (ResultCode × Word) :=
  if c.sampleRate = 0 then some (.zeroSampleRate, 0x040)
  else if isPow2 c.fftSize = false then some (.fftNotPow2, 0x050)
  else (firstIllegal c).map fun o => (.range, o)

/-! ## PREPARE's effect (rules R203, R655) -/

/-- The spectral engine's state as PREPARE leaves it (rule R655). -/
def preparedSpec (window N : Nat) : SpecEngine :=
  { SpecEngine.reset with
    win := windowTable window N
    prevMag := Array.replicate (N / 2 + 1) fZero
    since := BitVec.allOnes 32 }

/-- PREPARE's effect up to its publication: the active configuration, EQG[2], the synth and the equalizer reset (rules
R203, R655). -/
def prepareLatch (s : State) : State :=
  publishSynth
    { s with
      act := s.cfg
      eqg := s.eqg.set 2 s.cfg.analogModel
      voices := idleVoices
      steals := 0
      eq := EqEngine.cleared
      luts := filledLuts }

/-- What PREPARE writes under the sequence lock: the spectral engine and everything it publishes (rule R655). -/
def prepareClear (s : State) : State :=
  { s with
    spec := preparedSpec s.act.window.toNat (actN s)
    mem := clearResults s.mem
    trackers := Trackers.zero
    mlVec := Vector.replicate 42 0 }

/-- PREPARE's last writes before its completion (rule R203). -/
def markPrepared (s : State) : State := { s with prepared := true, cfgErrField := 0 }

/-- PREPARE's effect when every check passes, before its completion (rules R203, R655). -/
def prepareEffect (s : State) : State := markPrepared (advanceSeq (prepareClear (advanceSeq (prepareLatch s))))

/-- PREPARE (rules R202, R203). -/
def execPrepare (s : State) : Res State :=
  match prepareError s.cfg with
  | some (code, field) => .next (finish code 0x01 { s with cfgErrField := field })
  | none => .next (finish .ok 0x01 (prepareEffect s))

end Sys2Proof.Machine
end

