-- ==== Sys2Proof/Machine/Voice.lean ====
section
/-! DEFINITION. SYN_RENDER and the per-voice signal path (rules R250 to R261, R265, R266): LFO, phase increment,
oscillators with band-limited step correction, state-variable filter, envelope, events and the output. -/

namespace Sys2Proof.Machine

/-! ## LFO and pitch -/

/-- The LFO's value at phase `p` (rule R259). -/
def lfoValue (s : State) (p : F32) : F32 :=
  match s.synp[10].toNat with
  | 0 => sinN (fmul fTwoPi p)
  | 1 => if flt p fHalf then fsub (fmul (f32OfNat 4) p) fOne else fsub (f32OfNat 3) (fmul (f32OfNat 4) p)
  | 2 => fsub (fmul fTwo p) fOne
  | _ => if flt p fHalf then fOne else fneg fOne

/-- The LFO's phase after one sample (rule R259). -/
def lfoNext (s : State) (p : F32) : F32 := frac (fadd p (fdiv (pLfoRate s) (actFs s)))

/-- freq(v), the frequency of a note (rule R252). -/
def noteFreq (note : BitVec 8) : F32 :=
  fmul (f32OfNat 440) (exp2N (fdiv (fsub (f32OfNat note.toNat) (f32OfNat 69)) (f32OfNat 12)))

/-- phaseInc(v, l) (rule R252). -/
def phaseInc (s : State) (note : BitVec 8) (l : F32) : F32 :=
  fclamp (fdiv (fmul (noteFreq note) (exp2N (fdiv (fmul (pLfoPitch s) l) (f32OfNat 12)))) (actFs s)) fZero
    (decimal 49 2)

/-! ## Oscillators -/

/-- blep(t, dt) (rule R258). -/
def blep (t dt : F32) : F32 :=
  if !flt fZero dt then fZero
  else if flt t dt then
    let x := fdiv t dt
    fsub (fsub (fadd x x) (fmul x x)) fOne
  else if flt (fsub fOne dt) t then
    let x := fdiv (fsub t fOne) dt
    fadd (fadd (fmul x x) (fadd x x)) fOne
  else fZero

/-- saw(t, dt) (rule R253). -/
def saw (t dt : F32) : F32 := fsub (fsub (fmul fTwo t) fOne) (blep t dt)

/-- square(t, dt) (rule R254). -/
def square (t dt : F32) : F32 :=
  let naive := if flt t fHalf then fOne else fneg fOne
  fsub (fadd naive (blep t dt)) (blep (frac (fadd t fHalf)) dt)

/-- The triangle integrator's next value (rule R255). -/
def triNext (tri t dt : F32) : F32 :=
  fadd (fmul (fmul (f32OfNat 4) dt) (square t dt)) (fmul (fsub fOne dt) tri)

/-- wavetable(t) (rule R256): reads WT[j] and WT[(j + 1) mod 2048] from the wavetable RAM. DESIGN CHOICE: the rule also
says that t = 0 returns WT[0] exactly, while its formula gives a NaN there where WT[1] - WT[0] is an infinity or a NaN,
and may give +0.0 for a WT[0] of -0.0; the model follows the formula. Log entry 26. -/
def wavetable (s : State) (t : F32) : Res F32 :=
  let pos := fmul t (f32OfNat 2048)
  let j := floorInt pos
  let fr := fsub pos (f32OfInt j)
  andThen (readWord s (wtBase + 4 * (j % 2048).toNat)) fun a =>
    andThen (readWord s (wtBase + 4 * ((j + 1) % 2048).toNat)) fun b =>
      .next (fadd a (fmul fr (fsub b a)))

/-- The oscillator's value at the voice's phase, before it advances, and the voice with its triangle or noise state
advanced (rule R251). -/
def oscillator (s : State) (v : Voice) (inc : F32) : Res (F32 × Voice) :=
  match s.synp[0].toNat with
  | 0 => .next (saw v.phase inc, v)
  | 1 => .next (square v.phase inc, v)
  | 2 =>
    let y := triNext v.tri v.phase inc
    .next (y, { v with tri := y })
  | 3 => andThen (wavetable s v.phase) fun y => .next (y, v)
  | _ =>
    let n := xorshift32 v.noise
    .next (noiseValue n, { v with noise := n })

/-! ## State-variable filter -/

/-- svf(v, x) (rule R260): the output and the voice with its integrators advanced. -/
def svf (s : State) (v : Voice) (x : F32) : F32 × Voice :=
  let g := tanN (fdiv (fmul fPi (pCutoff s)) (actFs s))
  let k := fdiv fOne (pQ s)
  let a1 := fdiv fOne (fadd fOne (fmul g (fadd g k)))
  let a2 := fmul g a1
  let a3 := fmul g a2
  let v3 := fsub x v.ic2
  let v1 := fadd (fmul a1 v.ic1) (fmul a2 v3)
  let v2 := fadd (fadd v.ic2 (fmul a2 v.ic1)) (fmul a3 v3)
  let y := match s.synp[7].toNat with
    | 0 => v2
    | 1 => fsub (fsub x (fmul k v1)) v2
    | 2 => v1
    | 3 => fsub x (fmul k v1)
    | _ => fadd (fsub (fmul fTwo v2) x) (fmul k v1)
  (y, { v with ic1 := fsub (fmul fTwo v1) v.ic1, ic2 := fsub (fmul fTwo v2) v.ic2 })

/-! ## Envelope -/

/-- The stage durations DA, DH, DD and DR in samples (rule R261). -/
structure Durations where
  attack : Word
  hold : Word
  decay : Word
  release : Word
  deriving DecidableEq, Repr

/-- The stage durations of the applied parameters (rule R261). -/
def durations (s : State) : Durations where
  attack := durSamples s s.synp[1]
  hold := durSamples s s.synp[2]
  decay := durSamples s s.synp[3]
  release := durSamples s s.synp[5]

/-- The duration of a stage and the stage after it; Idle and Sustain have neither (rule R261). -/
def stageEnd (d : Durations) : Stage → Option (Word × Stage)
  | .attack => some (d.attack, .hold)
  | .hold => some (d.hold, .decay)
  | .decay => some (d.decay, .sustain)
  | .release => some (d.release, .idle)
  | .idle => none
  | .sustain => none

/-- Passes zero-duration stages, at most `fuel` of them (rule R261). -/
def passStages (d : Durations) : Nat → Voice → Voice
  | 0, v => v
  | fuel + 1, v =>
    match stageEnd d v.stage with
    | some (len, next) => if len = 0 then passStages d fuel { v with stage := next, t := 0 } else v
    | none => v

/-- pr(D), the stage's normalised time (rule R261). -/
def progress (t d : Word) : F32 := fmin (fdiv (f32OfNat t.toNat) (f32OfNat d.toNat)) fOne

/-- The envelope's value in a voice's stage (rule R261). -/
def envValue (s : State) (d : Durations) (v : Voice) : F32 :=
  match v.stage with
  | .idle => fZero
  | .attack => powN (progress v.t d.attack) (pCurve s)
  | .hold => fOne
  | .decay => fsub fOne (fmul (fsub fOne (pSustain s)) (powN (progress v.t d.decay) (pCurve s)))
  | .sustain => pSustain s
  | .release => fmul v.relLevel (fsub fOne (powN (progress v.t d.release) (pCurve s)))

/-- Advances the stage's time and leaves the stage at its end (rule R261). -/
def advanceStage (d : Durations) (v : Voice) : Voice :=
  match stageEnd d v.stage with
  | some (len, next) =>
    if len.toNat ≤ (Word.satSucc v.t).toNat then { v with stage := next, t := 0 }
    else { v with t := Word.satSucc v.t }
  | none => v

/-- envStep(v) (rule R261): the value of this sample and the voice after it; a voice whose envelope reaches Idle leaves
the pool. -/
def envStep (s : State) (v : Voice) : F32 × Voice :=
  let d := durations s
  let v1 := passStages d 4 v
  let y := envValue s d v1
  let v2 := advanceStage d { v1 with value := y }
  (y, if v2.stage = .idle then { v2 with active := false } else v2)

/-! ## One voice, one sample -/

/-- voiceSample(v) (rule R251): the output sample and the voice after it. -/
def voiceSample (s : State) (v : Voice) : Res (F32 × Voice) :=
  let l := lfoValue s v.lfoPhase
  let inc := phaseInc s v.note l
  andThen (oscillator s v inc) fun (o, v1) =>
    let v2 := { v1 with lfoPhase := lfoNext s v.lfoPhase, phase := frac (fadd v.phase inc) }
    let a := fmul o (fadd fOne (fmul (pLfoAmp s) l))
    let (f, v3) := svf s v2 a
    let (e, v4) := envStep s v3
    .next (fmul (fmul f e) (fdiv (f32OfNat v.vel.toNat) (f32OfNat 127)), v4)

/-- The sum of the active voices of a list in its order (rules R250, R265), with their states advanced. -/
def mixVoices : List Nat → F32 → State → Res (F32 × State)
  | [], acc, s => .next (acc, s)
  | u :: rest, acc, s =>
    if isActive s u then
      andThen (voiceSample s (voiceAt s u)) fun (y, v) => mixVoices rest (fadd acc y) (nextDraw (setVoice u v s))
    else mixVoices rest acc s

/-- Writes one value to consecutive words, one for each channel of a frame (rules R109, R250). -/
def writeFrame (a : Nat) (out : Word) (s : State) : State :=
  { s with mem := Memory.setWords s.mem a (List.replicate (actC s) out) }

/-- The value of a frame, before it is written, and the state with the voices advanced (rule R250). DESIGN CHOICE: with a
gain of 0 the formula is followed where it gives no zero, for a sum that is an infinity or a NaN (rule R284). Log entry
26. -/
def frameOut (s : State) : Res (Word × State) :=
  andThen (mixVoices (List.range (actV s)) fZero s) fun (acc, s1) => .next (fmul acc (pGain s1), s1)

/-- Renders frame `i` of the block at `base` (rule R250). -/
def renderFrame (base i : Nat) (s : State) : Res State :=
  andThen (frameOut s) fun (out, s1) => .next (writeFrame (base + 4 * (i * actC s1)) out s1)

/-! ## Events -/

/-- The event word of event `e` (rules R107, R266). -/
def readEvent (e : Nat) (s : State) : Res Cmd :=
  andThen (readWord s (evtBase + 4 + 8 * e)) fun hi =>
    andThen (readWord s (evtBase + 8 * e)) fun lo => .next (Cmd.ofWords hi lo)

/-- Applies an event word (rule R266): an ill-formed one is ignored and counted. -/
def applyEventWord (w : Cmd) (s : State) : Res State :=
  match decodeWord .event w with
  | .ok (.noteOn note vel off) => execNoteOn note vel off s
  | .ok (.noteOff note off) => execNoteOff note off s
  | .ok _ => .next (countIllegal s)
  | .error _ => .next (countIllegal s)

/-- applyEvent(ei) (rule R266). -/
def applyEvent (e : Nat) (s : State) : Res State := andThen (readEvent e s) fun w => applyEventWord w s

/-- Whether event `ei` is due before sample `i` of a block of `n` frames, none being left from `cnt` on (rule R250). -/
def dueEvent (n cnt i ei : Nat) (s : State) : Res (Bool × State) :=
  if ei < cnt then
    andThen (readWord s (evtBase + 8 * ei)) fun off => .next (decide (min off.toNat (n - 1) ≤ i), nextDraw s)
  else .next (false, s)

/-- Applies, from event `ei` on, the events due before sample `i` of a block of `n` frames, at most `fuel` of them, and
says which event is next (rule R250). -/
def applyDue (n cnt i : Nat) : Nat → Nat → State → Res (Nat × State)
  | 0, ei, s => .next (ei, s)
  | fuel + 1, ei, s =>
    andThen (dueEvent n cnt i ei s) fun (due, s1) =>
      if due then andThen (applyEvent ei s1) fun s2 => applyDue n cnt i fuel (ei + 1) s2 else .next (ei, s1)

/-- Applies every event from `ei` on (rule R250: the loop after the samples). -/
def applyRest (cnt : Nat) : Nat → Nat → State → Res State
  | 0, _, s => .next s
  | fuel + 1, ei, s =>
    if ei < cnt then andThen (applyEvent ei s) fun s1 => applyRest cnt fuel (ei + 1) s1 else .next s

/-- The sample loop of rule R250 over a list of frame indices; answers the next event index and the state. -/
def renderFrames (base n cnt : Nat) : List Nat → Nat → State → Res (Nat × State)
  | [], ei, s => .next (ei, s)
  | i :: rest, ei, s =>
    andThen (applyDue n cnt i cnt ei s) fun (ej, s1) =>
      andThen (renderFrame base i s1) fun s2 => renderFrames base n cnt rest ej s2

/-- The end of SYN_RENDER's body: the events left from `ei` on, then the published statistics (rule R250). -/
def renderEnd (e : BitVec 16) (ei : Nat) (s : State) : Res State :=
  andThen (applyRest (eventCount e) (eventCount e) ei s) fun s1 => .next (publishSynth s1)

/-- SYN_RENDER's body from frame `j` and event `ej` on, before its completion (rule R250). -/
def renderFrom (k : BitVec 8) (e : BitVec 16) (frames : Word) (j ej : Nat) (s : State) : Res State :=
  let n := frameCount frames s
  andThen (renderFrames (bufBase k.toNat) n (eventCount e) ((List.range n).drop j) ej s) fun (ei, s1) =>
    renderEnd e ei s1

/-- SYN_RENDER's body, after the prologue and before its completion (rule R250). -/
def renderBlock (k : BitVec 8) (e : BitVec 16) (frames : Word) (s : State) : Res State := renderFrom k e frames 0 0 s

/-- SYN_RENDER (rule R250). -/
def execSynRender (k : BitVec 8) (e : BitVec 16) (frames : Word) (s : State) : Res State :=
  processCommand 0x02 k (renderBlock k e frames) s

end Sys2Proof.Machine
end

