-- ==== Sys2Proof/Machine/Dispatch.lean ====
section
/-! DEFINITION. The dispatch of each instruction to its meaning, one arm per constructor of Instr. -/

namespace Sys2Proof.Machine
open Sys2Proof

/-- The meaning of an instruction: the state after it, or why the machine stops. -/
def exec (i : Instr) (s : State) : Host.Outcome State Fault Refusal :=
  match i with
  | .nop => Sys2Proof.Machine.execNop s
  | .prepare => Sys2Proof.Machine.execPrepare s
  | .synRender k e n => Sys2Proof.Machine.execSynRender k e n s
  | .eqProcess k n => Sys2Proof.Machine.execEqProcess k n s
  | .specProcess k n => Sys2Proof.Machine.execSpecProcess k n s
  | .synWaveform v => Sys2Proof.Machine.execSynWaveform v s
  | .synAttack v => Sys2Proof.Machine.execSynAttack v s
  | .synHold v => Sys2Proof.Machine.execSynHold v s
  | .synDecay v => Sys2Proof.Machine.execSynDecay v s
  | .synSustain v => Sys2Proof.Machine.execSynSustain v s
  | .synRelease v => Sys2Proof.Machine.execSynRelease v s
  | .synCurve v => Sys2Proof.Machine.execSynCurve v s
  | .synFilterType v => Sys2Proof.Machine.execSynFilterType v s
  | .synFilterCutoff v => Sys2Proof.Machine.execSynFilterCutoff v s
  | .synFilterQ v => Sys2Proof.Machine.execSynFilterQ v s
  | .synLfoWaveform v => Sys2Proof.Machine.execSynLfoWaveform v s
  | .synLfoRate v => Sys2Proof.Machine.execSynLfoRate v s
  | .synLfoAmpDepth v => Sys2Proof.Machine.execSynLfoAmpDepth v s
  | .synLfoPitchDepth v => Sys2Proof.Machine.execSynLfoPitchDepth v s
  | .synGain v => Sys2Proof.Machine.execSynGain v s
  | .eqType b v => Sys2Proof.Machine.execEqType b v s
  | .eqFreq b v => Sys2Proof.Machine.execEqFreq b v s
  | .eqGain b v => Sys2Proof.Machine.execEqGain b v s
  | .eqQ b v => Sys2Proof.Machine.execEqQ b v s
  | .eqSlope b v => Sys2Proof.Machine.execEqSlope b v s
  | .eqDrive b v => Sys2Proof.Machine.execEqDrive b v s
  | .eqSaturation b v => Sys2Proof.Machine.execEqSaturation b v s
  | .eqMix b v => Sys2Proof.Machine.execEqMix b v s
  | .eqEnable b v => Sys2Proof.Machine.execEqEnable b v s
  | .eqSolo b v => Sys2Proof.Machine.execEqSolo b v s
  | .eqBypass b v => Sys2Proof.Machine.execEqBypass b v s
  | .eqInputGain v => Sys2Proof.Machine.execEqInputGain v s
  | .eqOutputGain v => Sys2Proof.Machine.execEqOutputGain v s
  | .eqModel v => Sys2Proof.Machine.execEqModel v s
  | .eqGlobalBypass v => Sys2Proof.Machine.execEqGlobalBypass v s
  | .noteOn note vel off => Sys2Proof.Machine.execNoteOn note vel off s
  | .noteOff note off => Sys2Proof.Machine.execNoteOff note off s

end Sys2Proof.Machine
end

