-- ==== Sys2Proof/Machine/Engine.lean ====
section
/-! DEFINITION. The engine (rules R30, R32, R200): its turn, which executes the command in progress to its completion, and
its parts, which take the same command a little further: the checks, a queue entry taken off, its setter, the words one
frame or sample reads, what it writes, the look at its hop, one publication. An
agent's access between two parts finds the command half way (rules R115, R118, R121, R211, R670). -/

namespace Sys2Proof.Machine

/-- The instruction of the command in progress (rule R200). -/
def fetch (s : State) : Except DecodeError Instr := decodeWord .doorbell s.latched

/-- A doorbell word whose opcode is no doorbell opcode completes with E_ILLEGAL_OPCODE and changes nothing else (rules
R156, R600, R601). -/
def illegalDoorbell (s : State) : State := finish .illegalOpcode (Cmd.op s.latched) s

/-! ## The operands of the command in progress -/

/-- k, the buffer index of the command in progress (rule R155). -/
def runBuffer (s : State) : BitVec 8 := Cmd.fieldA s.latched
/-- E, the event count of a SYN_RENDER in progress (rule R155). -/
def runEvents (s : State) : BitVec 16 := Cmd.fieldE s.latched
/-- n, the frames of the process command in progress (rule R204). -/
def runFrames (s : State) : Nat := frameCount (Cmd.fieldV s.latched) s

/-- How many frames, or in EQ_PROCESS samples, the body of the command in progress has (rules R250, R350, R365, R450). -/
def bodyLength (s : State) : Nat :=
  if Cmd.op s.latched = 0x03 then eqLength (runFrames s) s else runFrames s
/-- The address the body of the command in progress writes frame or sample `j` to, for a command that writes its buffer
(rules R109, R250, R350). -/
def bodyAddress (j : Nat) (s : State) : Nat :=
  bufBase (runBuffer s).toNat + 4 * (if Cmd.op s.latched = 0x03 then j else j * actC s)

/-! ## Racing host writes (rule R670) -/

/-- The offset of a word of the first `j` frames, or in EQ_PROCESS samples, of the command in progress, for a command that
writes its buffer: a SYN_RENDER, or an EQ_PROCESS that is not bypassed (rules R109, R250, R350, R365). -/
def inWritten (s : State) (j off : Nat) : Bool :=
  (Cmd.op s.latched == 0x02 || (Cmd.op s.latched == 0x03 && s.eqg[3] != 1)) &&
    decide (bodyAddress 0 s ≤ off) && decide (off < bodyAddress j s)

/-- Whether the completed command wrote the word at an offset: a sample of the block of a SYN_RENDER, or of an
EQ_PROCESS that is not bypassed, that completed with OK (rules R109, R250, R350, R365). -/
def engineWrote (s : State) (off : Nat) : Bool :=
  s.cmdResult.extractLsb' 0 8 == 0 && inWritten s (bodyLength s) off

/-- One racing host write takes its place in memory: a word the command wrote too ends with either value, freely (rule
R670). -/
def settleWord (s : State) (m : List Host.Cell) (r : Nat × Word) : List Host.Cell :=
  if engineWrote s r.1 && Config.raceKeepsEngine s.draws r.1 then m else Memory.setWord m r.1 r.2

/-- The state after a command's completion, with the racing host writes in memory (rule R670). Log entry 19. -/
def settleRaces (s : State) : State := { s with mem := s.raced.foldl (settleWord s) s.mem, raced := [] }

/-! ## The rest of a command that is under way -/

/-- What the command in progress does between its drain and its first frame (rules R350, R351). -/
def beginBody (s : State) : State := if Cmd.op s.latched = 0x03 then eqBegin s else s

/-- What the command in progress writes of frame or sample `j` once the words it reads have given `w` (rules R250, R350,
R451). -/
def writeBody (j : Nat) (w : Word) (s : State) : State :=
  match (Cmd.op s.latched).toNat with
  | 0x02 => writeFrame (bodyAddress j s) w s
  | 0x03 => writeWord s (bodyAddress j s) w
  | 0x04 => ingestFrame w s
  | _ => s

/-- What the command in progress does at the end of its body (rules R203, R250, R267). -/
def endBody (s : State) : State :=
  match (Cmd.op s.latched).toNat with
  | 0x01 => markPrepared s
  | 0x02 => publishSynth s
  | _ => s

/-- The body of the command in progress from frame or sample `j` and event `ej` on, before its completion (rules R200,
R203, R250, R350, R450). -/
def restOfBody (j ej : Nat) (s : State) : Res State :=
  match (Cmd.op s.latched).toNat with
  | 0x01 => .next (markPrepared s)
  | 0x02 => renderFrom (runBuffer s) (runEvents s) (Cmd.fieldV s.latched) j ej s
  | 0x03 => eqFrom (runBuffer s) (Cmd.fieldV s.latched) j s
  | 0x04 => specFrom (runBuffer s) (Cmd.fieldV s.latched) j s
  | _ => .next s

/-- The end of a publication in progress (rules R121, R472, R655). -/
def endPublication (s : State) : State :=
  advanceSeq (if Cmd.op s.latched = 0x01 then prepareClear s else passWrites s)

/-- The rest of the command in progress from where it has come, its completion included (rules R32, R200). A command
nothing of which is done is executed whole. -/
def restOfCommand (i : Instr) (s : State) : Res State :=
  let body (j ej : Nat) (t : State) : Res State :=
    andThen (restOfBody j ej t) fun u => .next (finish .ok (Cmd.op s.latched) u)
  match s.progress with
  | .start => exec i s
  | .draining t => andThen (drainTo t 31 s) fun s1 => body 0 0 (beginBody s1)
  | .applying t w => andThen (applyEntry w s) fun s1 => andThen (drainTo t 31 s1) fun s2 => body 0 0 (beginBody s2)
  | .beginning => body 0 0 (beginBody s)
  | .running j ej => body j ej s
  | .writing j ej w =>
    body (j + 1) ej (if Cmd.op s.latched = 0x04 then afterIngest (writeBody j w s) else writeBody j w s)
  | .ingested j => body j 0 (afterIngest s)
  | .publishing j => body j 0 (endPublication s)
  | .ending => .next (finish .ok (Cmd.op s.latched) (endBody s))
  | .finishing c => .next (finish c (Cmd.op s.latched) s)

/-- The engine's turn: the command in progress, from where it has come to its completion, in one step; nothing when no
command is in progress (rules R30, R200). Log entry 12. -/
def engineTurn (s : State) : Res State :=
  if s.busy then
    match fetch s with
    | .ok i => andThen (restOfCommand i s) fun t => .next (settleRaces t)
    | .error _ => .next (illegalDoorbell s)
  else .next s

/-! ## One part of a command

A part that reads words a host write can race with (the words of EVT, WT and the buffer) makes nothing visible after
them but ILLEGAL_COUNT: what it finds is written by the part that follows. So a host write made after a word was found
new cannot change what that word becomes (rules R114, R670, I15). -/

/-- The first part of a command: its checks (rules R156, R201, R202, R204). A PREPARE that passes them resets everything
up to its publication, which it begins (rules R203, R655); a process command takes its tail snapshot (rule R211). -/
def beginCommand (s : State) : State :=
  match (Cmd.op s.latched).toNat with
  | 0x00 => reach (.finishing .ok) s
  | 0x01 =>
    match prepareError s.cfg with
    | some (c, field) => reach (.finishing c) { s with cfgErrField := field }
    | none => reach (.publishing 0) (advanceSeq (prepareLatch s))
  | 0x02 | 0x03 | 0x04 =>
    match prologueError (runBuffer s) s with
    | some c => reach (.finishing c) s
    | none => reach (.draining s.tail) s
  | _ => reach (.finishing .illegalOpcode) s

/-- One part of the drain up to its tail snapshot `t`: an entry is taken off the queue, or the drain ends (rule R211). -/
def drainPart (t : Fin 32) (s : State) : State :=
  if s.head = t then reach .beginning s else reach (.applying t s.slots[s.head]) (popQueue s)

/-- The part after it: the entry `w` is applied (rule R211). -/
def applyPart (t : Fin 32) (w : Cmd) (s : State) : Res State :=
  andThen (applyEntry w s) fun s1 => .next (reach (.draining t) s1)

/-- One part of SYN_RENDER's body: an event due before frame `j`, the words that frame reads, an event left after the
frames, or the body's end (rule R250). -/
def renderPart (j ej : Nat) (s : State) : Res State :=
  let cnt := eventCount (runEvents s)
  let event (t : State) : Res State := andThen (applyEvent ej t) fun u => .next (reach (.running j (ej + 1)) u)
  if j < bodyLength s then
    andThen (dueEvent (runFrames s) cnt j ej s) fun (due, s1) =>
      if due then event s1
      else andThen (frameOut s1) fun (out, s2) => .next (reach (.writing j ej out) s2)
  else if ej < cnt then event s
  else .next (reach .ending s)

/-- One part of EQ_PROCESS's body: the word sample `j` reads, or the body's end (rules R350, R365). -/
def eqPart (j : Nat) (s : State) : Res State :=
  if j < bodyLength s then
    andThen (sampleOut (bufBase (runBuffer s).toNat) j s) fun (v, s1) => .next (reach (.writing j 0 v) s1)
  else .next (reach .ending s)

/-- One part of SPEC_PROCESS's body: the words frame `j` reads, or the body's end (rule R450). -/
def specPart (j : Nat) (s : State) : Res State :=
  if j < bodyLength s then
    andThen (monoFrame s (bufBase (runBuffer s).toNat) j) fun m => .next (reach (.writing j 0 m) s)
  else .next (reach .ending s)

/-- One part of the body of the command in progress at frame or sample `j` and event `ej`. -/
def bodyPart (j ej : Nat) (s : State) : Res State :=
  match (Cmd.op s.latched).toNat with
  | 0x02 => renderPart j ej s
  | 0x03 => eqPart j s
  | 0x04 => specPart j s
  | _ => .next (reach .ending s)

/-- The part after it: the frame or sample `j` is written, or ingested (rules R250, R350, R451). Where a part ends is the
model's choice (DESIGN CHOICE, log entry 12): after an ingestion SPEC_PENDING may be the hop. -/
def writePart (j ej : Nat) (w : Word) (s : State) : State :=
  reach (if Cmd.op s.latched = 0x04 then .ingested (j + 1) else .running (j + 1) ej) (writeBody j w s)

/-- The part after an ingestion: if the sample completes a hop, SPEC_PENDING is cleared and a pass begins (rules R450,
R452, R472). -/
def hopPart (j : Nat) (s : State) : State :=
  if hopDue s then reach (.publishing j) (advanceSeq (clearPending s)) else reach (.running j 0) s

/-- The part that ends a publication (rules R121, R472, R655). -/
def publishPart (j : Nat) (s : State) : State :=
  reach (if Cmd.op s.latched = 0x01 then .ending else .running j 0) (endPublication s)

/-- One part of the command in progress; its completion is left to the engine's turn (rules R30, R32, R200). Log entry
12. -/
def enginePart (s : State) : Res State :=
  if s.busy then
    match s.progress with
    | .start => .next (beginCommand s)
    | .draining t => .next (drainPart t s)
    | .applying t w => applyPart t w s
    | .beginning => .next (reach (.running 0 0) (beginBody s))
    | .running j ej => bodyPart j ej s
    | .writing j ej w => .next (writePart j ej w s)
    | .ingested j => .next (hopPart j s)
    | .publishing j => .next (publishPart j s)
    | .ending => .next (reach (.finishing .ok) (endBody s))
    | .finishing _ => .next s
  else .next s

/-! ## What a reader may already see -/

/-- SPEC_SEQ is odd: the command in progress is inside a publication (rule R121). -/
def publishing (s : State) : Bool :=
  s.busy &&
    match s.progress with
    | .publishing _ => true
    | .start | .draining _ | .applying _ _ | .beginning | .running _ _ | .writing _ _ _ | .ingested _ | .ending
    | .finishing _ => false

/-- The state whose words an access may already find while the command in progress takes its next part; of a command
at its end, the state its completion leaves, but for BUSY (rules R118, R200, R670). No access finds a part early whose
outcome a later access can change (rules R114, R670): a part that reads words a host write can race with, or one that
takes an entry off the queue, since a push tells where its head stands. -/
def upcoming (s : State) : State :=
  match s.progress with
  | .draining _ | .running _ _ => s
  | .finishing c => { finish c (Cmd.op s.latched) s with busy := true }
  | .start | .applying _ _ | .beginning | .writing _ _ _ | .ingested _ | .publishing _ | .ending =>
    match enginePart s with
    | .next t => t
    | .fault _ => s
    | .refused _ => s

end Sys2Proof.Machine
end

