-- ==== Sys2Proof/Machine/Bus.lean ====
section
/-! DEFINITION. The block's port: the CSR map (rules R33 to R54), host reads and writes of every region (rules R100 to
R106, R113), the doorbell (rules R37, R200), pushes (rule R210), accesses made while a command is in progress (rules R118,
R121, R670), and the agents' accesses at platform addresses with the host duties they owe (rules R30, R100, R682). -/

namespace Sys2Proof.Machine

/-! ## The CSR map (rule R34) -/

/-- The 17 configuration registers in ascending offset order (rule R43). -/
def cfgWords (c : CfgRegs) : List Word :=
  [c.sampleRate, c.maxBlock, c.channels, c.voices, c.fftSize, c.hop, c.window, c.oversample, c.analogModel, c.featureEn,
    c.pitchMin, c.pitchMax, c.tempoMin, c.tempoMax, c.onsetLambda, c.onsetRefract, c.yinThresh]

/-- Writes configuration register `i` in ascending offset order (rule R43); there is none from 17 on. -/
def setCfgWord (i : Nat) (v : Word) (c : CfgRegs) : CfgRegs :=
  match i with
  | 0 => { c with sampleRate := v }
  | 1 => { c with maxBlock := v }
  | 2 => { c with channels := v }
  | 3 => { c with voices := v }
  | 4 => { c with fftSize := v }
  | 5 => { c with hop := v }
  | 6 => { c with window := v }
  | 7 => { c with oversample := v }
  | 8 => { c with analogModel := v }
  | 9 => { c with featureEn := v }
  | 10 => { c with pitchMin := v }
  | 11 => { c with pitchMax := v }
  | 12 => { c with tempoMin := v }
  | 13 => { c with tempoMax := v }
  | 14 => { c with onsetLambda := v }
  | 15 => { c with onsetRefract := v }
  | 16 => { c with yinThresh := v }
  | _ => c

/-- The ten tracker registers in ascending offset order (rule R47). -/
def trackerWords (s : State) : List Word :=
  [s.trackers.pitchHz, s.trackers.pitchConf, s.trackers.onsetStrength, s.trackers.onsetFlag, s.spec.since,
    s.spec.onsets, s.trackers.tempoBpm, s.trackers.tempoConf, s.trackers.harmRatio, s.trackers.percRatio]

/-- The registers at 0x000 to 0x03C (rules R35 to R42); a write-only or reserved one reads 0 (rules R33, R54). -/
def controlWords (s : State) : List Word :=
  [0x56455331, 0x00070001, statusWord s, s.cmdLo, s.cmdHi, s.cmdResult, s.cmdCount, s.busyDrop, s.illegalCount,
    s.cfgErrField, s.lastCycles, 0, 0, 0, pqStatusWord s, s.pqOverflow]

/-- The registers at 0x120 to 0x138 (rule R46). -/
def publicationWords (s : State) : List Word :=
  [s.specSeq, s.spec.frame, s.spec.latest, s.spec.valid, s.spec.samples.extractLsb' 0 32,
    s.spec.samples.extractLsb' 32 32, s.spec.pending]

/-- Word `i` of a bank of registers; 0 past its end (rule R54). -/
def bankWord (ws : List Word) (i : Nat) : Word := ws.getD i 0

/-- The value of the CSR at an aligned offset below 0x1000 (rules R34, R54). -/
def readCsr (s : State) (off : Nat) : Word :=
  if off < 0x040 then bankWord (controlWords s) (off / 4)
  else if off < 0x0C0 then bankWord (cfgWords s.cfg) ((off - 0x040) / 4)
  else if off < 0x110 then bankWord (cfgWords s.act) ((off - 0x0C0) / 4)
  else if off < 0x120 then bankWord [s.synActive, s.synSteals] ((off - 0x110) / 4)
  else if off < 0x140 then bankWord (publicationWords s) ((off - 0x120) / 4)
  else if off < 0x180 then bankWord (trackerWords s) ((off - 0x140) / 4)
  else if off < 0x300 then bankWord s.mlVec.toList ((off - 0x180) / 4)
  else if off < 0x380 then bankWord s.voiceStatus.toList ((off - 0x300) / 4)
  else if off < 0x400 then bankWord s.voiceAge.toList ((off - 0x380) / 4)
  else if off < 0x480 then bankWord s.synp.toList ((off - 0x400) / 4)
  else if off < 0x500 then bankWord s.eqg.toList ((off - 0x480) / 4)
  else if off < 0x700 then
    bankWord (s.eqb.getD ((off - 0x500) / 0x40) (Vector.replicate 11 0)).toList ((off - 0x500) % 0x40 / 4)
  else if off < 0x800 then
    bankWord (s.eqc.getD ((off - 0x700) / 0x20) (Vector.replicate 5 0)).toList ((off - 0x700) % 0x20 / 4)
  else 0

/-! ## Writes -/

/-- The words of the CSR map that hold registers, from offset 0 on (rule R34). -/
def csrWords (s : State) : List Word := (List.range 512).map fun i => readCsr s (4 * i)

/-- The command `w` is latched and starts, nothing of it done yet (rules R32, R200). What the words held before it is
kept: a read may find it while the command runs (rule R118; log entry 13). -/
def startCommand (w : Cmd) (s : State) : State :=
  { s with latched := w, busy := true, progress := .start, oldCsrs := csrWords s, oldMem := s.mem }

/-- A write of `h` to CMD_HI (rules R37, R200): dropped and counted while a command is in progress, else it latches
`{h, CMD_LO}` and starts the command. -/
def ringDoorbell (h : Word) (s : State) : State :=
  if s.busy then { s with busyDrop := s.busyDrop + 1 }
  else startCommand (Cmd.ofWords h s.cmdLo) { s with cmdHi := h }

/-- A host write of the CSR at an aligned offset below 0x1000 (rules R33, R37, R42, R43); every other register is
read-only or reserved and the write is ignored. A CFG_* write while a PREPARE is in progress breaks host duty H3 (rules
R670, R682, I16). -/
def writeCsr (off : Nat) (v : Word) (s : State) : Res State :=
  if off = 0x00C then .next { s with cmdLo := v }
  else if off = 0x010 then .next (ringDoorbell v s)
  else if off = 0x030 then .next { s with pushLatch := v }
  else if off = 0x034 then .next (pushQueue v s)
  else if 0x040 ≤ off ∧ off ≤ 0x080 then
    if s.busy = true ∧ Cmd.op s.latched = 0x01 then .refused (.hostDuty off)
    else .next { s with cfg := setCfgWord ((off - 0x040) / 4) v s.cfg }
  else .next s

/-- Whether a host write to a region races with the command in progress: EVT and WT words with a SYN_RENDER, words of
the buffer a process command names with that command (rule R670). -/
def racesWith (r : Region) (s : State) : Bool :=
  s.busy &&
    match r with
    | .evt => Cmd.op s.latched == 0x02
    | .wt => Cmd.op s.latched == 0x02
    | .buf k =>
      (Cmd.op s.latched == 0x02 || Cmd.op s.latched == 0x03 || Cmd.op s.latched == 0x04) &&
        (Cmd.fieldA s.latched).toNat == k.val
    | .csr => false
    | .hist => false
    | .mag => false
    | .phase => false
    | .power => false

/-- A host write to a RAM word: stored; while it races with the command in progress, kept beside the value the word
held, since the engine may see either (rules R101, R106, R113, R670). Log entry 19. -/
def writeRam (r : Region) (off : Nat) (v : Word) (s : State) : State :=
  if racesWith r s then { s with raced := s.raced ++ [(off, v)] } else writeWord s off v

/-- A host write of a word at an aligned offset of a mapped region (rules R101, R106). -/
def hostWrite (r : Region) (off : Nat) (v : Word) (s : State) : Res State :=
  match r with
  | .csr => writeCsr off v s
  | .evt => .next (writeRam r off v s)
  | .wt => .next (writeRam r off v s)
  | .buf _ => .next (writeRam r off v s)
  | .hist => .next s
  | .mag => .next s
  | .phase => .next s
  | .power => .next s

/-! ## Reads -/

/-- The word at an aligned offset of a mapped region; a RAM word nothing has written is a draw (rules R101, R112, I7,
I8). -/
def plainRead (r : Region) (off : Nat) (s : State) (draw : Nat) : Word :=
  match r with
  | .csr => readCsr s off
  | .evt => (Memory.word s.mem off).getD (Config.hostWord draw)
  | .wt => (Memory.word s.mem off).getD (Config.hostWord draw)
  | .buf _ => (Memory.word s.mem off).getD (Config.hostWord draw)
  | .hist => (Memory.word s.mem off).getD (Config.hostWord draw)
  | .mag => (Memory.word s.mem off).getD (Config.hostWord draw)
  | .phase => (Memory.word s.mem off).getD (Config.hostWord draw)
  | .power => (Memory.word s.mem off).getD (Config.hostWord draw)

/-- Whether an offset holds data published under the sequence lock: SPEC_SEQ, SPEC_FRAME, SPEC_LATEST, SPEC_VALID, the
tracker registers, ML_VEC and the result windows (rule R121). SPEC_SAMPLES_LO/HI and SPEC_PENDING, updated per sample
(rule R451), are not: while a command runs a read may find each of them old or new, whatever the others are found to be.
How such a read finds them is the model's choice (DESIGN CHOICE, log entry 13). -/
def isSpectral (r : Region) (off : Nat) : Bool :=
  match r with
  | .csr => decide ((0x120 ≤ off ∧ off ≤ 0x12C) ∨ (0x140 ≤ off ∧ off ≤ 0x224))
  | .hist => true
  | .mag => true
  | .phase => true
  | .power => true
  | .evt => false
  | .wt => false
  | .buf _ => false

/-- Whether the engine writes the CSR at an aligned offset (rules R36, R38 to R42, R44 to R53); the host writes the
others, or nobody does. -/
def engineCsr (off : Nat) : Bool :=
  decide (off = 0x008 ∨ (0x014 ≤ off ∧ off ≤ 0x018) ∨ (0x020 ≤ off ∧ off ≤ 0x028) ∨ off = 0x038 ∨
    (0x0C0 ≤ off ∧ off ≤ 0x100) ∨ (0x110 ≤ off ∧ off ≤ 0x114) ∨ (0x120 ≤ off ∧ off ≤ 0x138) ∨
    (0x140 ≤ off ∧ off ≤ 0x164) ∨ (0x180 ≤ off ∧ off ≤ 0x224) ∨ (0x300 ≤ off ∧ off ≤ 0x3FC) ∨
    (0x400 ≤ off ∧ off ≤ 0x438) ∨ (0x480 ≤ off ∧ off ≤ 0x48C) ∨
    (0x500 ≤ off ∧ off < 0x700 ∧ off % 0x40 < 0x2C) ∨ (0x700 ≤ off ∧ off < 0x800 ∧ off % 0x20 < 0x14))

/-- Whether the command in progress may write the word at an aligned offset of a region (rules R250, R350, R464, R471). -/
def engineMayWrite (r : Region) (off : Nat) (s : State) : Bool :=
  match r with
  | .csr => engineCsr off
  | .buf _ => inWritten s (bodyLength s) off
  | .hist => true
  | .mag => true
  | .phase => true
  | .power => true
  | .evt => false
  | .wt => false

/-- The block as the host sees it before the next part of the command in progress: its own racing writes are performed
(rule R115). -/
def hostView (s : State) : State :=
  { s with mem := s.raced.foldl (fun m r => Memory.setWord m r.1 r.2) s.mem }

/-- Whether the command in progress, at the point `t` of it, has written the word at an offset, a sample of its buffer
(rules R250, R350). -/
def hasWritten (t : State) (off : Nat) : Bool :=
  match t.progress with
  | .running j _ | .writing j _ _ => inWritten t j off
  | .ending | .finishing .ok => inWritten t (bodyLength t) off
  | .finishing _ | .start | .draining _ | .applying _ _ | .beginning | .ingested _ | .publishing _ => false

/-- The word at an offset as the host finds it at the point `t` of the command in progress: a word the host has raced
for, and the command has not written, holds the host's value (rules R115, R670). -/
def wordAt (r : Region) (off : Nat) (t : State) (draw : Nat) : Word :=
  plainRead r off (if hasWritten t off then t else hostView t) draw

/-- Whether a read of a word, while a command is in progress, races with the command's writes: the command may write
it, and it is not data the sequence lock guards outside a publication. SPEC_SEQ itself is found as it is (rules R118,
R121, R670). Words outside the lock, SPEC_SAMPLES_LO/HI and SPEC_PENDING among them, race at every point of the command
(DESIGN CHOICE, log entry 13). -/
def readRaces (r : Region) (off : Nat) (s : State) : Bool :=
  engineMayWrite r off s && (!isSpectral r off || (publishing s && !(r == .csr && off == 0x120)))

/-- The word at an offset as it was before the command in progress (rule R118), but for BUSY, which the command's start
has set (rule R116), and but for what the host has written since, which it finds (rule R115). -/
def wordBefore (r : Region) (off : Nat) (s : State) (draw : Nat) : Word :=
  if r = .csr then
    let w := bankWord s.oldCsrs (off / 4)
    if off = 0x008 then w ||| 2 else w
  else plainRead r off (hostView { s with mem := s.oldMem }) draw

/-- What a host read returns while a command is in progress (rules R118, R121, R670, I15): of a word that races with the
command, freely its value before the command, the one the next part of the command leaves, or the one it has now; of a
word that a racing host write has changed, freely that value or the command's; of any other word the one it has. Log
entry 13. -/
def busyRead (r : Region) (off : Nat) (s : State) : Word :=
  let draw := s.hostDraws
  if readRaces r off s && Config.raceSeesOld draw then wordBefore r off s draw
  else if readRaces r off s && Config.raceSeesNew draw then wordAt r off (upcoming s) draw
  else if Config.raceSeesHost draw then plainRead r off (hostView s) draw
  else wordAt r off s draw

/-- A host read of a word at an aligned offset of a mapped region: only the data returned and the draw counter change
(rule R113). -/
def hostRead (r : Region) (off : Nat) (s : State) : State :=
  { s with
    readData := if s.busy then busyRead r off s else plainRead r off s s.hostDraws
    hostDraws := s.hostDraws + 1 }

/-! ## Accesses -/

/-- The region of an access of the one legal width at an aligned, mapped offset (rules R103, R104, R105). -/
def accessRegion (width off : Nat) : Option Region :=
  if width = 4 ∧ off % 4 = 0 then regionOf off else none

/-- One host-side access: performed, or a bus error (rules R104, R105). -/
def access (a : Access) (s : State) : Res State :=
  match a with
  | .read width off =>
    match accessRegion width off with
    | some r => .next (hostRead r off s)
    | none => .fault (.busError off)
  | .write width off v =>
    match accessRegion width off with
    | some r => hostWrite r off v s
    | none => .fault (.busError off)

/-! ## The agents (rules R30, R100, R682) -/

/-- The byte offset of a platform address in the block's window of 512 KiB at BLOCK_BASE, if it lies there (rule R100,
I6). -/
def offsetOf (addr : Nat) : Option Nat :=
  if Config.blockBase ≤ addr ∧ addr < Config.blockBase + 0x80000 then some (addr - Config.blockBase) else none

/-- Whether another agent than `agent` has taken a role. -/
def takenByAnother (role : Option Nat) (agent : Nat) : Bool := role.any (· != agent)

/-- Whether a write at an offset breaks a host duty (rule R682, I16): CMD_HI belongs to one agent (H1); the queue belongs
to one producer, which writes the LO word of a push before its HI word (H2). Log entry 22. -/
def breaksDuty (agent off : Nat) (s : State) : Bool :=
  if off = 0x010 then takenByAnother s.doorbellAgent agent
  else if off = 0x030 then takenByAnother s.producer agent
  else if off = 0x034 then takenByAnother s.producer agent || !s.pushLow
  else false

/-- The agent of a write to the doorbell or to the queue is remembered, and whether the LO word of the next push has been
written (rule R682). Log entry 22. -/
def noteAgent (agent off : Nat) (s : State) : State :=
  if off = 0x010 then { s with doorbellAgent := some agent }
  else if off = 0x030 then { s with producer := some agent, pushLow := true }
  else if off = 0x034 then { s with producer := some agent, pushLow := false }
  else s

/-- An agent's access at a platform address (rules R30, R100, R682): the access at its offset. A write that the block would
perform and that breaks a host duty is refused; one of a bad width, alignment or offset is the bus error of any access
(rules R104, R105, I11). -/
def agentAccess (agent : Nat) (a : Access) (s : State) : Res State :=
  match a with
  | .read width addr =>
    match offsetOf addr with
    | some off => access (.read width off) s
    | none => .fault (.outsideWindow addr)
  | .write width addr v =>
    match offsetOf addr with
    | some off =>
      if (accessRegion width off).isSome && breaksDuty agent off s then .refused (.hostDuty off)
      else access (.write width off v) (noteAgent agent off s)
    | none => .fault (.outsideWindow addr)

/-! ## Turns -/

/-- The platform's reset input (rule R650). The turns still to be taken, the data of the last host read, the draw
counters and which agents ring and push are not the block's and stay. Log entry 18. -/
def hardwareReset (s : State) : State :=
  { State.reset with
    agenda := s.agenda
    readData := s.readData
    draws := s.draws
    hostDraws := s.hostDraws
    doorbellAgent := s.doorbellAgent
    producer := s.producer }

/-- One turn: an agent's access, the engine's turn or a part of it, or the reset input (rules R30, R115, R650). -/
def takeTurn (t : Turn) (s : State) : Res State :=
  match t with
  | .access agent a => agentAccess agent a s
  | .engine => engineTurn s
  | .part => enginePart s
  | .reset => .next (hardwareReset s)

/-- The machine's step: the next turn of the agenda; with an empty agenda the engine's. -/
def nextTurn (s : State) : Res State :=
  match s.agenda with
  | [] => engineTurn s
  | t :: rest => takeTurn t { s with agenda := rest }

/-! ## Placing an instruction (the host's fetch) -/

/-- Starts a command as the doorbell does and gives the engine the next turn (rule R200). -/
def latchCommand (w : Cmd) (s : State) : State := { startCommand w s with agenda := [] }

/-- The block as a successful PREPARE latches it, without its engine reset: PREPARED with an active configuration; no
change if it is prepared already. -/
def latchConfig (s : State) : State := if s.prepared then s else { s with prepared := true, act := s.cfg }

/-- Places a command word where the next step runs it, by its channel (rule R152): a doorbell word is latched; a queue
word is the one entry of the queue and a SPEC_PROCESS of 0 frames drains it; an event word is event 0 and a SYN_RENDER
of 0 frames and 1 event applies it. Log entry 16. -/
def placeCommand (w : Cmd) (s : State) : State :=
  match channelOfOpcode (Cmd.op w) with
  | .doorbell => latchCommand w s
  | .queue =>
    latchCommand (encode (.specProcess 0 0))
      { latchConfig s with slots := s.slots.set s.head w, tail := s.head + 1 }
  | .event =>
    latchCommand (encode (.synRender 0 1 0))
      { latchConfig s with
        mem := Memory.setWord (Memory.setWord s.mem evtBase (Cmd.lo w)) (evtBase + 4) (Cmd.hi w) }

end Sys2Proof.Machine
end

