-- ==== Sys2Proof/Machine/Step.lean ====
section
/-! DEFINITION. One step of the machine: the next turn of the agenda, or the engine's turn when the agenda is empty; and
the host's way to place an instruction where the next step runs it. -/

namespace Sys2Proof.Machine

/-- One step of the machine (rules R30, R115). -/
def step (s : State) : Host.Outcome State Fault Refusal := nextTurn s

/-- `s` with the instruction of `nbits` bits `w` placed where the next step runs it. -/
def State.withFetchWord (s : State) (nbits w : Nat) : State := placeCommand (BitVec.ofNat 64 (w % 2 ^ nbits)) s

end Sys2Proof.Machine
end

