-- ==== Sys2Proof/Safety.lean ====
section
/-! DEFINITION. What a safe run is and what a legal state is, in the terms the statements use: steps that go on,
readable words, legal parameters, the active configuration, voices and publication state, and the accuracy contract of
the `Numerics` record (rules R14, R463, I1, I2), which a claim may take as a hypothesis. -/

namespace Sys2Proof.Machine

/-! ## Steps that go on -/

/-- The machine goes on: its step answers a next state. -/
def stepsOn (s : State) : Prop := ∃ t, step s = .next t

/-- A word of the block's RAM holds a value (rule R112). -/
def readable (s : State) (a : Nat) : Bool := (Memory.word s.mem a).isSome

/-- The `n` words from an offset on all hold a value. -/
def readableWords (s : State) (a n : Nat) : Bool := (List.range n).all fun j => readable s (a + 4 * j)

/-- `t` is `s` with the registers a command's completion writes (rules R38, R200): the opcode and the code in
CMD_RESULT, CMD_COUNT one higher, some value in LAST_CYCLES and BUSY clear; no command is under way any more. -/
def completedWith (op code : BitVec 8) (s t : State) : Prop :=
  ∃ cycles : Word, t = { s with
    cmdResult := 0#16 ++ op ++ code
    cmdCount := s.cmdCount + 1
    lastCycles := cycles
    draws := s.draws + 1
    busy := false
    progress := .start }

/-- The samples a command of `frames` frames covers in a buffer (rule R109). -/
def blockWords (frames : Word) (s : State) : Nat := frameCount frames s * actC s

/-- The words in the queue, oldest first: the entries from the head up to the tail (rule R211). -/
def queued (s : State) : List Cmd :=
  (List.range (queueDepth s)).map fun j => s.slots.getD ((s.head.val + j) % 32) 0

/-- Applies a list of queue words in order (rule R211). -/
def applyEntries : List Cmd → State → Res State
  | [], s => .next s
  | w :: ws, s => andThen (applyEntry w s) (applyEntries ws)

/-- Applies a list of event words in order (rule R266). -/
def applyEventWords : List Cmd → State → Res State
  | [], s => .next s
  | w :: ws, s => andThen (applyEventWord w s) (applyEventWords ws)

/-- The offset an event word carries, clamped to the last frame of a block of `n` frames (rules R107, R250). -/
def eventFrame (n : Nat) (w : Cmd) : Nat := min (Cmd.lo w).toNat (n - 1)

/-- Renders the frames of a list, each after the events not yet applied whose clamped offset it has reached, in index
order and up to the first one later than it; then applies the events that are left (rule R250). The buffer is at `base`
and the block has `n` frames. -/
def renderWithEvents (base n : Nat) : List Nat → List Cmd → State → Res State
  | [], ws, s => applyEventWords ws s
  | i :: is, ws, s =>
    andThen (applyEventWords (ws.takeWhile fun w => eventFrame n w ≤ i) s) fun s1 =>
      andThen (renderFrame base i s1) (renderWithEvents base n is (ws.dropWhile fun w => eventFrame n w ≤ i))

/-- The bits of a command word an instruction reads besides the opcode (rule R155): A, B and C, and V. -/
def operandMask (i : Instr) : Cmd :=
  match i with
  | .nop => 0
  | .prepare => 0
  | .synRender _ _ _ => 0x00FFFFFFFFFFFFFF
  | .eqProcess _ _ => 0x00FF0000FFFFFFFF
  | .specProcess _ _ => 0x00FF0000FFFFFFFF
  | .noteOn _ _ _ => 0x00FFFF00FFFFFFFF
  | .noteOff _ _ => 0x00FF0000FFFFFFFF
  | .synWaveform _ => 0x0000FF00FFFFFFFF
  | .synAttack _ => 0x0000FF00FFFFFFFF
  | .synHold _ => 0x0000FF00FFFFFFFF
  | .synDecay _ => 0x0000FF00FFFFFFFF
  | .synSustain _ => 0x0000FF00FFFFFFFF
  | .synRelease _ => 0x0000FF00FFFFFFFF
  | .synCurve _ => 0x0000FF00FFFFFFFF
  | .synFilterType _ => 0x0000FF00FFFFFFFF
  | .synFilterCutoff _ => 0x0000FF00FFFFFFFF
  | .synFilterQ _ => 0x0000FF00FFFFFFFF
  | .synLfoWaveform _ => 0x0000FF00FFFFFFFF
  | .synLfoRate _ => 0x0000FF00FFFFFFFF
  | .synLfoAmpDepth _ => 0x0000FF00FFFFFFFF
  | .synLfoPitchDepth _ => 0x0000FF00FFFFFFFF
  | .synGain _ => 0x0000FF00FFFFFFFF
  | .eqInputGain _ => 0x0000FF00FFFFFFFF
  | .eqOutputGain _ => 0x0000FF00FFFFFFFF
  | .eqModel _ => 0x0000FF00FFFFFFFF
  | .eqGlobalBypass _ => 0x0000FF00FFFFFFFF
  | .eqType _ _ => 0x00FFFF00FFFFFFFF
  | .eqFreq _ _ => 0x00FFFF00FFFFFFFF
  | .eqGain _ _ => 0x00FFFF00FFFFFFFF
  | .eqQ _ _ => 0x00FFFF00FFFFFFFF
  | .eqSlope _ _ => 0x00FFFF00FFFFFFFF
  | .eqDrive _ _ => 0x00FFFF00FFFFFFFF
  | .eqSaturation _ _ => 0x00FFFF00FFFFFFFF
  | .eqMix _ _ => 0x00FFFF00FFFFFFFF
  | .eqEnable _ _ => 0x00FFFF00FFFFFFFF
  | .eqSolo _ _ => 0x00FFFF00FFFFFFFF
  | .eqBypass _ _ => 0x00FFFF00FFFFFFFF

/-- The words a queue entry may be (rule R156): a queue opcode with its selectors in range. -/
def queueWordLegal (w : Cmd) : Prop :=
  (Cmd.op w = 0x10 ∧ (Cmd.fieldB w).toNat < 15) ∨
  (Cmd.op w = 0x20 ∧ (Cmd.fieldA w).toNat < 8 ∧ (Cmd.fieldB w).toNat < 11) ∨
  (Cmd.op w = 0x21 ∧ (Cmd.fieldB w).toNat < 4)

/-! ## Legal configurations (rule R43) -/

/-- The "legal" column of rule R43 for the configuration register at offset 0x040 + 4 x `i`. -/
def cfgRegLegal (c : CfgRegs) (i : Nat) : Prop :=
  match i with
  | 0 => 1 ≤ c.sampleRate.toNat ∧ c.sampleRate.toNat ≤ 768000
  | 1 => 1 ≤ c.maxBlock.toNat ∧ c.maxBlock.toNat ≤ 4096
  | 2 => c.channels = 1 ∨ c.channels = 2
  | 3 => 1 ≤ c.voices.toNat ∧ c.voices.toNat ≤ 32
  | 4 => ∃ e, 6 ≤ e ∧ e ≤ 13 ∧ c.fftSize.toNat = 2 ^ e
  | 5 => 1 ≤ c.hop.toNat ∧ c.hop.toNat ≤ c.fftSize.toNat
  | 6 => c.window.toNat ≤ 3
  | 7 => c.oversample = 1 ∨ c.oversample = 2
  | 8 => c.analogModel.toNat ≤ 3
  | 9 => c.featureEn.toNat < 2 ^ 10
  | 10 => isFinite c.pitchMin = true ∧ flt fZero c.pitchMin = true ∧ flt c.pitchMin c.pitchMax = true
  | 11 => isFinite c.pitchMax = true ∧ flt c.pitchMin c.pitchMax = true
  | 12 => isFinite c.tempoMin = true ∧ flt fZero c.tempoMin = true ∧ flt c.tempoMin c.tempoMax = true
  | 13 => isFinite c.tempoMax = true ∧ flt c.tempoMin c.tempoMax = true
  | 14 => isFinite c.onsetLambda = true ∧ fle fZero c.onsetLambda = true
  | 15 => True
  | _ => isFinite c.yinThresh = true ∧ flt fZero c.yinThresh = true ∧ fle c.yinThresh fOne = true

/-- A configuration PREPARE accepts: every one of the 17 registers is legal (rules R43, R202). -/
def cfgLegal (c : CfgRegs) : Prop := ∀ i, i < 17 → cfgRegLegal c i

/-! ## Legal states -/

/-- A value `storeReal` admits (rule R212). -/
def realOk (v : Word) : Bool := !isNaN v
/-- A Boolean parameter's value (rule R212). -/
def boolOk (v : Word) : Bool := v == 0 || v == 1

/-- What SYNP[id] may hold: enumerations in range, no NaN (rules R212, R270 to R284). -/
def synpOk (id : Fin 15) (v : Word) : Bool :=
  if id = 0 then decide (v.toNat ≤ 4) else if id = 7 then decide (v.toNat ≤ 4)
  else if id = 10 then decide (v.toNat ≤ 3) else realOk v

/-- What EQG[id] may hold (rules R212, R381 to R384). -/
def eqgOk (id : Fin 4) (v : Word) : Bool :=
  if id = 2 then decide (v.toNat ≤ 3) else if id = 3 then boolOk v else realOk v

/-- What EQB[b][id] may hold (rules R212, R370 to R380). -/
def eqbOk (id : Fin 11) (v : Word) : Bool :=
  if id = 0 then decide (v.toNat ≤ 6) else if id = 4 then decide (v.toNat ≤ 2)
  else if 8 ≤ id.val then boolOk v else realOk v

/-- Every applied parameter holds a value its setter admits (rules R17, R212). -/
def paramsLegal (s : State) : Prop :=
  (∀ id : Fin 15, synpOk id s.synp[id] = true) ∧ (∀ id : Fin 4, eqgOk id s.eqg[id] = true) ∧
    ∀ (b : Fin 8) (id : Fin 11), eqbOk id s.eqb[b][id] = true

/-- A SPEC_PROCESS in progress has ingested a sample and not yet looked at its hop (rules R450, R451). -/
def ingesting (s : State) : Bool :=
  s.busy &&
    match s.progress with
    | .ingested _ => true
    | .start | .draining _ | .applying _ _ | .beginning | .running _ _ | .writing _ _ _ | .publishing _ | .ending
    | .finishing _ => false

/-- A PREPARE is in progress and has latched the active configuration (rule R203). -/
def preparing (s : State) : Bool :=
  s.busy && Cmd.op s.latched == 0x01 &&
    match s.progress with
    | .publishing _ | .ending => true
    | .start | .draining _ | .applying _ _ | .beginning | .running _ _ | .writing _ _ _ | .ingested _ | .finishing _ =>
      false

/-- The command in progress is a process command that has passed the checks of its prologue (rule R204). -/
def pastChecks (s : State) : Prop :=
  (Cmd.op s.latched = 0x02 ∨ Cmd.op s.latched = 0x03 ∨ Cmd.op s.latched = 0x04) ∧
    (Cmd.fieldA s.latched).toNat ≤ 1 ∧ s.prepared = true

/-- The command in progress is one that comes as far as it has come: only a process command past its checks drains or
runs a body, within which what it writes lies, only a SPEC_PROCESS ingests, and only it or a PREPARE publishes; a PREPARE
has no other body than its publication and its end (rules R203, R204, R450, R472). -/
def commandLegal (s : State) : Prop :=
  s.busy = true →
    match s.progress with
    | .start | .finishing _ => True
    | .draining _ | .applying _ _ | .beginning | .running _ _ => pastChecks s
    | .writing j _ _ => j < bodyLength s ∧ pastChecks s
    | .ending => Cmd.op s.latched = 0x01 ∨ pastChecks s
    | .ingested _ => Cmd.op s.latched = 0x04 ∧ pastChecks s
    | .publishing _ => Cmd.op s.latched = 0x01 ∨ (Cmd.op s.latched = 0x04 ∧ pastChecks s)

/-- The block has an active configuration: it is prepared, or a PREPARE has latched one. -/
def configured (s : State) : Prop := s.prepared = true ∨ preparing s = true

/-- The active configuration is one PREPARE accepts (rules R202, R203). -/
def configLegal (s : State) : Prop := configured s → cfgLegal s.act

/-- A voice is active exactly when its envelope is not idle, its note and velocity are MIDI values, its velocity is
not 0 while it is active, and its noise state is not 0 (rules R55, R261, R262). -/
def voiceLegal (v : Voice) : Prop :=
  (v.active = true ↔ v.stage ≠ .idle) ∧ v.note.toNat ≤ 127 ∧ v.vel.toNat ≤ 127 ∧
    (v.active = true → 1 ≤ v.vel.toNat) ∧ v.noise ≠ 0

/-- Every voice is legal, and only voices below ACT.V are active in a block that has an active configuration (rule
R55). -/
def voicesLegal (s : State) : Prop :=
  (∀ v : Fin 32, voiceLegal s.voices[v]) ∧
    (configured s → ∀ v : Fin 32, actV s ≤ v.val → s.voices[v].active = false)

/-- The publication state: SPEC_SEQ odd inside a publication and even outside one, SPEC_LATEST a slot, SPEC_VALID a count
of slots, and in a block with an active configuration fewer pending samples than a hop, but for a PREPARE that is yet to
clear them and for a whole hop that a SPEC_PROCESS has just ingested (rules R46, R121, R450, R451, R655). -/
def publicationLegal (s : State) : Prop :=
  s.specSeq.toNat % 2 = (if publishing s then 1 else 0) ∧ s.spec.latest.toNat < 32 ∧ s.spec.valid.toNat ≤ 32 ∧
    (configured s → (publishing s = true ∧ preparing s = true) ∨ (ingesting s = true ∧ hopDue s = true) ∨
      s.spec.pending.toNat < s.act.hop.toNat)

/-- Every listed byte of the memory lies in a RAM region (rule R101), and every racing host write is to an aligned word
the host may write (rules R101, R104, R670). -/
def memoryMapped (s : State) : Prop :=
  (∀ c ∈ s.mem, ∃ r, regionOf c.1 = some r ∧ r ≠ .csr) ∧
    ∀ w ∈ s.raced, w.1 % 4 = 0 ∧
      ((0x1000 ≤ w.1 ∧ w.1 < 0x1800) ∨ (0x2000 ≤ w.1 ∧ w.1 < 0x4000) ∨ (0x10000 ≤ w.1 ∧ w.1 < 0x20000))

/-- The ages of the active voices are pairwise distinct (rule R268). -/
def agesDistinct (s : State) : Prop :=
  ∀ u v : Fin 32, u ≠ v → s.voices[u].active = true → s.voices[v].active = true → s.voices[u].age ≠ s.voices[v].age

/-! ## Rounding (rule R12) -/

/-- `y` is the finite binary32 nearest to `num / den` units of 2^-149: none is nearer, and if another is as near, the
fraction field of `y` is even. -/
def nearest (num : Int) (den : Nat) (y : F32) : Prop :=
  isFinite y = true ∧
    ∀ z : F32, isFinite z = true →
      |unitsOf y * den - num| ≤ |unitsOf z * den - num| ∧
        (|unitsOf y * den - num| = |unitsOf z * den - num| → unitsOf z ≠ unitsOf y → fracField y % 2 = 0)

/-- `y` is `num / den` units of 2^-149 rounded once, to nearest, ties to even; from half a unit in the last place above
the largest finite value on, the infinity of its sign (rule R12). -/
def rounded (num : Int) (den : Nat) (y : F32) : Prop :=
  if num.natAbs * 2 < (2 ^ 25 - 1) * 2 ^ 253 * den then nearest num den y
  else isInf y = true ∧ (signBit y = true ↔ num < 0)

/-! ## The accuracy of the `Numerics` record -/

/-- A binary32's unit in the last place, in units of 2^-149. -/
def ulpUnits (x : F32) : Nat := 2 ^ (expField x - 1)

/-- The value of a finite binary32 is the real `r`. -/
def hasValue (x : F32) (r : ℝ) : Prop := isFinite x = true ∧ (unitsOf x : ℝ) = r * 2 ^ 149

/-- The result `y` is within 2 units in the last place of the exact value `r` (rule R14, I1). DESIGN CHOICE: R14 and I1 ask
it "where the exact value is finite", and the model reads that as not beyond the largest finite binary32, in magnitude: of
a finite real beyond it, such as exp(89), it asks nothing, and up to it the result is finite. DESIGN CHOICE: the unit is
that of the result. Log entry 5. -/
def accurate (y : F32) (r : ℝ) : Prop :=
  |r| * 2 ^ 149 ≤ (magUnits 0x7F7FFFFF : ℝ) →
    isFinite y = true ∧ |(unitsOf y : ℝ) - r * 2 ^ 149| ≤ 2 * (ulpUnits y : ℝ)

/-- The accuracy rule R14 and 93_implementation_defined.md I1 guarantee of the transcendental functions, where their
exact value is defined: all finite arguments, but for 0 to a power, powers of a negative number and the zeros of `atan2`
whose exact value depends on a sign. Log entry 5. -/
def numericsAccurate : Prop :=
  (∀ x r, hasValue x r → Real.cos r ≠ 0 → accurate (tanN x) (Real.tan r)) ∧
  (∀ x r, hasValue x r → accurate (sinN x) (Real.sin r)) ∧
  (∀ x r, hasValue x r → accurate (cosN x) (Real.cos r)) ∧
  (∀ x r, hasValue x r → accurate (expN x) (Real.exp r)) ∧
  (∀ x r, hasValue x r → 0 < r → accurate (lnN x) (Real.log r)) ∧
  (∀ x r, hasValue x r → 0 < r → accurate (log10N x) (Real.logb 10 r)) ∧
  (∀ x r, hasValue x r → 0 < r → accurate (log2N x) (Real.logb 2 r)) ∧
  (∀ x r, hasValue x r → accurate (exp2N x) ((2 : ℝ) ^ r)) ∧
  (∀ x r, hasValue x r → accurate (pow10N x) ((10 : ℝ) ^ r)) ∧
  (∀ x r y c, hasValue x r → hasValue y c → 0 < r → accurate (powN x y) (r ^ c)) ∧
  (∀ y v x u, hasValue y v → hasValue x u → v ≠ 0 ∨ 0 < u ∨ (u < 0 ∧ signBit y = false) →
    accurate (atan2N y x) (Complex.arg ⟨u, v⟩)) ∧
  (∀ x r, hasValue x r → accurate (tanhN x) (Real.tanh r))

/-- `y` is finite and within the error bound of 93_implementation_defined.md I2 of one component of a bin, the exact sum
of `xw[j] x trig(2πjk/N)`. The bound is the product of 2^-20, log2 N and the sum of the magnitudes. DESIGN CHOICE: that
product and that sum are real numbers, none of their operations rounded, though I2 writes `f32(log2 N)` and rule R12 rounds
the operations of rules. Log entry 6. -/
def withinDftBound (xw : List F32) (k : Nat) (trig : ℝ → ℝ) (y : F32) : Prop :=
  let N := xw.length
  isFinite y = true ∧
    |(unitsOf y : ℝ) - ∑ j ∈ Finset.range N, (unitsOf (xw.getD j 0) : ℝ) * trig (2 * Real.pi * j * k / N)| ≤
      2⁻¹ ^ 20 * Nat.log2 N * ∑ j ∈ Finset.range N, (magUnits (xw.getD j 0) : ℝ)

/-- The error bound of 93_implementation_defined.md I2 for the component `y` of a bin. DESIGN CHOICE: I2 bounds the
component of every frame, which no binary32 result can meet where no finite binary32 lies within the bound, since the
exact value overflows or falls between two subnormals; there the model asks nothing. Log entry 6. -/
def dftComponentAccurate (xw : List F32) (k : Nat) (trig : ℝ → ℝ) (y : F32) : Prop :=
  (∃ z, withinDftBound xw k trig z) → withinDftBound xw k trig y

/-- The accuracy rule R463 (c) guarantees of the transform, on frames of a legal length; of a frame that holds an infinity
or a NaN no exact value exists, and the model asks nothing (DESIGN CHOICE, log entry 6). -/
def dftAccurate : Prop :=
  ∀ (xw : List F32) (k : Nat), xw.all isFinite = true → (∃ e, xw.length = 2 ^ e ∧ 6 ≤ e ∧ e ≤ 13) →
    k ≤ xw.length / 2 →
    dftComponentAccurate xw k Real.cos (dftBin xw k).1 ∧
      dftComponentAccurate xw k (fun θ => -Real.sin θ) (dftBin xw k).2

end Sys2Proof.Machine
end

