-- ==== Sys2Proof/Certificates/Slice0/Obligations.lean ====
section
/-! DEFINITION. The statements for the provers, from the numbered rules of spec/. Each docstring names the rules it
formalises, and the log entry where it rests on a choice of the model. -/

open Sys2Proof Sys2Proof.Machine

/-- Rules R150, R155, R159: the encoder and the decoder agree on every instruction, every operand at every value,
through the byte layout of rules R8 and R102. -/
def Obligations.DecodeOfEncode : Prop :=
  ∀ (i : Instr) (rest : List Byte),
    decodeBytes i.channel (bytesOfCmd (encode i) ++ rest) =
      if i.wellFormed then .ok (i, rest)
      else .error (.illegalSelector (Cmd.op (encode i)) (Cmd.fieldA (encode i)) (Cmd.fieldB (encode i)))

/-- Rule R157: any value of a reserved field gives the same behaviour as 0. -/
def Obligations.ReservedFieldsAreIgnored : Prop :=
  ∀ (ch : Channel) (w w' : Cmd) (i : Instr),
    decodeWord ch w = .ok i → (w ^^^ w') &&& (0xFF00000000000000 ||| operandMask i) = 0 →
      decodeWord ch w' = .ok i

/-- Rules R152, R155, R156, R159: each opcode is legal on exactly one channel, and no reserved encoding falls
through to a neighbour. -/
def Obligations.DecoderAcceptsExactly : Prop :=
  (∀ (ch : Channel) (w : Cmd) (i : Instr),
    decodeWord ch w = .ok i → i.wellFormed = true ∧ i.channel = ch) ∧
  ∀ w : Cmd,
    ((∃ e, decodeWord .doorbell w = .error e) ↔ 4 < (Cmd.op w).toNat) ∧
    ((∃ e, decodeWord .queue w = .error e) ↔ ¬ queueWordLegal w) ∧
    ((∃ e, decodeWord .event w = .error e) ↔ Cmd.op w ≠ 0x30 ∧ Cmd.op w ≠ 0x31)

/-- Rule R156: the behaviour of an illegal encoding, channel by channel. -/
def Obligations.IllegalEncodingsAreCounted : Prop :=
  (∀ s : State, s.busy = true → 4 < (Cmd.op s.latched).toNat →
    ∃ t, engineTurn s = .next t ∧ completedWith (Cmd.op s.latched) 5 s t) ∧
  (∀ (s : State) (w : Cmd), ¬ queueWordLegal w →
    applyEntry w s = .next { s with illegalCount := s.illegalCount + 1 }) ∧
  (∀ (s : State) (w : Cmd), Cmd.op w ≠ 0x30 → Cmd.op w ≠ 0x31 →
    applyEventWord w s = .next { s with illegalCount := s.illegalCount + 1 })

/-- Rule R162: words the spec writes out, with the reals by value. -/
def Obligations.ExampleWordsDecode : Prop :=
  decodeWord .doorbell 0x0000000000000000 = .ok .nop ∧
  decodeWord .doorbell 0x0100000000000000 = .ok .prepare ∧
  decodeWord .doorbell 0x0200000100000200 = .ok (.synRender 0 1 512) ∧
  decodeWord .doorbell 0x0301000000000040 = .ok (.eqProcess 1 64) ∧
  decodeWord .doorbell 0x0400000000000040 = .ok (.specProcess 0 64) ∧
  decodeWord .queue 0x100001003C23D70A = .ok (.synAttack (decimal 1 2)) ∧
  decodeWord .queue 0x1000000000000001 = .ok (.synWaveform 1) ∧
  decodeWord .queue 0x20000100447A0000 = .ok (.eqFreq 0 (f32OfNat 1000)) ∧
  decodeWord .queue 0x2000020040C00000 = .ok (.eqGain 0 (f32OfNat 6)) ∧
  decodeWord .queue 0x2100030000000001 = .ok (.eqGlobalBypass 1) ∧
  decodeWord .event 0x3045640000000000 = .ok (.noteOn 69 100 0) ∧
  decodeWord .event 0x3145000000000100 = .ok (.noteOff 69 256)

/-- Rules R159, R200, R211, R266. That a turn is taken from an agenda (log entry 11), that one step of the engine
runs the whole command (log entry 12), and the list of racing writes (log entry 19) are the model's own choices. -/
def Obligations.StepRunsTheDecodedInstruction : Prop :=
  (∀ (s : State) (i : Instr), s.agenda = [] → s.busy = true → s.progress = .start →
    decodeWord .doorbell s.latched = .ok i →
    step s = andThen (exec i s) fun t => .next (settleRaces t)) ∧
  (∀ (s : State) (rest : List Turn) (i : Instr), s.agenda = .engine :: rest → s.busy = true → s.progress = .start →
    decodeWord .doorbell s.latched = .ok i →
      step s = andThen (exec i { s with agenda := rest }) fun t => .next (settleRaces t)) ∧
  (∀ s : State, (settleRaces s = { s with mem := (settleRaces s).mem, raced := [] }) ∧
    (s.raced = [] → settleRaces s = s)) ∧
  (∀ (s : State) (w : Cmd) (i : Instr), decodeWord .queue w = .ok i → applyEntry w s = exec i s) ∧
  (∀ (s : State) (w : Cmd) (i : Instr), decodeWord .event w = .ok i → applyEventWord w s = exec i s)

/-- Rules R36, R37, R200. How far a command has come is a field of the model (rule R32; log entry 12), and so are
the words as they were before it (log entry 13); these clauses are the model's own. -/
def Obligations.DoorbellStartsOrDrops : Prop :=
  ∀ (s : State) (h : Word),
    access (.write 4 0x00C h) s = .next { s with cmdLo := h } ∧
    access (.write 4 0x010 h) s =
      if s.busy then .next { s with busyDrop := s.busyDrop + 1 }
      else .next { s with
        cmdHi := h, latched := Cmd.ofWords h s.cmdLo, busy := true, progress := .start, oldMem := s.mem
        oldCsrs := (List.range 512).map fun i => readCsr { s with cmdHi := h } (4 * i) }

/-- Rules R200, R600: every doorbell command completes with exactly one code. That a command runs whole in one step
is the model's own choice (log entry 12). -/
def Obligations.CommandsCompleteExactlyOnce : Prop :=
  (∀ s t : State, s.busy = true → engineTurn s = .next t →
    t.busy = false ∧ t.cmdCount = s.cmdCount + 1 ∧ t.cmdResult.extractLsb' 8 8 = Cmd.op s.latched ∧
      (t.cmdResult.extractLsb' 0 8).toNat ≤ 6 ∧ t.cmdResult.extractLsb' 16 16 = 0) ∧
  (∀ s : State, s.busy = true → Cmd.op s.latched = 0x00 ∨ Cmd.op s.latched = 0x01 ∨ 4 < (Cmd.op s.latched).toNat →
    ∃ t, engineTurn s = .next t)

/-- Rule R201. -/
def Obligations.NopCompletes : Prop :=
  ∀ s : State, ∃ t, exec .nop s = .next t ∧ completedWith 0x00 0 s t

/-- Rules R40, R202, R601, R602: the order of the checks and that a failed PREPARE is precise. -/
def Obligations.PrepareFailuresAreOrderedAndPrecise : Prop :=
  ∀ s : State,
    (s.cfg.sampleRate = 0 →
      ∃ t, exec .prepare s = .next t ∧ completedWith 0x01 2 { s with cfgErrField := 0x040 } t) ∧
    (s.cfg.sampleRate ≠ 0 → (∀ e, s.cfg.fftSize.toNat ≠ 2 ^ e) →
      ∃ t, exec .prepare s = .next t ∧ completedWith 0x01 3 { s with cfgErrField := 0x050 } t) ∧
    (∀ i, s.cfg.sampleRate ≠ 0 → (∃ e, s.cfg.fftSize.toNat = 2 ^ e) → i < 17 → ¬ cfgRegLegal s.cfg i →
      (∀ j, j < i → cfgRegLegal s.cfg j) →
        ∃ t, exec .prepare s = .next t ∧
          completedWith 0x01 4 { s with cfgErrField := BitVec.ofNat 32 (0x040 + 4 * i) } t)

/-- Rules R203, R655: the whole effect of a successful PREPARE, and its frame. -/
def Obligations.PrepareLatchesAndResetsTheEngines : Prop :=
  ∀ s : State, cfgLegal s.cfg → ∃ t, exec .prepare s = .next t ∧
    (∃ m, completedWith 0x01 0
      { s with
        act := s.cfg
        eqg := s.eqg.set 2 s.cfg.analogModel
        voices := Vector.ofFn fun v : Fin 32 =>
          { active := false, note := 0, vel := 0, age := 0, phase := 0, tri := 0, lfoPhase := 0,
            noise := 0x12345678 + BitVec.ofNat 32 v.val, ic1 := 0, ic2 := 0, stage := .idle, t := 0, value := 0,
            relLevel := 0 }
        steals := 0
        synActive := 0
        synSteals := 0
        voiceStatus := Vector.replicate 32 0
        voiceAge := Vector.replicate 32 0
        eq :=
          { hist := Vector.replicate 8 (Vector.replicate 4 (Vector.replicate 2 ⟨0, 0, 0, 0⟩))
            analog := Vector.replicate 2 ⟨0, 0, 0⟩
            noise := 0xACE1ACE1
            ovs := Vector.replicate 2 ⟨0, 0, 0, 0, 0, 0, 0, 0, 0⟩ }
        luts := filledLuts
        spec :=
          { ring := Vector.replicate 16384 0
            wr := 0
            pending := 0
            samples := 0
            frame := 0
            win := windowTable s.cfg.window.toNat s.cfg.fftSize.toNat
            prevMag := Array.replicate (s.cfg.fftSize.toNat / 2 + 1) 0
            oh := Vector.replicate 128 0
            ohWr := 0
            since := 0xFFFFFFFF
            onsets := 0
            tempo := 0
            tempoConf := 0
            latest := 0
            valid := 0 }
        specSeq := s.specSeq + 2
        trackers := ⟨0, 0, 0, 0, 0, 0, 0, 0⟩
        mlVec := Vector.replicate 42 0
        mem := m
        prepared := true
        cfgErrField := 0 } t) ∧
    ∀ a, Memory.byte t.mem a =
      if (0x20000 ≤ a ∧ a < 0x24000) ∨ (0x30000 ≤ a ∧ a < 0x48000) then some 0 else Memory.byte s.mem a

/-- Rules R204, R601, R602: the checks of the shared prologue, in their order. -/
def Obligations.ProcessCommandChecks : Prop :=
  ∀ (s : State) (k : BitVec 8) (e : BitVec 16) (n : Word),
    (s.prepared = false →
      (∃ t, exec (.synRender k e n) s = .next t ∧ completedWith 0x02 1 s t) ∧
      (∃ t, exec (.eqProcess k n) s = .next t ∧ completedWith 0x03 1 s t) ∧
      (∃ t, exec (.specProcess k n) s = .next t ∧ completedWith 0x04 1 s t)) ∧
    (s.prepared = true → 1 < k.toNat →
      (∃ t, exec (.synRender k e n) s = .next t ∧ completedWith 0x02 6 s t) ∧
      (∃ t, exec (.eqProcess k n) s = .next t ∧ completedWith 0x03 6 s t) ∧
      (∃ t, exec (.specProcess k n) s = .next t ∧ completedWith 0x04 6 s t))

/-- Rules R117, R204, R211, R213: the drain, at the start of each of the three process commands. -/
def Obligations.DrainAppliesTheQueueInOrder : Prop :=
  ∀ (s : State) (k : BitVec 8), s.prepared = true → k.toNat ≤ 1 →
    ∃ t, applyEntries (queued s) s = .next t ∧
      (∀ (e : BitVec 16) (n : Word),
        exec (.synRender k e n) s = exec (.synRender k e n) { t with head := s.tail } ∧
        exec (.eqProcess k n) s = exec (.eqProcess k n) { t with head := s.tail } ∧
        exec (.specProcess k n) s = exec (.specProcess k n) { t with head := s.tail }) ∧
      ∃ u, exec (.specProcess k 0) s = .next u ∧ completedWith 0x04 0 { t with head := s.tail } u

/-- Rules R210, R213: the push, with the queue read as the list of its words. The word kept of PQ_STATUS is the
model's own choice (log entry 13). -/
def Obligations.PushAppendsOrDrops : Prop :=
  ∀ (s : State) (h : Word),
    (queued s).length ≤ 31 ∧
    access (.write 4 0x030 h) s = .next { s with pushLatch := h } ∧
    ((queued s).length = 31 →
      ∃ t, access (.write 4 0x034 h) s = .next t ∧
        t = { s with
          pqOverflow := s.pqOverflow + 1, lastPushOk := false, oldCsrs := s.oldCsrs.set 14 (readCsr t 0x038) }) ∧
    ((queued s).length < 31 →
      ∃ t, access (.write 4 0x034 h) s = .next t ∧ queued t = queued s ++ [Cmd.ofWords h s.pushLatch] ∧
        t = { s with
          slots := s.slots.set s.tail (Cmd.ofWords h s.pushLatch), tail := s.tail + 1, lastPushOk := true
          oldCsrs := s.oldCsrs.set 14 (readCsr t 0x038) })

/-- Rules R36, R42, R49. -/
def Obligations.StatusWordsHoldTheirFields : Prop :=
  (∀ s : State,
    (readCsr s 0x008).getLsbD 0 = s.prepared ∧ (readCsr s 0x008).getLsbD 1 = s.busy ∧
    (∀ j, 2 ≤ j → (readCsr s 0x008).getLsbD j = false) ∧
    (readCsr s 0x038).toNat % 64 = (queued s).length ∧
    (readCsr s 0x038).getLsbD 8 = s.lastPushOk ∧
    (readCsr s 0x038).getLsbD 9 = decide ((queued s).length = 31) ∧
    (readCsr s 0x038).getLsbD 10 = decide ((queued s).length = 0) ∧
    ∀ j, (6 ≤ j ∧ j ≤ 7) ∨ 11 ≤ j → (readCsr s 0x038).getLsbD j = false) ∧
  ∀ v : Voice,
    (voiceStatusWord v).getLsbD 0 = v.active ∧
    (voiceStatusWord v).extractLsb' 1 3 =
      (match v.stage with
        | .idle => 0 | .attack => 1 | .hold => 2 | .decay => 3 | .sustain => 4 | .release => 5) ∧
    (voiceStatusWord v).extractLsb' 4 4 = 0 ∧ (voiceStatusWord v).extractLsb' 8 8 = v.note ∧
    (voiceStatusWord v).extractLsb' 16 7 = v.vel.extractLsb' 0 7 ∧ (voiceStatusWord v).extractLsb' 23 9 = 0

/-- Rules R212, R271 to R276. -/
def Obligations.SynEnvelopeSettersStore : Prop :=
  ∀ (s : State) (v : Word),
    exec (.synAttack v) s =
      .next (if isNaN v then { s with illegalCount := s.illegalCount + 1 }
        else { s with synp := s.synp.set 1 v }) ∧
    exec (.synHold v) s =
      .next (if isNaN v then { s with illegalCount := s.illegalCount + 1 }
        else { s with synp := s.synp.set 2 v }) ∧
    exec (.synDecay v) s =
      .next (if isNaN v then { s with illegalCount := s.illegalCount + 1 }
        else { s with synp := s.synp.set 3 v }) ∧
    exec (.synSustain v) s =
      .next (if isNaN v then { s with illegalCount := s.illegalCount + 1 }
        else { s with synp := s.synp.set 4 v }) ∧
    exec (.synRelease v) s =
      .next (if isNaN v then { s with illegalCount := s.illegalCount + 1 }
        else { s with synp := s.synp.set 5 v }) ∧
    exec (.synCurve v) s =
      .next (if isNaN v then { s with illegalCount := s.illegalCount + 1 }
        else { s with synp := s.synp.set 6 v })

/-- Rules R212, R270, R277 to R284. -/
def Obligations.SynOtherSettersStore : Prop :=
  ∀ (s : State) (v : Word),
    exec (.synFilterCutoff v) s =
      .next (if isNaN v then { s with illegalCount := s.illegalCount + 1 }
        else { s with synp := s.synp.set 8 v }) ∧
    exec (.synFilterQ v) s =
      .next (if isNaN v then { s with illegalCount := s.illegalCount + 1 }
        else { s with synp := s.synp.set 9 v }) ∧
    exec (.synLfoRate v) s =
      .next (if isNaN v then { s with illegalCount := s.illegalCount + 1 }
        else { s with synp := s.synp.set 11 v }) ∧
    exec (.synLfoAmpDepth v) s =
      .next (if isNaN v then { s with illegalCount := s.illegalCount + 1 }
        else { s with synp := s.synp.set 12 v }) ∧
    exec (.synLfoPitchDepth v) s =
      .next (if isNaN v then { s with illegalCount := s.illegalCount + 1 }
        else { s with synp := s.synp.set 13 v }) ∧
    exec (.synGain v) s =
      .next (if isNaN v then { s with illegalCount := s.illegalCount + 1 }
        else { s with synp := s.synp.set 14 v }) ∧
    exec (.synWaveform v) s =
      .next (if v.toNat ≤ 4 then { s with synp := s.synp.set 0 v }
        else { s with illegalCount := s.illegalCount + 1 }) ∧
    exec (.synFilterType v) s =
      .next (if v.toNat ≤ 4 then { s with synp := s.synp.set 7 v }
        else { s with illegalCount := s.illegalCount + 1 }) ∧
    exec (.synLfoWaveform v) s =
      .next (if v.toNat ≤ 3 then { s with synp := s.synp.set 10 v }
        else { s with illegalCount := s.illegalCount + 1 })

/-- Rules R212, R371 to R373, R375 to R377, and R156 for the selector A (log entry 17). -/
def Obligations.EqBandRealSettersStore : Prop :=
  ∀ (s : State) (b : BitVec 8) (v : Word),
    exec (.eqFreq b v) s =
      .next (if _h : b.toNat < 8 then
          if isNaN v then { s with illegalCount := s.illegalCount + 1 }
          else { s with eqb := s.eqb.set b.toNat (s.eqb[b.toNat].set 1 v) }
        else { s with illegalCount := s.illegalCount + 1 }) ∧
    exec (.eqGain b v) s =
      .next (if _h : b.toNat < 8 then
          if isNaN v then { s with illegalCount := s.illegalCount + 1 }
          else { s with eqb := s.eqb.set b.toNat (s.eqb[b.toNat].set 2 v) }
        else { s with illegalCount := s.illegalCount + 1 }) ∧
    exec (.eqQ b v) s =
      .next (if _h : b.toNat < 8 then
          if isNaN v then { s with illegalCount := s.illegalCount + 1 }
          else { s with eqb := s.eqb.set b.toNat (s.eqb[b.toNat].set 3 v) }
        else { s with illegalCount := s.illegalCount + 1 }) ∧
    exec (.eqDrive b v) s =
      .next (if _h : b.toNat < 8 then
          if isNaN v then { s with illegalCount := s.illegalCount + 1 }
          else { s with eqb := s.eqb.set b.toNat (s.eqb[b.toNat].set 5 v) }
        else { s with illegalCount := s.illegalCount + 1 }) ∧
    exec (.eqSaturation b v) s =
      .next (if _h : b.toNat < 8 then
          if isNaN v then { s with illegalCount := s.illegalCount + 1 }
          else { s with eqb := s.eqb.set b.toNat (s.eqb[b.toNat].set 6 v) }
        else { s with illegalCount := s.illegalCount + 1 }) ∧
    exec (.eqMix b v) s =
      .next (if _h : b.toNat < 8 then
          if isNaN v then { s with illegalCount := s.illegalCount + 1 }
          else { s with eqb := s.eqb.set b.toNat (s.eqb[b.toNat].set 7 v) }
        else { s with illegalCount := s.illegalCount + 1 })

/-- Rules R212, R370, R374, R378 to R384, and R156 for the selector A (log entry 17). -/
def Obligations.EqChoiceAndGlobalSettersStore : Prop :=
  ∀ (s : State) (b : BitVec 8) (v : Word),
    exec (.eqType b v) s =
      .next (if _h : b.toNat < 8 then
          if v.toNat ≤ 6 then { s with eqb := s.eqb.set b.toNat (s.eqb[b.toNat].set 0 v) }
          else { s with illegalCount := s.illegalCount + 1 }
        else { s with illegalCount := s.illegalCount + 1 }) ∧
    exec (.eqSlope b v) s =
      .next (if _h : b.toNat < 8 then
          if v.toNat ≤ 2 then { s with eqb := s.eqb.set b.toNat (s.eqb[b.toNat].set 4 v) }
          else { s with illegalCount := s.illegalCount + 1 }
        else { s with illegalCount := s.illegalCount + 1 }) ∧
    exec (.eqEnable b v) s =
      .next (if _h : b.toNat < 8 then
          { s with eqb := s.eqb.set b.toNat (s.eqb[b.toNat].set 8 (if v = 0 then 0 else 1)) }
        else { s with illegalCount := s.illegalCount + 1 }) ∧
    exec (.eqSolo b v) s =
      .next (if _h : b.toNat < 8 then
          { s with eqb := s.eqb.set b.toNat (s.eqb[b.toNat].set 9 (if v = 0 then 0 else 1)) }
        else { s with illegalCount := s.illegalCount + 1 }) ∧
    exec (.eqBypass b v) s =
      .next (if _h : b.toNat < 8 then
          { s with eqb := s.eqb.set b.toNat (s.eqb[b.toNat].set 10 (if v = 0 then 0 else 1)) }
        else { s with illegalCount := s.illegalCount + 1 }) ∧
    exec (.eqInputGain v) s =
      .next (if isNaN v then { s with illegalCount := s.illegalCount + 1 }
        else { s with eqg := s.eqg.set 0 v }) ∧
    exec (.eqOutputGain v) s =
      .next (if isNaN v then { s with illegalCount := s.illegalCount + 1 }
        else { s with eqg := s.eqg.set 1 v }) ∧
    exec (.eqModel v) s =
      .next (if v.toNat ≤ 3 then { s with eqg := s.eqg.set 2 v }
        else { s with illegalCount := s.illegalCount + 1 }) ∧
    exec (.eqGlobalBypass v) s =
      .next { s with eqg := s.eqg.set 3 (if v = 0 then 0 else 1) }

/-- Rules R262, R264. -/
def Obligations.NoteOnTakesTheFirstFreeVoice : Prop :=
  ∀ (s : State) (note vel : BitVec 8) (off : Word) (v : Fin 32), vel ≠ 0 → v.val < s.act.voices.toNat →
    s.voices[v].active = false → (∀ u : Fin 32, u < v → s.voices[u].active = true) →
    exec (.noteOn note vel off) s = .next { s with
      voices := Vector.ofFn fun u : Fin 32 =>
        if u = v then
          { active := true, note := BitVec.ofNat 8 (min note.toNat 127), vel := BitVec.ofNat 8 (min vel.toNat 127), age := 0,
            phase := 0, tri := 0, lfoPhase := 0, noise := 0x12345678 + BitVec.ofNat 32 v.val, ic1 := 0, ic2 := 0,
            stage := .attack, t := 0, value := 0, relLevel := 0 }
        else if u.val < s.act.voices.toNat ∧ s.voices[u].active = true then
          { s.voices[u] with age := if s.voices[u].age = 0xFFFFFFFF then 0xFFFFFFFF else s.voices[u].age + 1 }
        else s.voices[u] }

/-- Rules R11, R262, R264, R268: the smallest index of the greatest age. -/
def Obligations.NoteOnStealsTheOldestVoice : Prop :=
  ∀ (s : State) (note vel : BitVec 8) (off : Word) (v : Fin 32), vel ≠ 0 → s.act.voices.toNat ≤ 32 →
    v.val < s.act.voices.toNat → (∀ u : Fin 32, u.val < s.act.voices.toNat → s.voices[u].active = true) →
    (∀ u : Fin 32, u.val < s.act.voices.toNat → u ≠ v →
      min (s.voices[u].age.toNat + 1) 0xFFFFFFFF ≤ min (s.voices[v].age.toNat + 1) 0xFFFFFFFF ∧
      (u < v → min (s.voices[u].age.toNat + 1) 0xFFFFFFFF < min (s.voices[v].age.toNat + 1) 0xFFFFFFFF)) →
    exec (.noteOn note vel off) s = .next { s with
      steals := s.steals + 1
      voices := Vector.ofFn fun u : Fin 32 =>
        if u = v then
          { active := true, note := BitVec.ofNat 8 (min note.toNat 127), vel := BitVec.ofNat 8 (min vel.toNat 127), age := 0,
            phase := 0, tri := 0, lfoPhase := 0, noise := 0x12345678 + BitVec.ofNat 32 v.val, ic1 := 0, ic2 := 0,
            stage := .attack, t := 0, value := 0, relLevel := 0 }
        else if u.val < s.act.voices.toNat then
          { s.voices[u] with age := if s.voices[u].age = 0xFFFFFFFF then 0xFFFFFFFF else s.voices[u].age + 1 }
        else s.voices[u] }

/-- Rule R263, and the clause of rule R262 on velocity 0. -/
def Obligations.NoteOffReleasesHeldVoices : Prop :=
  ∀ (s : State) (note : BitVec 8) (off : Word), ∃ t, exec (.noteOff note off) s = .next t ∧
    exec (.noteOn note 0 off) s = .next t ∧
    t = { s with
      voices := Vector.ofFn fun u : Fin 32 =>
        if u.val < s.act.voices.toNat ∧ s.voices[u].active = true ∧ s.voices[u].note = BitVec.ofNat 8 (min note.toNat 127) ∧
            s.voices[u].stage ≠ .release ∧ s.voices[u].stage ≠ .idle then
          { s.voices[u] with relLevel := s.voices[u].value, stage := .release, t := 0 }
        else s.voices[u] }

/-- Rule R268 (b). -/
def Obligations.NoteOnKeepsAgesDistinct : Prop :=
  ∀ (s t : State) (note vel : BitVec 8) (off : Word), s.prepared = true → configLegal s → voicesLegal s →
    agesDistinct s → (∀ u : Fin 32, s.voices[u].active = true → s.voices[u].age ≠ 0xFFFFFFFF) →
    exec (.noteOn note vel off) s = .next t ∨ exec (.noteOff note off) s = .next t → agesDistinct t

/-- Rules R112, R250, R267: where SYN_RENDER completes and what it publishes. -/
def Obligations.SynRenderCompletes : Prop :=
  ∀ (s : State) (k : BitVec 8) (e : BitVec 16) (frames : Word), s.prepared = true → k.toNat ≤ 1 →
    readableWords s 0x01000 (2 * min e.toNat 256) = true →
    (readableWords s 0x02000 2048 = true ∨ (s.head = s.tail ∧ s.synp[0] ≠ 3)) →
    ∃ t, exec (.synRender k e frames) s = .next t ∧
      t.cmdResult = 0x00000200 ∧ t.cmdCount = s.cmdCount + 1 ∧ t.busy = false ∧ t.head = s.tail ∧
      t.synActive =
        BitVec.ofNat 32 ((List.range t.act.voices.toNat).countP fun v => (t.voices.getD v (Voice.idle v)).active) ∧
      t.synSteals = t.steals ∧
      ∀ v : Fin 32,
        t.voiceStatus[v] = (if v.val < t.act.voices.toNat then voiceStatusWord t.voices[v] else 0) ∧
        t.voiceAge[v] = if v.val < t.act.voices.toNat then t.voices[v].age else 0

/-- Rules R107 to R109, R250. -/
def Obligations.SynRenderFrame : Prop :=
  ∀ (s t : State) (k : BitVec 8) (e : BitVec 16) (frames : Word), exec (.synRender k e frames) s = .next t →
    t = { s with
      voices := t.voices, steals := t.steals, synActive := t.synActive, synSteals := t.synSteals,
      voiceStatus := t.voiceStatus, voiceAge := t.voiceAge, synp := t.synp, eqg := t.eqg, eqb := t.eqb,
      illegalCount := t.illegalCount, head := t.head, cmdResult := t.cmdResult, cmdCount := t.cmdCount,
      lastCycles := t.lastCycles, draws := t.draws, busy := t.busy, progress := t.progress, mem := t.mem } ∧
    ∀ a, a < bufBase k.toNat ∨ bufBase k.toNat + 4 * (frameCount frames s * actC s) ≤ a →
      Memory.byte t.mem a = Memory.byte s.mem a

/-- Rules R109, R250, R265: one mono result for every channel. -/
def Obligations.SynRenderWritesEveryChannelAlike : Prop :=
  ∀ (s t : State) (k : BitVec 8) (e : BitVec 16) (frames : Word), s.prepared = true → k.toNat ≤ 1 →
    exec (.synRender k e frames) s = .next t →
    ∀ i ch, i < frameCount frames s → ch < actC s →
      ∃ w, Memory.word t.mem (bufBase k.toNat + 4 * (i * actC s + ch)) = some w ∧
        Memory.word t.mem (bufBase k.toNat + 4 * (i * actC s)) = some w

/-- Rule R250: silence at every gain. -/
def Obligations.SynRenderOfSilence : Prop :=
  ∀ (s : State) (k : BitVec 8) (frames : Word), s.prepared = true → k.toNat ≤ 1 → s.head = s.tail →
    (∀ u, u < s.act.voices.toNat → (s.voices.getD u (Voice.idle u)).active = false) → isNaN s.synp[14] = false →
    ∃ t, exec (.synRender k 0 frames) s = .next t ∧ t.voices = s.voices ∧ t.synActive = 0 ∧
      ∀ j, j < frameCount frames s * actC s → Memory.word t.mem (bufBase k.toNat + 4 * j) = some 0

/-- Rules R107, R250, R265 to R267: before which frame an event is applied, and in which order. -/
def Obligations.SynRenderAppliesEventsInOrder : Prop :=
  ∀ (s : State) (k : BitVec 8) (e : BitVec 16) (frames : Word) (ws : List Cmd), s.prepared = true → k.toNat ≤ 1 →
    s.head = s.tail → s.raced = [] → ws.length = min e.toNat 256 →
    (∀ j, j < ws.length → Memory.word s.mem (0x01000 + 8 * j) = some (Cmd.lo (ws.getD j 0)) ∧
      Memory.word s.mem (0x01004 + 8 * j) = some (Cmd.hi (ws.getD j 0))) →
    (readableWords s 0x02000 2048 = true ∨ s.synp[0] ≠ 3 ∨ frameCount frames s = 0) →
    ∃ t u d,
      renderWithEvents (bufBase k.toNat) (frameCount frames s) (List.range (frameCount frames s)) ws s = .next t ∧
      exec (.synRender k e frames) s = .next u ∧ completedWith 0x02 0 { publishSynth t with draws := d } u

/-- Rules R109, R112, R204, R350 to R352, R364, R365, R367. -/
def Obligations.EqProcessCompletes : Prop :=
  ∀ (s : State) (k : BitVec 8) (frames : Word), s.prepared = true → k.toNat ≤ 1 →
    (readableWords s (bufBase k.toNat) (frameCount frames s * actC s) = true ∨ (s.head = s.tail ∧ s.eqg[3] = 1)) →
    ∃ (s1 : State) (st : Nat → State) (t : State), drain s = .next s1 ∧ exec (.eqProcess k frames) s = .next t ∧
      t.head = s.tail ∧ t.cmdCount = s.cmdCount + 1 ∧
      (s1.eqg[3] = 1 → completedWith 0x03 0 s1 t) ∧
      (s1.eqg[3] ≠ 1 →
        let gain := fun g => pow10N (fdiv (fclamp g 0xC1C00000 0x41C00000) 0x41A00000)
        st 0 = { s1 with
          eqc := Vector.ofFn fun b : Fin 8 => if s1.eqb[b][8] = 1 then designBand s1 b.val else s1.eqc[b] } ∧
        (∀ i ch, i < frameCount frames s → ch < s.act.channels.toNat →
          let j := i * s.act.channels.toNat + ch
          ∃ w, readWord (st j) (bufBase k.toNat + 4 * j) = .next w ∧
            let out :=
              if s.act.oversample = 2 ∧ ((∃ b, b < 8 ∧ bandProcesses s1 b = true) ∨ s1.eqg[2] ≠ 0) then
                oversample (st j) ch (fmul w (gain s1.eqg[0])) (st j).eq
              else path (st j) ch (fmul w (gain s1.eqg[0])) (st j).eq
            st (j + 1) =
              writeWord { st j with eq := out.2 } (bufBase k.toNat + 4 * j) (fmul out.1 (gain s1.eqg[1]))) ∧
        completedWith 0x03 0 (st (frameCount frames s * s.act.channels.toNat)) t)

/-- Rules R109, R350. -/
def Obligations.EqProcessFrame : Prop :=
  ∀ (s t : State) (k : BitVec 8) (frames : Word), exec (.eqProcess k frames) s = .next t →
    t = { s with
      eq := t.eq, eqc := t.eqc, synp := t.synp, eqg := t.eqg, eqb := t.eqb, illegalCount := t.illegalCount,
      head := t.head, cmdResult := t.cmdResult, cmdCount := t.cmdCount, lastCycles := t.lastCycles,
      draws := t.draws, busy := t.busy, progress := t.progress, mem := t.mem } ∧
    ∀ a, a < bufBase k.toNat ∨ bufBase k.toNat + 4 * (frameCount frames s * actC s) ≤ a →
      Memory.byte t.mem a = Memory.byte s.mem a

/-- Rule R365. -/
def Obligations.EqGlobalBypassWritesNothing : Prop :=
  ∀ (s t : State) (k : BitVec 8) (frames : Word), s.prepared = true → k.toNat ≤ 1 →
    exec (.eqProcess k frames) s = .next t → t.eqg[3] = 1 →
    t.mem = s.mem ∧ t.eqc = s.eqc ∧ t.eq = s.eq

/-- Rule R366 (a) and (b), through the exactness of a product with 1.0 (rule R12). -/
def Obligations.EqIdleReproducesItsInput : Prop :=
  ∀ (s : State) (k : BitVec 8) (frames : Word), s.prepared = true → k.toNat ≤ 1 → s.head = s.tail →
    s.raced = [] → (∀ b, b < 8 → bandProcesses s b = false) → s.eqg[2] = 0 → isZero s.eqg[0] = true → isZero s.eqg[1] = true →
    readableWords s (bufBase k.toNat) (frameCount frames s * actC s) = true →
    ∃ t, exec (.eqProcess k frames) s = .next t ∧ t.eq = s.eq ∧
      ∀ j w, j < frameCount frames s * actC s → Memory.word s.mem (bufBase k.toNat + 4 * j) = some w →
        ∃ w', Memory.word t.mem (bufBase k.toNat + 4 * j) = some w' ∧ (isNaN w = false → w' = w) ∧
          (isNaN w = true → isNaN w' = true)

/-- Rules R53, R350 to R352. -/
def Obligations.EqSkippedBandsStayFrozen : Prop :=
  ∀ (s t : State) (k : BitVec 8) (frames : Word), s.prepared = true → k.toNat ≤ 1 →
    exec (.eqProcess k frames) s = .next t → ∀ b : Fin 8,
      (bandProcesses t b.val = false → t.eq.hist[b] = s.eq.hist[b]) ∧
      (t.eqb[b][8] ≠ 1 → t.eqc[b] = s.eqc[b]) ∧
      (t.eqg[3] ≠ 1 → t.eqb[b][8] = 1 → t.eqc[b] = designBand t b.val)

/-- Rules R121, R204, R450 to R452, R472. That fewer samples are pending than a hop is part of publicationLegal. -/
def Obligations.SpecProcessRunsOnePassPerHop : Prop :=
  ∀ (s : State) (k : BitVec 8) (frames : Word), s.prepared = true → configLegal s →
    s.spec.pending.toNat < s.act.hop.toNat → k.toNat ≤ 1 →
    readableWords s (bufBase k.toNat) (frameCount frames s * actC s) = true →
    ∃ (st : Nat → State) (t : State), drain s = .next (st 0) ∧
      (∀ i, i < frameCount frames s → ∃ m, monoFrame (st i) (bufBase k.toNat) i = .next m ∧
        st (i + 1) =
          if (st i).spec.pending + 1 = s.act.hop then
            analysisPass { st i with spec := { (st i).spec with
              ring := (st i).spec.ring.set (st i).spec.wr m
              wr := (st i).spec.wr + 1
              samples := (st i).spec.samples + 1
              pending := 0 } }
          else { st i with spec := { (st i).spec with
              ring := (st i).spec.ring.set (st i).spec.wr m
              wr := (st i).spec.wr + 1
              samples := (st i).spec.samples + 1
              pending := (st i).spec.pending + 1 } }) ∧
      exec (.specProcess k frames) s = .next t ∧ completedWith 0x04 0 (st (frameCount frames s)) t ∧
      t.head = s.tail ∧
      t.spec.frame = s.spec.frame +
        BitVec.ofNat 32 ((s.spec.pending.toNat + frameCount frames s) / s.act.hop.toNat) ∧
      t.specSeq = s.specSeq +
        BitVec.ofNat 32 (2 * ((s.spec.pending.toNat + frameCount frames s) / s.act.hop.toNat)) ∧
      t.spec.pending.toNat = (s.spec.pending.toNat + frameCount frames s) % s.act.hop.toNat ∧
      t.spec.samples = s.spec.samples + BitVec.ofNat 64 (frameCount frames s)

/-- Rules R110, R111, R450, R464, R471. -/
def Obligations.SpecProcessFrame : Prop :=
  ∀ (s t : State) (k : BitVec 8) (frames : Word), configLegal s → exec (.specProcess k frames) s = .next t →
    let passes := (s.spec.pending.toNat + frameCount frames s) / s.act.hop.toNat
    t = { s with
      spec := t.spec, specSeq := t.specSeq, trackers := t.trackers, mlVec := t.mlVec, synp := t.synp, eqg := t.eqg,
      eqb := t.eqb, illegalCount := t.illegalCount, head := t.head, cmdResult := t.cmdResult,
      cmdCount := t.cmdCount, lastCycles := t.lastCycles, draws := t.draws, busy := t.busy, progress := t.progress,
      mem := t.mem } ∧
    (∀ a,
      (∀ b, b < actK s → ∀ base ∈ [magBase, phaseBase, powerBase], a < base + 4 * b ∨ base + 4 * b + 4 ≤ a) →
      (∀ p, p < passes →
        a < histBase ((s.spec.frame.toNat + p) % 32) ∨ histBase ((s.spec.frame.toNat + p) % 32) + 0x200 ≤ a) →
      Memory.byte t.mem a = Memory.byte s.mem a) ∧
    (passes = 0 → t.mem = s.mem ∧ t.trackers = s.trackers ∧ t.mlVec = s.mlVec ∧ t.specSeq = s.specSeq ∧
      t.spec = { s.spec with
        ring := t.spec.ring, wr := t.spec.wr, pending := t.spec.pending, samples := t.spec.samples })

/-- Rules R47, R464, R470 to R474, R560, R565 (e). SPEC_PROCESS runs this pass at every hop
(SpecProcessRunsOnePassPerHop). -/
def Obligations.PassPublishesItsSnapshot : Prop :=
  ∀ s : State,
    let slot := s.spec.frame.toNat % 32
    let held := fun j => Memory.word (analysisPass s).mem (0x20000 + 0x200 * slot + 4 * j)
    let word := fun j => (held j).getD 0
    let x := analysisFrame s.spec (actN s)
    let sp := spectraOf (windowedFrame s.spec x (actN s)) (actK s)
    let p := passOf s x sp
    let onset := isOnset s.spec s.act.onsetLambda s.act.onsetRefract (flux p)
    let e := tempoStep s.act (actFs s) (onsetStep s.spec onset (flux p))
    let pitch := yinPitch p s.act.pitchMin s.act.pitchMax s.act.yinThresh
    let layout : List Word :=
      [s.spec.frame, s.spec.samples.extractLsb' 0 32, s.spec.samples.extractLsb' 32 32, centroid p, spread p, flatness p,
        BitVec.ofNat 32 (rolloff p (decimal 85 2)), BitVec.ofNat 32 (rolloff p (decimal 95 2)), flux p, slope p] ++
      mfcc p ++ chroma p ++ contrast p ++ tonnetz (chroma p) ++
      [pitch.1, pitchConfidence p pitch.2, flux p, if onset then 1 else 0, e.tempo, e.tempoConf, (harmPerc p).1,
        (harmPerc p).2, BitVec.ofNat 32 (peaks p).length] ++ peakWords p (peaks p)
    let features := [(0, 3, 9), (1, 10, 22), (2, 23, 34), (3, 35, 40), (4, 41, 46), (5, 47, 48), (6, 49, 50), (7, 51, 52),
      (8, 53, 54), (9, 55, 103)]
    held 0 = some s.spec.frame ∧ held 1 = some (s.spec.samples.extractLsb' 0 32) ∧
    held 2 = some (s.spec.samples.extractLsb' 32 32) ∧ (∀ j, j < 128 → (held j).isSome = true) ∧
    (∀ j, 104 ≤ j → j < 128 → held j = some 0) ∧
    (analysisPass s).spec.latest.toNat = slot ∧
    (s.spec.valid.toNat ≤ 32 → (analysisPass s).spec.valid.toNat = min (s.spec.valid.toNat + 1) 32) ∧
    (analysisPass s).spec.frame = s.spec.frame + 1 ∧ (analysisPass s).specSeq = s.specSeq + 2 ∧
    (cfgLegal s.act → ∀ k, k < actK s →
      Memory.word (analysisPass s).mem (0x30000 + 4 * k) = some (tab sp.M k) ∧
      Memory.word (analysisPass s).mem (0x38000 + 4 * k) = some (tab sp.Φ k) ∧
      Memory.word (analysisPass s).mem (0x40000 + 4 * k) = some (tab sp.P k)) ∧
    (∀ r ∈ features, ∀ j, r.2.1 ≤ j → j ≤ r.2.2 →
      held j = some (if s.act.featureEn.getLsbD r.1 then layout.getD j 0 else 0)) ∧
    (analysisPass s).trackers = ⟨word 47, word 48, word 49, word 50, word 51, word 52, word 53, word 54⟩ ∧
    (∀ c ∈ [pitchConfidence p pitch.2, e.tempoConf], fle 0x00000000 c = true ∧ fle c 0x3F800000 = true) ∧
    ∀ i : Fin 42, (analysisPass s).mlVec[i] =
      if i.val = 3 then f32OfNat (word 6).toNat else if i.val = 4 then f32OfNat (word 7).toNat
      else if i.val < 32 then word (i.val + 3) else if i.val < 38 then word (i.val + 9)
      else if i.val < 41 then word (i.val + 9) else word 51

/-- Rule R558. -/
def Obligations.PeaksAreTheGreatestQualifyingBins : Prop :=
  ∀ p : Pass,
    let before := fun a b => unitsOf (tab p.M b) < unitsOf (tab p.M a) ∨ (unitsOf (tab p.M b) = unitsOf (tab p.M a) ∧ a < b)
    let qualifies := fun k => 1 ≤ k ∧ k + 2 ≤ p.K ∧ flt (tab p.M (k - 1)) (tab p.M k) = true ∧
      fle (tab p.M (k + 1)) (tab p.M k) = true ∧ flt 0 (tab p.M k) = true
    (peaks p).length ≤ 16 ∧ (∀ k ∈ peaks p, qualifies k) ∧ (peaks p).Pairwise before ∧
    ∀ k, qualifies k → k ∉ peaks p → (peaks p).length = 16 ∧ ∀ j ∈ peaks p, before j k

/-- Rules R101, R103 to R105. That an offset of 0x80000 or more is a bus error too is the model's (log entry 25);
an agent reaches no such offset. -/
def Obligations.BusErrorsAreExactly : Prop :=
  ∀ (s : State) (width off : Nat) (v : Word),
    (width ≠ 4 ∨ off % 4 ≠ 0 ∨ (0x1800 ≤ off ∧ off < 0x2000) ∨ (0x4000 ≤ off ∧ off < 0x10000) ∨
        (0x24000 ≤ off ∧ off < 0x30000) ∨ 0x48000 ≤ off →
      access (.read width off) s = .fault (.busError off) ∧ access (.write width off v) s = .fault (.busError off)) ∧
    (width = 4 → off % 4 = 0 →
      off < 0x1800 ∨ (0x2000 ≤ off ∧ off < 0x4000) ∨ (0x10000 ≤ off ∧ off < 0x24000) ∨
        (0x30000 ≤ off ∧ off < 0x48000) →
      ∃ t, access (.read width off) s = .next t)

/-- Rules R33, R101, R113. The read data and the counter of host draws are the model's own fields (log entries 10
and 12). -/
def Obligations.ReadsHaveNoSideEffect : Prop :=
  (∀ (s t : State) (width off : Nat), access (.read width off) s = .next t →
    t = { s with readData := t.readData, hostDraws := s.hostDraws + 1 }) ∧
  (∀ (s t : State) (off : Nat), s.busy = false → off < 0x1000 → access (.read 4 off) s = .next t →
    t.readData = readCsr s off) ∧
  (∀ (s t u : State) (off : Nat), s.busy = false → off < 0x1000 →
    access (.read 4 off) s = .next t → access (.read 4 off) t = .next u → u.readData = t.readData) ∧
  (∀ (s t : State) (off : Nat) (w : Word), s.busy = false → 0x1000 ≤ off → Memory.word s.mem off = some w →
    access (.read 4 off) s = .next t → t.readData = w)

/-- Rules R101, R102, R113, R682 (H5), and the first row of the table of rule R670. How racing writes are kept is
the model's own (log entry 19); that they are aligned is part of memoryMapped. -/
def Obligations.RamWritesReadBackOrRace : Prop :=
  (∀ (s : State) (off : Nat) (v : Word), off % 4 = 0 →
    (0x1000 ≤ off ∧ off < 0x1800) ∨ (0x2000 ≤ off ∧ off < 0x4000) ∨ (0x10000 ≤ off ∧ off < 0x20000) →
    let races :=
      (Cmd.op s.latched = 0x02 ∧ off < 0x4000) ∨
      ((Cmd.op s.latched = 0x02 ∨ Cmd.op s.latched = 0x03 ∨ Cmd.op s.latched = 0x04) ∧
        bufBase (Cmd.fieldA s.latched).toNat ≤ off ∧ off < bufBase (Cmd.fieldA s.latched).toNat + 0x8000)
    (s.busy = false ∨ ¬ races →
      ∃ t, access (.write 4 off v) s = .next t ∧ t = { s with mem := t.mem } ∧
        (∀ j, j < 4 → Memory.byte t.mem (off + j) = some (v.extractLsb' (8 * j) 8)) ∧
        (∀ a, a < off ∨ off + 4 ≤ a → Memory.byte t.mem a = Memory.byte s.mem a) ∧
        (s.busy = false → ∃ u, access (.read 4 off) t = .next u ∧ u.readData = v)) ∧
    (s.busy = true → races → access (.write 4 off v) s = .next { s with raced := s.raced ++ [(off, v)] })) ∧
  (∀ (s : State) (a : Nat), seenWord s a = Memory.word s.mem a ∨ ∃ v, (a, v) ∈ s.raced ∧ seenWord s a = some v) ∧
  (∀ s : State, (∀ w ∈ s.raced, w.1 % 4 = 0) → ∀ off, off % 4 = 0 →
    (∀ v, (s.raced.filter fun w => w.1 == off).getLast? = some (off, v) → engineWrote s off = false →
      Memory.word (settleRaces s).mem off = some v) ∧
    (Memory.word (settleRaces s).mem off = Memory.word s.mem off ∨
      ∃ v, (off, v) ∈ s.raced ∧ Memory.word (settleRaces s).mem off = some v))

/-- Rules R33, R34, R54, R106. -/
def Obligations.ReadOnlyWritesAreIgnored : Prop :=
  ∀ (s : State) (off : Nat) (v : Word), off % 4 = 0 →
    (0x20000 ≤ off ∧ off < 0x24000) ∨ (0x30000 ≤ off ∧ off < 0x48000) ∨
      (off < 0x1000 ∧ off ≠ 0x00C ∧ off ≠ 0x010 ∧ off ≠ 0x030 ∧ off ≠ 0x034 ∧ (off < 0x040 ∨ 0x080 < off)) →
    access (.write 4 off v) s = .next s

/-- Rules R33, R43, R44, R670, R682 (H3, I16). -/
def Obligations.ConfigurationWritesReadBack : Prop :=
  ∀ (s : State) (off : Nat) (v : Word), off % 4 = 0 → 0x040 ≤ off → off ≤ 0x080 →
    (s.busy = true ∧ Cmd.op s.latched = 0x01 → access (.write 4 off v) s = .refused (.hostDuty off)) ∧
    (¬ (s.busy = true ∧ Cmd.op s.latched = 0x01) →
      ∃ t, access (.write 4 off v) s = .next t ∧ t = { s with cfg := t.cfg } ∧ readCsr t off = v ∧
        ∀ o, o % 4 = 0 → o ≠ off → readCsr t o = readCsr s o)

/-- Rules R33 to R54. STATUS and PQ_STATUS have their own statement (StatusWordsHoldTheirFields). -/
def Obligations.RegistersReadAtTheirOffsets : Prop :=
  ∀ s : State,
    [0x000, 0x004, 0x00C, 0x010, 0x014, 0x018, 0x01C, 0x020, 0x024, 0x028, 0x03C].map (readCsr s) =
      [0x56455331, 0x00070001, s.cmdLo, s.cmdHi, s.cmdResult, s.cmdCount, s.busyDrop, s.illegalCount, s.cfgErrField,
        s.lastCycles, s.pqOverflow] ∧
    (∀ r ∈ [(0x040, s.cfg), (0x0C0, s.act)], ((List.range 17).map fun i => readCsr s (r.1 + 4 * i)) =
      [r.2.sampleRate, r.2.maxBlock, r.2.channels, r.2.voices, r.2.fftSize, r.2.hop, r.2.window, r.2.oversample,
        r.2.analogModel, r.2.featureEn, r.2.pitchMin, r.2.pitchMax, r.2.tempoMin, r.2.tempoMax, r.2.onsetLambda,
        r.2.onsetRefract, r.2.yinThresh]) ∧
    readCsr s 0x110 = s.synActive ∧ readCsr s 0x114 = s.synSteals ∧
    ((List.range 7).map fun i => readCsr s (0x120 + 4 * i)) =
      [s.specSeq, s.spec.frame, s.spec.latest, s.spec.valid, s.spec.samples.extractLsb' 0 32,
        s.spec.samples.extractLsb' 32 32, s.spec.pending] ∧
    ((List.range 10).map fun i => readCsr s (0x140 + 4 * i)) =
      [s.trackers.pitchHz, s.trackers.pitchConf, s.trackers.onsetStrength, s.trackers.onsetFlag, s.spec.since,
        s.spec.onsets, s.trackers.tempoBpm, s.trackers.tempoConf, s.trackers.harmRatio, s.trackers.percRatio] ∧
    (∀ i : Fin 42, readCsr s (0x180 + 4 * i.val) = s.mlVec[i]) ∧
    (∀ v : Fin 32, readCsr s (0x300 + 4 * v.val) = s.voiceStatus[v] ∧
      readCsr s (0x380 + 4 * v.val) = s.voiceAge[v]) ∧
    (∀ i : Fin 15, readCsr s (0x400 + 4 * i.val) = s.synp[i]) ∧
    (∀ i : Fin 4, readCsr s (0x480 + 4 * i.val) = s.eqg[i]) ∧
    (∀ (b : Fin 8) (i : Fin 11), readCsr s (0x500 + 0x40 * b.val + 4 * i.val) = s.eqb[b][i]) ∧
    (∀ (b : Fin 8) (k : Fin 5), readCsr s (0x700 + 0x20 * b.val + 4 * k.val) = s.eqc[b][k]) ∧
    ∀ off, off % 4 = 0 →
      off = 0x02C ∨ off = 0x030 ∨ off = 0x034 ∨ (0x084 ≤ off ∧ off < 0x0C0) ∨ (0x104 ≤ off ∧ off < 0x110) ∨
        (0x118 ≤ off ∧ off < 0x120) ∨ off = 0x13C ∨ (0x168 ≤ off ∧ off < 0x180) ∨ (0x228 ≤ off ∧ off < 0x300) ∨
        (0x43C ≤ off ∧ off < 0x480) ∨ (0x490 ≤ off ∧ off < 0x500) ∨
        (0x500 ≤ off ∧ off < 0x700 ∧ 0x2C ≤ off % 0x40) ∨ (0x700 ≤ off ∧ off < 0x800 ∧ 0x14 ≤ off % 0x20) ∨
        0x800 ≤ off →
      readCsr s off = 0

/-- Rules R33, R114 to R116, R118, R121, R451, R670 and 93_implementation_defined.md I15. At which points of a
command a read can stand, and how it finds SPEC_SAMPLES_LO/HI and SPEC_PENDING, is the model's choice (log entries
12 and 13). -/
def Obligations.BusyReadsAreOldOrNew : Prop :=
  (∀ (s : State) (racing : List (Nat × Word)), s.busy = true →
    (upcoming s ≠ s → (∀ c, s.progress ≠ .finishing c) →
      enginePart { s with raced := racing } = .next { upcoming s with raced := racing }) ∧
    ∀ c t, s.progress = .finishing c → (Cmd.op s.latched).toNat ≤ 4 →
      engineTurn { s with raced := racing } = .next t → 
        ∀ off, off % 4 = 0 → off ≠ 0x008 → readCsr t off = readCsr (upcoming s) off) ∧
  ∀ (s t : State) (off : Nat), s.busy = true → memoryMapped s → access (.read 4 off) s = .next t →
    let before := s.oldCsrs.getD (off / 4) 0
    (off < 0x1000 → t.readData = readCsr s off ∨ t.readData = readCsr (upcoming s) off ∨
      t.readData = if off = 0x008 then before ||| 2 else before) ∧
    (off = 0x008 → t.readData.getLsbD 1 = true) ∧
    (off = 0x120 → t.readData = s.specSeq) ∧
    (off = 0x00C ∨ off = 0x010 ∨ off = 0x01C ∨ off = 0x03C ∨ (0x040 ≤ off ∧ off ≤ 0x080) → t.readData = readCsr s off) ∧
    ((0x110 ≤ off ∧ off ≤ 0x114) ∨ (0x130 ≤ off ∧ off ≤ 0x138) ∨ (0x300 ≤ off ∧ off ≤ 0x3FC) ∨
        (0x400 ≤ off ∧ off ≤ 0x438) →
      t.readData =
        if Config.raceSeesOld s.hostDraws then before
        else if Config.raceSeesNew s.hostDraws then readCsr (upcoming s) off
        else readCsr s off) ∧
    (0x1000 ≤ off → Memory.word s.mem off ≠ none →
      some t.readData = Memory.word s.mem off ∨ (off, t.readData) ∈ s.raced ∨
        (0x10000 ≤ off ∧ (some t.readData = Memory.word (upcoming s).mem off ∨
          some t.readData = Memory.word s.oldMem off ∨ Memory.word s.oldMem off = none))) ∧
    (publishing s = false →
      ((0x124 ≤ off ∧ off ≤ 0x12C) ∨ (0x140 ≤ off ∧ off ≤ 0x224) → t.readData = readCsr s off) ∧
      ((0x20000 ≤ off ∧ off < 0x24000) ∨ (0x30000 ≤ off ∧ off < 0x48000) → Memory.word s.mem off ≠ none →
        some t.readData = Memory.word s.mem off))

/-- Rules R32, R116, R200, R211, R250, R350, R450. The parts are the model's own choice (log entry 12). -/
def Obligations.PartsLeadToTheSameCompletion : Prop :=
  (∀ (s : State) (rest : List Turn), s.agenda = .part :: rest → step s = enginePart { s with agenda := rest }) ∧
  ∀ s t : State, commandLegal s → enginePart s = .next t →
    engineTurn t = engineTurn s ∧ t.busy = s.busy ∧ t.latched = s.latched ∧ t.cmdResult = s.cmdResult ∧
      t.cmdCount = s.cmdCount ∧ t.lastCycles = s.lastCycles ∧ t.cfg = s.cfg ∧
      (Cmd.op s.latched ≠ 0x01 → t.act = s.act ∧ t.prepared = s.prepared ∧ t.cfgErrField = s.cfgErrField)

/-- Rules R46 to R48, R121, R472, R655. The parts are the model's own choice (log entry 12). -/
def Obligations.SequenceLockGuardsThePublication : Prop :=
  ∀ s t : State, configLegal s → commandLegal s → enginePart s = .next t →
    (publishing s = false →
      t.trackers = s.trackers ∧ t.mlVec = s.mlVec ∧ t.spec.since = s.spec.since ∧ t.spec.onsets = s.spec.onsets ∧
      t.spec.frame = s.spec.frame ∧ t.spec.latest = s.spec.latest ∧ t.spec.valid = s.spec.valid ∧
      (∀ a, (0x20000 ≤ a ∧ a < 0x24000) ∨ (0x30000 ≤ a ∧ a < 0x48000) →
        Memory.byte t.mem a = Memory.byte s.mem a) ∧
      t.specSeq = if publishing t then s.specSeq + 1 else s.specSeq) ∧
    (publishing s = true → publishing t = false ∧ t.specSeq = s.specSeq + 1)

/-- Rules R30, R100, R104, R115, R682 and 93_implementation_defined.md I6, I11, I16. Which agent rings and which
pushes is a field of the model's own (log entry 22), and so is the fault outside the window (log entry 25). -/
def Obligations.AgentsOweTheirDuties : Prop :=
  (∀ (s : State) (rest : List Turn) (agent : Nat) (a : Access), s.agenda = .access agent a :: rest →
    step s = agentAccess agent a { s with agenda := rest }) ∧
  (∀ (s : State) (agent width addr : Nat) (v : Word),
    addr < Config.blockBase ∨ Config.blockBase + 0x80000 ≤ addr →
      agentAccess agent (.read width addr) s = .fault (.outsideWindow addr) ∧
      agentAccess agent (.write width addr v) s = .fault (.outsideWindow addr)) ∧
  ∀ (s : State) (agent width off : Nat) (v : Word), off < 0x80000 →
    let breach := width = 4 ∧
      ((off = 0x010 ∧ ∃ b, s.doorbellAgent = some b ∧ b ≠ agent) ∨
        ((off = 0x030 ∨ off = 0x034) ∧ ∃ b, s.producer = some b ∧ b ≠ agent) ∨ (off = 0x034 ∧ s.pushLow = false))
    agentAccess agent (.read width (Config.blockBase + off)) s = access (.read width off) s ∧
    (breach → agentAccess agent (.write width (Config.blockBase + off) v) s = .refused (.hostDuty off)) ∧
    (¬ breach → agentAccess agent (.write width (Config.blockBase + off) v) s =
      access (.write width off v) { s with
        doorbellAgent := if off = 0x010 then some agent else s.doorbellAgent
        producer := if off = 0x030 ∨ off = 0x034 then some agent else s.producer
        pushLow := if off = 0x030 then true else if off = 0x034 then false else s.pushLow })

/-- Rules R34, R42 to R53, R650, R651. -/
def Obligations.ResetRegisterValues : Prop :=
  ([0x000, 0x004, 0x008, 0x00C, 0x010, 0x014, 0x018, 0x01C, 0x020, 0x024, 0x028, 0x030, 0x034, 0x038, 0x03C].map
      (readCsr State.reset) = [0x56455331, 0x00070001, 0, 0, 0, 0, 0, 0, 0, 0, 0, 0, 0, 0x00000400, 0]) ∧
  ((List.range 17).map fun i => readCsr State.reset (0x040 + 4 * i)) =
    [48000, 512, 2, 16, 2048, 512, 0, 1, 0, 0x3FF, 0x42480000, 0x44FA0000, 0x42700000, 0x43340000, 0x3FC00000, 3,
      0x3E19999A] ∧
  (∀ i, i < 17 → readCsr State.reset (0x0C0 + 4 * i) = 0) ∧
  (∀ i, i < 70 → readCsr State.reset (0x110 + 4 * i) = 0) ∧
  (∀ i, i < 64 → readCsr State.reset (0x300 + 4 * i) = 0) ∧
  ((List.range 15).map fun i => readCsr State.reset (0x400 + 4 * i)) =
    [0, 0x3C23D70A, 0, 0x3DCCCCCD, 0x3F333333, 0x3E4CCCCD, 0x3F800000, 0, 0x469C4000, 0x3F3504F3, 0, 0x40A00000, 0, 0,
      0x3F800000] ∧
  ((List.range 4).map fun i => readCsr State.reset (0x480 + 4 * i)) = [0, 0, 0, 0] ∧
  (∀ b, b < 8 → ((List.range 11).map fun i => readCsr State.reset (0x500 + 0x40 * b + 4 * i)) =
    [0, 0x447A0000, 0, 0x3F3504F3, 0, 0x3F800000, 0, 0x3F800000, 0, 0, 0]) ∧
  (∀ b, b < 8 → ((List.range 5).map fun k => readCsr State.reset (0x700 + 0x20 * b + 4 * k)) =
    [0x3F800000, 0, 0, 0, 0])

/-- The canonical form (log entry 3) and the memory from before a command (log entry 13) are the model's own. -/
def Obligations.MemoryStaysCanonical : Prop :=
  ∀ s t : State, Memory.wf s.mem ∧ Memory.wf s.oldMem → step s = .next t → Memory.wf t.mem ∧ Memory.wf t.oldMem

/-- Rules R17, R203, R212. -/
def Obligations.ParametersStayLegal : Prop :=
  ∀ s t : State, paramsLegal s → step s = .next t → paramsLegal t

/-- Rules R43, R202, R203. How far a command has come is the model's field (log entry 12). -/
def Obligations.ConfigurationStaysLegal : Prop :=
  ∀ s t : State, configLegal s → commandLegal s → step s = .next t → configLegal t ∧ commandLegal t

/-- Rules R55, R261 to R264, R268 (a), R269. -/
def Obligations.VoicesStayLegal : Prop :=
  ∀ s t : State, configLegal s → commandLegal s → voicesLegal s → step s = .next t → voicesLegal t

/-- Rules R46, R121, R450, R451, R471, R655. -/
def Obligations.PublicationStaysLegal : Prop :=
  ∀ s t : State, configLegal s → commandLegal s → publicationLegal s → step s = .next t → publicationLegal t

/-- Rules R101, R105, R109 to R111. The list of racing writes is the model's own (log entry 19). -/
def Obligations.MemoryStaysInTheRams : Prop :=
  ∀ s t : State, configLegal s → commandLegal s → memoryMapped s → step s = .next t → memoryMapped t

/-- Rules R650, R651. The voice file's values at reset are the model's own choice (log entry 15). -/
def Obligations.ResetMeetsTheInvariants : Prop :=
  Memory.wf State.reset.mem ∧ Memory.wf State.reset.oldMem ∧ memoryMapped State.reset ∧ paramsLegal State.reset ∧ configLegal State.reset ∧
    commandLegal State.reset ∧ voicesLegal State.reset ∧ publicationLegal State.reset ∧ agesDistinct State.reset

/-- Rules R36, R650. What the reset turn keeps is the model's own (log entry 18). -/
def Obligations.PreparedIsOnlyClearedByReset : Prop :=
  (∀ s t : State, s.prepared = true → (∀ rest, s.agenda ≠ .reset :: rest) → step s = .next t → t.prepared = true) ∧
  (∀ (s : State) (rest : List Turn), s.agenda = .reset :: rest →
    step s = .next { State.reset with
      agenda := rest, readData := s.readData, draws := s.draws, hostDraws := s.hostDraws,
      doorbellAgent := s.doorbellAgent, producer := s.producer })

/-- Rule R12. Values are counted in units of 2^-149, of which every finite binary32 is a whole number. -/
def Obligations.BasicOperationsRoundToNearestEven : Prop :=
  ∀ a b : F32, isFinite a = true → isFinite b = true →
    rounded (unitsOf a + unitsOf b) 1 (fadd a b) ∧
    rounded (unitsOf a - unitsOf b) 1 (fsub a b) ∧
    rounded (unitsOf a * unitsOf b) (2 ^ 149) (fmul a b) ∧
    (unitsOf b ≠ 0 → rounded (unitsOf a * 2 ^ 149 * (unitsOf b).sign) (unitsOf b).natAbs (fdiv a b))

/-- Rules R14, R463 (a), (b). At infinite operands (pow(+inf, 1), pow(+0, +inf), pow(1, +inf), pow(1, -inf)) the
pow clauses are the model's own choice (log entry 5, its second DESIGN CHOICE, unsafe):
93_implementation_defined.md I1 calls a result on an infinite argument any value. An argument 0 without a sign is
read as +0.0 (log entry 5), and an all-zero frame may hold -0.0 (log entry 6). -/
def Obligations.ExactNumericsProperties : Prop :=
  exp2N 0x00000000 = 0x3F800000 ∧ exp2N 0x80000000 = 0x3F800000 ∧ pow10N 0x00000000 = 0x3F800000 ∧
  pow10N 0x80000000 = 0x3F800000 ∧ expN 0x00000000 = 0x3F800000 ∧ cosN 0x00000000 = 0x3F800000 ∧
  sinN 0x00000000 = 0 ∧ tanhN 0x00000000 = 0 ∧ lnN 0x3F800000 = 0 ∧ log10N 0x3F800000 = 0 ∧
  log2N 0x3F800000 = 0 ∧ atan2N 0 0 = 0 ∧
  (∀ x : F32, isNaN x = false → signBit x = false → powN x 0x3F800000 = x) ∧
  (∀ c : F32, flt 0 c = true → powN 0 c = 0) ∧
  (∀ c : F32, isNaN c = false → powN 0x3F800000 c = 0x3F800000) ∧
  (∀ (xw : List F32) (k : Nat), (∀ x ∈ xw, isZero x = true) → dftBin xw k = (0, 0)) ∧
  (∀ xw : List F32, (dftBin xw 0).2 = 0 ∧ (dftBin xw (xw.length / 2)).2 = 0)

/-- Rule R261: the loop that passes zero-duration stages, and the corner cases. -/
def Obligations.ZeroDurationsReachSustain : Prop :=
  (∀ (s : State) (v : Voice),
    (v.stage = .attack → (durations s).attack = 0 → envStep s v = envStep s { v with stage := .hold, t := 0 }) ∧
    (v.stage = .hold → (durations s).hold = 0 → envStep s v = envStep s { v with stage := .decay, t := 0 }) ∧
    (v.stage = .decay → (durations s).decay = 0 → envStep s v = envStep s { v with stage := .sustain, t := 0 }) ∧
    (v.stage = .release → (durations s).release = 0 → envStep s v = envStep s { v with stage := .idle, t := 0 })) ∧
  ∀ (s : State) (v : Voice), v.active = true →
    (v.stage = .attack → (durations s).attack = 0 → (durations s).hold = 0 → (durations s).decay = 0 →
      (envStep s v).1 = pSustain s ∧ (envStep s v).2.stage = .sustain ∧ (envStep s v).2.active = true) ∧
    (v.stage = .release → (durations s).release = 0 →
      (envStep s v).1 = 0 ∧ (envStep s v).2.stage = .idle ∧ (envStep s v).2.active = false)

/-- Rule R405. -/
def Obligations.TableLookupNeverReadsPastAnEnd : Prop :=
  ∀ (T : Vector F32 4096) (x : F32),
    (isNaN x = true → lut T x = x) ∧
    (isNaN x = false → fle x 0xC0800000 = true → lut T x = T[0]) ∧
    (isNaN x = false → fle 0x40800000 x = true → lut T x = T[4095]) ∧
    (flt 0xC0800000 x = true → flt x 0x40800000 = true →
      let pos := fdiv (fmul (fadd x 0x40800000) (f32OfNat 4095)) 0x41000000
      ∃ (j : Nat) (hj : j + 1 < 4096), j = min (floorInt pos).toNat 4094 ∧
        lut T x = fadd T[j] (fmul (fsub pos (f32OfNat j)) (fsub T[j + 1] T[j])))
end

