-- ==== Sys2Proof/Laws/Flow.lean ====
section
/-! SUPPORT. The laws of computations that can stop, of the parameter stores and of the drain: each store completes and
touches only the parameter registers and ILLEGAL_COUNT; the drain completes with the head at the tail; a process command
is one of three completions. -/

namespace Sys2Proof.Machine

/-! ## Computations that can stop -/

@[simp] theorem andThen_next {α β : Type} (a : α) (f : α → Res β) : andThen (.next a) f = f a := rfl

@[simp] theorem andThen_fault {α β : Type} (e : Fault) (f : α → Res β) :
    andThen (.fault e : Res α) f = .fault e := rfl

@[simp] theorem andThen_refused {α β : Type} (e : Refusal) (f : α → Res β) :
    andThen (.refused e : Res α) f = .refused e := rfl

theorem andThen_eq_next {α β : Type} {r : Res α} {f : α → Res β} {b : β} :
    andThen r f = .next b ↔ ∃ a, r = .next a ∧ f a = .next b := by
  cases r <;> simp [andThen]

/-- A chain completes when its first computation does and its second does on that value. -/
theorem andThen_completes {α β : Type} {r : Res α} {f : α → Res β} {P : β → Prop} (a : α) (hr : r = .next a)
    (hf : ∃ b, f a = .next b ∧ P b) : ∃ b, andThen r f = .next b ∧ P b := by
  simpa [hr] using hf

/-! ## Parameter stores -/

/-- `t` is `s` but for the parameter registers and ILLEGAL_COUNT. -/
def onlyParams (s t : State) : Prop :=
  t = { s with synp := t.synp, eqg := t.eqg, eqb := t.eqb, illegalCount := t.illegalCount }

theorem onlyParams_refl (s : State) : onlyParams s s := rfl

theorem onlyParams_trans {s t u : State} (h1 : onlyParams s t) (h2 : onlyParams t u) : onlyParams s u := by
  simp only [onlyParams] at *
  rw [h2, h1]

theorem countIllegal_frame (s : State) : onlyParams s (countIllegal s) := rfl

theorem writeParam_frame (r : ParamReg) (v : Word) (s : State) : onlyParams s (writeParam r v s) := by
  cases r <;> rfl

/-- What `storeReal` does (rule R212). -/
theorem storeReal_cases (r : ParamReg) (v : Word) (s : State) :
    (isNaN v = true ∧ storeReal r v s = countIllegal s) ∨ (isNaN v = false ∧ storeReal r v s = writeParam r v s) := by
  cases h : isNaN v <;> simp [storeReal, h]

/-- What `storeEnum` does (rule R212). -/
theorem storeEnum_cases (r : ParamReg) (m : Nat) (v : Word) (s : State) :
    (v.toNat ≤ m ∧ storeEnum r m v s = writeParam r v s) ∨ (m < v.toNat ∧ storeEnum r m v s = countIllegal s) := by
  by_cases h : v.toNat ≤ m
  · exact .inl ⟨h, if_pos h⟩
  · exact .inr ⟨by omega, if_neg h⟩

/-- What `inBand` does (rule R156). -/
theorem inBand_cases (b : BitVec 8) (store : Fin 8 → State → State) (s : State) :
    (∃ i : Fin 8, i.val = b.toNat ∧ inBand b store s = store i s) ∨ (8 ≤ b.toNat ∧ inBand b store s = countIllegal s) := by
  by_cases h : b.toNat < 8
  · exact .inl ⟨⟨b.toNat, h⟩, rfl, dif_pos h⟩
  · exact .inr ⟨by omega, dif_neg h⟩

theorem storeReal_frame (r : ParamReg) (v : Word) (s : State) : onlyParams s (storeReal r v s) := by
  rcases storeReal_cases r v s with ⟨-, h⟩ | ⟨-, h⟩ <;> rw [h]
  exacts [countIllegal_frame s, writeParam_frame r v s]

theorem storeEnum_frame (r : ParamReg) (m : Nat) (v : Word) (s : State) : onlyParams s (storeEnum r m v s) := by
  rcases storeEnum_cases r m v s with ⟨-, h⟩ | ⟨-, h⟩ <;> rw [h]
  exacts [writeParam_frame r v s, countIllegal_frame s]

theorem storeBool_frame (r : ParamReg) (v : Word) (s : State) : onlyParams s (storeBool r v s) :=
  writeParam_frame r _ s

theorem inBand_frame (b : BitVec 8) (store : Fin 8 → State → State) (s : State)
    (h : ∀ i, onlyParams s (store i s)) : onlyParams s (inBand b store s) := by
  rcases inBand_cases b store s with ⟨i, -, hb⟩ | ⟨-, hb⟩ <;> rw [hb]
  exacts [h i, countIllegal_frame s]

/-- Every setter completes and touches only the parameter registers and ILLEGAL_COUNT. -/
theorem applySetter_completes (i : Instr) (s : State) : ∃ t, applySetter i s = .next t ∧ onlyParams s t := by
  cases i <;> refine ⟨_, rfl, ?_⟩ <;>
    first
      | exact countIllegal_frame s
      | exact storeReal_frame _ _ s
      | exact storeEnum_frame _ _ _ s
      | exact storeBool_frame _ _ s
      | exact inBand_frame _ _ s fun _ => storeReal_frame _ _ s
      | exact inBand_frame _ _ s fun _ => storeEnum_frame _ _ _ s
      | exact inBand_frame _ _ s fun _ => storeBool_frame _ _ s

/-- Applying a queue entry completes and touches only the parameter registers and ILLEGAL_COUNT (rule R211). -/
theorem applyEntry_completes (w : Cmd) (s : State) : ∃ t, applyEntry w s = .next t ∧ onlyParams s t := by
  simp only [applyEntry]
  split
  · exact applySetter_completes _ s
  · exact ⟨_, rfl, countIllegal_frame s⟩

/-! ## The drain -/

/-- `t` is `s` but for the parameter registers, ILLEGAL_COUNT and the queue's head. -/
def onlyDrained (s t : State) : Prop :=
  t = { s with synp := t.synp, eqg := t.eqg, eqb := t.eqb, illegalCount := t.illegalCount, head := t.head }

theorem drainTo_completes (t : Fin 32) (fuel : Nat) (s : State) :
    ∃ u, drainTo t fuel s = .next u ∧ onlyDrained s u ∧ ((t - s.head).val ≤ fuel → u.head = t) := by
  induction fuel generalizing s with
  | zero =>
    refine ⟨s, rfl, rfl, fun h => ?_⟩
    have : t - s.head = 0 := Fin.ext (by simpa using h)
    exact (sub_eq_zero.1 this).symm
  | succ n ih =>
    simp only [drainTo]
    split
    · rename_i h
      exact ⟨s, rfl, rfl, fun _ => h⟩
    · rename_i hne
      obtain ⟨a, ha, fa⟩ := applyEntry_completes s.slots[s.head] (popQueue s)
      obtain ⟨u, hu, fu, hh⟩ := ih a
      have ah : a.head = s.head + 1 := by rw [fa]; rfl
      refine ⟨u, by rw [ha]; exact hu, ?_, fun hle => hh ?_⟩
      · simp only [onlyDrained, onlyParams] at *
        rw [fu, fa]
        rfl
      · rw [ah]
        have : t - s.head ≠ 0 := fun h => hne (sub_eq_zero.1 h).symm
        have h0 : (t - s.head).val ≠ 0 := fun h => this (Fin.ext h)
        have : (t - (s.head + 1)).val = (t - s.head).val - 1 := by
          rw [← sub_sub]
          generalize t - s.head = d at *
          rw [Fin.sub_def]
          simp only [Fin.val_one]
          omega
        omega

/-- What the drain does (rule R211): it completes, the head meets the tail, and only the parameter registers and
ILLEGAL_COUNT change besides. -/
theorem drain_completes (s : State) : ∃ t, drain s = .next t ∧ onlyDrained s t ∧ t.head = s.tail := by
  obtain ⟨u, h1, h2, h3⟩ := drainTo_completes s.tail 31 s
  exact ⟨u, h1, h2, h3 (by omega)⟩

/-- An empty queue drains to the same state. -/
theorem drain_empty (s : State) (h : s.head = s.tail) : drain s = .next s := by
  simp [drain, drainTo, h]

/-! ## Process commands -/

/-- What the prologue's checks answer (rules R204, R601). -/
theorem prologueError_cases (k : BitVec 8) (s : State) :
    (s.prepared = false ∧ prologueError k s = some .notPrepared) ∨
    (s.prepared = true ∧ 1 < k.toNat ∧ prologueError k s = some .badBuffer) ∨
    (s.prepared = true ∧ k.toNat ≤ 1 ∧ prologueError k s = none) := by
  cases hp : s.prepared <;> by_cases hk : 1 < k.toNat <;> (simp [prologueError, hp, hk]; try omega)

/-- What a process command can answer (rule R204): a failed check's completion, or its body on the drained state,
completed. -/
theorem processCommand_cases {op k : BitVec 8} {body : State → Res State} {s t : State}
    (h : processCommand op k body s = .next t) :
    (s.prepared = false ∧ t = finish .notPrepared op s) ∨
    (s.prepared = true ∧ 1 < k.toNat ∧ t = finish .badBuffer op s) ∨
    (s.prepared = true ∧ k.toNat ≤ 1 ∧
      ∃ s1 s2, drain s = .next s1 ∧ body s1 = .next s2 ∧ t = finish .ok op s2) := by
  rcases prologueError_cases k s with ⟨hp, he⟩ | ⟨hp, hk, he⟩ | ⟨hp, hk, he⟩ <;> simp only [processCommand, he] at h
  · exact .inl ⟨hp, (by simpa using h.symm)⟩
  · exact .inr (.inl ⟨hp, hk, (by simpa using h.symm)⟩)
  · obtain ⟨s1, h1, h⟩ := andThen_eq_next.1 h
    obtain ⟨s2, h2, h⟩ := andThen_eq_next.1 h
    exact .inr (.inr ⟨hp, hk, s1, s2, h1, h2, (by simpa using h.symm)⟩)

/-- An unprepared block fails a process command (rules R204, R601). -/
theorem processCommand_notPrepared (op k : BitVec 8) (body : State → Res State) {s : State} (h : s.prepared = false) :
    processCommand op k body s = .next (finish .notPrepared op s) := by
  simp [processCommand, prologueError, h]

/-- A prepared block fails a process command with a bad buffer index (rules R204, R601). -/
theorem processCommand_badBuffer (op : BitVec 8) {k : BitVec 8} (body : State → Res State) {s : State}
    (h : s.prepared = true) (hk : 1 < k.toNat) : processCommand op k body s = .next (finish .badBuffer op s) := by
  simp [processCommand, prologueError, h, hk]

/-- A process command that passes its checks completes when its body does on the drained state (rule R204). -/
theorem processCommand_completes {op k : BitVec 8} {body : State → Res State} {s s1 s2 : State}
    (hp : s.prepared = true) (hk : k.toNat ≤ 1) (h1 : drain s = .next s1) (h2 : body s1 = .next s2) :
    processCommand op k body s = .next (finish .ok op s2) := by
  have : ¬ 1 < k.toNat := by omega
  simp [processCommand, prologueError, hp, this, h1, h2]

end Sys2Proof.Machine
end

