-- ==== Sys2Proof/Laws/Memory.lean ====
section
/-! SUPPORT. The laws of the memory: every operation keeps the canonical form, a read after a write to the same byte
gives the value written, and a write leaves every other byte alone. -/

namespace Sys2Proof.Machine

/-! ## Bytes -/

theorem byte_setByte (m : List Host.Cell) (a x : Nat) (b : Byte) :
    Memory.byte (Memory.setByte m a b) x = if x = a then some b else Memory.byte m x := by
  induction m with
  | nil => simp [Memory.setByte, Memory.byte, eq_comm]
  | cons c rest ih =>
    obtain ⟨k, d⟩ := c
    simp only [Memory.setByte]
    split
    · by_cases h : x = a
      · simp [Memory.byte, h]
      · simp [Memory.byte, h, Ne.symm h]
    · split
      · subst_vars
        by_cases h : x = k
        · simp [Memory.byte, h]
        · simp [Memory.byte, h, Ne.symm h]
      · rename_i h1 h2
        by_cases h : k = x
        · subst h
          simp [Memory.byte, Ne.symm h2]
        · simp [Memory.byte, h, ih]

@[simp] theorem byte_setByte_same (m : List Host.Cell) (a : Nat) (b : Byte) :
    Memory.byte (Memory.setByte m a b) a = some b := by simp [byte_setByte]

theorem byte_setByte_other (m : List Host.Cell) (a x : Nat) (b : Byte) (h : x ≠ a) :
    Memory.byte (Memory.setByte m a b) x = Memory.byte m x := by simp [byte_setByte, h]

theorem mem_setByte (m : List Host.Cell) (a : Nat) (b : Byte) (c : Host.Cell)
    (h : c ∈ Memory.setByte m a b) : c = (a, b) ∨ c ∈ m := by
  induction m with
  | nil => simpa [Memory.setByte] using h
  | cons d rest ih =>
    obtain ⟨k, e⟩ := d
    simp only [Memory.setByte] at h
    split at h
    · simpa using h
    · split at h
      · rcases List.mem_cons.1 h with h | h
        · exact .inl h
        · exact .inr (List.mem_cons_of_mem _ h)
      · rcases List.mem_cons.1 h with h | h
        · exact .inr (h ▸ List.mem_cons_self)
        · exact (ih h).imp id (List.mem_cons_of_mem _)

theorem setByte_wf (m : List Host.Cell) (a : Nat) (b : Byte) (h : Memory.wf m) :
    Memory.wf (Memory.setByte m a b) := by
  induction m with
  | nil => simp [Memory.setByte, Memory.wf]
  | cons c rest ih =>
    obtain ⟨k, d⟩ := c
    obtain ⟨h1, h2⟩ := List.pairwise_cons.1 h
    simp only [Memory.setByte]
    split
    · rename_i hak
      refine List.pairwise_cons.2 ⟨fun x hx => ?_, h⟩
      rcases List.mem_cons.1 hx with hx | hx
      · subst hx
        exact hak
      · exact lt_trans hak (h1 x hx)
    · split
      · subst_vars
        exact List.pairwise_cons.2 ⟨h1, h2⟩
      · rename_i h3 h4
        refine List.pairwise_cons.2 ⟨fun x hx => ?_, ih h2⟩
        rcases mem_setByte rest a b x hx with hx | hx
        · subst hx
          show k < a
          omega
        · exact h1 x hx

/-! ## Words -/

/-- A byte of a word: the byte at address `x` of the word `w` stored at `a`. -/
def wordByte (w : Word) (a x : Nat) : Byte := w.extractLsb' (8 * (x - a)) 8

/-- The byte read after a word write: the word's own four bytes change, every other byte stays. -/
theorem byte_setWord (m : List Host.Cell) (a x : Nat) (w : Word) :
    Memory.byte (Memory.setWord m a w) x =
      if a ≤ x ∧ x < a + 4 then some (wordByte w a x) else Memory.byte m x := by
  simp only [Memory.setWord, byte_setByte]
  by_cases h : a ≤ x ∧ x < a + 4
  · obtain ⟨k, rfl⟩ := Nat.exists_eq_add_of_le h.1
    have hk : k < 4 := by omega
    interval_cases k <;> simp [wordByte]
  · have h0 : x ≠ a := by omega
    have h1 : x ≠ a + 1 := by omega
    have h2 : x ≠ a + 2 := by omega
    have h3 : x ≠ a + 3 := by omega
    simp [h, h0, h1, h2, h3]

theorem byte_setWord_other (m : List Host.Cell) (a x : Nat) (w : Word) (h : x < a ∨ a + 4 ≤ x) :
    Memory.byte (Memory.setWord m a w) x = Memory.byte m x := by
  rw [byte_setWord, if_neg (by omega)]

theorem wordOfBytes_bytes (w : Word) :
    wordOfBytes (w.extractLsb' 0 8) (w.extractLsb' 8 8) (w.extractLsb' 16 8) (w.extractLsb' 24 8) = w := by
  simp only [wordOfBytes]
  ext i hi
  simp only [BitVec.getElem_append, BitVec.getElem_extractLsb']
  split
  · simp [BitVec.getLsbD_eq_getElem hi]
  · split
    · rw [show 8 + (i - 8) = i by omega, BitVec.getLsbD_eq_getElem hi]
    · split
      · rw [show 16 + (i - 8 - 8) = i by omega, BitVec.getLsbD_eq_getElem hi]
      · rw [show 24 + (i - 8 - 8 - 8) = i by omega, BitVec.getLsbD_eq_getElem hi]

@[simp] theorem word_setWord_same (m : List Host.Cell) (a : Nat) (w : Word) :
    Memory.word (Memory.setWord m a w) a = some w := by
  simp only [Memory.word, byte_setWord]
  simp [wordByte, wordOfBytes_bytes]

theorem word_setWord_other (m : List Host.Cell) (a b : Nat) (w : Word) (h : b + 4 ≤ a ∨ a + 4 ≤ b) :
    Memory.word (Memory.setWord m a w) b = Memory.word m b := by
  simp only [Memory.word]
  rw [byte_setWord_other _ _ _ _ (by omega), byte_setWord_other _ _ _ _ (by omega),
    byte_setWord_other _ _ _ _ (by omega), byte_setWord_other _ _ _ _ (by omega)]

theorem setWord_wf (m : List Host.Cell) (a : Nat) (w : Word) (h : Memory.wf m) :
    Memory.wf (Memory.setWord m a w) :=
  setByte_wf _ _ _ (setByte_wf _ _ _ (setByte_wf _ _ _ (setByte_wf _ _ _ h)))

/-- Every cell of the memory after a word write is one of the word's four or was there before. -/
theorem mem_setWord (m : List Host.Cell) (a : Nat) (w : Word) (c : Host.Cell)
    (h : c ∈ Memory.setWord m a w) : (a ≤ c.1 ∧ c.1 < a + 4) ∨ c ∈ m := by
  simp only [Memory.setWord] at h
  rcases mem_setByte _ _ _ _ h with rfl | h
  · exact .inl ⟨by simp, by simp⟩
  rcases mem_setByte _ _ _ _ h with rfl | h
  · exact .inl ⟨by simp, by simp⟩
  rcases mem_setByte _ _ _ _ h with rfl | h
  · exact .inl ⟨by simp, by simp⟩
  rcases mem_setByte _ _ _ _ h with rfl | h
  · exact .inl ⟨by simp, by simp⟩
  exact .inr h

/-! ## Several words -/

theorem setWords_wf (ws : List Word) (m : List Host.Cell) (a : Nat) (h : Memory.wf m) :
    Memory.wf (Memory.setWords m a ws) := by
  induction ws generalizing m a with
  | nil => exact h
  | cons w ws ih => exact ih _ _ (setWord_wf m a w h)

theorem byte_setWords_other (ws : List Word) (m : List Host.Cell) (a x : Nat)
    (h : x < a ∨ a + 4 * ws.length ≤ x) :
    Memory.byte (Memory.setWords m a ws) x = Memory.byte m x := by
  induction ws generalizing m a with
  | nil => rfl
  | cons w ws ih =>
    simp only [List.length_cons] at h
    rw [Memory.setWords, ih _ _ (by omega), byte_setWord_other _ _ _ _ (by omega)]

theorem mem_setWords (ws : List Word) (m : List Host.Cell) (a : Nat) (c : Host.Cell)
    (h : c ∈ Memory.setWords m a ws) : (a ≤ c.1 ∧ c.1 < a + 4 * ws.length) ∨ c ∈ m := by
  induction ws generalizing m a with
  | nil => exact .inr h
  | cons w ws ih =>
    simp only [List.length_cons]
    rcases ih _ _ h with h | h
    · exact .inl (by omega)
    · rcases mem_setWord _ _ _ _ h with h | h
      · exact .inl (by omega)
      · exact .inr h

theorem word_setWords_other (ws : List Word) (m : List Host.Cell) (a b : Nat)
    (h : b + 4 ≤ a ∨ a + 4 * ws.length ≤ b) :
    Memory.word (Memory.setWords m a ws) b = Memory.word m b := by
  simp only [Memory.word]
  rw [byte_setWords_other _ _ _ _ (by omega), byte_setWords_other _ _ _ _ (by omega),
    byte_setWords_other _ _ _ _ (by omega), byte_setWords_other _ _ _ _ (by omega)]

/-- The word at index `i` of the words written. -/
theorem word_setWords (ws : List Word) (m : List Host.Cell) (a i : Nat) (h : i < ws.length) :
    Memory.word (Memory.setWords m a ws) (a + 4 * i) = some ws[i] := by
  induction ws generalizing m a i with
  | nil => simp at h
  | cons w ws ih =>
    cases i with
    | zero =>
      rw [Memory.setWords, word_setWords_other _ _ _ _ (by omega)]
      simp
    | succ i =>
      rw [Memory.setWords, show a + 4 * (i + 1) = a + 4 + 4 * i by ring,
        ih _ _ _ (by simpa using h)]
      simp

/-- A byte write keeps every readable byte readable. -/
theorem byte_setWord_isSome (m : List Host.Cell) (a x : Nat) (w : Word) (h : (Memory.byte m x).isSome) :
    (Memory.byte (Memory.setWord m a w) x).isSome := by
  rw [byte_setWord]
  split <;> simp [h]

theorem word_isSome (m : List Host.Cell) (a : Nat) :
    (Memory.word m a).isSome = true ↔
      (Memory.byte m a).isSome = true ∧ (Memory.byte m (a + 1)).isSome = true ∧
        (Memory.byte m (a + 2)).isSome = true ∧ (Memory.byte m (a + 3)).isSome = true := by
  simp only [Memory.word]
  cases Memory.byte m a <;> cases Memory.byte m (a + 1) <;> cases Memory.byte m (a + 2) <;>
    cases Memory.byte m (a + 3) <;> simp

/-- A word write keeps every readable word readable. -/
theorem word_setWord_isSome (m : List Host.Cell) (a b : Nat) (w : Word) (h : (Memory.word m b).isSome = true) :
    (Memory.word (Memory.setWord m a w) b).isSome = true := by
  rw [word_isSome] at h ⊢
  exact ⟨byte_setWord_isSome _ _ _ _ h.1, byte_setWord_isSome _ _ _ _ h.2.1, byte_setWord_isSome _ _ _ _ h.2.2.1,
    byte_setWord_isSome _ _ _ _ h.2.2.2⟩

theorem word_setWords_isSome (ws : List Word) (m : List Host.Cell) (a b : Nat)
    (h : (Memory.word m b).isSome = true) : (Memory.word (Memory.setWords m a ws) b).isSome = true := by
  induction ws generalizing m a with
  | nil => exact h
  | cons w ws ih => exact ih _ _ (word_setWord_isSome m a b w h)

/-! ## Clearing a range -/

theorem mem_zeroCells (n a : Nat) (c : Host.Cell) :
    c ∈ Memory.zeroCells a n ↔ (a ≤ c.1 ∧ c.1 < a + n) ∧ c.2 = 0 := by
  induction n generalizing a with
  | zero => simp [Memory.zeroCells]
  | succ n ih =>
    obtain ⟨k, b⟩ := c
    simp only [Memory.zeroCells, List.mem_cons, Prod.mk.injEq, ih]
    constructor
    · rintro (⟨rfl, rfl⟩ | h)
      · exact ⟨by omega, rfl⟩
      · exact ⟨by omega, h.2⟩
    · rintro ⟨h, hb⟩
      by_cases hk : k = a
      · exact .inl ⟨hk, hb⟩
      · exact .inr ⟨by omega, hb⟩

theorem zeroCells_wf (n a : Nat) : Memory.wf (Memory.zeroCells a n) := by
  induction n generalizing a with
  | zero => exact .nil
  | succ n ih =>
    refine List.pairwise_cons.2 ⟨fun c hc => ?_, ih (a + 1)⟩
    have := (mem_zeroCells n (a + 1) c).1 hc
    show a < c.1
    omega

theorem clear_wf (m : List Host.Cell) (lo len : Nat) (h : Memory.wf m) : Memory.wf (Memory.clear m lo len) := by
  refine List.pairwise_append.2 ⟨List.pairwise_append.2 ⟨h.filter _, zeroCells_wf _ _, ?_⟩, h.filter _, ?_⟩
  · intro c hc d hd
    have := (List.mem_filter.1 hc).2
    have := (mem_zeroCells _ _ _).1 hd
    simp at *
    omega
  · intro c hc d hd
    have hd := (List.mem_filter.1 hd).2
    rcases List.mem_append.1 hc with hc | hc
    · have := (List.mem_filter.1 hc).2
      simp at *
      omega
    · have := (mem_zeroCells _ _ _).1 hc
      simp at *
      omega

/-- A byte of two memories one after the other. -/
theorem byte_append (m n : List Host.Cell) (x : Nat) :
    Memory.byte (m ++ n) x = (Memory.byte m x).or (Memory.byte n x) := by
  induction m with
  | nil => simp [Memory.byte]
  | cons c rest ih =>
    obtain ⟨k, b⟩ := c
    by_cases h : k = x <;> simp [Memory.byte, h, ih]

theorem byte_filter (m : List Host.Cell) (p : Nat → Bool) (x : Nat) :
    Memory.byte (m.filter fun c => p c.1) x = if p x then Memory.byte m x else none := by
  induction m with
  | nil => simp [Memory.byte]
  | cons c rest ih =>
    obtain ⟨k, b⟩ := c
    by_cases hk : k = x
    · subst hk
      by_cases hp : p k <;> simp [Memory.byte, hp, ih]
    · by_cases hp : p k <;> simp [Memory.byte, hp, hk, ih]

theorem byte_zeroCells (n a x : Nat) :
    Memory.byte (Memory.zeroCells a n) x = if a ≤ x ∧ x < a + n then some 0 else none := by
  induction n generalizing a with
  | zero => simp [Memory.zeroCells, Memory.byte]
  | succ n ih =>
    simp only [Memory.zeroCells, Memory.byte, ih]
    by_cases h : a = x
    · simp [h]
    · simp only [h, if_false]
      congr 1
      simp only [eq_iff_iff]
      omega

/-- Every byte after a clear: 0 in the range, as before outside it. -/
theorem byte_clear (m : List Host.Cell) (lo len x : Nat) :
    Memory.byte (Memory.clear m lo len) x = if lo ≤ x ∧ x < lo + len then some 0 else Memory.byte m x := by
  simp only [Memory.clear, byte_append, byte_zeroCells]
  rw [byte_filter m (fun a => decide (a < lo)), byte_filter m (fun a => decide (lo + len ≤ a))]
  by_cases h : lo ≤ x ∧ x < lo + len
  · have h1 : ¬ x < lo := by omega
    simp [h, h1]
  · by_cases h1 : x < lo
    · have h2 : ¬ lo + len ≤ x := by omega
      have h3 : ¬ lo ≤ x := by omega
      simp [h1, h2, h3]
    · have h2 : lo + len ≤ x := by omega
      have h3 : ¬ x < lo + len := by omega
      simp [h1, h2, h3]

/-- A byte of a memory after a range is cleared is one of the range or was listed before. -/
theorem mem_clear {m : List Host.Cell} {lo len : Nat} {c : Host.Cell} (h : c ∈ Memory.clear m lo len) :
    c ∈ m ∨ (lo ≤ c.1 ∧ c.1 < lo + len) := by
  simp only [Memory.clear, List.mem_append, List.mem_filter, mem_zeroCells] at h
  rcases h with (h | h) | h
  · exact .inl h.1
  · exact .inr h.1
  · exact .inl h.1

theorem clearResults_wf (m : List Host.Cell) (h : Memory.wf m) : Memory.wf (clearResults m) :=
  clear_wf _ _ _ (clear_wf _ _ _ h)

/-- Every byte after PREPARE's clear of HIST, MAG, PHASE and POWER (rule R655). -/
theorem byte_clearResults (m : List Host.Cell) (x : Nat) :
    Memory.byte (clearResults m) x =
      if (0x20000 ≤ x ∧ x < 0x24000) ∨ (0x30000 ≤ x ∧ x < 0x48000) then some 0 else Memory.byte m x := by
  simp only [clearResults, byte_clear]
  by_cases h1 : 0x30000 ≤ x ∧ x < 0x30000 + 0x18000
  · have h2 : 0x30000 ≤ x ∧ x < 0x48000 := by omega
    rw [if_pos h1, if_pos (.inr h2)]
  · by_cases h3 : 0x20000 ≤ x ∧ x < 0x20000 + 0x4000
    · rw [if_neg h1, if_pos h3, if_pos (.inl (by omega))]
    · rw [if_neg h1, if_neg h3, if_neg (by omega)]

/-! ## The engine's word accesses -/

/-- Without racing host writes the engine sees what the memory holds. -/
@[simp] theorem seenWord_quiet {s : State} (h : s.raced = []) (a : Nat) : seenWord s a = Memory.word s.mem a := by
  simp [seenWord, racedValues, h]

/-- A word that holds a value is seen with some value, whatever host writes race with the command (rule R670). -/
theorem seenWord_isSome {s : State} {a : Nat} (h : (Memory.word s.mem a).isSome = true) :
    (seenWord s a).isSome = true := by
  simp only [seenWord]
  split
  · exact h
  · rename_i v vs _
    have hall : ∀ o ∈ Memory.word s.mem a :: some v :: vs.map some, o.isSome = true := by
      intro o ho
      simp only [List.mem_cons, List.mem_map] at ho
      rcases ho with rfl | rfl | ⟨w, -, rfl⟩
      · exact h
      · rfl
      · rfl
    have hlt : Config.raceChoice s.draws a % (vs.length + 2) <
        (Memory.word s.mem a :: some v :: vs.map some).length := by
      have := Nat.mod_lt (Config.raceChoice s.draws a) (show 0 < vs.length + 2 by omega)
      simp only [List.length_cons, List.length_map]
      omega
    rw [List.getD_eq_getElem _ _ hlt]
    exact hall _ (List.getElem_mem hlt)

/-- What `readWord` can answer. -/
theorem readWord_eq_next (s : State) (a : Nat) (w : Word) : readWord s a = .next w ↔ seenWord s a = some w := by
  simp only [readWord]
  cases seenWord s a <;> simp

/-- The engine reads a word that holds a value. -/
theorem readWord_completes {s : State} {a : Nat} (h : (Memory.word s.mem a).isSome = true) :
    ∃ w, readWord s a = .next w := by
  obtain ⟨w, hw⟩ := Option.isSome_iff_exists.1 (seenWord_isSome h)
  exact ⟨w, (readWord_eq_next s a w).2 hw⟩

theorem readWord_not_refused (s : State) (a : Nat) (r : Refusal) : readWord s a ≠ .refused r := by
  simp only [readWord]
  cases seenWord s a <;> simp

end Sys2Proof.Machine
end

