-- ==== Sys2Proof/Laws/Blocks.lean ====
section
/-! SUPPORT. The laws of the equalizer's and the spectral engine's sample loops: when they complete, what they can
change, and the induction every invariant of a block goes through. -/

namespace Sys2Proof.Machine

/-! ## The equalizer's block -/

/-- `t` is `s` but for the equalizer's signal state and the memory. -/
def onlyEq (s t : State) : Prop := t = { s with eq := t.eq, mem := t.mem }

theorem onlyEq_trans {s t u : State} (h1 : onlyEq s t) (h2 : onlyEq t u) : onlyEq s u := by
  simp only [onlyEq] at *
  rw [h2, h1]

/-- Before it is written a sample changes the equalizer's signal state alone (rule R350). -/
theorem sampleOut_frame {base j : Nat} {s s1 : State} {v : Word} (h : sampleOut base j s = .next (v, s1)) :
    s1 = { s with eq := s1.eq } := by
  obtain ⟨w, -, h⟩ := andThen_eq_next.1 h
  simp only [Host.Outcome.next.injEq, Prod.mk.injEq] at h
  rw [← h.2]

/-- A sample whose word holds a value has a result (rules R112, R350). -/
theorem sampleOut_completes {base j : Nat} {s : State} (h : (Memory.word s.mem (base + 4 * j)).isSome = true) :
    ∃ v s1, sampleOut base j s = .next (v, s1) := by
  obtain ⟨w, hw⟩ := readWord_completes h
  simp only [sampleOut, hw, andThen_next]
  exact ⟨_, _, rfl⟩

/-- The equalizer's sample loop keeps every invariant that one sample's update keeps (rule R350). -/
theorem eqSamples_inv {base n : Nat} {P : State → Prop}
    (hstep : ∀ s j e w, P s → j < n → P (writeWord { s with eq := e } (base + 4 * j) w))
    (js : List Nat) (s t : State) (hjs : ∀ j ∈ js, j < n) (hs : P s) (h : eqSamples base js s = .next t) : P t := by
  induction js generalizing s with
  | nil =>
    simp only [eqSamples, Host.Outcome.next.injEq] at h
    exact h ▸ hs
  | cons j js ih =>
    simp only [eqSamples] at h
    obtain ⟨⟨v, s1⟩, h1, h⟩ := andThen_eq_next.1 h
    refine ih _ (fun q hq => hjs q (List.mem_cons_of_mem _ hq)) ?_ h
    have p1 := hstep s j s1.eq v hs (hjs _ List.mem_cons_self)
    rwa [← sampleOut_frame h1] at p1

theorem eqSamples_frame (base : Nat) (js : List Nat) (s t : State) (h : eqSamples base js s = .next t) :
    onlyEq s t := by
  induction js generalizing s with
  | nil =>
    simp only [eqSamples, Host.Outcome.next.injEq] at h
    exact h ▸ rfl
  | cons j js ih =>
    simp only [eqSamples] at h
    obtain ⟨⟨v, s1⟩, h1, h⟩ := andThen_eq_next.1 h
    refine onlyEq_trans ?_ (ih _ h)
    simp only [onlyEq]
    rw [sampleOut_frame h1]
    rfl

/-- The equalizer's sample loop completes when the block's words hold values (rules R112, R350). -/
theorem eqSamples_completes (base : Nat) (js : List Nat) (s : State)
    (h : ∀ j ∈ js, (Memory.word s.mem (base + 4 * j)).isSome = true) : ∃ t, eqSamples base js s = .next t := by
  induction js generalizing s with
  | nil => exact ⟨s, rfl⟩
  | cons j js ih =>
    obtain ⟨v, s1, h1⟩ := sampleOut_completes (h j List.mem_cons_self)
    simp only [eqSamples, h1, andThen_next]
    refine ih _ fun q hq => word_setWord_isSome _ _ _ _ ?_
    rw [sampleOut_frame h1]
    exact h q (List.mem_cons_of_mem _ hq)

/-- A bypassed equalizer processes nothing, and no equalizer more than the block's samples (rules R350, R365). -/
theorem eqLength_le (n : Nat) (s : State) : eqLength n s ≤ n * actC s := by
  simp only [eqLength]
  split <;> omega

/-- A sample position lies in the block's words. -/
theorem samplePosition_lt {n c i ch : Nat} (hi : i < n) (hch : ch < c) : i * c + ch < n * c := by
  calc i * c + ch < i * c + c := by omega
    _ = (i + 1) * c := by ring
    _ ≤ n * c := Nat.mul_le_mul_right _ hi

/-- What EQ_PROCESS writes before its samples (rules R351, R365). -/
theorem eqBegin_frame (s : State) : eqBegin s = { s with eqc := (eqBegin s).eqc } := by
  simp only [eqBegin]
  split <;> rfl

/-- EQ_PROCESS's body from a sample on keeps every invariant that one sample's update keeps (rule R350). -/
theorem eqFrom_inv {k : BitVec 8} {frames : Word} {i : Nat} {P : State → Prop} {s t : State}
    (hstep : ∀ s j e w, P s → j < eqLength (frameCount frames s) s →
      P (writeWord { s with eq := e } (bufBase k.toNat + 4 * j) w))
    (hs : P s) (h : eqFrom k frames i s = .next t) : P t :=
  (eqSamples_inv (n := eqLength (frameCount frames s) s)
    (P := fun t => P t ∧ eqLength (frameCount frames t) t = eqLength (frameCount frames s) s)
    (fun u j e w hu hj => ⟨hstep u j e w hu.1 (by rw [hu.2]; exact hj), hu.2⟩) _ _ _
    (fun _ hj => List.mem_range.1 (List.mem_of_mem_drop hj)) ⟨hs, rfl⟩ h).1

/-- EQ_PROCESS's body from a sample on completes when the block's words hold values (rules R112, R350). -/
theorem eqFrom_completes (k : BitVec 8) (frames : Word) (j : Nat) (s : State)
    (h : ∀ j, j < frameCount frames s * actC s → (Memory.word s.mem (bufBase k.toNat + 4 * j)).isSome = true) :
    ∃ t, eqFrom k frames j s = .next t :=
  eqSamples_completes _ _ s fun i hi =>
    h i (Nat.lt_of_lt_of_le (List.mem_range.1 (List.mem_of_mem_drop hi)) (eqLength_le _ _))

/-- EQ_PROCESS's body completes when the block's words hold values (rules R112, R350). -/
theorem eqBlock_completes (k : BitVec 8) (frames : Word) (s : State)
    (h : ∀ j, j < frameCount frames s * actC s → (Memory.word s.mem (bufBase k.toNat + 4 * j)).isSome = true) :
    ∃ t, eqBlock k frames s = .next t := by
  simp only [eqBlock]
  rw [eqBegin_frame]
  exact eqFrom_completes _ _ _ _ h

/-! ## The spectral engine's block -/

/-- `t` is `s` but for the spectral engine, its published registers and the memory. -/
def onlySpec (s t : State) : Prop :=
  t = { s with
    spec := t.spec
    specSeq := t.specSeq
    trackers := t.trackers
    mlVec := t.mlVec
    mem := t.mem }

theorem onlySpec_trans {s t u : State} (h1 : onlySpec s t) (h2 : onlySpec t u) : onlySpec s u := by
  simp only [onlySpec] at *
  rw [h2, h1]

/-! The confidences lie in [0, 1] (rule R565 (e)). -/

theorem zero_mem_unit : fle fZero fZero = true ∧ fle fZero fOne = true := by decide

theorem confidence_mem (x : F32) : fle fZero (confidence x) = true ∧ fle (confidence x) fOne = true := by
  simp only [confidence]
  split
  · rwa [← Bool.and_eq_true_iff]
  · exact zero_mem_unit

theorem pitchConfidence_mem (p : Pass) (τ : Option Nat) :
    fle fZero (pitchConfidence p τ) = true ∧ fle (pitchConfidence p τ) fOne = true := by
  cases τ with
  | none => exact zero_mem_unit
  | some t => exact confidence_mem _

theorem tempoStep_conf_mem (act : CfgRegs) (fs : F32) (e : SpecEngine) :
    fle fZero (tempoStep act fs e).tempoConf = true ∧ fle (tempoStep act fs e).tempoConf fOne = true := by
  simp only [tempoStep]
  split
  · exact zero_mem_unit
  · exact confidence_mem _

/-! The tempo step changes the tempo estimate alone (rules R550, R551). -/

@[simp] theorem tempoStep_ring (act : CfgRegs) (fs : F32) (e : SpecEngine) : (tempoStep act fs e).ring = e.ring := by
  simp only [tempoStep]
  split <;> rfl

@[simp] theorem tempoStep_wr (act : CfgRegs) (fs : F32) (e : SpecEngine) : (tempoStep act fs e).wr = e.wr := by
  simp only [tempoStep]
  split <;> rfl

@[simp] theorem tempoStep_pending (act : CfgRegs) (fs : F32) (e : SpecEngine) : (tempoStep act fs e).pending = e.pending := by
  simp only [tempoStep]
  split <;> rfl

@[simp] theorem tempoStep_samples (act : CfgRegs) (fs : F32) (e : SpecEngine) : (tempoStep act fs e).samples = e.samples := by
  simp only [tempoStep]
  split <;> rfl

@[simp] theorem tempoStep_frame (act : CfgRegs) (fs : F32) (e : SpecEngine) : (tempoStep act fs e).frame = e.frame := by
  simp only [tempoStep]
  split <;> rfl

@[simp] theorem tempoStep_win (act : CfgRegs) (fs : F32) (e : SpecEngine) : (tempoStep act fs e).win = e.win := by
  simp only [tempoStep]
  split <;> rfl

@[simp] theorem tempoStep_prevMag (act : CfgRegs) (fs : F32) (e : SpecEngine) : (tempoStep act fs e).prevMag = e.prevMag := by
  simp only [tempoStep]
  split <;> rfl

@[simp] theorem tempoStep_oh (act : CfgRegs) (fs : F32) (e : SpecEngine) : (tempoStep act fs e).oh = e.oh := by
  simp only [tempoStep]
  split <;> rfl

@[simp] theorem tempoStep_ohWr (act : CfgRegs) (fs : F32) (e : SpecEngine) : (tempoStep act fs e).ohWr = e.ohWr := by
  simp only [tempoStep]
  split <;> rfl

@[simp] theorem tempoStep_since (act : CfgRegs) (fs : F32) (e : SpecEngine) : (tempoStep act fs e).since = e.since := by
  simp only [tempoStep]
  split <;> rfl

@[simp] theorem tempoStep_onsets (act : CfgRegs) (fs : F32) (e : SpecEngine) : (tempoStep act fs e).onsets = e.onsets := by
  simp only [tempoStep]
  split <;> rfl

@[simp] theorem tempoStep_latest (act : CfgRegs) (fs : F32) (e : SpecEngine) : (tempoStep act fs e).latest = e.latest := by
  simp only [tempoStep]
  split <;> rfl

@[simp] theorem tempoStep_valid (act : CfgRegs) (fs : F32) (e : SpecEngine) : (tempoStep act fs e).valid = e.valid := by
  simp only [tempoStep]
  split <;> rfl

/-! The onset step changes the onset history and its trackers alone (rule R546). -/

@[simp] theorem onsetStep_ring (e : SpecEngine) (b : Bool) (o : F32) : (onsetStep e b o).ring = e.ring := rfl
@[simp] theorem onsetStep_wr (e : SpecEngine) (b : Bool) (o : F32) : (onsetStep e b o).wr = e.wr := rfl
@[simp] theorem onsetStep_pending (e : SpecEngine) (b : Bool) (o : F32) : (onsetStep e b o).pending = e.pending := rfl
@[simp] theorem onsetStep_samples (e : SpecEngine) (b : Bool) (o : F32) : (onsetStep e b o).samples = e.samples := rfl
@[simp] theorem onsetStep_frame (e : SpecEngine) (b : Bool) (o : F32) : (onsetStep e b o).frame = e.frame := rfl
@[simp] theorem onsetStep_win (e : SpecEngine) (b : Bool) (o : F32) : (onsetStep e b o).win = e.win := rfl
@[simp] theorem onsetStep_prevMag (e : SpecEngine) (b : Bool) (o : F32) : (onsetStep e b o).prevMag = e.prevMag := rfl
@[simp] theorem onsetStep_latest (e : SpecEngine) (b : Bool) (o : F32) : (onsetStep e b o).latest = e.latest := rfl
@[simp] theorem onsetStep_valid (e : SpecEngine) (b : Bool) (o : F32) : (onsetStep e b o).valid = e.valid := rfl
@[simp] theorem onsetStep_tempo (e : SpecEngine) (b : Bool) (o : F32) : (onsetStep e b o).tempo = e.tempo := rfl
@[simp] theorem onsetStep_tempoConf (e : SpecEngine) (b : Bool) (o : F32) : (onsetStep e b o).tempoConf = e.tempoConf := rfl

theorem onlySpec_update (s : State) (q : Word) (m : List Host.Cell) (trk : Trackers) (ml : Vector Word 42)
    (e : SpecEngine) :
    onlySpec s { s with
      specSeq := q
      mem := m
      trackers := trk
      mlVec := ml
      spec := e } := rfl

theorem passWrites_frame (s : State) : onlySpec s (passWrites s) := onlySpec_update s _ _ _ _ _

theorem advanceSeq_frame (s : State) : onlySpec s (advanceSeq s) := onlySpec_update s _ _ _ _ _

theorem analysisPass_frame (s : State) : onlySpec s (analysisPass s) :=
  onlySpec_trans (advanceSeq_frame s) (onlySpec_trans (passWrites_frame _) (advanceSeq_frame _))

/-! What a pass publishes (rules R121, R471, R472). -/

@[simp] theorem analysisPass_specSeq (s : State) : (analysisPass s).specSeq = s.specSeq + 1 + 1 := rfl
@[simp] theorem analysisPass_latest (s : State) :
    (analysisPass s).spec.latest = BitVec.ofNat 32 (s.spec.frame.toNat % 32) := by simp [analysisPass, advanceSeq, passWrites]
@[simp] theorem analysisPass_valid (s : State) : (analysisPass s).spec.valid = nextValid s.spec.valid := by
  simp [analysisPass, advanceSeq, passWrites]
@[simp] theorem analysisPass_frameNumber (s : State) : (analysisPass s).spec.frame = s.spec.frame + 1 := by
  simp [analysisPass, advanceSeq, passWrites]
@[simp] theorem analysisPass_pending (s : State) : (analysisPass s).spec.pending = s.spec.pending := by
  simp [analysisPass, advanceSeq, passWrites]
@[simp] theorem analysisPass_samples (s : State) : (analysisPass s).spec.samples = s.spec.samples := by
  simp [analysisPass, advanceSeq, passWrites]
@[simp] theorem analysisPass_ring (s : State) : (analysisPass s).spec.ring = s.spec.ring := by simp [analysisPass, advanceSeq, passWrites]
@[simp] theorem analysisPass_wr (s : State) : (analysisPass s).spec.wr = s.spec.wr := by simp [analysisPass, advanceSeq, passWrites]
@[simp] theorem analysisPass_win (s : State) : (analysisPass s).spec.win = s.spec.win := by simp [analysisPass, advanceSeq, passWrites]

/-- The memory after a pass: the spectrum windows and the history slot of the frame number. -/
theorem analysisPass_mem (s : State) :
    ∃ sp ws, (analysisPass s).mem = publishPass s.mem (actK s) (s.spec.frame.toNat % 32) sp ws :=
  ⟨spectraOf (windowedFrame s.spec (analysisFrame s.spec (actN s)) (actN s)) (actK s), _, by
    simp only [analysisPass, advanceSeq, passWrites, tempoStep_frame, onsetStep_frame]
    rfl⟩

/-! Ingesting a sample, and clearing the pending samples, change the spectral engine's own state alone (rules R451,
R452). -/

@[simp] theorem ingestFrame_mem (m : F32) (s : State) : (ingestFrame m s).mem = s.mem := rfl
@[simp] theorem clearPending_mem (s : State) : (clearPending s).mem = s.mem := rfl

theorem ingestFrame_frame (m : F32) (s : State) : onlySpec s (ingestFrame m s) := onlySpec_update s _ _ _ _ _
theorem clearPending_frame (s : State) : onlySpec s (clearPending s) := onlySpec_update s _ _ _ _ _

/-- After an ingestion either the pass of a hop runs or nothing does (rules R450, R452). -/
theorem afterIngest_cases (s : State) :
    (hopDue s = true ∧ afterIngest s = analysisPass (clearPending s)) ∨ (hopDue s = false ∧ afterIngest s = s) := by
  cases h : hopDue s <;> simp [afterIngest, h]

theorem afterIngest_frame (s : State) : onlySpec s (afterIngest s) := by
  obtain ⟨-, h⟩ | ⟨-, h⟩ := afterIngest_cases s <;> rw [h]
  · exact onlySpec_trans (clearPending_frame s) (analysisPass_frame _)
  · rfl

theorem ingestAndAnalyse_frame (m : F32) (s : State) : onlySpec s (ingestAndAnalyse m s) :=
  onlySpec_trans (ingestFrame_frame m s) (afterIngest_frame _)

theorem publishPass_keepsReadable (m : List Host.Cell) (K slot : Nat) (sp : Spectra) (ws : List Word) (a : Nat)
    (h : (Memory.word m a).isSome = true) : (Memory.word (publishPass m K slot sp ws) a).isSome = true :=
  word_setWords_isSome _ _ _ _ (word_setWords_isSome _ _ _ _ (word_setWords_isSome _ _ _ _
    (word_setWords_isSome _ _ _ _ h)))

theorem afterIngest_keepsReadable (s : State) (a : Nat) (h : (Memory.word s.mem a).isSome = true) :
    (Memory.word (afterIngest s).mem a).isSome = true := by
  obtain ⟨-, e⟩ | ⟨-, e⟩ := afterIngest_cases s <;> rw [e]
  · obtain ⟨sp, ws, hm⟩ := analysisPass_mem (clearPending s)
    rw [hm]
    exact publishPass_keepsReadable _ _ _ _ _ _ h
  · exact h

theorem ingestAndAnalyse_keepsReadable (m : F32) (s : State) (a : Nat)
    (h : (Memory.word s.mem a).isSome = true) : (Memory.word (ingestAndAnalyse m s).mem a).isSome = true :=
  afterIngest_keepsReadable _ a h

theorem sumChannels_completes (s : State) (a c : Nat) (m : F32)
    (h : ∀ j, j < c → (Memory.word s.mem (a + 4 * j)).isSome = true) : ∃ y, sumChannels s a c m = .next y := by
  induction c generalizing a m with
  | zero => exact ⟨m, rfl⟩
  | succ c ih =>
    obtain ⟨w, hw⟩ := readWord_completes (h 0 (by omega))
    simp only [Nat.mul_zero, Nat.add_zero] at hw
    simp only [sumChannels, hw, andThen_next]
    refine ih _ _ fun j hj => ?_
    rw [show a + 4 + 4 * j = a + 4 * (j + 1) by ring]
    exact h _ (by omega)

/-- A snapshot has 128 words (rule R470). -/
theorem snapshotWords_length (act : CfgRegs) (e : SpecEngine) (p : Pass) (b : Bool) :
    (snapshotWords act e p b).length = 128 := by
  simp [snapshotWords, mfcc, chroma, contrast, tonnetz, padTo, Config.nMfcc]

/-- A masked snapshot's word is the word masked (rule R474). -/
theorem maskFrom_getElem (fe : Word) (w : Nat) (ws : List Word) (i : Nat) (h : i < (maskFrom fe w ws).length)
    (h' : i < ws.length) : (maskFrom fe w ws)[i] = maskWord fe (w + i) ws[i] := by
  induction ws generalizing w i with
  | nil => simp at h'
  | cons v vs ih =>
    cases i with
    | zero => rfl
    | succ i => simp only [maskFrom, List.getElem_cons_succ]; rw [ih, show w + 1 + i = w + (i + 1) by omega]

/-- The spectral sample loop keeps every invariant that one ingested sample's update keeps (rule R450). -/
theorem specFrames_inv {base : Nat} {P : State → Prop} (hstep : ∀ s m, P s → P (ingestAndAnalyse m s))
    (is : List Nat) (s t : State) (hs : P s) (h : specFrames base is s = .next t) : P t := by
  induction is generalizing s with
  | nil =>
    simp only [specFrames, Host.Outcome.next.injEq] at h
    exact h ▸ hs
  | cons i is ih =>
    simp only [specFrames] at h
    obtain ⟨m, -, h⟩ := andThen_eq_next.1 h
    exact ih _ (hstep s m hs) h

/-- The spectral sample loop completes when the block's words hold values (rules R112, R450). -/
theorem specFrames_completes (base n : Nat) (is : List Nat) (s : State) (his : ∀ i ∈ is, i < n)
    (h : ∀ j, j < n * actC s → (Memory.word s.mem (base + 4 * j)).isSome = true) :
    ∃ t, specFrames base is s = .next t ∧ onlySpec s t := by
  induction is generalizing s with
  | nil => exact ⟨s, rfl, rfl⟩
  | cons i is ih =>
    have hi := his i List.mem_cons_self
    obtain ⟨y, hy⟩ := sumChannels_completes s (base + 4 * (i * actC s)) (actC s) fZero fun j hj => by
      rw [show base + 4 * (i * actC s) + 4 * j = base + 4 * (i * actC s + j) by ring]
      exact h _ (samplePosition_lt hi hj)
    simp only [specFrames, monoFrame, hy, andThen_next]
    generalize fmul y (fdiv fOne (f32OfNat (actC s))) = m
    have hf := ingestAndAnalyse_frame m s
    have hc : actC (ingestAndAnalyse m s) = actC s := by rw [hf]; rfl
    obtain ⟨t, h1, f1⟩ := ih (ingestAndAnalyse m s) (fun j hj => his j (List.mem_cons_of_mem _ hj))
      fun j hj => ingestAndAnalyse_keepsReadable _ _ _ (h j (by rwa [hc] at hj))
    exact ⟨t, h1, onlySpec_trans hf f1⟩

/-- SPEC_PROCESS's body completes when the block's words hold values (rules R112, R450). -/
theorem specBlock_completes (k : BitVec 8) (frames : Word) (s : State)
    (h : ∀ j, j < frameCount frames s * actC s → (Memory.word s.mem (bufBase k.toNat + 4 * j)).isSome = true) :
    ∃ t, specBlock k frames s = .next t ∧ onlySpec s t :=
  specFrames_completes _ _ _ s (fun _ hi => List.mem_range.1 (List.mem_of_mem_drop hi)) h

end Sys2Proof.Machine
end

