-- ==== Sys2Proof/Laws/Bus.lean ====
section
/-! SUPPORT. The laws of the port and of the step: what an access, an engine turn and a step can answer. -/

namespace Sys2Proof.Machine

/-- Without racing host writes there is nothing to settle. -/
theorem settleRaces_quiet {s : State} (h : s.raced = []) : settleRaces s = s := by
  obtain ⟨⟩ := s
  simp only at h
  subst h
  rfl

/-- Settling changes the memory and the list of racing writes alone (rule R670). -/
theorem settleRaces_frame (s : State) :
    settleRaces s = { s with mem := (settleRaces s).mem, raced := [] } := rfl

/-- Settling keeps whatever one word's write keeps. -/
theorem settleRaces_inv {P : List Host.Cell → Prop} (s : State) (hs : P s.mem)
    (h : ∀ m r, r ∈ s.raced → P m → P (Memory.setWord m r.1 r.2)) : P (settleRaces s).mem := by
  have : ∀ (rs : List (Nat × Word)) (m : List Host.Cell), (∀ r ∈ rs, r ∈ s.raced) → P m →
      P (rs.foldl (settleWord s) m) := by
    intro rs
    induction rs with
    | nil => exact fun m _ hm => hm
    | cons r rs ih =>
      intro m hr hm
      refine ih _ (fun q hq => hr q (List.mem_cons_of_mem _ hq)) ?_
      simp only [settleWord]
      split
      · exact hm
      · exact h m r (hr r List.mem_cons_self) hm
  exact this s.raced s.mem (fun _ h => h) hs

/-- A command nothing of which is done is executed whole (rule R200). -/
theorem restOfCommand_start {i : Instr} {s : State} (h : s.progress = .start) : restOfCommand i s = exec i s := by
  simp only [restOfCommand, h]

/-- What the rest of a command that is under way can answer (rules R32, R200): the rest of its drain, of its frame, of its
ingestion, of its publication and of its body, then its completion. -/
theorem restOfCommand_cases {i : Instr} {s t : State} (h : restOfCommand i s = .next t) :
    (s.progress = .start ∧ exec i s = .next t) ∨
    (∃ q s1 u, s.progress = .draining q ∧ drainTo q 31 s = .next s1 ∧ restOfBody 0 0 (beginBody s1) = .next u ∧
      t = finish .ok (Cmd.op s.latched) u) ∨
    (∃ q w s1 s2 u, s.progress = .applying q w ∧ applyEntry w s = .next s1 ∧ drainTo q 31 s1 = .next s2 ∧
      restOfBody 0 0 (beginBody s2) = .next u ∧ t = finish .ok (Cmd.op s.latched) u) ∨
    (∃ u, s.progress = .beginning ∧ restOfBody 0 0 (beginBody s) = .next u ∧ t = finish .ok (Cmd.op s.latched) u) ∨
    (∃ j ej u, s.progress = .running j ej ∧ restOfBody j ej s = .next u ∧ t = finish .ok (Cmd.op s.latched) u) ∨
    (∃ j ej w u, s.progress = .writing j ej w ∧
      restOfBody (j + 1) ej (if Cmd.op s.latched = 0x04 then afterIngest (writeBody j w s) else writeBody j w s) =
        .next u ∧ t = finish .ok (Cmd.op s.latched) u) ∨
    (∃ j u, s.progress = .ingested j ∧ restOfBody j 0 (afterIngest s) = .next u ∧
      t = finish .ok (Cmd.op s.latched) u) ∨
    (∃ j u, s.progress = .publishing j ∧ restOfBody j 0 (endPublication s) = .next u ∧
      t = finish .ok (Cmd.op s.latched) u) ∨
    (s.progress = .ending ∧ t = finish .ok (Cmd.op s.latched) (endBody s)) ∨
    ∃ c, s.progress = .finishing c ∧ t = finish c (Cmd.op s.latched) s := by
  cases hp : s.progress with
  | start => exact .inl ⟨rfl, by rwa [restOfCommand_start hp] at h⟩
  | draining q =>
    simp only [restOfCommand, hp] at h
    obtain ⟨s1, h1, h⟩ := andThen_eq_next.1 h
    obtain ⟨u, h2, h⟩ := andThen_eq_next.1 h
    exact .inr (.inl ⟨q, s1, u, rfl, h1, h2, by simpa using h.symm⟩)
  | applying q w =>
    simp only [restOfCommand, hp] at h
    obtain ⟨s1, h1, h⟩ := andThen_eq_next.1 h
    obtain ⟨s2, h2, h⟩ := andThen_eq_next.1 h
    obtain ⟨u, h3, h⟩ := andThen_eq_next.1 h
    exact .inr (.inr (.inl ⟨q, w, s1, s2, u, rfl, h1, h2, h3, by simpa using h.symm⟩))
  | beginning =>
    simp only [restOfCommand, hp] at h
    obtain ⟨u, h2, h⟩ := andThen_eq_next.1 h
    exact .inr (.inr (.inr (.inl ⟨u, rfl, h2, by simpa using h.symm⟩)))
  | running j ej =>
    simp only [restOfCommand, hp] at h
    obtain ⟨u, h2, h⟩ := andThen_eq_next.1 h
    exact .inr (.inr (.inr (.inr (.inl ⟨j, ej, u, rfl, h2, by simpa using h.symm⟩))))
  | writing j ej w =>
    simp only [restOfCommand, hp] at h
    obtain ⟨u, h2, h⟩ := andThen_eq_next.1 h
    exact .inr (.inr (.inr (.inr (.inr (.inl ⟨j, ej, w, u, rfl, h2, by simpa using h.symm⟩)))))
  | ingested j =>
    simp only [restOfCommand, hp] at h
    obtain ⟨u, h2, h⟩ := andThen_eq_next.1 h
    exact .inr (.inr (.inr (.inr (.inr (.inr (.inl ⟨j, u, rfl, h2, by simpa using h.symm⟩))))))
  | publishing j =>
    simp only [restOfCommand, hp] at h
    obtain ⟨u, h2, h⟩ := andThen_eq_next.1 h
    exact .inr (.inr (.inr (.inr (.inr (.inr (.inr (.inl ⟨j, u, rfl, h2, by simpa using h.symm⟩)))))))
  | ending =>
    simp only [restOfCommand, hp] at h
    exact .inr (.inr (.inr (.inr (.inr (.inr (.inr (.inr (.inl ⟨rfl, by simpa using h.symm⟩))))))))
  | finishing c =>
    simp only [restOfCommand, hp] at h
    exact .inr (.inr (.inr (.inr (.inr (.inr (.inr (.inr (.inr ⟨c, rfl, by simpa using h.symm⟩))))))))

/-- What one part of a command can answer (rules R30, R32). -/
theorem enginePart_cases {s t : State} (h : enginePart s = .next t) :
    (s.busy = false ∧ t = s) ∨
    (s.busy = true ∧
      ((s.progress = .start ∧ t = beginCommand s) ∨ (∃ q, s.progress = .draining q ∧ t = drainPart q s) ∨
        (∃ q w, s.progress = .applying q w ∧ applyPart q w s = .next t) ∨
        (s.progress = .beginning ∧ t = reach (.running 0 0) (beginBody s)) ∨
        (∃ j ej, s.progress = .running j ej ∧ bodyPart j ej s = .next t) ∨
        (∃ j ej w, s.progress = .writing j ej w ∧ t = writePart j ej w s) ∨
        (∃ j, s.progress = .ingested j ∧ t = hopPart j s) ∨
        (∃ j, s.progress = .publishing j ∧ t = publishPart j s) ∨
        (s.progress = .ending ∧ t = reach (.finishing .ok) (endBody s)) ∨
        (∃ c, s.progress = .finishing c ∧ t = s))) := by
  simp only [enginePart] at h
  split at h
  · rename_i hb
    refine .inr ⟨hb, ?_⟩
    split at h
    · rename_i hp
      exact .inl ⟨hp, by simpa using h.symm⟩
    · rename_i q hp
      exact .inr (.inl ⟨q, hp, by simpa using h.symm⟩)
    · rename_i q w hp
      exact .inr (.inr (.inl ⟨q, w, hp, h⟩))
    · rename_i hp
      exact .inr (.inr (.inr (.inl ⟨hp, by simpa using h.symm⟩)))
    · rename_i j ej hp
      exact .inr (.inr (.inr (.inr (.inl ⟨j, ej, hp, h⟩))))
    · rename_i j ej w hp
      exact .inr (.inr (.inr (.inr (.inr (.inl ⟨j, ej, w, hp, by simpa using h.symm⟩)))))
    · rename_i j hp
      exact .inr (.inr (.inr (.inr (.inr (.inr (.inl ⟨j, hp, by simpa using h.symm⟩))))))
    · rename_i j hp
      exact .inr (.inr (.inr (.inr (.inr (.inr (.inr (.inl ⟨j, hp, by simpa using h.symm⟩)))))))
    · rename_i hp
      exact .inr (.inr (.inr (.inr (.inr (.inr (.inr (.inr (.inl ⟨hp, by simpa using h.symm⟩))))))))
    · rename_i c hp
      exact .inr (.inr (.inr (.inr (.inr (.inr (.inr (.inr (.inr ⟨c, hp, by simpa using h.symm⟩))))))))
  · rename_i hb
    exact .inl ⟨by simpa using hb, by simpa using h.symm⟩

/-- What an agent's access that completes does (rules R100, R682): the access at its offset, its agent noted. -/
theorem agentAccess_cases {agent : Nat} {a : Access} {s t : State} (h : agentAccess agent a s = .next t) :
    (∃ width addr off, a = .read width addr ∧ offsetOf addr = some off ∧ access (.read width off) s = .next t) ∨
    ∃ width addr off v, a = .write width addr v ∧ offsetOf addr = some off ∧ breaksDuty agent off s = false ∧
      access (.write width off v) (noteAgent agent off s) = .next t := by
  cases a with
  | read width addr =>
    simp only [agentAccess] at h
    split at h
    · rename_i off ho
      exact .inl ⟨width, addr, off, rfl, ho, h⟩
    · simp at h
  | write width addr v =>
    simp only [agentAccess] at h
    split at h
    · rename_i off ho
      split at h
      · simp at h
      · rename_i hd
        refine .inr ⟨width, addr, off, v, rfl, ho, ?_, h⟩
        simp only [access] at h
        split at h
        · rename_i hr
          simpa [hr] using hd
        · simp at h
    · simp at h

/-- Noting an agent changes nothing of the block (rule R682). -/
theorem noteAgent_frame (agent off : Nat) (s : State) :
    noteAgent agent off s = { s with
      doorbellAgent := (noteAgent agent off s).doorbellAgent
      producer := (noteAgent agent off s).producer
      pushLow := (noteAgent agent off s).pushLow } := by
  simp only [noteAgent]
  split
  · rfl
  · split
    · rfl
    · split <;> rfl

/-- The offset of a platform address (rule R100). -/
theorem offsetOf_eq_some {addr off : Nat} :
    offsetOf addr = some off ↔ addr = Config.blockBase + off ∧ off < 0x80000 := by
  simp only [offsetOf]
  split
  · simp only [Option.some.injEq]
    omega
  · simp only [reduceCtorEq, false_iff]
    omega

/-- What the engine's turn can answer (rules R200, R600). -/
theorem engineTurn_cases {s t : State} (h : engineTurn s = .next t) :
    (s.busy = false ∧ t = s) ∨
    (s.busy = true ∧ ∃ i u, decodeWord .doorbell s.latched = .ok i ∧ restOfCommand i s = .next u ∧ t = settleRaces u) ∨
    (s.busy = true ∧ (∃ e, decodeWord .doorbell s.latched = .error e) ∧ t = illegalDoorbell s) := by
  simp only [engineTurn, fetch] at h
  split at h
  · rename_i hb
    split at h
    · rename_i i hi
      obtain ⟨u, hu, h⟩ := andThen_eq_next.1 h
      exact .inr (.inl ⟨hb, i, u, hi, hu, by simpa using h.symm⟩)
    · rename_i e he
      exact .inr (.inr ⟨hb, ⟨e, he⟩, by simpa using h.symm⟩)
  · rename_i hb
    exact .inl ⟨by simpa using hb, by simpa using h.symm⟩

/-- The instruction an engine turn runs is one of the five doorbell commands (rule R159). -/
theorem doorbell_cases {w : Cmd} {i : Instr} (h : decodeWord .doorbell w = .ok i) :
    i = .nop ∨ i = .prepare ∨ (∃ k e n, i = .synRender k e n) ∨ (∃ k n, i = .eqProcess k n) ∨
      ∃ k n, i = .specProcess k n := by
  simp only [decodeWord, decodeDoorbell] at h
  split at h <;> simp only [Except.ok.injEq, reduceCtorEq] at h <;> subst h <;> simp

/-- What a step can do: an engine turn, a part of a command, an access or a reset, with that turn taken off the agenda
(rules R30, R115). -/
theorem step_cases {s t : State} (h : step s = .next t) :
    (s.agenda = [] ∧ engineTurn s = .next t) ∨
    ∃ turn rest, s.agenda = turn :: rest ∧
      ((turn = .engine ∧ engineTurn { s with agenda := rest } = .next t) ∨
        (turn = .part ∧ enginePart { s with agenda := rest } = .next t) ∨
        (∃ agent a, turn = .access agent a ∧ agentAccess agent a { s with agenda := rest } = .next t) ∨
        (turn = .reset ∧ t = hardwareReset { s with agenda := rest })) := by
  simp only [step, nextTurn] at h
  split at h
  · rename_i ha
    exact .inl ⟨ha, h⟩
  · rename_i turn rest ha
    refine .inr ⟨turn, rest, ha, ?_⟩
    cases turn with
    | access agent a => exact .inr (.inr (.inl ⟨agent, a, rfl, h⟩))
    | part => exact .inr (.inl ⟨rfl, h⟩)
    | engine => exact .inl ⟨rfl, h⟩
    | reset => exact .inr (.inr (.inr ⟨rfl, by simpa [takeTurn] using h.symm⟩))

/-! ## Regions -/

/-- The address map (rule R101): the region of every offset. -/
theorem regionOf_cases (off : Nat) :
    (off < 0x1000 ∧ regionOf off = some .csr) ∨ ((0x1000 ≤ off ∧ off < 0x1800) ∧ regionOf off = some .evt) ∨
    ((0x2000 ≤ off ∧ off < 0x4000) ∧ regionOf off = some .wt) ∨
    ((0x10000 ≤ off ∧ off < 0x18000) ∧ regionOf off = some (.buf 0)) ∨
    ((0x18000 ≤ off ∧ off < 0x20000) ∧ regionOf off = some (.buf 1)) ∨
    ((0x20000 ≤ off ∧ off < 0x24000) ∧ regionOf off = some .hist) ∨
    ((0x30000 ≤ off ∧ off < 0x38000) ∧ regionOf off = some .mag) ∨
    ((0x38000 ≤ off ∧ off < 0x40000) ∧ regionOf off = some .phase) ∨
    ((0x40000 ≤ off ∧ off < 0x48000) ∧ regionOf off = some .power) ∨
    (((0x1800 ≤ off ∧ off < 0x2000) ∨ (0x4000 ≤ off ∧ off < 0x10000) ∨ (0x24000 ≤ off ∧ off < 0x30000) ∨
      0x48000 ≤ off) ∧ regionOf off = none) := by
  unfold regionOf
  by_cases h1 : off < 0x01000
  · exact .inl ⟨h1, if_pos h1⟩
  rw [if_neg h1]
  by_cases h2 : off < 0x01800
  · exact .inr (.inl ⟨by omega, if_pos h2⟩)
  rw [if_neg h2]
  by_cases h3 : off < 0x02000
  · exact .inr (.inr (.inr (.inr (.inr (.inr (.inr (.inr (.inr ⟨by omega, if_pos h3⟩))))))))
  rw [if_neg h3]
  by_cases h4 : off < 0x04000
  · exact .inr (.inr (.inl ⟨by omega, if_pos h4⟩))
  rw [if_neg h4]
  by_cases h5 : off < 0x10000
  · exact .inr (.inr (.inr (.inr (.inr (.inr (.inr (.inr (.inr ⟨by omega, if_pos h5⟩))))))))
  rw [if_neg h5]
  by_cases h6 : off < 0x18000
  · exact .inr (.inr (.inr (.inl ⟨by omega, if_pos h6⟩)))
  rw [if_neg h6]
  by_cases h7 : off < 0x20000
  · exact .inr (.inr (.inr (.inr (.inl ⟨by omega, if_pos h7⟩))))
  rw [if_neg h7]
  by_cases h8 : off < 0x24000
  · exact .inr (.inr (.inr (.inr (.inr (.inl ⟨by omega, if_pos h8⟩)))))
  rw [if_neg h8]
  by_cases h9 : off < 0x30000
  · exact .inr (.inr (.inr (.inr (.inr (.inr (.inr (.inr (.inr ⟨by omega, if_pos h9⟩))))))))
  rw [if_neg h9]
  by_cases h10 : off < 0x38000
  · exact .inr (.inr (.inr (.inr (.inr (.inr (.inl ⟨by omega, if_pos h10⟩))))))
  rw [if_neg h10]
  by_cases h11 : off < 0x40000
  · exact .inr (.inr (.inr (.inr (.inr (.inr (.inr (.inl ⟨by omega, if_pos h11⟩)))))))
  rw [if_neg h11]
  by_cases h12 : off < 0x48000
  · exact .inr (.inr (.inr (.inr (.inr (.inr (.inr (.inr (.inl ⟨by omega, if_pos h12⟩))))))))
  · exact .inr (.inr (.inr (.inr (.inr (.inr (.inr (.inr (.inr ⟨by omega, if_neg h12⟩))))))))

/-- A memory region's window, from its first offset up to the first one past it (rule R101). -/
def windowOf : Region → Nat × Nat
  | .csr => (0, 0x1000)
  | .evt => (0x1000, 0x1800)
  | .wt => (0x2000, 0x4000)
  | .buf k => (bufBase k, bufBase k + 0x8000)
  | .hist => (0x20000, 0x24000)
  | .mag => (0x30000, 0x38000)
  | .phase => (0x38000, 0x40000)
  | .power => (0x40000, 0x48000)

/-- An offset lies in a region exactly when it lies in the region's window (rule R101). -/
theorem regionOf_some {off : Nat} {r : Region} :
    regionOf off = some r ↔ (windowOf r).1 ≤ off ∧ off < (windowOf r).2 := by
  have hr : ∀ k : Fin 2, k = 0 ∨ k = 1 := by decide
  rcases regionOf_cases off with h | h | h | h | h | h | h | h | h | h <;> obtain ⟨hb, h⟩ := h <;> rw [h] <;>
    cases r <;> simp only [Option.some.injEq, reduceCtorEq, windowOf, false_iff, true_iff, Region.buf.injEq] <;>
    first
      | omega
      | (rename_i k
         rcases hr k with rfl | rfl <;>
           simp only [bufBase, Fin.val_zero, Fin.val_one, true_iff, false_iff, zero_ne_one, one_ne_zero] <;> omega)

/-! ## Accesses -/

/-- What an access that completes does (rules R33, R37, R106, R113): a read changes only the data returned and the draw
counter; a write changes a latch, the doorbell, the queue, a CFG_* register or a RAM word, or nothing. -/
theorem access_cases {a : Access} {s t : State} (h : access a s = .next t) :
    (∃ off r, a = .read 4 off ∧ accessRegion 4 off = some r ∧ t = hostRead r off s) ∨
    (∃ off v, a = .write 4 off v ∧ off % 4 = 0 ∧
      ((off < 0x1000 ∧ writeCsr off v s = .next t) ∨
        ((0x1000 ≤ off ∧ off < 0x1800 ∨ 0x2000 ≤ off ∧ off < 0x4000 ∨ 0x10000 ≤ off ∧ off < 0x20000) ∧
          (t = writeWord s off v ∨ t = { s with raced := s.raced ++ [(off, v)] })) ∨
        ((0x20000 ≤ off ∧ off < 0x24000 ∨ 0x30000 ≤ off ∧ off < 0x48000) ∧ t = s))) := by
  cases a with
  | read width off =>
    simp only [access] at h
    split at h
    · rename_i r hr
      have hw : width = 4 := by
        simp only [accessRegion] at hr
        split at hr
        · rename_i hc
          exact hc.1
        · simp at hr
      subst hw
      exact .inl ⟨off, r, rfl, hr, by simpa using h.symm⟩
    · simp at h
  | write width off v =>
    simp only [access] at h
    split at h
    · rename_i r hr
      simp only [accessRegion] at hr
      split at hr
      · rename_i hc
        obtain ⟨rfl, ha⟩ := hc
        refine .inr ⟨off, v, rfl, ha, ?_⟩
        have hram : ∀ q, (Host.Outcome.next (writeRam q off v s) : Res State) = .next t →
            (t = writeWord s off v ∨ t = { s with raced := s.raced ++ [(off, v)] }) := by
          intro q hq
          simp only [Host.Outcome.next.injEq] at hq
          rw [← hq]
          simp only [writeRam]
          split
          · exact .inr rfl
          · exact .inl rfl
        cases r with
        | csr => exact .inl ⟨(regionOf_some.1 hr).2, h⟩
        | evt => exact .inr (.inl ⟨.inl (regionOf_some.1 hr), hram _ h⟩)
        | wt => exact .inr (.inl ⟨.inr (.inl (regionOf_some.1 hr)), hram _ h⟩)
        | buf k =>
          have := regionOf_some.1 hr
          simp only [windowOf, bufBase] at this
          exact .inr (.inl ⟨.inr (.inr (by omega)), hram _ h⟩)
        | hist => exact .inr (.inr ⟨.inl (regionOf_some.1 hr), by simpa [hostWrite] using h.symm⟩)
        | mag =>
          have := regionOf_some.1 hr
          simp only [windowOf] at this
          exact .inr (.inr ⟨.inr (by omega), by simpa [hostWrite] using h.symm⟩)
        | phase =>
          have := regionOf_some.1 hr
          simp only [windowOf] at this
          exact .inr (.inr ⟨.inr (by omega), by simpa [hostWrite] using h.symm⟩)
        | power =>
          have := regionOf_some.1 hr
          simp only [windowOf] at this
          exact .inr (.inr ⟨.inr (by omega), by simpa [hostWrite] using h.symm⟩)
      · simp at hr
    · simp at h

/-- What a read of a word answers while a command is in progress (rules R118, R121, R670): only a word that races with
the command is found as it was before the command or as its next part leaves it. -/
theorem busyRead_cases (r : Region) (off : Nat) (s : State) :
    (readRaces r off s = true ∧
      (busyRead r off s = wordBefore r off s s.hostDraws ∨ busyRead r off s = wordAt r off (upcoming s) s.hostDraws)) ∨
    busyRead r off s = plainRead r off (hostView s) s.hostDraws ∨ busyRead r off s = wordAt r off s s.hostDraws := by
  cases hr : readRaces r off s <;> cases ho : Config.raceSeesOld s.hostDraws <;>
    cases hn : Config.raceSeesNew s.hostDraws <;> cases hh : Config.raceSeesHost s.hostDraws <;>
    simp [busyRead, hr, ho, hn, hh]

/-- What a CSR write that completes does (rules R33, R37, R42, R43). -/
theorem writeCsr_cases {off : Nat} {v : Word} {s t : State} (h : writeCsr off v s = .next t) :
    (off = 0x00C ∧ t = { s with cmdLo := v }) ∨ (off = 0x010 ∧ t = ringDoorbell v s) ∨
    (off = 0x030 ∧ t = { s with pushLatch := v }) ∨ (off = 0x034 ∧ t = pushQueue v s) ∨
    ((0x040 ≤ off ∧ off ≤ 0x080) ∧ t = { s with cfg := setCfgWord ((off - 0x040) / 4) v s.cfg }) ∨ t = s := by
  simp only [writeCsr] at h
  split at h
  · rename_i ho
    exact .inl ⟨ho, by simpa using h.symm⟩
  · split at h
    · rename_i ho
      exact .inr (.inl ⟨ho, by simpa using h.symm⟩)
    · split at h
      · rename_i ho
        exact .inr (.inr (.inl ⟨ho, by simpa using h.symm⟩))
      · split at h
        · rename_i ho
          exact .inr (.inr (.inr (.inl ⟨ho, by simpa using h.symm⟩)))
        · split at h
          · rename_i ho
            split at h
            · simp at h
            · exact .inr (.inr (.inr (.inr (.inl ⟨ho, by simpa using h.symm⟩))))
          · exact .inr (.inr (.inr (.inr (.inr (by simpa using h.symm)))))

end Sys2Proof.Machine
end

