-- ==== Sys2Proof/Laws/Encoding.lean ====
section
/-! SUPPORT. The field reads of an assembled command word (rule R150). -/

namespace Sys2Proof

theorem assemble_toNat (op a b : BitVec 8) (v : Word) :
    (assemble op a b v).toNat = op.toNat * 2 ^ 56 + a.toNat * 2 ^ 48 + b.toNat * 2 ^ 40 + v.toNat := by
  have hv := v.isLt
  have hb := b.isLt
  have ha := a.isLt
  simp only [assemble, BitVec.toNat_append, BitVec.toNat_ofNat]
  rw [← Nat.shiftLeft_add_eq_or_of_lt (by omega), ← Nat.shiftLeft_add_eq_or_of_lt (by omega),
    ← Nat.shiftLeft_add_eq_or_of_lt (by omega), ← Nat.shiftLeft_add_eq_or_of_lt (by omega)]
  simp only [Nat.shiftLeft_eq]
  omega

theorem assembleE_toNat (op a : BitVec 8) (e : BitVec 16) (v : Word) :
    (assembleE op a e v).toNat = op.toNat * 2 ^ 56 + a.toNat * 2 ^ 48 + e.toNat * 2 ^ 32 + v.toNat := by
  have hv := v.isLt
  have he := e.isLt
  have ha := a.isLt
  simp only [assembleE, BitVec.toNat_append]
  rw [← Nat.shiftLeft_add_eq_or_of_lt (by omega), ← Nat.shiftLeft_add_eq_or_of_lt (by omega),
    ← Nat.shiftLeft_add_eq_or_of_lt (by omega)]
  simp only [Nat.shiftLeft_eq]
  omega

@[simp] theorem assemble_op (op a b : BitVec 8) (v : Word) : Cmd.op (assemble op a b v) = op := by
  apply BitVec.eq_of_toNat_eq
  simp only [Cmd.op, BitVec.extractLsb'_toNat, assemble_toNat, Nat.shiftRight_eq_div_pow]
  have hop := op.isLt
  have ha := a.isLt
  have hb := b.isLt
  have hv := v.isLt
  omega

@[simp] theorem assemble_fieldA (op a b : BitVec 8) (v : Word) : Cmd.fieldA (assemble op a b v) = a := by
  apply BitVec.eq_of_toNat_eq
  simp only [Cmd.fieldA, BitVec.extractLsb'_toNat, assemble_toNat, Nat.shiftRight_eq_div_pow]
  have hop := op.isLt
  have ha := a.isLt
  have hb := b.isLt
  have hv := v.isLt
  omega

@[simp] theorem assemble_fieldB (op a b : BitVec 8) (v : Word) : Cmd.fieldB (assemble op a b v) = b := by
  apply BitVec.eq_of_toNat_eq
  simp only [Cmd.fieldB, BitVec.extractLsb'_toNat, assemble_toNat, Nat.shiftRight_eq_div_pow]
  have hop := op.isLt
  have ha := a.isLt
  have hb := b.isLt
  have hv := v.isLt
  omega

@[simp] theorem assemble_fieldV (op a b : BitVec 8) (v : Word) : Cmd.fieldV (assemble op a b v) = v := by
  apply BitVec.eq_of_toNat_eq
  simp only [Cmd.fieldV, BitVec.extractLsb'_toNat, assemble_toNat, Nat.shiftRight_eq_div_pow]
  have hop := op.isLt
  have ha := a.isLt
  have hb := b.isLt
  have hv := v.isLt
  omega

@[simp] theorem assembleE_op (op a : BitVec 8) (e : BitVec 16) (v : Word) : Cmd.op (assembleE op a e v) = op := by
  apply BitVec.eq_of_toNat_eq
  simp only [Cmd.op, BitVec.extractLsb'_toNat, assembleE_toNat, Nat.shiftRight_eq_div_pow]
  have hop := op.isLt
  have ha := a.isLt
  have he := e.isLt
  have hv := v.isLt
  omega

@[simp] theorem assembleE_fieldA (op a : BitVec 8) (e : BitVec 16) (v : Word) : Cmd.fieldA (assembleE op a e v) = a := by
  apply BitVec.eq_of_toNat_eq
  simp only [Cmd.fieldA, BitVec.extractLsb'_toNat, assembleE_toNat, Nat.shiftRight_eq_div_pow]
  have hop := op.isLt
  have ha := a.isLt
  have he := e.isLt
  have hv := v.isLt
  omega

@[simp] theorem assembleE_fieldE (op a : BitVec 8) (e : BitVec 16) (v : Word) : Cmd.fieldE (assembleE op a e v) = e := by
  apply BitVec.eq_of_toNat_eq
  simp only [Cmd.fieldE, BitVec.extractLsb'_toNat, assembleE_toNat, Nat.shiftRight_eq_div_pow]
  have hop := op.isLt
  have ha := a.isLt
  have he := e.isLt
  have hv := v.isLt
  omega

@[simp] theorem assembleE_fieldV (op a : BitVec 8) (e : BitVec 16) (v : Word) : Cmd.fieldV (assembleE op a e v) = v := by
  apply BitVec.eq_of_toNat_eq
  simp only [Cmd.fieldV, BitVec.extractLsb'_toNat, assembleE_toNat, Nat.shiftRight_eq_div_pow]
  have hop := op.isLt
  have ha := a.isLt
  have he := e.isLt
  have hv := v.isLt
  omega

/-- A command word laid out in memory and read back is the word (rules R8, R102). -/
theorem ofBytes_bytesOfCmd (w : Cmd) (rest : List Byte) (ch : Channel) :
    decodeBytes ch (bytesOfCmd w ++ rest) =
      match decodeWord ch w with
      | .ok i => .ok (i, rest)
      | .error e => .error e := by
  have h : ∀ x : Word, wordOfBytes (x.extractLsb' 0 8) (x.extractLsb' 8 8) (x.extractLsb' 16 8) (x.extractLsb' 24 8) =
      x := by
    intro x
    simp only [wordOfBytes]
    ext i hi
    simp only [BitVec.getElem_append, BitVec.getElem_extractLsb']
    split_ifs with h1 h2 h3 <;> rw [← BitVec.getLsbD_eq_getElem hi] <;> congr 1 <;> omega
  have hw : Cmd.ofWords (Cmd.hi w) (Cmd.lo w) = w := by
    simp only [Cmd.ofWords, Cmd.hi, Cmd.lo]
    ext i hi
    simp only [BitVec.getElem_append, BitVec.getElem_extractLsb']
    split_ifs with h1 <;> rw [← BitVec.getLsbD_eq_getElem hi] <;> congr 1 <;> omega
  simp only [bytesOfCmd, bytesOfWord, List.cons_append, List.nil_append, decodeBytes, h, hw]
  all_goals cases decodeWord ch w <;> rfl

end Sys2Proof
end

