-- ==== Sys2Proof/Laws/Notes.lean ====
section
/-! SUPPORT. The laws of voice allocation: a fold over the voices below ACT.V as one vector, aging and note-off as such
folds, the clamp of a note or velocity, and what the search for the oldest voice finds (rules R11, R262, R263). -/

namespace Sys2Proof.Machine

theorem voiceAt_fin (s : State) (u : Fin 32) : voiceAt s u.val = s.voices[u] := by
  obtain ⟨u, hu⟩ := u
  simp [voiceAt, Vector.getD, hu]

theorem foldVoices_step (f : Voice → Voice) (V : Vector Voice 32) (n : Nat) :
    (Vector.ofFn fun u : Fin 32 => if u.val < n then f V[u] else V[u]).setIfInBounds n
      (f ((Vector.ofFn fun u : Fin 32 => if u.val < n then f V[u] else V[u]).getD n (Voice.idle n))) =
    Vector.ofFn fun u : Fin 32 => if u.val < n + 1 then f V[u] else V[u] := by
  apply Vector.ext
  intro u hu
  rw [Vector.getElem_setIfInBounds]
  simp only [Vector.getElem_ofFn]
  by_cases h : n = u
  · subst h
    simp [Vector.getD, hu]
  · rw [if_neg h]
    by_cases h2 : u < n
    · rw [if_pos h2, if_pos (Nat.lt_succ_of_lt h2)]
    · rw [if_neg h2, if_neg (by omega)]

/-- Updating the voices below `n` in order is updating each of them once. -/
theorem foldVoices_eq (f : Voice → Voice) (n : Nat) (s : State) :
    ((List.range n).foldl (fun s u => setVoice u (f (voiceAt s u)) s) s) =
      { s with voices := Vector.ofFn fun u : Fin 32 => if u.val < n then f s.voices[u] else s.voices[u] } := by
  induction n with
  | zero =>
    have h : (Vector.ofFn fun u : Fin 32 => if u.val < 0 then f s.voices[u] else s.voices[u]) = s.voices := by
      apply Vector.ext
      intro u hu
      rw [Vector.getElem_ofFn, if_neg (by omega)]
      rfl
    rw [h]
    rfl
  | succ n ih =>
    rw [List.range_succ, List.foldl_append, ih, ← foldVoices_step]
    rfl

/-- Aging (rule R262) as one update of the voice file. -/
theorem ageVoices_eq (s : State) :
    ageVoices s = { s with
      voices := Vector.ofFn fun u : Fin 32 => if u.val < actV s then ageVoice s.voices[u] else s.voices[u] } :=
  foldVoices_eq ageVoice _ s

/-- A note-off (rule R263) as one update of the voice file. -/
theorem noteOff_eq (nt : BitVec 8) (s : State) :
    noteOff nt s = { s with
      voices := Vector.ofFn fun u : Fin 32 => if u.val < actV s then releaseVoice nt s.voices[u] else s.voices[u] } :=
  foldVoices_eq (releaseVoice nt) _ s

theorem midi7_eq (x : BitVec 8) : midi7 x = BitVec.ofNat 8 (min x.toNat 127) := by
  simp only [midi7]
  split
  · rename_i h
    rw [Nat.min_eq_left h]
    simp
  · rename_i h
    rw [Nat.min_eq_right (by omega)]
    rfl

theorem midi7_le (x : BitVec 8) : (midi7 x).toNat ≤ 127 := by
  simp only [midi7]
  split
  · assumption
  · decide

theorem midi7_eq_zero {x : BitVec 8} : midi7 x = 0 ↔ x = 0 := by
  simp only [midi7]
  split
  · rfl
  · rename_i h
    constructor
    · intro h0
      simp at h0
    · rintro rfl
      simp at h

/-- The first of the greatest ages among the voices below `n`, from the best index 0 (rule R11). -/
theorem oldest_fold (age : Nat → Nat) (n : Nat) :
    let b := (List.range n).foldl (fun best u => if age best < age u then u else best) 0
    (b < n ∨ (n = 0 ∧ b = 0)) ∧ ∀ u, u < n → age u ≤ age b ∧ (u < b → age u < age b) := by
  induction n with
  | zero => simp
  | succ n ih =>
    simp only [List.range_succ, List.foldl_append, List.foldl_cons, List.foldl_nil] at ih ⊢
    obtain ⟨h1, h2⟩ := ih
    generalize (List.range n).foldl (fun best u => if age best < age u then u else best) 0 = b at *
    by_cases hb : age b < age n
    · rw [if_pos hb]
      refine ⟨.inl (by omega), fun u hu => ?_⟩
      by_cases hun : u = n
      · subst hun
        exact ⟨le_refl _, fun h => absurd h (lt_irrefl _)⟩
      · have := h2 u (by omega)
        exact ⟨by omega, fun _ => by omega⟩
    · rw [if_neg hb]
      refine ⟨.inl (by omega), fun u hu => ?_⟩
      by_cases hun : u = n
      · subst hun
        exact ⟨by omega, fun h => by omega⟩
      · exact h2 u (by omega)

/-- The voice a steal takes (rule R262): below ACT.V, of the greatest age, and the first of these. -/
theorem oldestVoice_spec (s : State) (h : 0 < actV s) :
    oldestVoice s < actV s ∧ ∀ u, u < actV s →
      (voiceAt s u).age.toNat ≤ (voiceAt s (oldestVoice s)).age.toNat ∧
        (u < oldestVoice s → (voiceAt s u).age.toNat < (voiceAt s (oldestVoice s)).age.toNat) := by
  obtain ⟨h1, h2⟩ := oldest_fold (fun u => (voiceAt s u).age.toNat) (actV s)
  exact ⟨by rcases h1 with h1 | h1 <;> [exact h1; omega], h2⟩

/-- `sat32(a + 1)` as a number (rule R9). -/
theorem satSucc_toNat (a : Word) : (Word.satSucc a).toNat = min (a.toNat + 1) 0xFFFFFFFF := by
  simp only [Word.satSucc]
  split
  · rename_i h; subst h; decide
  · rename_i h
    have : a.toNat ≠ 0xFFFFFFFF := fun hh => h (BitVec.eq_of_toNat_eq (by rw [hh]; rfl))
    have := a.isLt
    rw [BitVec.toNat_add]
    simp
    omega

end Sys2Proof.Machine
end

