-- ==== Sys2Proof/Laws/State.lean ====
section
/-! SUPPORT. What the shared updates of the state do to each of its fields: one lemma per field, so that no later proof
unfolds a record update. -/

namespace Sys2Proof.Machine

@[simp] theorem finish_prepared (c : ResultCode) (op : BitVec 8) (s : State) : (finish c op s).prepared = s.prepared := rfl
@[simp] theorem finish_busy (c : ResultCode) (op : BitVec 8) (s : State) : (finish c op s).busy = false := rfl
@[simp] theorem finish_cmdLo (c : ResultCode) (op : BitVec 8) (s : State) : (finish c op s).cmdLo = s.cmdLo := rfl
@[simp] theorem finish_cmdHi (c : ResultCode) (op : BitVec 8) (s : State) : (finish c op s).cmdHi = s.cmdHi := rfl
@[simp] theorem finish_latched (c : ResultCode) (op : BitVec 8) (s : State) : (finish c op s).latched = s.latched := rfl
@[simp] theorem finish_cmdResult (c : ResultCode) (op : BitVec 8) (s : State) : (finish c op s).cmdResult = resultWord op c := rfl
@[simp] theorem finish_cmdCount (c : ResultCode) (op : BitVec 8) (s : State) : (finish c op s).cmdCount = s.cmdCount + 1 := rfl
@[simp] theorem finish_busyDrop (c : ResultCode) (op : BitVec 8) (s : State) : (finish c op s).busyDrop = s.busyDrop := rfl
@[simp] theorem finish_illegalCount (c : ResultCode) (op : BitVec 8) (s : State) : (finish c op s).illegalCount = s.illegalCount := rfl
@[simp] theorem finish_cfgErrField (c : ResultCode) (op : BitVec 8) (s : State) : (finish c op s).cfgErrField = s.cfgErrField := rfl
@[simp] theorem finish_lastCycles (c : ResultCode) (op : BitVec 8) (s : State) : (finish c op s).lastCycles = Config.lastCycles s.draws := rfl
@[simp] theorem finish_pushLatch (c : ResultCode) (op : BitVec 8) (s : State) : (finish c op s).pushLatch = s.pushLatch := rfl
@[simp] theorem finish_slots (c : ResultCode) (op : BitVec 8) (s : State) : (finish c op s).slots = s.slots := rfl
@[simp] theorem finish_head (c : ResultCode) (op : BitVec 8) (s : State) : (finish c op s).head = s.head := rfl
@[simp] theorem finish_tail (c : ResultCode) (op : BitVec 8) (s : State) : (finish c op s).tail = s.tail := rfl
@[simp] theorem finish_lastPushOk (c : ResultCode) (op : BitVec 8) (s : State) : (finish c op s).lastPushOk = s.lastPushOk := rfl
@[simp] theorem finish_pqOverflow (c : ResultCode) (op : BitVec 8) (s : State) : (finish c op s).pqOverflow = s.pqOverflow := rfl
@[simp] theorem finish_cfg (c : ResultCode) (op : BitVec 8) (s : State) : (finish c op s).cfg = s.cfg := rfl
@[simp] theorem finish_act (c : ResultCode) (op : BitVec 8) (s : State) : (finish c op s).act = s.act := rfl
@[simp] theorem finish_synActive (c : ResultCode) (op : BitVec 8) (s : State) : (finish c op s).synActive = s.synActive := rfl
@[simp] theorem finish_synSteals (c : ResultCode) (op : BitVec 8) (s : State) : (finish c op s).synSteals = s.synSteals := rfl
@[simp] theorem finish_steals (c : ResultCode) (op : BitVec 8) (s : State) : (finish c op s).steals = s.steals := rfl
@[simp] theorem finish_voiceStatus (c : ResultCode) (op : BitVec 8) (s : State) : (finish c op s).voiceStatus = s.voiceStatus := rfl
@[simp] theorem finish_voiceAge (c : ResultCode) (op : BitVec 8) (s : State) : (finish c op s).voiceAge = s.voiceAge := rfl
@[simp] theorem finish_specSeq (c : ResultCode) (op : BitVec 8) (s : State) : (finish c op s).specSeq = s.specSeq := rfl
@[simp] theorem finish_trackers (c : ResultCode) (op : BitVec 8) (s : State) : (finish c op s).trackers = s.trackers := rfl
@[simp] theorem finish_mlVec (c : ResultCode) (op : BitVec 8) (s : State) : (finish c op s).mlVec = s.mlVec := rfl
@[simp] theorem finish_synp (c : ResultCode) (op : BitVec 8) (s : State) : (finish c op s).synp = s.synp := rfl
@[simp] theorem finish_eqg (c : ResultCode) (op : BitVec 8) (s : State) : (finish c op s).eqg = s.eqg := rfl
@[simp] theorem finish_eqb (c : ResultCode) (op : BitVec 8) (s : State) : (finish c op s).eqb = s.eqb := rfl
@[simp] theorem finish_eqc (c : ResultCode) (op : BitVec 8) (s : State) : (finish c op s).eqc = s.eqc := rfl
@[simp] theorem finish_voices (c : ResultCode) (op : BitVec 8) (s : State) : (finish c op s).voices = s.voices := rfl
@[simp] theorem finish_eq (c : ResultCode) (op : BitVec 8) (s : State) : (finish c op s).eq = s.eq := rfl
@[simp] theorem finish_luts (c : ResultCode) (op : BitVec 8) (s : State) : (finish c op s).luts = s.luts := rfl
@[simp] theorem finish_spec (c : ResultCode) (op : BitVec 8) (s : State) : (finish c op s).spec = s.spec := rfl
@[simp] theorem finish_mem (c : ResultCode) (op : BitVec 8) (s : State) : (finish c op s).mem = s.mem := rfl
@[simp] theorem finish_raced (c : ResultCode) (op : BitVec 8) (s : State) : (finish c op s).raced = s.raced := rfl
@[simp] theorem finish_agenda (c : ResultCode) (op : BitVec 8) (s : State) : (finish c op s).agenda = s.agenda := rfl
@[simp] theorem finish_readData (c : ResultCode) (op : BitVec 8) (s : State) : (finish c op s).readData = s.readData := rfl
@[simp] theorem finish_draws (c : ResultCode) (op : BitVec 8) (s : State) : (finish c op s).draws = s.draws + 1 := rfl
@[simp] theorem finish_progress (c : ResultCode) (op : BitVec 8) (s : State) : (finish c op s).progress = .start := rfl
@[simp] theorem finish_hostDraws (c : ResultCode) (op : BitVec 8) (s : State) : (finish c op s).hostDraws = s.hostDraws := rfl
@[simp] theorem finish_oldCsrs (c : ResultCode) (op : BitVec 8) (s : State) : (finish c op s).oldCsrs = s.oldCsrs := rfl
@[simp] theorem finish_oldMem (c : ResultCode) (op : BitVec 8) (s : State) : (finish c op s).oldMem = s.oldMem := rfl
@[simp] theorem finish_doorbellAgent (c : ResultCode) (op : BitVec 8) (s : State) : (finish c op s).doorbellAgent = s.doorbellAgent := rfl
@[simp] theorem finish_producer (c : ResultCode) (op : BitVec 8) (s : State) : (finish c op s).producer = s.producer := rfl
@[simp] theorem finish_pushLow (c : ResultCode) (op : BitVec 8) (s : State) : (finish c op s).pushLow = s.pushLow := rfl

@[simp] theorem countIllegal_prepared (s : State) : (countIllegal s).prepared = s.prepared := rfl
@[simp] theorem countIllegal_busy (s : State) : (countIllegal s).busy = s.busy := rfl
@[simp] theorem countIllegal_cmdLo (s : State) : (countIllegal s).cmdLo = s.cmdLo := rfl
@[simp] theorem countIllegal_cmdHi (s : State) : (countIllegal s).cmdHi = s.cmdHi := rfl
@[simp] theorem countIllegal_latched (s : State) : (countIllegal s).latched = s.latched := rfl
@[simp] theorem countIllegal_cmdResult (s : State) : (countIllegal s).cmdResult = s.cmdResult := rfl
@[simp] theorem countIllegal_cmdCount (s : State) : (countIllegal s).cmdCount = s.cmdCount := rfl
@[simp] theorem countIllegal_busyDrop (s : State) : (countIllegal s).busyDrop = s.busyDrop := rfl
@[simp] theorem countIllegal_illegalCount (s : State) : (countIllegal s).illegalCount = s.illegalCount + 1 := rfl
@[simp] theorem countIllegal_cfgErrField (s : State) : (countIllegal s).cfgErrField = s.cfgErrField := rfl
@[simp] theorem countIllegal_lastCycles (s : State) : (countIllegal s).lastCycles = s.lastCycles := rfl
@[simp] theorem countIllegal_pushLatch (s : State) : (countIllegal s).pushLatch = s.pushLatch := rfl
@[simp] theorem countIllegal_slots (s : State) : (countIllegal s).slots = s.slots := rfl
@[simp] theorem countIllegal_head (s : State) : (countIllegal s).head = s.head := rfl
@[simp] theorem countIllegal_tail (s : State) : (countIllegal s).tail = s.tail := rfl
@[simp] theorem countIllegal_lastPushOk (s : State) : (countIllegal s).lastPushOk = s.lastPushOk := rfl
@[simp] theorem countIllegal_pqOverflow (s : State) : (countIllegal s).pqOverflow = s.pqOverflow := rfl
@[simp] theorem countIllegal_cfg (s : State) : (countIllegal s).cfg = s.cfg := rfl
@[simp] theorem countIllegal_act (s : State) : (countIllegal s).act = s.act := rfl
@[simp] theorem countIllegal_synActive (s : State) : (countIllegal s).synActive = s.synActive := rfl
@[simp] theorem countIllegal_synSteals (s : State) : (countIllegal s).synSteals = s.synSteals := rfl
@[simp] theorem countIllegal_steals (s : State) : (countIllegal s).steals = s.steals := rfl
@[simp] theorem countIllegal_voiceStatus (s : State) : (countIllegal s).voiceStatus = s.voiceStatus := rfl
@[simp] theorem countIllegal_voiceAge (s : State) : (countIllegal s).voiceAge = s.voiceAge := rfl
@[simp] theorem countIllegal_specSeq (s : State) : (countIllegal s).specSeq = s.specSeq := rfl
@[simp] theorem countIllegal_trackers (s : State) : (countIllegal s).trackers = s.trackers := rfl
@[simp] theorem countIllegal_mlVec (s : State) : (countIllegal s).mlVec = s.mlVec := rfl
@[simp] theorem countIllegal_synp (s : State) : (countIllegal s).synp = s.synp := rfl
@[simp] theorem countIllegal_eqg (s : State) : (countIllegal s).eqg = s.eqg := rfl
@[simp] theorem countIllegal_eqb (s : State) : (countIllegal s).eqb = s.eqb := rfl
@[simp] theorem countIllegal_eqc (s : State) : (countIllegal s).eqc = s.eqc := rfl
@[simp] theorem countIllegal_voices (s : State) : (countIllegal s).voices = s.voices := rfl
@[simp] theorem countIllegal_eq (s : State) : (countIllegal s).eq = s.eq := rfl
@[simp] theorem countIllegal_luts (s : State) : (countIllegal s).luts = s.luts := rfl
@[simp] theorem countIllegal_spec (s : State) : (countIllegal s).spec = s.spec := rfl
@[simp] theorem countIllegal_mem (s : State) : (countIllegal s).mem = s.mem := rfl
@[simp] theorem countIllegal_raced (s : State) : (countIllegal s).raced = s.raced := rfl
@[simp] theorem countIllegal_agenda (s : State) : (countIllegal s).agenda = s.agenda := rfl
@[simp] theorem countIllegal_readData (s : State) : (countIllegal s).readData = s.readData := rfl
@[simp] theorem countIllegal_draws (s : State) : (countIllegal s).draws = s.draws := rfl
@[simp] theorem countIllegal_progress (s : State) : (countIllegal s).progress = s.progress := rfl
@[simp] theorem countIllegal_hostDraws (s : State) : (countIllegal s).hostDraws = s.hostDraws := rfl
@[simp] theorem countIllegal_oldCsrs (s : State) : (countIllegal s).oldCsrs = s.oldCsrs := rfl
@[simp] theorem countIllegal_oldMem (s : State) : (countIllegal s).oldMem = s.oldMem := rfl
@[simp] theorem countIllegal_doorbellAgent (s : State) : (countIllegal s).doorbellAgent = s.doorbellAgent := rfl
@[simp] theorem countIllegal_producer (s : State) : (countIllegal s).producer = s.producer := rfl
@[simp] theorem countIllegal_pushLow (s : State) : (countIllegal s).pushLow = s.pushLow := rfl

@[simp] theorem popQueue_prepared (s : State) : (popQueue s).prepared = s.prepared := rfl
@[simp] theorem popQueue_busy (s : State) : (popQueue s).busy = s.busy := rfl
@[simp] theorem popQueue_cmdLo (s : State) : (popQueue s).cmdLo = s.cmdLo := rfl
@[simp] theorem popQueue_cmdHi (s : State) : (popQueue s).cmdHi = s.cmdHi := rfl
@[simp] theorem popQueue_latched (s : State) : (popQueue s).latched = s.latched := rfl
@[simp] theorem popQueue_cmdResult (s : State) : (popQueue s).cmdResult = s.cmdResult := rfl
@[simp] theorem popQueue_cmdCount (s : State) : (popQueue s).cmdCount = s.cmdCount := rfl
@[simp] theorem popQueue_busyDrop (s : State) : (popQueue s).busyDrop = s.busyDrop := rfl
@[simp] theorem popQueue_illegalCount (s : State) : (popQueue s).illegalCount = s.illegalCount := rfl
@[simp] theorem popQueue_cfgErrField (s : State) : (popQueue s).cfgErrField = s.cfgErrField := rfl
@[simp] theorem popQueue_lastCycles (s : State) : (popQueue s).lastCycles = s.lastCycles := rfl
@[simp] theorem popQueue_pushLatch (s : State) : (popQueue s).pushLatch = s.pushLatch := rfl
@[simp] theorem popQueue_slots (s : State) : (popQueue s).slots = s.slots := rfl
@[simp] theorem popQueue_head (s : State) : (popQueue s).head = s.head + 1 := rfl
@[simp] theorem popQueue_tail (s : State) : (popQueue s).tail = s.tail := rfl
@[simp] theorem popQueue_lastPushOk (s : State) : (popQueue s).lastPushOk = s.lastPushOk := rfl
@[simp] theorem popQueue_pqOverflow (s : State) : (popQueue s).pqOverflow = s.pqOverflow := rfl
@[simp] theorem popQueue_cfg (s : State) : (popQueue s).cfg = s.cfg := rfl
@[simp] theorem popQueue_act (s : State) : (popQueue s).act = s.act := rfl
@[simp] theorem popQueue_synActive (s : State) : (popQueue s).synActive = s.synActive := rfl
@[simp] theorem popQueue_synSteals (s : State) : (popQueue s).synSteals = s.synSteals := rfl
@[simp] theorem popQueue_steals (s : State) : (popQueue s).steals = s.steals := rfl
@[simp] theorem popQueue_voiceStatus (s : State) : (popQueue s).voiceStatus = s.voiceStatus := rfl
@[simp] theorem popQueue_voiceAge (s : State) : (popQueue s).voiceAge = s.voiceAge := rfl
@[simp] theorem popQueue_specSeq (s : State) : (popQueue s).specSeq = s.specSeq := rfl
@[simp] theorem popQueue_trackers (s : State) : (popQueue s).trackers = s.trackers := rfl
@[simp] theorem popQueue_mlVec (s : State) : (popQueue s).mlVec = s.mlVec := rfl
@[simp] theorem popQueue_synp (s : State) : (popQueue s).synp = s.synp := rfl
@[simp] theorem popQueue_eqg (s : State) : (popQueue s).eqg = s.eqg := rfl
@[simp] theorem popQueue_eqb (s : State) : (popQueue s).eqb = s.eqb := rfl
@[simp] theorem popQueue_eqc (s : State) : (popQueue s).eqc = s.eqc := rfl
@[simp] theorem popQueue_voices (s : State) : (popQueue s).voices = s.voices := rfl
@[simp] theorem popQueue_eq (s : State) : (popQueue s).eq = s.eq := rfl
@[simp] theorem popQueue_luts (s : State) : (popQueue s).luts = s.luts := rfl
@[simp] theorem popQueue_spec (s : State) : (popQueue s).spec = s.spec := rfl
@[simp] theorem popQueue_mem (s : State) : (popQueue s).mem = s.mem := rfl
@[simp] theorem popQueue_raced (s : State) : (popQueue s).raced = s.raced := rfl
@[simp] theorem popQueue_agenda (s : State) : (popQueue s).agenda = s.agenda := rfl
@[simp] theorem popQueue_readData (s : State) : (popQueue s).readData = s.readData := rfl
@[simp] theorem popQueue_draws (s : State) : (popQueue s).draws = s.draws := rfl
@[simp] theorem popQueue_progress (s : State) : (popQueue s).progress = s.progress := rfl
@[simp] theorem popQueue_hostDraws (s : State) : (popQueue s).hostDraws = s.hostDraws := rfl
@[simp] theorem popQueue_oldCsrs (s : State) : (popQueue s).oldCsrs = s.oldCsrs := rfl
@[simp] theorem popQueue_oldMem (s : State) : (popQueue s).oldMem = s.oldMem := rfl
@[simp] theorem popQueue_doorbellAgent (s : State) : (popQueue s).doorbellAgent = s.doorbellAgent := rfl
@[simp] theorem popQueue_producer (s : State) : (popQueue s).producer = s.producer := rfl
@[simp] theorem popQueue_pushLow (s : State) : (popQueue s).pushLow = s.pushLow := rfl

@[simp] theorem writeWord_prepared (s : State) (a : Nat) (w : Word) : (writeWord s a w).prepared = s.prepared := rfl
@[simp] theorem writeWord_busy (s : State) (a : Nat) (w : Word) : (writeWord s a w).busy = s.busy := rfl
@[simp] theorem writeWord_cmdLo (s : State) (a : Nat) (w : Word) : (writeWord s a w).cmdLo = s.cmdLo := rfl
@[simp] theorem writeWord_cmdHi (s : State) (a : Nat) (w : Word) : (writeWord s a w).cmdHi = s.cmdHi := rfl
@[simp] theorem writeWord_latched (s : State) (a : Nat) (w : Word) : (writeWord s a w).latched = s.latched := rfl
@[simp] theorem writeWord_cmdResult (s : State) (a : Nat) (w : Word) : (writeWord s a w).cmdResult = s.cmdResult := rfl
@[simp] theorem writeWord_cmdCount (s : State) (a : Nat) (w : Word) : (writeWord s a w).cmdCount = s.cmdCount := rfl
@[simp] theorem writeWord_busyDrop (s : State) (a : Nat) (w : Word) : (writeWord s a w).busyDrop = s.busyDrop := rfl
@[simp] theorem writeWord_illegalCount (s : State) (a : Nat) (w : Word) : (writeWord s a w).illegalCount = s.illegalCount := rfl
@[simp] theorem writeWord_cfgErrField (s : State) (a : Nat) (w : Word) : (writeWord s a w).cfgErrField = s.cfgErrField := rfl
@[simp] theorem writeWord_lastCycles (s : State) (a : Nat) (w : Word) : (writeWord s a w).lastCycles = s.lastCycles := rfl
@[simp] theorem writeWord_pushLatch (s : State) (a : Nat) (w : Word) : (writeWord s a w).pushLatch = s.pushLatch := rfl
@[simp] theorem writeWord_slots (s : State) (a : Nat) (w : Word) : (writeWord s a w).slots = s.slots := rfl
@[simp] theorem writeWord_head (s : State) (a : Nat) (w : Word) : (writeWord s a w).head = s.head := rfl
@[simp] theorem writeWord_tail (s : State) (a : Nat) (w : Word) : (writeWord s a w).tail = s.tail := rfl
@[simp] theorem writeWord_lastPushOk (s : State) (a : Nat) (w : Word) : (writeWord s a w).lastPushOk = s.lastPushOk := rfl
@[simp] theorem writeWord_pqOverflow (s : State) (a : Nat) (w : Word) : (writeWord s a w).pqOverflow = s.pqOverflow := rfl
@[simp] theorem writeWord_cfg (s : State) (a : Nat) (w : Word) : (writeWord s a w).cfg = s.cfg := rfl
@[simp] theorem writeWord_act (s : State) (a : Nat) (w : Word) : (writeWord s a w).act = s.act := rfl
@[simp] theorem writeWord_synActive (s : State) (a : Nat) (w : Word) : (writeWord s a w).synActive = s.synActive := rfl
@[simp] theorem writeWord_synSteals (s : State) (a : Nat) (w : Word) : (writeWord s a w).synSteals = s.synSteals := rfl
@[simp] theorem writeWord_steals (s : State) (a : Nat) (w : Word) : (writeWord s a w).steals = s.steals := rfl
@[simp] theorem writeWord_voiceStatus (s : State) (a : Nat) (w : Word) : (writeWord s a w).voiceStatus = s.voiceStatus := rfl
@[simp] theorem writeWord_voiceAge (s : State) (a : Nat) (w : Word) : (writeWord s a w).voiceAge = s.voiceAge := rfl
@[simp] theorem writeWord_specSeq (s : State) (a : Nat) (w : Word) : (writeWord s a w).specSeq = s.specSeq := rfl
@[simp] theorem writeWord_trackers (s : State) (a : Nat) (w : Word) : (writeWord s a w).trackers = s.trackers := rfl
@[simp] theorem writeWord_mlVec (s : State) (a : Nat) (w : Word) : (writeWord s a w).mlVec = s.mlVec := rfl
@[simp] theorem writeWord_synp (s : State) (a : Nat) (w : Word) : (writeWord s a w).synp = s.synp := rfl
@[simp] theorem writeWord_eqg (s : State) (a : Nat) (w : Word) : (writeWord s a w).eqg = s.eqg := rfl
@[simp] theorem writeWord_eqb (s : State) (a : Nat) (w : Word) : (writeWord s a w).eqb = s.eqb := rfl
@[simp] theorem writeWord_eqc (s : State) (a : Nat) (w : Word) : (writeWord s a w).eqc = s.eqc := rfl
@[simp] theorem writeWord_voices (s : State) (a : Nat) (w : Word) : (writeWord s a w).voices = s.voices := rfl
@[simp] theorem writeWord_eq (s : State) (a : Nat) (w : Word) : (writeWord s a w).eq = s.eq := rfl
@[simp] theorem writeWord_luts (s : State) (a : Nat) (w : Word) : (writeWord s a w).luts = s.luts := rfl
@[simp] theorem writeWord_spec (s : State) (a : Nat) (w : Word) : (writeWord s a w).spec = s.spec := rfl
@[simp] theorem writeWord_mem (s : State) (a : Nat) (w : Word) : (writeWord s a w).mem = Memory.setWord s.mem a w := rfl
@[simp] theorem writeWord_raced (s : State) (a : Nat) (w : Word) : (writeWord s a w).raced = s.raced := rfl
@[simp] theorem writeWord_agenda (s : State) (a : Nat) (w : Word) : (writeWord s a w).agenda = s.agenda := rfl
@[simp] theorem writeWord_readData (s : State) (a : Nat) (w : Word) : (writeWord s a w).readData = s.readData := rfl
@[simp] theorem writeWord_draws (s : State) (a : Nat) (w : Word) : (writeWord s a w).draws = s.draws := rfl
@[simp] theorem writeWord_progress (s : State) (a : Nat) (w : Word) : (writeWord s a w).progress = s.progress := rfl
@[simp] theorem writeWord_hostDraws (s : State) (a : Nat) (w : Word) : (writeWord s a w).hostDraws = s.hostDraws := rfl
@[simp] theorem writeWord_oldCsrs (s : State) (a : Nat) (w : Word) : (writeWord s a w).oldCsrs = s.oldCsrs := rfl
@[simp] theorem writeWord_oldMem (s : State) (a : Nat) (w : Word) : (writeWord s a w).oldMem = s.oldMem := rfl
@[simp] theorem writeWord_doorbellAgent (s : State) (a : Nat) (w : Word) : (writeWord s a w).doorbellAgent = s.doorbellAgent := rfl
@[simp] theorem writeWord_producer (s : State) (a : Nat) (w : Word) : (writeWord s a w).producer = s.producer := rfl
@[simp] theorem writeWord_pushLow (s : State) (a : Nat) (w : Word) : (writeWord s a w).pushLow = s.pushLow := rfl

@[simp] theorem setVoice_prepared (v : Nat) (x : Voice) (s : State) : (setVoice v x s).prepared = s.prepared := rfl
@[simp] theorem setVoice_busy (v : Nat) (x : Voice) (s : State) : (setVoice v x s).busy = s.busy := rfl
@[simp] theorem setVoice_cmdLo (v : Nat) (x : Voice) (s : State) : (setVoice v x s).cmdLo = s.cmdLo := rfl
@[simp] theorem setVoice_cmdHi (v : Nat) (x : Voice) (s : State) : (setVoice v x s).cmdHi = s.cmdHi := rfl
@[simp] theorem setVoice_latched (v : Nat) (x : Voice) (s : State) : (setVoice v x s).latched = s.latched := rfl
@[simp] theorem setVoice_cmdResult (v : Nat) (x : Voice) (s : State) : (setVoice v x s).cmdResult = s.cmdResult := rfl
@[simp] theorem setVoice_cmdCount (v : Nat) (x : Voice) (s : State) : (setVoice v x s).cmdCount = s.cmdCount := rfl
@[simp] theorem setVoice_busyDrop (v : Nat) (x : Voice) (s : State) : (setVoice v x s).busyDrop = s.busyDrop := rfl
@[simp] theorem setVoice_illegalCount (v : Nat) (x : Voice) (s : State) : (setVoice v x s).illegalCount = s.illegalCount := rfl
@[simp] theorem setVoice_cfgErrField (v : Nat) (x : Voice) (s : State) : (setVoice v x s).cfgErrField = s.cfgErrField := rfl
@[simp] theorem setVoice_lastCycles (v : Nat) (x : Voice) (s : State) : (setVoice v x s).lastCycles = s.lastCycles := rfl
@[simp] theorem setVoice_pushLatch (v : Nat) (x : Voice) (s : State) : (setVoice v x s).pushLatch = s.pushLatch := rfl
@[simp] theorem setVoice_slots (v : Nat) (x : Voice) (s : State) : (setVoice v x s).slots = s.slots := rfl
@[simp] theorem setVoice_head (v : Nat) (x : Voice) (s : State) : (setVoice v x s).head = s.head := rfl
@[simp] theorem setVoice_tail (v : Nat) (x : Voice) (s : State) : (setVoice v x s).tail = s.tail := rfl
@[simp] theorem setVoice_lastPushOk (v : Nat) (x : Voice) (s : State) : (setVoice v x s).lastPushOk = s.lastPushOk := rfl
@[simp] theorem setVoice_pqOverflow (v : Nat) (x : Voice) (s : State) : (setVoice v x s).pqOverflow = s.pqOverflow := rfl
@[simp] theorem setVoice_cfg (v : Nat) (x : Voice) (s : State) : (setVoice v x s).cfg = s.cfg := rfl
@[simp] theorem setVoice_act (v : Nat) (x : Voice) (s : State) : (setVoice v x s).act = s.act := rfl
@[simp] theorem setVoice_synActive (v : Nat) (x : Voice) (s : State) : (setVoice v x s).synActive = s.synActive := rfl
@[simp] theorem setVoice_synSteals (v : Nat) (x : Voice) (s : State) : (setVoice v x s).synSteals = s.synSteals := rfl
@[simp] theorem setVoice_steals (v : Nat) (x : Voice) (s : State) : (setVoice v x s).steals = s.steals := rfl
@[simp] theorem setVoice_voiceStatus (v : Nat) (x : Voice) (s : State) : (setVoice v x s).voiceStatus = s.voiceStatus := rfl
@[simp] theorem setVoice_voiceAge (v : Nat) (x : Voice) (s : State) : (setVoice v x s).voiceAge = s.voiceAge := rfl
@[simp] theorem setVoice_specSeq (v : Nat) (x : Voice) (s : State) : (setVoice v x s).specSeq = s.specSeq := rfl
@[simp] theorem setVoice_trackers (v : Nat) (x : Voice) (s : State) : (setVoice v x s).trackers = s.trackers := rfl
@[simp] theorem setVoice_mlVec (v : Nat) (x : Voice) (s : State) : (setVoice v x s).mlVec = s.mlVec := rfl
@[simp] theorem setVoice_synp (v : Nat) (x : Voice) (s : State) : (setVoice v x s).synp = s.synp := rfl
@[simp] theorem setVoice_eqg (v : Nat) (x : Voice) (s : State) : (setVoice v x s).eqg = s.eqg := rfl
@[simp] theorem setVoice_eqb (v : Nat) (x : Voice) (s : State) : (setVoice v x s).eqb = s.eqb := rfl
@[simp] theorem setVoice_eqc (v : Nat) (x : Voice) (s : State) : (setVoice v x s).eqc = s.eqc := rfl
@[simp] theorem setVoice_voices (v : Nat) (x : Voice) (s : State) : (setVoice v x s).voices = s.voices.setIfInBounds v x := rfl
@[simp] theorem setVoice_eq (v : Nat) (x : Voice) (s : State) : (setVoice v x s).eq = s.eq := rfl
@[simp] theorem setVoice_luts (v : Nat) (x : Voice) (s : State) : (setVoice v x s).luts = s.luts := rfl
@[simp] theorem setVoice_spec (v : Nat) (x : Voice) (s : State) : (setVoice v x s).spec = s.spec := rfl
@[simp] theorem setVoice_mem (v : Nat) (x : Voice) (s : State) : (setVoice v x s).mem = s.mem := rfl
@[simp] theorem setVoice_raced (v : Nat) (x : Voice) (s : State) : (setVoice v x s).raced = s.raced := rfl
@[simp] theorem setVoice_agenda (v : Nat) (x : Voice) (s : State) : (setVoice v x s).agenda = s.agenda := rfl
@[simp] theorem setVoice_readData (v : Nat) (x : Voice) (s : State) : (setVoice v x s).readData = s.readData := rfl
@[simp] theorem setVoice_draws (v : Nat) (x : Voice) (s : State) : (setVoice v x s).draws = s.draws := rfl
@[simp] theorem setVoice_progress (v : Nat) (x : Voice) (s : State) : (setVoice v x s).progress = s.progress := rfl
@[simp] theorem setVoice_hostDraws (v : Nat) (x : Voice) (s : State) : (setVoice v x s).hostDraws = s.hostDraws := rfl
@[simp] theorem setVoice_oldCsrs (v : Nat) (x : Voice) (s : State) : (setVoice v x s).oldCsrs = s.oldCsrs := rfl
@[simp] theorem setVoice_oldMem (v : Nat) (x : Voice) (s : State) : (setVoice v x s).oldMem = s.oldMem := rfl
@[simp] theorem setVoice_doorbellAgent (v : Nat) (x : Voice) (s : State) : (setVoice v x s).doorbellAgent = s.doorbellAgent := rfl
@[simp] theorem setVoice_producer (v : Nat) (x : Voice) (s : State) : (setVoice v x s).producer = s.producer := rfl
@[simp] theorem setVoice_pushLow (v : Nat) (x : Voice) (s : State) : (setVoice v x s).pushLow = s.pushLow := rfl

@[simp] theorem writeFrame_prepared (a : Nat) (w : Word) (s : State) : (writeFrame a w s).prepared = s.prepared := rfl
@[simp] theorem writeFrame_busy (a : Nat) (w : Word) (s : State) : (writeFrame a w s).busy = s.busy := rfl
@[simp] theorem writeFrame_cmdLo (a : Nat) (w : Word) (s : State) : (writeFrame a w s).cmdLo = s.cmdLo := rfl
@[simp] theorem writeFrame_cmdHi (a : Nat) (w : Word) (s : State) : (writeFrame a w s).cmdHi = s.cmdHi := rfl
@[simp] theorem writeFrame_latched (a : Nat) (w : Word) (s : State) : (writeFrame a w s).latched = s.latched := rfl
@[simp] theorem writeFrame_cmdResult (a : Nat) (w : Word) (s : State) : (writeFrame a w s).cmdResult = s.cmdResult := rfl
@[simp] theorem writeFrame_cmdCount (a : Nat) (w : Word) (s : State) : (writeFrame a w s).cmdCount = s.cmdCount := rfl
@[simp] theorem writeFrame_busyDrop (a : Nat) (w : Word) (s : State) : (writeFrame a w s).busyDrop = s.busyDrop := rfl
@[simp] theorem writeFrame_illegalCount (a : Nat) (w : Word) (s : State) : (writeFrame a w s).illegalCount = s.illegalCount := rfl
@[simp] theorem writeFrame_cfgErrField (a : Nat) (w : Word) (s : State) : (writeFrame a w s).cfgErrField = s.cfgErrField := rfl
@[simp] theorem writeFrame_lastCycles (a : Nat) (w : Word) (s : State) : (writeFrame a w s).lastCycles = s.lastCycles := rfl
@[simp] theorem writeFrame_pushLatch (a : Nat) (w : Word) (s : State) : (writeFrame a w s).pushLatch = s.pushLatch := rfl
@[simp] theorem writeFrame_slots (a : Nat) (w : Word) (s : State) : (writeFrame a w s).slots = s.slots := rfl
@[simp] theorem writeFrame_head (a : Nat) (w : Word) (s : State) : (writeFrame a w s).head = s.head := rfl
@[simp] theorem writeFrame_tail (a : Nat) (w : Word) (s : State) : (writeFrame a w s).tail = s.tail := rfl
@[simp] theorem writeFrame_lastPushOk (a : Nat) (w : Word) (s : State) : (writeFrame a w s).lastPushOk = s.lastPushOk := rfl
@[simp] theorem writeFrame_pqOverflow (a : Nat) (w : Word) (s : State) : (writeFrame a w s).pqOverflow = s.pqOverflow := rfl
@[simp] theorem writeFrame_cfg (a : Nat) (w : Word) (s : State) : (writeFrame a w s).cfg = s.cfg := rfl
@[simp] theorem writeFrame_act (a : Nat) (w : Word) (s : State) : (writeFrame a w s).act = s.act := rfl
@[simp] theorem writeFrame_synActive (a : Nat) (w : Word) (s : State) : (writeFrame a w s).synActive = s.synActive := rfl
@[simp] theorem writeFrame_synSteals (a : Nat) (w : Word) (s : State) : (writeFrame a w s).synSteals = s.synSteals := rfl
@[simp] theorem writeFrame_steals (a : Nat) (w : Word) (s : State) : (writeFrame a w s).steals = s.steals := rfl
@[simp] theorem writeFrame_voiceStatus (a : Nat) (w : Word) (s : State) : (writeFrame a w s).voiceStatus = s.voiceStatus := rfl
@[simp] theorem writeFrame_voiceAge (a : Nat) (w : Word) (s : State) : (writeFrame a w s).voiceAge = s.voiceAge := rfl
@[simp] theorem writeFrame_specSeq (a : Nat) (w : Word) (s : State) : (writeFrame a w s).specSeq = s.specSeq := rfl
@[simp] theorem writeFrame_trackers (a : Nat) (w : Word) (s : State) : (writeFrame a w s).trackers = s.trackers := rfl
@[simp] theorem writeFrame_mlVec (a : Nat) (w : Word) (s : State) : (writeFrame a w s).mlVec = s.mlVec := rfl
@[simp] theorem writeFrame_synp (a : Nat) (w : Word) (s : State) : (writeFrame a w s).synp = s.synp := rfl
@[simp] theorem writeFrame_eqg (a : Nat) (w : Word) (s : State) : (writeFrame a w s).eqg = s.eqg := rfl
@[simp] theorem writeFrame_eqb (a : Nat) (w : Word) (s : State) : (writeFrame a w s).eqb = s.eqb := rfl
@[simp] theorem writeFrame_eqc (a : Nat) (w : Word) (s : State) : (writeFrame a w s).eqc = s.eqc := rfl
@[simp] theorem writeFrame_voices (a : Nat) (w : Word) (s : State) : (writeFrame a w s).voices = s.voices := rfl
@[simp] theorem writeFrame_eq (a : Nat) (w : Word) (s : State) : (writeFrame a w s).eq = s.eq := rfl
@[simp] theorem writeFrame_luts (a : Nat) (w : Word) (s : State) : (writeFrame a w s).luts = s.luts := rfl
@[simp] theorem writeFrame_spec (a : Nat) (w : Word) (s : State) : (writeFrame a w s).spec = s.spec := rfl
@[simp] theorem writeFrame_mem (a : Nat) (w : Word) (s : State) : (writeFrame a w s).mem = Memory.setWords s.mem a (List.replicate (actC s) w) := rfl
@[simp] theorem writeFrame_raced (a : Nat) (w : Word) (s : State) : (writeFrame a w s).raced = s.raced := rfl
@[simp] theorem writeFrame_agenda (a : Nat) (w : Word) (s : State) : (writeFrame a w s).agenda = s.agenda := rfl
@[simp] theorem writeFrame_readData (a : Nat) (w : Word) (s : State) : (writeFrame a w s).readData = s.readData := rfl
@[simp] theorem writeFrame_draws (a : Nat) (w : Word) (s : State) : (writeFrame a w s).draws = s.draws := rfl
@[simp] theorem writeFrame_progress (a : Nat) (w : Word) (s : State) : (writeFrame a w s).progress = s.progress := rfl
@[simp] theorem writeFrame_hostDraws (a : Nat) (w : Word) (s : State) : (writeFrame a w s).hostDraws = s.hostDraws := rfl
@[simp] theorem writeFrame_oldCsrs (a : Nat) (w : Word) (s : State) : (writeFrame a w s).oldCsrs = s.oldCsrs := rfl
@[simp] theorem writeFrame_oldMem (a : Nat) (w : Word) (s : State) : (writeFrame a w s).oldMem = s.oldMem := rfl
@[simp] theorem writeFrame_doorbellAgent (a : Nat) (w : Word) (s : State) : (writeFrame a w s).doorbellAgent = s.doorbellAgent := rfl
@[simp] theorem writeFrame_producer (a : Nat) (w : Word) (s : State) : (writeFrame a w s).producer = s.producer := rfl
@[simp] theorem writeFrame_pushLow (a : Nat) (w : Word) (s : State) : (writeFrame a w s).pushLow = s.pushLow := rfl

@[simp] theorem nextDraw_prepared (s : State) : (nextDraw s).prepared = s.prepared := rfl
@[simp] theorem nextDraw_busy (s : State) : (nextDraw s).busy = s.busy := rfl
@[simp] theorem nextDraw_cmdLo (s : State) : (nextDraw s).cmdLo = s.cmdLo := rfl
@[simp] theorem nextDraw_cmdHi (s : State) : (nextDraw s).cmdHi = s.cmdHi := rfl
@[simp] theorem nextDraw_latched (s : State) : (nextDraw s).latched = s.latched := rfl
@[simp] theorem nextDraw_cmdResult (s : State) : (nextDraw s).cmdResult = s.cmdResult := rfl
@[simp] theorem nextDraw_cmdCount (s : State) : (nextDraw s).cmdCount = s.cmdCount := rfl
@[simp] theorem nextDraw_busyDrop (s : State) : (nextDraw s).busyDrop = s.busyDrop := rfl
@[simp] theorem nextDraw_illegalCount (s : State) : (nextDraw s).illegalCount = s.illegalCount := rfl
@[simp] theorem nextDraw_cfgErrField (s : State) : (nextDraw s).cfgErrField = s.cfgErrField := rfl
@[simp] theorem nextDraw_lastCycles (s : State) : (nextDraw s).lastCycles = s.lastCycles := rfl
@[simp] theorem nextDraw_pushLatch (s : State) : (nextDraw s).pushLatch = s.pushLatch := rfl
@[simp] theorem nextDraw_slots (s : State) : (nextDraw s).slots = s.slots := rfl
@[simp] theorem nextDraw_head (s : State) : (nextDraw s).head = s.head := rfl
@[simp] theorem nextDraw_tail (s : State) : (nextDraw s).tail = s.tail := rfl
@[simp] theorem nextDraw_lastPushOk (s : State) : (nextDraw s).lastPushOk = s.lastPushOk := rfl
@[simp] theorem nextDraw_pqOverflow (s : State) : (nextDraw s).pqOverflow = s.pqOverflow := rfl
@[simp] theorem nextDraw_cfg (s : State) : (nextDraw s).cfg = s.cfg := rfl
@[simp] theorem nextDraw_act (s : State) : (nextDraw s).act = s.act := rfl
@[simp] theorem nextDraw_synActive (s : State) : (nextDraw s).synActive = s.synActive := rfl
@[simp] theorem nextDraw_synSteals (s : State) : (nextDraw s).synSteals = s.synSteals := rfl
@[simp] theorem nextDraw_steals (s : State) : (nextDraw s).steals = s.steals := rfl
@[simp] theorem nextDraw_voiceStatus (s : State) : (nextDraw s).voiceStatus = s.voiceStatus := rfl
@[simp] theorem nextDraw_voiceAge (s : State) : (nextDraw s).voiceAge = s.voiceAge := rfl
@[simp] theorem nextDraw_specSeq (s : State) : (nextDraw s).specSeq = s.specSeq := rfl
@[simp] theorem nextDraw_trackers (s : State) : (nextDraw s).trackers = s.trackers := rfl
@[simp] theorem nextDraw_mlVec (s : State) : (nextDraw s).mlVec = s.mlVec := rfl
@[simp] theorem nextDraw_synp (s : State) : (nextDraw s).synp = s.synp := rfl
@[simp] theorem nextDraw_eqg (s : State) : (nextDraw s).eqg = s.eqg := rfl
@[simp] theorem nextDraw_eqb (s : State) : (nextDraw s).eqb = s.eqb := rfl
@[simp] theorem nextDraw_eqc (s : State) : (nextDraw s).eqc = s.eqc := rfl
@[simp] theorem nextDraw_voices (s : State) : (nextDraw s).voices = s.voices := rfl
@[simp] theorem nextDraw_eq (s : State) : (nextDraw s).eq = s.eq := rfl
@[simp] theorem nextDraw_luts (s : State) : (nextDraw s).luts = s.luts := rfl
@[simp] theorem nextDraw_spec (s : State) : (nextDraw s).spec = s.spec := rfl
@[simp] theorem nextDraw_mem (s : State) : (nextDraw s).mem = s.mem := rfl
@[simp] theorem nextDraw_raced (s : State) : (nextDraw s).raced = s.raced := rfl
@[simp] theorem nextDraw_agenda (s : State) : (nextDraw s).agenda = s.agenda := rfl
@[simp] theorem nextDraw_readData (s : State) : (nextDraw s).readData = s.readData := rfl
@[simp] theorem nextDraw_draws (s : State) : (nextDraw s).draws = s.draws + 1 := rfl
@[simp] theorem nextDraw_progress (s : State) : (nextDraw s).progress = s.progress := rfl
@[simp] theorem nextDraw_hostDraws (s : State) : (nextDraw s).hostDraws = s.hostDraws := rfl
@[simp] theorem nextDraw_oldCsrs (s : State) : (nextDraw s).oldCsrs = s.oldCsrs := rfl
@[simp] theorem nextDraw_oldMem (s : State) : (nextDraw s).oldMem = s.oldMem := rfl
@[simp] theorem nextDraw_doorbellAgent (s : State) : (nextDraw s).doorbellAgent = s.doorbellAgent := rfl
@[simp] theorem nextDraw_producer (s : State) : (nextDraw s).producer = s.producer := rfl
@[simp] theorem nextDraw_pushLow (s : State) : (nextDraw s).pushLow = s.pushLow := rfl

@[simp] theorem settleRaces_prepared (s : State) : (settleRaces s).prepared = s.prepared := rfl
@[simp] theorem settleRaces_busy (s : State) : (settleRaces s).busy = s.busy := rfl
@[simp] theorem settleRaces_cmdLo (s : State) : (settleRaces s).cmdLo = s.cmdLo := rfl
@[simp] theorem settleRaces_cmdHi (s : State) : (settleRaces s).cmdHi = s.cmdHi := rfl
@[simp] theorem settleRaces_latched (s : State) : (settleRaces s).latched = s.latched := rfl
@[simp] theorem settleRaces_cmdResult (s : State) : (settleRaces s).cmdResult = s.cmdResult := rfl
@[simp] theorem settleRaces_cmdCount (s : State) : (settleRaces s).cmdCount = s.cmdCount := rfl
@[simp] theorem settleRaces_busyDrop (s : State) : (settleRaces s).busyDrop = s.busyDrop := rfl
@[simp] theorem settleRaces_illegalCount (s : State) : (settleRaces s).illegalCount = s.illegalCount := rfl
@[simp] theorem settleRaces_cfgErrField (s : State) : (settleRaces s).cfgErrField = s.cfgErrField := rfl
@[simp] theorem settleRaces_lastCycles (s : State) : (settleRaces s).lastCycles = s.lastCycles := rfl
@[simp] theorem settleRaces_pushLatch (s : State) : (settleRaces s).pushLatch = s.pushLatch := rfl
@[simp] theorem settleRaces_slots (s : State) : (settleRaces s).slots = s.slots := rfl
@[simp] theorem settleRaces_head (s : State) : (settleRaces s).head = s.head := rfl
@[simp] theorem settleRaces_tail (s : State) : (settleRaces s).tail = s.tail := rfl
@[simp] theorem settleRaces_lastPushOk (s : State) : (settleRaces s).lastPushOk = s.lastPushOk := rfl
@[simp] theorem settleRaces_pqOverflow (s : State) : (settleRaces s).pqOverflow = s.pqOverflow := rfl
@[simp] theorem settleRaces_cfg (s : State) : (settleRaces s).cfg = s.cfg := rfl
@[simp] theorem settleRaces_act (s : State) : (settleRaces s).act = s.act := rfl
@[simp] theorem settleRaces_synActive (s : State) : (settleRaces s).synActive = s.synActive := rfl
@[simp] theorem settleRaces_synSteals (s : State) : (settleRaces s).synSteals = s.synSteals := rfl
@[simp] theorem settleRaces_steals (s : State) : (settleRaces s).steals = s.steals := rfl
@[simp] theorem settleRaces_voiceStatus (s : State) : (settleRaces s).voiceStatus = s.voiceStatus := rfl
@[simp] theorem settleRaces_voiceAge (s : State) : (settleRaces s).voiceAge = s.voiceAge := rfl
@[simp] theorem settleRaces_specSeq (s : State) : (settleRaces s).specSeq = s.specSeq := rfl
@[simp] theorem settleRaces_trackers (s : State) : (settleRaces s).trackers = s.trackers := rfl
@[simp] theorem settleRaces_mlVec (s : State) : (settleRaces s).mlVec = s.mlVec := rfl
@[simp] theorem settleRaces_synp (s : State) : (settleRaces s).synp = s.synp := rfl
@[simp] theorem settleRaces_eqg (s : State) : (settleRaces s).eqg = s.eqg := rfl
@[simp] theorem settleRaces_eqb (s : State) : (settleRaces s).eqb = s.eqb := rfl
@[simp] theorem settleRaces_eqc (s : State) : (settleRaces s).eqc = s.eqc := rfl
@[simp] theorem settleRaces_voices (s : State) : (settleRaces s).voices = s.voices := rfl
@[simp] theorem settleRaces_eq (s : State) : (settleRaces s).eq = s.eq := rfl
@[simp] theorem settleRaces_luts (s : State) : (settleRaces s).luts = s.luts := rfl
@[simp] theorem settleRaces_spec (s : State) : (settleRaces s).spec = s.spec := rfl
@[simp] theorem settleRaces_raced (s : State) : (settleRaces s).raced = [] := rfl
@[simp] theorem settleRaces_agenda (s : State) : (settleRaces s).agenda = s.agenda := rfl
@[simp] theorem settleRaces_readData (s : State) : (settleRaces s).readData = s.readData := rfl
@[simp] theorem settleRaces_draws (s : State) : (settleRaces s).draws = s.draws := rfl
@[simp] theorem settleRaces_progress (s : State) : (settleRaces s).progress = s.progress := rfl
@[simp] theorem settleRaces_hostDraws (s : State) : (settleRaces s).hostDraws = s.hostDraws := rfl
@[simp] theorem settleRaces_oldCsrs (s : State) : (settleRaces s).oldCsrs = s.oldCsrs := rfl
@[simp] theorem settleRaces_oldMem (s : State) : (settleRaces s).oldMem = s.oldMem := rfl
@[simp] theorem settleRaces_doorbellAgent (s : State) : (settleRaces s).doorbellAgent = s.doorbellAgent := rfl
@[simp] theorem settleRaces_producer (s : State) : (settleRaces s).producer = s.producer := rfl
@[simp] theorem settleRaces_pushLow (s : State) : (settleRaces s).pushLow = s.pushLow := rfl

@[simp] theorem reach_prepared (p : Progress) (s : State) : (reach p s).prepared = s.prepared := rfl
@[simp] theorem reach_busy (p : Progress) (s : State) : (reach p s).busy = s.busy := rfl
@[simp] theorem reach_cmdLo (p : Progress) (s : State) : (reach p s).cmdLo = s.cmdLo := rfl
@[simp] theorem reach_cmdHi (p : Progress) (s : State) : (reach p s).cmdHi = s.cmdHi := rfl
@[simp] theorem reach_latched (p : Progress) (s : State) : (reach p s).latched = s.latched := rfl
@[simp] theorem reach_cmdResult (p : Progress) (s : State) : (reach p s).cmdResult = s.cmdResult := rfl
@[simp] theorem reach_cmdCount (p : Progress) (s : State) : (reach p s).cmdCount = s.cmdCount := rfl
@[simp] theorem reach_busyDrop (p : Progress) (s : State) : (reach p s).busyDrop = s.busyDrop := rfl
@[simp] theorem reach_illegalCount (p : Progress) (s : State) : (reach p s).illegalCount = s.illegalCount := rfl
@[simp] theorem reach_cfgErrField (p : Progress) (s : State) : (reach p s).cfgErrField = s.cfgErrField := rfl
@[simp] theorem reach_lastCycles (p : Progress) (s : State) : (reach p s).lastCycles = s.lastCycles := rfl
@[simp] theorem reach_pushLatch (p : Progress) (s : State) : (reach p s).pushLatch = s.pushLatch := rfl
@[simp] theorem reach_slots (p : Progress) (s : State) : (reach p s).slots = s.slots := rfl
@[simp] theorem reach_head (p : Progress) (s : State) : (reach p s).head = s.head := rfl
@[simp] theorem reach_tail (p : Progress) (s : State) : (reach p s).tail = s.tail := rfl
@[simp] theorem reach_lastPushOk (p : Progress) (s : State) : (reach p s).lastPushOk = s.lastPushOk := rfl
@[simp] theorem reach_pqOverflow (p : Progress) (s : State) : (reach p s).pqOverflow = s.pqOverflow := rfl
@[simp] theorem reach_cfg (p : Progress) (s : State) : (reach p s).cfg = s.cfg := rfl
@[simp] theorem reach_act (p : Progress) (s : State) : (reach p s).act = s.act := rfl
@[simp] theorem reach_synActive (p : Progress) (s : State) : (reach p s).synActive = s.synActive := rfl
@[simp] theorem reach_synSteals (p : Progress) (s : State) : (reach p s).synSteals = s.synSteals := rfl
@[simp] theorem reach_steals (p : Progress) (s : State) : (reach p s).steals = s.steals := rfl
@[simp] theorem reach_voiceStatus (p : Progress) (s : State) : (reach p s).voiceStatus = s.voiceStatus := rfl
@[simp] theorem reach_voiceAge (p : Progress) (s : State) : (reach p s).voiceAge = s.voiceAge := rfl
@[simp] theorem reach_specSeq (p : Progress) (s : State) : (reach p s).specSeq = s.specSeq := rfl
@[simp] theorem reach_trackers (p : Progress) (s : State) : (reach p s).trackers = s.trackers := rfl
@[simp] theorem reach_mlVec (p : Progress) (s : State) : (reach p s).mlVec = s.mlVec := rfl
@[simp] theorem reach_synp (p : Progress) (s : State) : (reach p s).synp = s.synp := rfl
@[simp] theorem reach_eqg (p : Progress) (s : State) : (reach p s).eqg = s.eqg := rfl
@[simp] theorem reach_eqb (p : Progress) (s : State) : (reach p s).eqb = s.eqb := rfl
@[simp] theorem reach_eqc (p : Progress) (s : State) : (reach p s).eqc = s.eqc := rfl
@[simp] theorem reach_voices (p : Progress) (s : State) : (reach p s).voices = s.voices := rfl
@[simp] theorem reach_eq (p : Progress) (s : State) : (reach p s).eq = s.eq := rfl
@[simp] theorem reach_luts (p : Progress) (s : State) : (reach p s).luts = s.luts := rfl
@[simp] theorem reach_spec (p : Progress) (s : State) : (reach p s).spec = s.spec := rfl
@[simp] theorem reach_mem (p : Progress) (s : State) : (reach p s).mem = s.mem := rfl
@[simp] theorem reach_raced (p : Progress) (s : State) : (reach p s).raced = s.raced := rfl
@[simp] theorem reach_agenda (p : Progress) (s : State) : (reach p s).agenda = s.agenda := rfl
@[simp] theorem reach_readData (p : Progress) (s : State) : (reach p s).readData = s.readData := rfl
@[simp] theorem reach_draws (p : Progress) (s : State) : (reach p s).draws = s.draws := rfl
@[simp] theorem reach_progress (p : Progress) (s : State) : (reach p s).progress = p := rfl
@[simp] theorem reach_hostDraws (p : Progress) (s : State) : (reach p s).hostDraws = s.hostDraws := rfl
@[simp] theorem reach_oldCsrs (p : Progress) (s : State) : (reach p s).oldCsrs = s.oldCsrs := rfl
@[simp] theorem reach_oldMem (p : Progress) (s : State) : (reach p s).oldMem = s.oldMem := rfl
@[simp] theorem reach_doorbellAgent (p : Progress) (s : State) : (reach p s).doorbellAgent = s.doorbellAgent := rfl
@[simp] theorem reach_producer (p : Progress) (s : State) : (reach p s).producer = s.producer := rfl
@[simp] theorem reach_pushLow (p : Progress) (s : State) : (reach p s).pushLow = s.pushLow := rfl

@[simp] theorem advanceSeq_prepared (s : State) : (advanceSeq s).prepared = s.prepared := rfl
@[simp] theorem advanceSeq_busy (s : State) : (advanceSeq s).busy = s.busy := rfl
@[simp] theorem advanceSeq_cmdLo (s : State) : (advanceSeq s).cmdLo = s.cmdLo := rfl
@[simp] theorem advanceSeq_cmdHi (s : State) : (advanceSeq s).cmdHi = s.cmdHi := rfl
@[simp] theorem advanceSeq_latched (s : State) : (advanceSeq s).latched = s.latched := rfl
@[simp] theorem advanceSeq_cmdResult (s : State) : (advanceSeq s).cmdResult = s.cmdResult := rfl
@[simp] theorem advanceSeq_cmdCount (s : State) : (advanceSeq s).cmdCount = s.cmdCount := rfl
@[simp] theorem advanceSeq_busyDrop (s : State) : (advanceSeq s).busyDrop = s.busyDrop := rfl
@[simp] theorem advanceSeq_illegalCount (s : State) : (advanceSeq s).illegalCount = s.illegalCount := rfl
@[simp] theorem advanceSeq_cfgErrField (s : State) : (advanceSeq s).cfgErrField = s.cfgErrField := rfl
@[simp] theorem advanceSeq_lastCycles (s : State) : (advanceSeq s).lastCycles = s.lastCycles := rfl
@[simp] theorem advanceSeq_pushLatch (s : State) : (advanceSeq s).pushLatch = s.pushLatch := rfl
@[simp] theorem advanceSeq_slots (s : State) : (advanceSeq s).slots = s.slots := rfl
@[simp] theorem advanceSeq_head (s : State) : (advanceSeq s).head = s.head := rfl
@[simp] theorem advanceSeq_tail (s : State) : (advanceSeq s).tail = s.tail := rfl
@[simp] theorem advanceSeq_lastPushOk (s : State) : (advanceSeq s).lastPushOk = s.lastPushOk := rfl
@[simp] theorem advanceSeq_pqOverflow (s : State) : (advanceSeq s).pqOverflow = s.pqOverflow := rfl
@[simp] theorem advanceSeq_cfg (s : State) : (advanceSeq s).cfg = s.cfg := rfl
@[simp] theorem advanceSeq_act (s : State) : (advanceSeq s).act = s.act := rfl
@[simp] theorem advanceSeq_synActive (s : State) : (advanceSeq s).synActive = s.synActive := rfl
@[simp] theorem advanceSeq_synSteals (s : State) : (advanceSeq s).synSteals = s.synSteals := rfl
@[simp] theorem advanceSeq_steals (s : State) : (advanceSeq s).steals = s.steals := rfl
@[simp] theorem advanceSeq_voiceStatus (s : State) : (advanceSeq s).voiceStatus = s.voiceStatus := rfl
@[simp] theorem advanceSeq_voiceAge (s : State) : (advanceSeq s).voiceAge = s.voiceAge := rfl
@[simp] theorem advanceSeq_specSeq (s : State) : (advanceSeq s).specSeq = s.specSeq + 1 := rfl
@[simp] theorem advanceSeq_trackers (s : State) : (advanceSeq s).trackers = s.trackers := rfl
@[simp] theorem advanceSeq_mlVec (s : State) : (advanceSeq s).mlVec = s.mlVec := rfl
@[simp] theorem advanceSeq_synp (s : State) : (advanceSeq s).synp = s.synp := rfl
@[simp] theorem advanceSeq_eqg (s : State) : (advanceSeq s).eqg = s.eqg := rfl
@[simp] theorem advanceSeq_eqb (s : State) : (advanceSeq s).eqb = s.eqb := rfl
@[simp] theorem advanceSeq_eqc (s : State) : (advanceSeq s).eqc = s.eqc := rfl
@[simp] theorem advanceSeq_voices (s : State) : (advanceSeq s).voices = s.voices := rfl
@[simp] theorem advanceSeq_eq (s : State) : (advanceSeq s).eq = s.eq := rfl
@[simp] theorem advanceSeq_luts (s : State) : (advanceSeq s).luts = s.luts := rfl
@[simp] theorem advanceSeq_spec (s : State) : (advanceSeq s).spec = s.spec := rfl
@[simp] theorem advanceSeq_mem (s : State) : (advanceSeq s).mem = s.mem := rfl
@[simp] theorem advanceSeq_raced (s : State) : (advanceSeq s).raced = s.raced := rfl
@[simp] theorem advanceSeq_agenda (s : State) : (advanceSeq s).agenda = s.agenda := rfl
@[simp] theorem advanceSeq_readData (s : State) : (advanceSeq s).readData = s.readData := rfl
@[simp] theorem advanceSeq_draws (s : State) : (advanceSeq s).draws = s.draws := rfl
@[simp] theorem advanceSeq_progress (s : State) : (advanceSeq s).progress = s.progress := rfl
@[simp] theorem advanceSeq_hostDraws (s : State) : (advanceSeq s).hostDraws = s.hostDraws := rfl
@[simp] theorem advanceSeq_oldCsrs (s : State) : (advanceSeq s).oldCsrs = s.oldCsrs := rfl
@[simp] theorem advanceSeq_oldMem (s : State) : (advanceSeq s).oldMem = s.oldMem := rfl
@[simp] theorem advanceSeq_doorbellAgent (s : State) : (advanceSeq s).doorbellAgent = s.doorbellAgent := rfl
@[simp] theorem advanceSeq_producer (s : State) : (advanceSeq s).producer = s.producer := rfl
@[simp] theorem advanceSeq_pushLow (s : State) : (advanceSeq s).pushLow = s.pushLow := rfl

end Sys2Proof.Machine
end

