-- ==== Sys2Proof/Laws/Parts.lean ====
section
/-! SUPPORT. How far a command has come is read by no computation of its rules: each operation of the three engines
answers the same from a state whose `progress` differs (rule R32). -/

namespace Sys2Proof.Machine

/-- A computation's answer with the command come as far as `p`. -/
abbrev reached (p : Progress) (r : Res State) : Res State := andThen r fun t => .next (reach p t)

/-- Two computations in sequence, the first of which does not read `progress`. -/
theorem reached_andThen {p : Progress} {r r' : Res State} {f g : State → Res State} (hr : r' = reached p r)
    (h : ∀ t, f (reach p t) = reached p (g t)) : andThen r' f = reached p (andThen r g) := by
  subst hr
  cases r with
  | next t => exact h t
  | fault e => rfl
  | refused e => rfl

/-! ## The queue -/

theorem writeParam_reach (r : ParamReg) (v : Word) (p : Progress) (s : State) :
    writeParam r v (reach p s) = reach p (writeParam r v s) := by cases r <;> rfl

theorem storeReal_reach (r : ParamReg) (v : Word) (p : Progress) (s : State) :
    storeReal r v (reach p s) = reach p (storeReal r v s) := by
  simp only [storeReal]
  split
  · rfl
  · exact writeParam_reach r v p s

theorem storeEnum_reach (r : ParamReg) (m : Nat) (v : Word) (p : Progress) (s : State) :
    storeEnum r m v (reach p s) = reach p (storeEnum r m v s) := by
  simp only [storeEnum]
  split
  · exact writeParam_reach r v p s
  · rfl

theorem storeBool_reach (r : ParamReg) (v : Word) (p : Progress) (s : State) :
    storeBool r v (reach p s) = reach p (storeBool r v s) := writeParam_reach r _ p s

theorem inBand_reach (b : BitVec 8) (store : Fin 8 → State → State) (p : Progress) (s : State)
    (h : ∀ j, store j (reach p s) = reach p (store j s)) : inBand b store (reach p s) = reach p (inBand b store s) := by
  simp only [inBand]
  split
  · exact h _
  · rfl

theorem applySetter_reach (i : Instr) (p : Progress) (s : State) :
    applySetter i (reach p s) = reached p (applySetter i s) := by
  have hb : ∀ (b : BitVec 8) (store : Fin 8 → State → State), (∀ j, store j (reach p s) = reach p (store j s)) →
      (Host.Outcome.next (inBand b store (reach p s)) : Res State) = .next (reach p (inBand b store s)) :=
    fun b store h => congrArg _ (inBand_reach b store p s h)
  have hr := fun r v => congrArg (Host.Outcome.next : State → Res State) (storeReal_reach r v p s)
  have he := fun r m v => congrArg (Host.Outcome.next : State → Res State) (storeEnum_reach r m v p s)
  have ho := fun r v => congrArg (Host.Outcome.next : State → Res State) (storeBool_reach r v p s)
  cases i <;>
    first
      | rfl
      | exact hr _ _
      | exact he _ _ _
      | exact ho _ _
      | exact hb _ _ fun j => storeReal_reach _ _ p s
      | exact hb _ _ fun j => storeEnum_reach _ _ _ p s
      | exact hb _ _ fun j => storeBool_reach _ _ p s

theorem applyEntry_reach (w : Cmd) (p : Progress) (s : State) :
    applyEntry w (reach p s) = reached p (applyEntry w s) := by
  simp only [applyEntry]
  cases decodeWord .queue w with
  | ok i => exact applySetter_reach i p s
  | error e => rfl

theorem drainTo_reach (t : Fin 32) (fuel : Nat) (p : Progress) (s : State) :
    drainTo t fuel (reach p s) = reached p (drainTo t fuel s) := by
  induction fuel generalizing s with
  | zero => rfl
  | succ n ih =>
    simp only [drainTo]
    show (if s.head = t then _ else _) = _
    split
    · rfl
    · exact reached_andThen (applyEntry_reach _ p (popQueue s)) ih

/-! ## Notes and rendering -/

theorem foldVoices_reach (f : Voice → Voice) (us : List Nat) (p : Progress) (s : State) :
    us.foldl (fun s u => setVoice u (f (voiceAt s u)) s) (reach p s) =
      reach p (us.foldl (fun s u => setVoice u (f (voiceAt s u)) s) s) := by
  induction us generalizing s with
  | nil => rfl
  | cons u us ih => exact ih (setVoice u (f (voiceAt s u)) s)

theorem noteOff_reach (nt : BitVec 8) (p : Progress) (s : State) : noteOff nt (reach p s) = reach p (noteOff nt s) :=
  foldVoices_reach _ _ p s

theorem ageVoices_reach (p : Progress) (s : State) : ageVoices (reach p s) = reach p (ageVoices s) :=
  foldVoices_reach _ _ p s

theorem allocate_reach (nt vl : BitVec 8) (p : Progress) (s : State) :
    allocate nt vl (reach p s) = reach p (allocate nt vl s) := by
  simp only [allocate]
  have hf : freeVoice (reach p s) = freeVoice s := rfl
  rw [hf]
  cases freeVoice s <;> rfl

theorem applyEventWord_reach (w : Cmd) (p : Progress) (s : State) :
    applyEventWord w (reach p s) = reached p (applyEventWord w s) := by
  simp only [applyEventWord]
  cases decodeWord .event w with
  | error e => rfl
  | ok i =>
    cases i with
    | noteOn note vel off =>
      simp only [execNoteOn]
      split
      · exact congrArg _ (noteOff_reach _ p s)
      · rw [ageVoices_reach]
        exact congrArg _ (allocate_reach _ _ p (ageVoices s))
    | noteOff note off => exact congrArg _ (noteOff_reach _ p s)
    | _ => rfl

theorem applyEvent_reach (e : Nat) (p : Progress) (s : State) :
    applyEvent e (reach p s) = reached p (applyEvent e s) := by
  simp only [applyEvent]
  have h : readEvent e (reach p s) = readEvent e s := rfl
  rw [h]
  cases readEvent e s with
  | next w => exact applyEventWord_reach w p s
  | fault e => rfl
  | refused e => rfl

theorem dueEvent_reach (n cnt i ei : Nat) (p : Progress) (s : State) :
    dueEvent n cnt i ei (reach p s) = andThen (dueEvent n cnt i ei s) fun r => .next (r.1, reach p r.2) := by
  simp only [dueEvent]
  split
  · have h : readWord (reach p s) (evtBase + 8 * ei) = readWord s (evtBase + 8 * ei) := rfl
    rw [h]
    cases readWord s (evtBase + 8 * ei) <;> rfl
  · rfl

theorem applyDue_reach (n cnt i fuel ei : Nat) (p : Progress) (s : State) :
    applyDue n cnt i fuel ei (reach p s) =
      andThen (applyDue n cnt i fuel ei s) fun r => .next (r.1, reach p r.2) := by
  induction fuel generalizing ei s with
  | zero => rfl
  | succ f ih =>
    simp only [applyDue, dueEvent_reach]
    cases dueEvent n cnt i ei s with
    | fault e => rfl
    | refused e => rfl
    | next r =>
      obtain ⟨d, s1⟩ := r
      simp only [andThen_next]
      split
      · rw [applyEvent_reach]
        cases applyEvent ei s1 with
        | next s2 => exact ih _ s2
        | fault e => rfl
        | refused e => rfl
      · rfl

theorem applyRest_reach (cnt fuel ei : Nat) (p : Progress) (s : State) :
    applyRest cnt fuel ei (reach p s) = reached p (applyRest cnt fuel ei s) := by
  induction fuel generalizing ei s with
  | zero => rfl
  | succ f ih =>
    simp only [applyRest]
    split
    · exact reached_andThen (applyEvent_reach ei p s) fun t => ih _ t
    · rfl

theorem mixVoices_reach (us : List Nat) (acc : F32) (p : Progress) (s : State) :
    mixVoices us acc (reach p s) = andThen (mixVoices us acc s) fun r => .next (r.1, reach p r.2) := by
  induction us generalizing acc s with
  | nil => rfl
  | cons u us ih =>
    simp only [mixVoices]
    have ha : isActive (reach p s) u = isActive s u := rfl
    have hv : voiceSample (reach p s) (voiceAt (reach p s) u) = voiceSample s (voiceAt s u) := rfl
    rw [ha, hv]
    split
    · cases voiceSample s (voiceAt s u) with
      | next r => exact ih _ (nextDraw (setVoice u r.2 s))
      | fault e => rfl
      | refused e => rfl
    · exact ih acc s

theorem frameOut_reach (p : Progress) (s : State) :
    frameOut (reach p s) = andThen (frameOut s) fun r => .next (r.1, reach p r.2) := by
  have hv : actV (reach p s) = actV s := rfl
  simp only [frameOut, mixVoices_reach, hv]
  cases mixVoices (List.range (actV s)) fZero s <;> rfl

theorem renderFrame_reach (base i : Nat) (p : Progress) (s : State) :
    renderFrame base i (reach p s) = reached p (renderFrame base i s) := by
  simp only [renderFrame, frameOut_reach]
  cases frameOut s <;> rfl

theorem renderFrames_reach (base n cnt : Nat) (is : List Nat) (ei : Nat) (p : Progress) (s : State) :
    renderFrames base n cnt is ei (reach p s) =
      andThen (renderFrames base n cnt is ei s) fun r => .next (r.1, reach p r.2) := by
  induction is generalizing ei s with
  | nil => rfl
  | cons i is ih =>
    simp only [renderFrames, applyDue_reach]
    cases applyDue n cnt i cnt ei s with
    | fault e => rfl
    | refused e => rfl
    | next r =>
      obtain ⟨ej, s1⟩ := r
      simp only [andThen_next, renderFrame_reach]
      cases renderFrame base i s1 with
      | next s2 => exact ih ej s2
      | fault e => rfl
      | refused e => rfl

theorem renderEnd_reach (e : BitVec 16) (ei : Nat) (p : Progress) (s : State) :
    renderEnd e ei (reach p s) = reached p (renderEnd e ei s) :=
  reached_andThen (applyRest_reach _ _ ei p s) fun _ => rfl

/-- SYN_RENDER's body does not read how far its command has come (rules R32, R250). -/
theorem renderFrom_reach (k : BitVec 8) (e : BitVec 16) (frames : Word) (j ej : Nat) (p : Progress) (s : State) :
    renderFrom k e frames j ej (reach p s) = reached p (renderFrom k e frames j ej s) := by
  have hn : frameCount frames (reach p s) = frameCount frames s := rfl
  simp only [renderFrom, hn, renderFrames_reach]
  cases renderFrames (bufBase k.toNat) (frameCount frames s) (eventCount e)
      ((List.range (frameCount frames s)).drop j) ej s with
  | next r => exact renderEnd_reach e r.1 p r.2
  | fault e => rfl
  | refused e => rfl

/-! ## The equalizer -/

theorem bandsOut_reach (ch : Nat) (bs : List Nat) (x : F32) (e : EqEngine) (p : Progress) (s : State) :
    bandsOut (reach p s) ch bs x e = bandsOut s ch bs x e := by
  induction bs generalizing x e with
  | nil => rfl
  | cons b bs ih =>
    simp only [bandsOut, ih]
    rfl

theorem path_reach (ch : Nat) (x : F32) (e : EqEngine) (p : Progress) (s : State) :
    path (reach p s) ch x e = path s ch x e := by
  have hb : (reach p s).eqg[2] = s.eqg[2] := rfl
  simp only [path, bandsOut_reach, hb]
  rfl

theorem eqSample_reach (ch : Nat) (x : F32) (p : Progress) (s : State) :
    eqSample (reach p s) ch x = eqSample s ch x := by
  have hi : eqIdle (reach p s) = eqIdle s := rfl
  simp only [eqSample, oversample, path_reach, hi, reach_act, reach_eq]

theorem sampleOut_reach (base j : Nat) (p : Progress) (s : State) :
    sampleOut base j (reach p s) = andThen (sampleOut base j s) fun r => .next (r.1, reach p r.2) := by
  have hr : readWord (reach p s) (base + 4 * j) = readWord s (base + 4 * j) := rfl
  have hc : actC (reach p s) = actC s := rfl
  have hg : ∀ id, globalGain (reach p s) id = globalGain s id := fun _ => rfl
  simp only [sampleOut, hr, hc, hg, eqSample_reach]
  cases readWord s (base + 4 * j) <;> rfl

theorem eqSamples_reach (base : Nat) (js : List Nat) (p : Progress) (s : State) :
    eqSamples base js (reach p s) = reached p (eqSamples base js s) := by
  induction js generalizing s with
  | nil => rfl
  | cons j js ih =>
    simp only [eqSamples, sampleOut_reach]
    cases sampleOut base j s with
    | next r => exact ih (writeWord r.2 (base + 4 * j) r.1)
    | fault e => rfl
    | refused e => rfl

theorem eqBegin_reach (p : Progress) (s : State) : eqBegin (reach p s) = reach p (eqBegin s) := by
  have hb : s.eqg[3] = (reach p s).eqg[3] := rfl
  simp only [eqBegin, ← hb]
  split <;> rfl

/-- EQ_PROCESS's samples do not read how far their command has come (rules R32, R350). -/
theorem eqFrom_reach (k : BitVec 8) (frames : Word) (j : Nat) (p : Progress) (s : State) :
    eqFrom k frames j (reach p s) = reached p (eqFrom k frames j s) := eqSamples_reach _ _ p s

/-! ## The spectral engine -/

theorem passWrites_reach (p : Progress) (s : State) : passWrites (reach p s) = reach p (passWrites s) := by
  have hN : actN (reach p s) = actN s := rfl
  have hK : actK (reach p s) = actK s := rfl
  have hf : actFs (reach p s) = actFs s := rfl
  have hp : ∀ x sp, passOf (reach p s) x sp = passOf s x sp := fun _ _ => rfl
  simp only [passWrites, hN, hK, hf, hp, reach_spec, reach_act, reach_mem]
  simp only [reach]

theorem sumChannels_reach (a n : Nat) (m : F32) (p : Progress) (s : State) :
    sumChannels (reach p s) a n m = sumChannels s a n m := by
  induction n generalizing a m with
  | zero => rfl
  | succ n ih =>
    simp only [sumChannels, ih]
    rfl

theorem monoFrame_reach (base i : Nat) (p : Progress) (s : State) :
    monoFrame (reach p s) base i = monoFrame s base i := by
  have hc : actC (reach p s) = actC s := rfl
  simp only [monoFrame, sumChannels_reach, hc]

theorem afterIngest_reach (p : Progress) (s : State) : afterIngest (reach p s) = reach p (afterIngest s) := by
  have hh : hopDue (reach p s) = hopDue s := rfl
  simp only [afterIngest, hh]
  split
  · exact congrArg advanceSeq (passWrites_reach p (advanceSeq (clearPending s)))
  · rfl

theorem ingestAndAnalyse_reach (m : F32) (p : Progress) (s : State) :
    ingestAndAnalyse m (reach p s) = reach p (ingestAndAnalyse m s) := afterIngest_reach p (ingestFrame m s)

theorem specFrames_reach (base : Nat) (is : List Nat) (p : Progress) (s : State) :
    specFrames base is (reach p s) = reached p (specFrames base is s) := by
  induction is generalizing s with
  | nil => rfl
  | cons i is ih =>
    simp only [specFrames, monoFrame_reach]
    cases monoFrame s base i with
    | next m =>
      simp only [andThen_next, ingestAndAnalyse_reach]
      exact ih _
    | fault e => rfl
    | refused e => rfl

/-- SPEC_PROCESS's body does not read how far its command has come (rules R32, R450). -/
theorem specFrom_reach (k : BitVec 8) (frames : Word) (j : Nat) (p : Progress) (s : State) :
    specFrom k frames j (reach p s) = reached p (specFrom k frames j s) := specFrames_reach _ _ p s

/-! ## Whole bodies -/

theorem endPublication_reach (p : Progress) (s : State) : endPublication (reach p s) = reach p (endPublication s) := by
  simp only [endPublication, reach_latched, passWrites_reach]
  split <;> rfl

theorem beginBody_reach (p : Progress) (s : State) : beginBody (reach p s) = reach p (beginBody s) := by
  simp only [beginBody, eqBegin_reach]
  exact (apply_ite (reach p) _ _ _).symm

theorem writeBody_reach (j : Nat) (w : Word) (p : Progress) (s : State) :
    writeBody j w (reach p s) = reach p (writeBody j w s) := by
  simp only [writeBody, reach_latched]
  split <;> rfl

theorem endBody_reach (p : Progress) (s : State) : endBody (reach p s) = reach p (endBody s) := by
  simp only [endBody, reach_latched]
  split <;> rfl

/-- The rest of a body does not read how far its command has come (rule R32). -/
theorem restOfBody_reach (j ej : Nat) (p : Progress) (s : State) :
    restOfBody j ej (reach p s) = reached p (restOfBody j ej s) := by
  have hk : runBuffer (reach p s) = runBuffer s := rfl
  have he : runEvents (reach p s) = runEvents s := rfl
  simp only [restOfBody, reach_latched, hk, he, renderFrom_reach, eqFrom_reach, specFrom_reach]
  split <;> rfl

/-- A completion forgets how far its command had come (rule R200). -/
@[simp] theorem finish_reach (c : ResultCode) (op : BitVec 8) (p : Progress) (s : State) :
    finish c op (reach p s) = finish c op s := rfl

end Sys2Proof.Machine
end

