-- ==== Sys2Proof/Laws/PerInstr.lean ====
section
/-! SUPPORT. A fact of every instruction as syntax, instruction by instruction: the opcode of its encoding belongs to
the channel the instruction is legal on (rules R152, R155). -/

namespace Sys2Proof.Laws.OpcodeChannel

/-- The opcode of the instruction's encoding is one of its channel's (rule R155). -/
def Statement (i : Instr) : Prop := channelOfOpcode (Cmd.op (encode i)) = i.channel

theorem nop : Statement (.nop) := by
  simp [Statement, encode, Instr.channel, channelOfOpcode]

theorem prepare : Statement (.prepare) := by
  simp [Statement, encode, Instr.channel, channelOfOpcode]

theorem synRender (buf : BitVec 8) (events : BitVec 16) (frames : Word) : Statement (.synRender buf events frames) := by
  simp [Statement, encode, Instr.channel, channelOfOpcode]

theorem eqProcess (buf : BitVec 8) (frames : Word) : Statement (.eqProcess buf frames) := by
  simp [Statement, encode, Instr.channel, channelOfOpcode]

theorem specProcess (buf : BitVec 8) (frames : Word) : Statement (.specProcess buf frames) := by
  simp [Statement, encode, Instr.channel, channelOfOpcode]

theorem synWaveform (v : Word) : Statement (.synWaveform v) := by
  simp [Statement, encode, Instr.channel, channelOfOpcode]

theorem synAttack (v : Word) : Statement (.synAttack v) := by
  simp [Statement, encode, Instr.channel, channelOfOpcode]

theorem synHold (v : Word) : Statement (.synHold v) := by
  simp [Statement, encode, Instr.channel, channelOfOpcode]

theorem synDecay (v : Word) : Statement (.synDecay v) := by
  simp [Statement, encode, Instr.channel, channelOfOpcode]

theorem synSustain (v : Word) : Statement (.synSustain v) := by
  simp [Statement, encode, Instr.channel, channelOfOpcode]

theorem synRelease (v : Word) : Statement (.synRelease v) := by
  simp [Statement, encode, Instr.channel, channelOfOpcode]

theorem synCurve (v : Word) : Statement (.synCurve v) := by
  simp [Statement, encode, Instr.channel, channelOfOpcode]

theorem synFilterType (v : Word) : Statement (.synFilterType v) := by
  simp [Statement, encode, Instr.channel, channelOfOpcode]

theorem synFilterCutoff (v : Word) : Statement (.synFilterCutoff v) := by
  simp [Statement, encode, Instr.channel, channelOfOpcode]

theorem synFilterQ (v : Word) : Statement (.synFilterQ v) := by
  simp [Statement, encode, Instr.channel, channelOfOpcode]

theorem synLfoWaveform (v : Word) : Statement (.synLfoWaveform v) := by
  simp [Statement, encode, Instr.channel, channelOfOpcode]

theorem synLfoRate (v : Word) : Statement (.synLfoRate v) := by
  simp [Statement, encode, Instr.channel, channelOfOpcode]

theorem synLfoAmpDepth (v : Word) : Statement (.synLfoAmpDepth v) := by
  simp [Statement, encode, Instr.channel, channelOfOpcode]

theorem synLfoPitchDepth (v : Word) : Statement (.synLfoPitchDepth v) := by
  simp [Statement, encode, Instr.channel, channelOfOpcode]

theorem synGain (v : Word) : Statement (.synGain v) := by
  simp [Statement, encode, Instr.channel, channelOfOpcode]

theorem eqType (band : BitVec 8) (v : Word) : Statement (.eqType band v) := by
  simp [Statement, encode, Instr.channel, channelOfOpcode]

theorem eqFreq (band : BitVec 8) (v : Word) : Statement (.eqFreq band v) := by
  simp [Statement, encode, Instr.channel, channelOfOpcode]

theorem eqGain (band : BitVec 8) (v : Word) : Statement (.eqGain band v) := by
  simp [Statement, encode, Instr.channel, channelOfOpcode]

theorem eqQ (band : BitVec 8) (v : Word) : Statement (.eqQ band v) := by
  simp [Statement, encode, Instr.channel, channelOfOpcode]

theorem eqSlope (band : BitVec 8) (v : Word) : Statement (.eqSlope band v) := by
  simp [Statement, encode, Instr.channel, channelOfOpcode]

theorem eqDrive (band : BitVec 8) (v : Word) : Statement (.eqDrive band v) := by
  simp [Statement, encode, Instr.channel, channelOfOpcode]

theorem eqSaturation (band : BitVec 8) (v : Word) : Statement (.eqSaturation band v) := by
  simp [Statement, encode, Instr.channel, channelOfOpcode]

theorem eqMix (band : BitVec 8) (v : Word) : Statement (.eqMix band v) := by
  simp [Statement, encode, Instr.channel, channelOfOpcode]

theorem eqEnable (band : BitVec 8) (v : Word) : Statement (.eqEnable band v) := by
  simp [Statement, encode, Instr.channel, channelOfOpcode]

theorem eqSolo (band : BitVec 8) (v : Word) : Statement (.eqSolo band v) := by
  simp [Statement, encode, Instr.channel, channelOfOpcode]

theorem eqBypass (band : BitVec 8) (v : Word) : Statement (.eqBypass band v) := by
  simp [Statement, encode, Instr.channel, channelOfOpcode]

theorem eqInputGain (v : Word) : Statement (.eqInputGain v) := by
  simp [Statement, encode, Instr.channel, channelOfOpcode]

theorem eqOutputGain (v : Word) : Statement (.eqOutputGain v) := by
  simp [Statement, encode, Instr.channel, channelOfOpcode]

theorem eqModel (v : Word) : Statement (.eqModel v) := by
  simp [Statement, encode, Instr.channel, channelOfOpcode]

theorem eqGlobalBypass (v : Word) : Statement (.eqGlobalBypass v) := by
  simp [Statement, encode, Instr.channel, channelOfOpcode]

theorem noteOn (note : BitVec 8) (vel : BitVec 8) (offset : Word) : Statement (.noteOn note vel offset) := by
  simp [Statement, encode, Instr.channel, channelOfOpcode]

theorem noteOff (note : BitVec 8) (offset : Word) : Statement (.noteOff note offset) := by
  simp [Statement, encode, Instr.channel, channelOfOpcode]

end Sys2Proof.Laws.OpcodeChannel
end

