-- ==== Sys2Proof/Laws/Voice.lean ====
section
/-! SUPPORT. The laws of the voice engine: what the note events, one voice's sample, one frame and a whole block can
change, when they complete, and the induction every invariant of a rendered block goes through. -/

namespace Sys2Proof.Machine

/-! ## Note events -/

/-- `t` is `s` but for the voice file and the steal counter. -/
def onlyNotes (s t : State) : Prop := t = { s with voices := t.voices, steals := t.steals }

theorem onlyNotes_trans {s t u : State} (h1 : onlyNotes s t) (h2 : onlyNotes t u) : onlyNotes s u := by
  simp only [onlyNotes] at *
  rw [h2, h1]

theorem setVoice_frame (u : Nat) (v : Voice) (s : State) : onlyNotes s (setVoice u v s) := rfl

/-- A fold of voice updates touches only the voice file. -/
theorem foldVoices_frame (f : Voice → Voice) (us : List Nat) (s : State) :
    onlyNotes s (us.foldl (fun s u => setVoice u (f (voiceAt s u)) s) s) := by
  induction us generalizing s with
  | nil => rfl
  | cons u us ih => exact onlyNotes_trans (setVoice_frame u _ s) (ih _)

theorem noteOff_frame (nt : BitVec 8) (s : State) : onlyNotes s (noteOff nt s) := foldVoices_frame _ _ s

theorem ageVoices_frame (s : State) : onlyNotes s (ageVoices s) := foldVoices_frame _ _ s

theorem allocate_frame (nt vl : BitVec 8) (s : State) : onlyNotes s (allocate nt vl s) := by
  simp only [allocate]
  split <;> rfl

/-- NOTE_ON completes and touches only the voice file and the steal counter (rule R262). -/
theorem execNoteOn_completes (note vel : BitVec 8) (off : Word) (s : State) :
    ∃ t, execNoteOn note vel off s = .next t ∧ onlyNotes s t := by
  simp only [execNoteOn]
  split
  · exact ⟨_, rfl, noteOff_frame _ s⟩
  · exact ⟨_, rfl, onlyNotes_trans (ageVoices_frame s) (allocate_frame _ _ _)⟩

/-- NOTE_OFF completes and touches only the voice file (rule R263). -/
theorem execNoteOff_completes (note : BitVec 8) (off : Word) (s : State) :
    ∃ t, execNoteOff note off s = .next t ∧ onlyNotes s t := ⟨_, rfl, noteOff_frame _ s⟩

/-- `t` is `s` but for the voice file, the steal counter, ILLEGAL_COUNT and the draw counter. -/
def onlyEvents (s t : State) : Prop :=
  t = { s with voices := t.voices, steals := t.steals, illegalCount := t.illegalCount, draws := t.draws }

/-- An event word's application completes (rule R266). -/
theorem applyEventWord_completes (w : Cmd) (s : State) : ∃ t, applyEventWord w s = .next t ∧ onlyEvents s t := by
  simp only [applyEventWord]
  split
  · obtain ⟨t, h, f⟩ := execNoteOn_completes _ _ _ s
    exact ⟨t, h, by simp only [onlyNotes, onlyEvents] at *; rw [f]⟩
  · obtain ⟨t, h, f⟩ := execNoteOff_completes _ _ s
    exact ⟨t, h, by simp only [onlyNotes, onlyEvents] at *; rw [f]⟩
  · exact ⟨_, rfl, rfl⟩
  · exact ⟨_, rfl, rfl⟩

/-! ## Readable words -/

/-- The words of EVT that `cnt` events occupy hold values (rule R112). -/
def eventsReadable (m : List Host.Cell) (cnt : Nat) : Prop :=
  ∀ j, j < 2 * cnt → (Memory.word m (evtBase + 4 * j)).isSome = true

/-- The wavetable holds values (rule R112). -/
def tableReadable (m : List Host.Cell) : Prop :=
  ∀ j, j < 2048 → (Memory.word m (wtBase + 4 * j)).isSome = true

/-- Every word `m` holds, `m'` holds too. -/
def keepsReadable (m m' : List Host.Cell) : Prop :=
  ∀ a, (Memory.word m a).isSome = true → (Memory.word m' a).isSome = true

theorem keepsReadable_trans {a b c : List Host.Cell} (h1 : keepsReadable a b) (h2 : keepsReadable b c) :
    keepsReadable a c := fun x h => h2 x (h1 x h)

/-! ## One voice, one sample -/

theorem wavetable_completes (s : State) (t : F32) (h : tableReadable s.mem) : ∃ y, wavetable s t = .next y := by
  obtain ⟨a, ha⟩ := readWord_completes (h ((floorInt (fmul t (f32OfNat 2048))) % 2048).toNat (by omega))
  obtain ⟨b, hb⟩ := readWord_completes (h ((floorInt (fmul t (f32OfNat 2048)) + 1) % 2048).toNat (by omega))
  simp only [wavetable, ha, hb, andThen_next]
  exact ⟨_, rfl⟩

/-- A voice's sample completes unless it plays an unreadable wavetable (rules R112, R251). -/
theorem voiceSample_completes (s : State) (v : Voice) (h : s.synp[0].toNat ≠ 3 ∨ tableReadable s.mem) :
    ∃ yv, voiceSample s v = .next yv := by
  have ho : ∀ inc, ∃ ov, oscillator s v inc = .next ov := by
    intro inc
    simp only [oscillator]
    split
    · exact ⟨_, rfl⟩
    · exact ⟨_, rfl⟩
    · exact ⟨_, rfl⟩
    · rename_i h3
      obtain ⟨y, hy⟩ := wavetable_completes s v.phase (h.resolve_left (fun hn => hn h3))
      exact ⟨_, by rw [hy]; rfl⟩
    · exact ⟨_, rfl⟩
  obtain ⟨ov, hov⟩ := ho (phaseInc s v.note (lfoValue s v.lfoPhase))
  simp only [voiceSample, hov, andThen_next]
  exact ⟨_, rfl⟩

/-! ## One frame -/

/-- `t` is `s` but for the voice file and the draw counter. -/
def onlyVoices (s t : State) : Prop := t = { s with voices := t.voices, draws := t.draws }

theorem mixVoices_completes (us : List Nat) (acc : F32) (s : State)
    (h : s.synp[0].toNat ≠ 3 ∨ tableReadable s.mem) :
    ∃ as, mixVoices us acc s = .next as ∧ onlyVoices s as.2 := by
  induction us generalizing acc s with
  | nil => exact ⟨_, rfl, rfl⟩
  | cons u us ih =>
    simp only [mixVoices]
    split
    · obtain ⟨yv, hv⟩ := voiceSample_completes s (voiceAt s u) h
      obtain ⟨as, ha, fa⟩ := ih (fadd acc yv.1) (nextDraw (setVoice u yv.2 s)) h
      exact ⟨as, by rw [hv]; exact ha, by simp only [onlyVoices] at *; rw [fa]; rfl⟩
    · exact ih acc s h

/-- Every invariant of the voice file is kept by the mix if each active voice's sample keeps it. -/
theorem mixVoices_inv {P : State → Prop}
    (hv : ∀ s u y v, P s → isActive s u = true → voiceSample s (voiceAt s u) = .next (y, v) → P (setVoice u v s))
    (hd : ∀ s, P s → P (nextDraw s)) (us : List Nat) (acc : F32) (s : State) (hs : P s) (as : F32 × State) (h : mixVoices us acc s = .next as) :
    P as.2 := by
  induction us generalizing acc s with
  | nil =>
    simp only [mixVoices, Host.Outcome.next.injEq] at h
    exact h ▸ hs
  | cons u us ih =>
    simp only [mixVoices] at h
    split at h
    · rename_i ha
      obtain ⟨⟨y, v⟩, h1, h2⟩ := andThen_eq_next.1 h
      exact ih _ _ (hd _ (hv s u y v hs ha h1)) h2
    · exact ih _ _ hs h

/-- A frame's value is there unless it plays an unreadable wavetable (rules R112, R250). -/
theorem frameOut_completes (s : State) (h : s.synp[0].toNat ≠ 3 ∨ tableReadable s.mem) :
    ∃ os, frameOut s = .next os ∧ onlyVoices s os.2 := by
  obtain ⟨⟨acc, s1⟩, h1, f1⟩ := mixVoices_completes (List.range (actV s)) fZero s h
  exact ⟨(fmul acc (pGain s1), s1), by simp only [frameOut, h1, andThen_next], f1⟩

/-- Every invariant of the voice file is kept up to a frame's value if each active voice's sample keeps it. -/
theorem frameOut_inv {P : State → Prop}
    (hv : ∀ s u y v, P s → isActive s u = true → voiceSample s (voiceAt s u) = .next (y, v) → P (setVoice u v s))
    (hd : ∀ s, P s → P (nextDraw s)) {s : State} {os : Word × State} (hs : P s) (h : frameOut s = .next os) : P os.2 := by
  obtain ⟨as, h1, h⟩ := andThen_eq_next.1 h
  have p1 := mixVoices_inv hv hd _ _ _ hs _ h1
  simp only [Host.Outcome.next.injEq] at h
  exact h ▸ p1

/-- `t` is `s` but for the voice file, the draw counter and the memory, which keeps every readable word readable. -/
def onlyFrame (s t : State) : Prop :=
  t = { s with voices := t.voices, draws := t.draws, mem := t.mem } ∧ keepsReadable s.mem t.mem

theorem renderFrame_completes (base i : Nat) (s : State) (h : s.synp[0].toNat ≠ 3 ∨ tableReadable s.mem) :
    ∃ t, renderFrame base i s = .next t ∧ onlyFrame s t := by
  obtain ⟨⟨out, s1⟩, h1, f1⟩ := frameOut_completes s h
  refine ⟨writeFrame (base + 4 * (i * actC s1)) out s1, by simp only [renderFrame, h1, andThen_next], ?_, ?_⟩
  · simp only [onlyVoices] at f1
    rw [f1]
    rfl
  · intro a ha
    refine word_setWords_isSome _ _ _ _ ?_
    simp only [onlyVoices] at f1
    rw [f1]
    exact ha

/-! ## Events of a block -/

theorem readEvent_completes (e cnt : Nat) (s : State) (h : eventsReadable s.mem cnt) (he : e < cnt) :
    ∃ w, readEvent e s = .next w := by
  obtain ⟨hi, h1⟩ := readWord_completes (h (2 * e + 1) (by omega))
  obtain ⟨lo, h2⟩ := readWord_completes (h (2 * e) (by omega))
  rw [show evtBase + 4 * (2 * e + 1) = evtBase + 4 + 8 * e by ring] at h1
  rw [show evtBase + 4 * (2 * e) = evtBase + 8 * e by ring] at h2
  simp only [readEvent, h1, h2, andThen_next]
  exact ⟨_, rfl⟩

theorem applyEvent_completes (e cnt : Nat) (s : State) (h : eventsReadable s.mem cnt) (he : e < cnt) :
    ∃ t, applyEvent e s = .next t ∧ onlyEvents s t := by
  obtain ⟨w, hw⟩ := readEvent_completes e cnt s h he
  obtain ⟨t, ht, ft⟩ := applyEventWord_completes w s
  exact ⟨t, by simp only [applyEvent, hw, andThen_next, ht], ft⟩

theorem onlyEvents_mem {s t : State} (h : onlyEvents s t) : t.mem = s.mem := by
  rw [h]

theorem onlyEvents_trans {s t u : State} (h1 : onlyEvents s t) (h2 : onlyEvents t u) : onlyEvents s u := by
  simp only [onlyEvents] at *
  rw [h2, h1]

theorem dueEvent_completes (n cnt i ei : Nat) (s : State) (h : eventsReadable s.mem cnt) :
    ∃ d t, dueEvent n cnt i ei s = .next (d, t) ∧ onlyEvents s t ∧ (d = true → ei < cnt) := by
  simp only [dueEvent]
  split
  · rename_i he
    obtain ⟨off, ho⟩ := readWord_completes (h (2 * ei) (by omega))
    rw [show evtBase + 4 * (2 * ei) = evtBase + 8 * ei by ring] at ho
    exact ⟨_, nextDraw s, by rw [ho]; rfl, rfl, fun _ => he⟩
  · exact ⟨false, s, rfl, rfl, by simp⟩

theorem applyDue_completes (n cnt i fuel ei : Nat) (s : State) (h : eventsReadable s.mem cnt) :
    ∃ es, applyDue n cnt i fuel ei s = .next es ∧ onlyEvents s es.2 := by
  induction fuel generalizing ei s with
  | zero => exact ⟨_, rfl, rfl⟩
  | succ fuel ih =>
    obtain ⟨d, s1, h1, f1, hd⟩ := dueEvent_completes n cnt i ei s h
    simp only [applyDue, h1, andThen_next]
    split
    · rename_i hdue
      have r1 : eventsReadable s1.mem cnt := by rw [onlyEvents_mem f1]; exact h
      obtain ⟨t, ht, ft⟩ := applyEvent_completes ei cnt s1 r1 (hd hdue)
      obtain ⟨es, h2, f2⟩ := ih (ei + 1) t (by rw [onlyEvents_mem ft]; exact r1)
      exact ⟨es, by rw [ht]; exact h2, onlyEvents_trans (onlyEvents_trans f1 ft) f2⟩
    · exact ⟨_, rfl, f1⟩

theorem applyRest_completes (cnt fuel ei : Nat) (s : State) (h : eventsReadable s.mem cnt) :
    ∃ t, applyRest cnt fuel ei s = .next t ∧ onlyEvents s t := by
  induction fuel generalizing ei s with
  | zero => exact ⟨_, rfl, rfl⟩
  | succ fuel ih =>
    simp only [applyRest]
    split
    · rename_i he
      obtain ⟨t, ht, ft⟩ := applyEvent_completes ei cnt s h he
      obtain ⟨u, h1, f1⟩ := ih (ei + 1) t (by rw [onlyEvents_mem ft]; exact h)
      exact ⟨u, by rw [ht]; exact h1, onlyEvents_trans ft f1⟩
    · exact ⟨_, rfl, rfl⟩

/-! ## The block -/

/-- `t` is `s` but for the voice file, the steal counter, ILLEGAL_COUNT, the draw counter and the memory, which keeps
every readable word readable. -/
def onlyRender (s t : State) : Prop :=
  t = { s with
    voices := t.voices
    steals := t.steals
    illegalCount := t.illegalCount
    draws := t.draws
    mem := t.mem } ∧
    keepsReadable s.mem t.mem

theorem onlyRender_trans {s t u : State} (h1 : onlyRender s t) (h2 : onlyRender t u) : onlyRender s u := by
  refine ⟨?_, keepsReadable_trans h1.2 h2.2⟩
  rw [h2.1, h1.1]

theorem onlyRender_of_events {s t : State} (h : onlyEvents s t) : onlyRender s t := by
  refine ⟨?_, fun a ha => ?_⟩
  · simp only [onlyEvents] at h
    rw [h]
  · rw [onlyEvents_mem h]
    exact ha

theorem onlyRender_of_frame {s t : State} (h : onlyFrame s t) : onlyRender s t := by
  refine ⟨?_, h.2⟩
  rw [h.1]

/-- The words a render of `cnt` events needs hold values (rules R112, R250). -/
def renderReady (cnt : Nat) (s : State) : Prop :=
  eventsReadable s.mem cnt ∧ (s.synp[0].toNat ≠ 3 ∨ tableReadable s.mem)

theorem renderReady_kept {cnt : Nat} {s t : State} (h : onlyRender s t) (hs : renderReady cnt s) : renderReady cnt t := by
  refine ⟨fun j hj => h.2 _ (hs.1 j hj), hs.2.imp (fun h3 => ?_) fun ht j hj => h.2 _ (ht j hj)⟩
  rw [h.1]
  exact h3

theorem renderFrames_completes (base n cnt : Nat) (is : List Nat) (ei : Nat) (s : State) (h : renderReady cnt s) :
    ∃ es, renderFrames base n cnt is ei s = .next es ∧ onlyRender s es.2 := by
  induction is generalizing ei s with
  | nil => exact ⟨_, rfl, rfl, fun _ h => h⟩
  | cons i is ih =>
    obtain ⟨⟨ej, s1⟩, h1, f1⟩ := applyDue_completes n cnt i cnt ei s h.1
    have f1 := onlyRender_of_events f1
    have r1 := renderReady_kept f1 h
    obtain ⟨s2, h2, f2⟩ := renderFrame_completes base i s1 r1.2
    have f2 := onlyRender_of_frame f2
    obtain ⟨es, h3, f3⟩ := ih ej s2 (renderReady_kept f2 r1)
    refine ⟨es, by simp only [renderFrames, h1, h2, andThen_next, h3], ?_⟩
    exact onlyRender_trans f1 (onlyRender_trans f2 f3)

/-- SYN_RENDER's body from a frame on completes when the words it may read hold values (rule R250). -/
theorem renderFrom_completes (k : BitVec 8) (e : BitVec 16) (frames : Word) (j ej : Nat) (s : State)
    (h : renderReady (eventCount e) s) :
    ∃ t, onlyRender s t ∧ renderFrom k e frames j ej s = .next (publishSynth t) := by
  obtain ⟨⟨ei, s1⟩, h1, f1⟩ :=
    renderFrames_completes (bufBase k.toNat) (frameCount frames s) (eventCount e)
      ((List.range (frameCount frames s)).drop j) ej s h
  obtain ⟨s2, h2, f2⟩ := applyRest_completes (eventCount e) (eventCount e) ei s1 (renderReady_kept f1 h).1
  exact ⟨s2, onlyRender_trans f1 (onlyRender_of_events f2), by simp only [renderFrom, renderEnd, h1, andThen_next, h2]⟩

/-- SYN_RENDER's body completes when the words it may read hold values (rule R250). -/
theorem renderBlock_completes (k : BitVec 8) (e : BitVec 16) (frames : Word) (s : State)
    (h : renderReady (eventCount e) s) :
    ∃ t, onlyRender s t ∧ renderBlock k e frames s = .next (publishSynth t) :=
  renderFrom_completes k e frames 0 0 s h

/-! ## Invariants of a rendered block -/

/-- What a block's three kinds of update must keep for an invariant to hold after it. -/
structure RenderInv (base n : Nat) (P : State → Prop) : Prop where
  voice : ∀ s u y v, P s → isActive s u = true → voiceSample s (voiceAt s u) = .next (y, v) → P (setVoice u v s)
  frame : ∀ s i out, P s → i < n → P (writeFrame (base + 4 * (i * actC s)) out s)
  event : ∀ s w t, P s → applyEventWord w s = .next t → P t
  draw : ∀ s, P s → P (nextDraw s)

theorem applyEvent_inv {P : State → Prop} (he : ∀ s w t, P s → applyEventWord w s = .next t → P t) {e : Nat}
    {s t : State} (hs : P s) (h : applyEvent e s = .next t) : P t := by
  obtain ⟨w, -, h2⟩ := andThen_eq_next.1 h
  exact he s w t hs h2

/-- Looking at an event changes the draw counter alone (rule R250). -/
theorem dueEvent_inv {P : State → Prop} (hd : ∀ s, P s → P (nextDraw s)) {n cnt i ei : Nat} {s : State} (hs : P s)
    {ds : Bool × State} (h : dueEvent n cnt i ei s = .next ds) : P ds.2 := by
  simp only [dueEvent] at h
  split at h
  · obtain ⟨off, -, h⟩ := andThen_eq_next.1 h
    simp only [Host.Outcome.next.injEq] at h
    exact h ▸ hd s hs
  · simp only [Host.Outcome.next.injEq] at h
    exact h ▸ hs

theorem applyDue_inv {P : State → Prop} (he : ∀ s w t, P s → applyEventWord w s = .next t → P t)
    (hd : ∀ s, P s → P (nextDraw s)) (n cnt i fuel ei : Nat) (s : State) (hs : P s) (es : Nat × State) (h : applyDue n cnt i fuel ei s = .next es) :
    P es.2 := by
  induction fuel generalizing ei s with
  | zero =>
    simp only [applyDue, Host.Outcome.next.injEq] at h
    exact h ▸ hs
  | succ fuel ih =>
    simp only [applyDue] at h
    obtain ⟨⟨d, s1⟩, h1, h⟩ := andThen_eq_next.1 h
    have p1 := dueEvent_inv hd hs h1
    simp only at h p1
    split at h
    · obtain ⟨s2, h2, h⟩ := andThen_eq_next.1 h
      exact ih _ _ (applyEvent_inv he p1 h2) h
    · simp only [Host.Outcome.next.injEq] at h
      exact h ▸ p1

theorem applyRest_inv {P : State → Prop} (he : ∀ s w t, P s → applyEventWord w s = .next t → P t)
    (cnt fuel ei : Nat) (s t : State) (hs : P s) (h : applyRest cnt fuel ei s = .next t) : P t := by
  induction fuel generalizing ei s with
  | zero =>
    simp only [applyRest, Host.Outcome.next.injEq] at h
    exact h ▸ hs
  | succ fuel ih =>
    simp only [applyRest] at h
    split at h
    · obtain ⟨s1, h1, h⟩ := andThen_eq_next.1 h
      exact ih _ _ (applyEvent_inv he hs h1) h
    · simp only [Host.Outcome.next.injEq] at h
      exact h ▸ hs

/-- One frame with the events before it keeps the invariant (rule R250). -/
theorem renderFrame_inv {base n : Nat} {P : State → Prop} (hP : RenderInv base n P) {i : Nat} (hi : i < n) {s t : State}
    (hs : P s) (h : renderFrame base i s = .next t) : P t := by
  obtain ⟨⟨out, s1⟩, h1, h⟩ := andThen_eq_next.1 h
  simp only [Host.Outcome.next.injEq] at h
  exact h ▸ hP.frame s1 i out (frameOut_inv hP.voice hP.draw hs h1) hi

theorem renderFrames_inv {base n : Nat} {P : State → Prop} (hP : RenderInv base n P) (cnt : Nat) (is : List Nat)
    (his : ∀ i ∈ is, i < n) (ei : Nat) (s : State) (hs : P s) (es : Nat × State)
    (h : renderFrames base n cnt is ei s = .next es) : P es.2 := by
  induction is generalizing ei s with
  | nil =>
    simp only [renderFrames, Host.Outcome.next.injEq] at h
    exact h ▸ hs
  | cons i is ih =>
    simp only [renderFrames] at h
    obtain ⟨⟨ej, s1⟩, h1, h⟩ := andThen_eq_next.1 h
    obtain ⟨s2, h2, h⟩ := andThen_eq_next.1 h
    have p1 := applyDue_inv hP.event hP.draw n cnt i cnt ei s hs _ h1
    exact ih (fun j hj => his j (List.mem_cons_of_mem _ hj)) ej s2
      (renderFrame_inv hP (his i List.mem_cons_self) p1 h2) h

/-- The end of the body keeps the invariant up to the publication (rule R250). -/
theorem renderEnd_inv {P : State → Prop} (he : ∀ s w t, P s → applyEventWord w s = .next t → P t) {e : BitVec 16}
    {ei : Nat} {s t : State} (hs : P s) (h : renderEnd e ei s = .next t) : ∃ u, P u ∧ t = publishSynth u := by
  obtain ⟨s1, h1, h⟩ := andThen_eq_next.1 h
  exact ⟨s1, applyRest_inv he _ _ _ _ _ hs h1, by simpa using h.symm⟩

/-- The induction over a rendered block, from a frame on (rule R250). -/
theorem renderFrom_inv {k : BitVec 8} {e : BitVec 16} {frames : Word} {j ej : Nat} {s t : State} {P : State → Prop}
    (hP : RenderInv (bufBase k.toNat) (frameCount frames s) P) (hs : P s)
    (h : renderFrom k e frames j ej s = .next t) : ∃ u, P u ∧ t = publishSynth u := by
  obtain ⟨⟨ei, s1⟩, h1, h⟩ := andThen_eq_next.1 h
  exact renderEnd_inv hP.event
    (renderFrames_inv hP _ _ (fun i hi => List.mem_range.1 (List.mem_of_mem_drop hi)) _ _ hs _ h1) h

/-- The induction over a rendered block (rule R250). -/
theorem renderBlock_inv {k : BitVec 8} {e : BitVec 16} {frames : Word} {s t : State} {P : State → Prop}
    (hP : RenderInv (bufBase k.toNat) (frameCount frames s) P) (hs : P s)
    (h : renderBlock k e frames s = .next t) : ∃ u, P u ∧ t = publishSynth u := renderFrom_inv hP hs h

end Sys2Proof.Machine
end

