-- ==== Sys2Proof/Laws/Steps.lean ====
section
/-! SUPPORT. The laws of whole commands in the terms of Safety.lean: the completion of a command, readable words, and
how each process command answers a next state. -/

namespace Sys2Proof.Machine

/-- `finish` writes the completion registers and nothing else (rule R200). -/
theorem finish_completedWith (c : ResultCode) (op : BitVec 8) (s : State) :
    completedWith op (codeNumber c) s (finish c op s) := ⟨_, rfl⟩

/-- A result code's number is at most 6 (rule R600). -/
theorem codeNumber_le (c : ResultCode) : (codeNumber c).toNat ≤ 6 := by cases c <;> decide

/-- CMD_RESULT as a number: the opcode times 256 plus the code (rule R38). -/
theorem resultWord_toNat (op : BitVec 8) (c : ResultCode) :
    (resultWord op c).toNat = op.toNat * 2 ^ 8 + (codeNumber c).toNat := by
  have hc := (codeNumber c).isLt
  simp only [resultWord, BitVec.toNat_append, BitVec.toNat_ofNat]
  rw [← Nat.shiftLeft_add_eq_or_of_lt (by omega)]
  simp [Nat.shiftLeft_eq]

/-- The queue read as a list has DEPTH entries (rule R42). -/
theorem queued_length (s : State) : (queued s).length = queueDepth s := by simp [queued]

/-- The reading of `readableWords`: every word in the range holds a value. -/
theorem readableWords_iff {s : State} {a n : Nat} :
    readableWords s a n = true ↔ ∀ j, j < n → (Memory.word s.mem (a + 4 * j)).isSome = true := by
  simp [readableWords, readable]

/-! Each process command is its body behind the shared prologue (rule R204). -/

theorem exec_synRender (k : BitVec 8) (e : BitVec 16) (n : Word) (s : State) :
    exec (.synRender k e n) s = processCommand 0x02 k (renderBlock k e n) s := rfl

theorem exec_eqProcess (k : BitVec 8) (n : Word) (s : State) :
    exec (.eqProcess k n) s = processCommand 0x03 k (eqBlock k n) s := rfl

theorem exec_specProcess (k : BitVec 8) (n : Word) (s : State) :
    exec (.specProcess k n) s = processCommand 0x04 k (specBlock k n) s := rfl

end Sys2Proof.Machine
end

