-- ==== Sys2Proof/Tests/Slice0.lean ====
section
/-! SUPPORT. Tests of the model: words written out from the spec's encodings, the vectors of 95_test_vectors.md that
pass through no transcendental function, and a witness for the hypotheses of every statement. -/

namespace Sys2Proof.Tests

-- One theorem after the other: waiting kernel evaluations each hold a thread and its stack.
set_option Elab.async false

open Sys2Proof Sys2Proof.Machine

/-! ## Helpers -/

/-- Whether an outcome is a next state with a property. -/
def goesOn (r : Res State) (p : State → Bool) : Bool :=
  match r with
  | .next s => p s
  | .fault _ => false
  | .refused _ => false

/-- Whether an outcome is a given fault. -/
def stopsWith (r : Res State) (f : Fault) : Bool :=
  match r with
  | .next _ => false
  | .fault g => g == f
  | .refused _ => false

/-- A prepared block with the reset configuration active. -/
def prep : State := { State.reset with prepared := true, act := CfgRegs.reset }

/-- `prep` with an empty queue but for one word. -/
def queuedOne (w : Cmd) : State := { prep with slots := prep.slots.set 0 w, tail := 1 }

/-- `prep` with zeros in EVT, WT and both buffers. -/
def zeroed : State := { prep with mem := Memory.zeroCells 0x1000 0x1F000 }

/-! ## Encoding (30_encoding.md rules R150, R155, R156, R159; 95_test_vectors.md section 2.1) -/

/-- Rule R155: OP in bits [63:56], A [55:48], E [47:32], V [31:0]. -/
theorem test_decode_doorbell :
    decodeWord .doorbell 0x00AABBCCDDDDDDDD = .ok .nop ∧
    decodeWord .doorbell 0x01FF00FF00000000 = .ok .prepare ∧
    decodeWord .doorbell 0x0201A5C300000200 = .ok (.synRender 1 0xA5C3 512) ∧
    decodeWord .doorbell 0x0301000000000040 = .ok (.eqProcess 1 64) ∧
    decodeWord .doorbell 0x0405FFFF80000001 = .ok (.specProcess 5 0x80000001) := by
  and_intros <;> rfl

/-- Rule R155, the SYN_PARAM rows: B selects, A and C are reserved. -/
theorem test_decode_syn :
    decodeWord .queue 0x1000000000000001 = .ok (.synWaveform 1) ∧
    decodeWord .queue 0x100001003C23D70A = .ok (.synAttack 0x3C23D70A) ∧
    decodeWord .queue 0x1000020000000002 = .ok (.synHold 2) ∧
    decodeWord .queue 0x1000030000000003 = .ok (.synDecay 3) ∧
    decodeWord .queue 0x1000040000000004 = .ok (.synSustain 4) ∧
    decodeWord .queue 0x1000050000000005 = .ok (.synRelease 5) ∧
    decodeWord .queue 0x1000060000000006 = .ok (.synCurve 6) ∧
    decodeWord .queue 0x1000070000000007 = .ok (.synFilterType 7) ∧
    decodeWord .queue 0x1000080000000008 = .ok (.synFilterCutoff 8) ∧
    decodeWord .queue 0x1000090000000009 = .ok (.synFilterQ 9) ∧
    decodeWord .queue 0x10000A000000000A = .ok (.synLfoWaveform 10) ∧
    decodeWord .queue 0x10000B000000000B = .ok (.synLfoRate 11) ∧
    decodeWord .queue 0x10000C000000000C = .ok (.synLfoAmpDepth 12) ∧
    decodeWord .queue 0x10000D000000000D = .ok (.synLfoPitchDepth 13) ∧
    decodeWord .queue 0x10FF0EFF3F800000 = .ok (.synGain 0x3F800000) := by
  and_intros <;> rfl

/-- Rule R155, the EQ_BAND_PARAM rows: A is the band, B selects. -/
theorem test_decode_band :
    decodeWord .queue 0x2000000000000006 = .ok (.eqType 0 6) ∧
    decodeWord .queue 0x2007010045FA0000 = .ok (.eqFreq 7 0x45FA0000) ∧
    decodeWord .queue 0x2001020040C00000 = .ok (.eqGain 1 0x40C00000) ∧
    decodeWord .queue 0x2002030000000003 = .ok (.eqQ 2 3) ∧
    decodeWord .queue 0x2003040000000002 = .ok (.eqSlope 3 2) ∧
    decodeWord .queue 0x2004050000000005 = .ok (.eqDrive 4 5) ∧
    decodeWord .queue 0x2005060000000006 = .ok (.eqSaturation 5 6) ∧
    decodeWord .queue 0x2006070000000007 = .ok (.eqMix 6 7) ∧
    decodeWord .queue 0x2003080000000007 = .ok (.eqEnable 3 7) ∧
    decodeWord .queue 0x2000090000000001 = .ok (.eqSolo 0 1) ∧
    decodeWord .queue 0x20070A0000000001 = .ok (.eqBypass 7 1) := by
  and_intros <;> rfl

/-- Rule R155, the EQ_GLOBAL_PARAM and event rows. -/
theorem test_decode_global_and_events :
    decodeWord .queue 0x2100000040C00000 = .ok (.eqInputGain 0x40C00000) ∧
    decodeWord .queue 0x2100010000000001 = .ok (.eqOutputGain 1) ∧
    decodeWord .queue 0x21AA02BB00000003 = .ok (.eqModel 3) ∧
    decodeWord .queue 0x2100030000000001 = .ok (.eqGlobalBypass 1) ∧
    decodeWord .event 0x3045640000000000 = .ok (.noteOn 69 100 0) ∧
    decodeWord .event 0x3145FFFF00000100 = .ok (.noteOff 69 256) := by
  and_intros <;> rfl

/-- 95_test_vectors.md section 2.1, the rows that decode to `Ill`. -/
theorem test_decode_illegal :
    decodeWord .doorbell 0x0500000000000000 = .error (.illegalOpcode .doorbell 0x05) ∧
    decodeWord .doorbell 0x1000000000000200 = .error (.illegalOpcode .doorbell 0x10) ∧
    decodeWord .queue 0x10000F0000000000 = .error (.illegalSelector 0x10 0 15) ∧
    decodeWord .queue 0x2008010045FA0000 = .error (.illegalSelector 0x20 8 1) ∧
    decodeWord .queue 0x20000B0000000000 = .error (.illegalSelector 0x20 0 11) ∧
    decodeWord .queue 0x2100040000000000 = .error (.illegalSelector 0x21 0 4) ∧
    decodeWord .queue 0x3000000000000000 = .error (.illegalOpcode .queue 0x30) ∧
    decodeWord .event 0x0200000000000000 = .error (.illegalOpcode .event 0x02) := by
  and_intros <;> rfl

/-- Rules R8, R102: the low word first, each word little-endian; fewer than eight bytes are refused by name. -/
theorem test_decode_bytes :
    decodeBytes .event [0x00, 0x01, 0, 0, 0, 0, 0x45, 0x31, 0x77] = .ok (.noteOff 69 256, [0x77]) ∧
    decodeBytes .event [0x00, 0x01, 0, 0, 0, 0, 0x45] = .error .tooFewBytes := by
  and_intros <;> rfl

/-- Rule R162: the encoder's words. -/
theorem test_encode :
    encode (.synRender 0 1 512) = 0x0200000100000200 ∧ encode (.synAttack 0x3C23D70A) = 0x100001003C23D70A ∧
    encode (.eqGain 0 0x40C00000) = 0x2000020040C00000 ∧ encode (.eqGlobalBypass 1) = 0x2100030000000001 ∧
    encode (.noteOn 69 100 0) = 0x3045640000000000 ∧ encode (.noteOff 69 256) = 0x3145000000000100 := by
  and_intros <;> rfl

/-- Rule R159: a band of 8 is ill formed, and the encoding of such a term is refused. -/
theorem test_wellFormed_band :
    (Instr.eqQ 7 0).wellFormed = true ∧ (Instr.eqQ 8 0).wellFormed = false ∧
    decodeWord .queue (encode (.eqQ 8 0)) = .error (.illegalSelector 0x20 8 3) := by
  and_intros <;> rfl

/-- The host's word numbering: the low word is bits [31:0]. -/
theorem test_decodeTableWord :
    decodeTableWord 64 0x3045640000000005 = some (.noteOn 69 100 5) ∧
    decodeTableWord 64 0x0500000000000000 = none := by
  and_intros <;> rfl

/-! ## Memory and the port (95_test_vectors.md section 2.1, "Memory") -/

/-- A write of 0x3F800000 to offset 0x10000 stores 0x00, 0x00, 0x80, 0x3F in address order. -/
theorem test_write_is_little_endian :
    goesOn (access (.write 4 0x10000 0x3F800000) State.reset)
      (fun s => s.mem == [(0x10000, 0x00), (0x10001, 0x00), (0x10002, 0x80), (0x10003, 0x3F)]) = true := by decide

/-- A reserved CSR reads 0; a 16-bit access and a misaligned access are bus errors. -/
theorem test_port_faults :
    readCsr State.reset 0x02C = 0 ∧ stopsWith (access (.read 2 0x000) State.reset) (.busError 0x000) = true ∧
    stopsWith (access (.read 4 0x002) State.reset) (.busError 0x002) = true := by decide

/-- BUFBASE(1), and the last word of the history (slot 31, word 127). -/
theorem test_bases : bufBase 1 = 0x18000 ∧ histBase 31 + 4 * 127 = 0x23FFC ∧ wtBase + 4 * 2047 = 0x03FFC := by decide

/-! ## Control (95_test_vectors.md section 2.1, "Control") -/

/-- PREPARE from reset with one change of the configuration: CMD_RESULT and CFG_ERR_FIELD, ACT_* still 0. -/
def prepareFails (c : CfgRegs) (result field : Word) : Bool :=
  goesOn (exec .prepare { State.reset with cfg := c }) fun s =>
    s.cmdResult == result && s.cfgErrField == field && !s.prepared && s.act == CfgRegs.zero && s.cmdCount == 1

theorem test_prepare_failures :
    prepareFails { CfgRegs.reset with sampleRate := 0, fftSize := 1000 } 0x00000102 0x040 = true ∧
    prepareFails { CfgRegs.reset with fftSize := 1000 } 0x00000103 0x050 = true ∧
    prepareFails { CfgRegs.reset with fftSize := 0 } 0x00000103 0x050 = true ∧
    prepareFails { CfgRegs.reset with fftSize := 32 } 0x00000104 0x050 = true ∧
    prepareFails { CfgRegs.reset with sampleRate := 800000 } 0x00000104 0x040 = true ∧
    prepareFails { CfgRegs.reset with hop := 4096 } 0x00000104 0x054 = true ∧
    prepareFails { CfgRegs.reset with channels := 3, pitchMin := 0x453B8000 } 0x00000104 0x048 = true ∧
    prepareFails { CfgRegs.reset with pitchMin := 0x7FC00000 } 0x00000104 0x068 = true ∧
    prepareFails { CfgRegs.reset with featureEn := 0x00000400 } 0x00000104 0x064 = true := by decide +kernel

theorem test_prepare_succeeds :
    goesOn (exec .prepare State.reset) (fun s =>
      s.cmdResult == 0x00000100 && s.cfgErrField == 0 && statusWord s == 1 && s.act == CfgRegs.reset &&
        s.specSeq == 2 && s.spec.since == 0xFFFFFFFF) = true := by decide +kernel

/-- "Process commands before and after PREPARE". -/
theorem test_process_results :
    goesOn (exec (.eqProcess 0 64) State.reset) (fun s => s.cmdResult == 0x00000301) = true ∧
    goesOn (exec (.synRender 5 0 64) State.reset) (fun s => s.cmdResult == 0x00000201) = true ∧
    goesOn (exec (.specProcess 2 64) prep) (fun s => s.cmdResult == 0x00000406) = true ∧
    goesOn (exec .nop prep) (fun s => s.cmdResult == 0x00000000 && s.cmdCount == 1) = true ∧
    goesOn (exec (.synRender 0 0 0) prep) (fun s => s.cmdResult == 0x00000200 && s.mem == []) = true ∧
    frameCount 5000 prep = 512 := by decide +kernel

theorem test_illegal_doorbell :
    goesOn (engineTurn { prep with latched := 0x0500000000000000, busy := true })
      (fun s => s.cmdResult == 0x00000505 && !s.busy) = true := by decide +kernel

/-! ## Queue (95_test_vectors.md section 2.1, "Queue") -/

theorem test_pqStatus :
    pqStatusWord State.reset = 0x00000400 ∧ pqStatusWord (pushQueue 0 State.reset) = 0x00000101 ∧
    pqStatusWord ((List.range 31).foldl (fun s _ => pushQueue 0 s) State.reset) = 0x0000031F ∧
    pqStatusWord ((List.range 40).foldl (fun s _ => pushQueue 0 s) State.reset) = 0x0000021F ∧
    ((List.range 40).foldl (fun s _ => pushQueue 0 s) State.reset).pqOverflow = 9 := by decide +kernel

/-- `syn.gain` of a NaN, `syn.waveform 5`, a SYN_PARAM with B = 15 and `eq.enable 3, 7`, each drained. -/
theorem test_drained :
    goesOn (exec (.specProcess 0 0) (queuedOne 0x10000E007FC00000))
      (fun s => s.illegalCount == 1 && s.synp[14] == 0x3F800000 && queueEmpty s) = true ∧
    goesOn (exec (.specProcess 0 0) (queuedOne 0x1000000000000005))
      (fun s => s.illegalCount == 1 && s.synp[0] == 0) = true ∧
    goesOn (exec (.specProcess 0 0) (queuedOne 0x10000F0000000000)) (fun s => s.illegalCount == 1) = true ∧
    goesOn (exec (.specProcess 0 0) (queuedOne 0x2003080000000007))
      (fun s => s.illegalCount == 0 && s.eqb[3][8] == 1) = true := by decide +kernel

/-! ## Setters (rules R212, R270 to R284, R370 to R384): a value stored, and a value refused -/

/-- A real parameter keeps an infinity and counts a NaN; an enumeration counts the first value above its range. -/
theorem test_setters_synth :
    goesOn (exec (.synRelease 0x7F800000) State.reset) (fun s => s.synp[5] == 0x7F800000 && s.illegalCount == 0) = true ∧
    goesOn (exec (.synRelease 0xFFC00001) State.reset) (fun s => s.synp[5] == 0x3E4CCCCD && s.illegalCount == 1) = true ∧
    goesOn (exec (.synFilterType 4) State.reset) (fun s => s.synp[7] == 4) = true ∧
    goesOn (exec (.synLfoWaveform 4) State.reset) (fun s => s.synp[10] == 0 && s.illegalCount == 1) = true ∧
    goesOn (exec (.synLfoPitchDepth 0x40000000) State.reset) (fun s => s.synp[13] == 0x40000000) = true := by
  decide +kernel

theorem test_setters_equalizer :
    goesOn (exec (.eqType 7 6) State.reset) (fun s => s.eqb[7][0] == 6 && s.eqb[6][0] == 0) = true ∧
    goesOn (exec (.eqSlope 0 3) State.reset) (fun s => s.eqb[0][4] == 0 && s.illegalCount == 1) = true ∧
    goesOn (exec (.eqBypass 2 0x80000000) State.reset) (fun s => s.eqb[2][10] == 1) = true ∧
    goesOn (exec (.eqMix 8 0) State.reset) (fun s => s.illegalCount == 1) = true ∧
    goesOn (exec (.eqModel 3) State.reset) (fun s => s.eqg[2] == 3) = true ∧
    goesOn (exec (.eqOutputGain 0x40C00000) State.reset) (fun s => s.eqg[1] == 0x40C00000) = true := by decide +kernel

/-! ## Numbers (rules R12, R15, R16; decimal constants of the rules) -/

/-- Rule R12: 0.45 denotes 0x3EE66666; the constants of rules R15 and R50. -/
theorem test_decimals :
    decimal 45 2 = 0x3EE66666 ∧ decimal 1 10 = fEps ∧ decimal 7 1 = 0x3F333333 ∧ decimal 15 2 = 0x3E19999A ∧
    f32OfNat 48000 = 0x473B8000 ∧ f32OfNat 16777217 = 0x4B800000 ∧ f32OfInt (-4) = 0xC0800000 := by decide +kernel

/-- IEEE 754: ties to even, a subnormal sum, overflow, signed zeros, division by zero. -/
theorem test_arithmetic :
    fadd 0x3F800000 0x33800000 = 0x3F800000 ∧ fadd 0x3F800001 0x33800000 = 0x3F800002 ∧
    fsub 0x00800001 0x00800000 = 0x00000001 ∧ fadd 0x7F7FFFFF 0x7F7FFFFF = 0x7F800000 ∧
    fadd 0x80000000 0x80000000 = 0x80000000 ∧ fsub 0x3F800000 0x3F800000 = 0 ∧
    fdiv 0xBF800000 0 = 0xFF800000 ∧ fdiv 0x3F800000 0x40400000 = 0x3EAAAAAB ∧ fsqrt 0x40000000 = 0x3FB504F3 ∧
    fmul 0x00000001 0x3F000000 = 0 ∧ fmul 0x00000003 0x3F000000 = 0x00000002 := by decide +kernel

/-- Rule R16: floor, saturation at both ends, 0 for a NaN; rule R11: round is floor(x + 1/2). -/
theorem test_conversions :
    u32sat 0x40200000 = 2 ∧ u32sat 0xBF800000 = 0 ∧ u32sat 0x4F800000 = 0xFFFFFFFF ∧ u32sat 0x7FC00000 = 0 ∧
    roundInt 0xC0200000 = -2 ∧ roundInt 0x40200000 = 3 ∧ floorInt 0xBF000000 = -1 ∧ ceilInt 0x3F000000 = 1 := by
  decide +kernel

/-! ## Voice engine (95_test_vectors.md section 2.2) -/

theorem test_oscillators :
    saw 0 0x3C23D70A = 0 ∧ saw 0x3F000000 0x3C23D70A = 0 ∧ square 0 0x3C23D70A = 0 ∧
    square 0x3E800000 0x3C23D70A = 0x3F800000 ∧ blep 0x3BA3D70A 0x3C23D70A = 0xBE800000 ∧ blep 0x3F000000 0 = 0 ∧
    blep 0 0 = 0 := by decide +kernel

theorem test_noise_and_pitch :
    xorshift32 0x12345678 = 0x87985AA5 ∧ noteFreq 69 = 0x43DC0000 ∧ phaseInc prep 69 0 = 0x3C162FC9 := by
  decide +kernel

/-- WT[0] = 0.0, WT[1] = 1.0, t = 0.25 / 2048 gives 0.25. -/
theorem test_wavetable :
    (match wavetable { prep with mem := Memory.setWord (Memory.setWord [] 0x2000 0) 0x2004 0x3F800000 } 0x39000000 with
      | .next y => y == 0x3E800000
      | .fault _ => false
      | .refused _ => false) = true := by decide +kernel

/-- The reset durations, and ATTACK = 0.0001. -/
theorem test_durations :
    durations prep = ⟨480, 0, 4800, 9600⟩ ∧ durSamples prep 0x38D1B717 = 5 := by decide +kernel

/-- `prep` with ACT.V = 2. -/
def twoVoices : State := { prep with act := { CfgRegs.reset with voices := 2 } }

/-- NOTE_ON 60, 62, 64 with two voices: voice 0 is stolen; then NOTE_ON 62 of velocity 0 releases voice 1. -/
theorem test_steal :
    goesOn (applyEventWords [0x303C640000000000, 0x303E640000000000, 0x3040640000000000] twoVoices) (fun s =>
      s.voices[0].note == 64 && s.voices[0].age == 0 && s.voices[1].note == 62 && s.voices[1].age == 1 &&
        s.steals == 1) = true ∧
    goesOn (applyEventWords [0x303C640000000000, 0x303E640000000000, 0x3040640000000000, 0x303E000000000000] twoVoices)
      (fun s => s.voices[0].stage == .attack && s.voices[1].stage == .release && s.steals == 1) = true := by
  decide +kernel

/-- Rules R262, R604: a note and a velocity above 127 clamp; an ill-formed event word is counted. -/
theorem test_event_corners :
    goesOn (exec (.noteOn 200 255 0) prep) (fun s => s.voices[0].note == 127 && s.voices[0].vel == 127) = true ∧
    goesOn (applyEventWord 0x0200000000000000 prep) (fun s => s.illegalCount == 1) = true := by decide +kernel

/-! ## Equalizer and spectral engine (95_test_vectors.md sections 2.3 and 2.4) -/

/-- LUT_TAPE[0] and LUT_TAPE[4095]. -/
theorem test_tape_ends : filledLuts.tape[0] = 0xBF4CCCCD ∧ filledLuts.tape[4095] = 0x3F4CCCCD := by
  simp only [filledLuts, Vector.getElem_ofFn]
  decide +kernel

/-- The lookups at -5.0, at +Inf and of a NaN, in any table. -/
theorem test_lookup_ends (T : Vector F32 4096) :
    lut T 0xC0A00000 = T[0] ∧ lut T 0x7F800000 = T[4095] ∧ lut T 0x7FC00001 = 0x7FC00001 := ⟨rfl, rfl, rfl⟩

/-- The oversampler's identity path on a unit impulse: outputs 0 and 1 are 1/512 and -9/256. -/
theorem test_oversampler :
    (oversample prep 0 0x3F800000 EqEngine.cleared).1 = 0x3B000000 ∧
    (oversample prep 0 0 (oversample prep 0 0x3F800000 EqEngine.cleared).2).1 = 0xBD100000 := by decide +kernel

/-- Mix 0, 0.5 and 1 of the first Peak row on one sample x = 0.5 (90_conflicts.md C1). -/
theorem test_mix :
    let s (m : Word) : State := { prep with
      eqb := prep.eqb.set 0 (prep.eqb[0].set 7 m)
      eqc := prep.eqc.set 0 #v[0x3F85A041, 0xBFF299DE, 0x3F5E230C, 0xBFF299DE, 0x3F69638E] }
    (bandOut (s 0) 0 0 0x3F000000 EqEngine.cleared).1 = 0x3F000000 ∧
    (bandOut (s 0x3F000000) 0 0 0x3F000000 EqEngine.cleared).1 = 0x3F02D020 ∧
    (bandOut (s 0x3F800000) 0 0 0x3F000000 EqEngine.cleared).1 = 0x3F05A041 ∧
    (bandOut (s 0x3FC00000) 0 0 0x3F000000 EqEngine.cleared).1 = 0x3F05A041 := by decide +kernel

/-- C = 2 and a frame (1.0, 0.0) give the mono value 0.5. -/
theorem test_mono :
    (match monoFrame { prep with mem := Memory.setWord (Memory.setWord [] 0x10000 0x3F800000) 0x10004 0 } 0x10000 0 with
      | .next y => y == 0x3F000000
      | .fault _ => false
      | .refused _ => false) = true := by decide +kernel

/-- Rule R257: the first noise value from the seed 0x12345678, and the formula's 1.0 at the top of its range. -/
theorem test_noise :
    xorshift32 0x12345678 = 0x87985AA5 ∧ noiseValue 0x87985AA5 = 0xBF70CF4B ∧ noiseValue 0x7FFFFFC0 = 0x3F800000 ∧
    noiseValue 0x7FFFFFBF = 0x3F7FFFFF := by decide +kernel

/-- Windows: the first entry of Hann is 0.0, of Hamming 0x3DA3D70C, of Blackman 0xB2800000. -/
theorem test_windows :
    windowEntry 0 64 0 = 0 ∧ windowEntry 1 64 0 = 0x3DA3D70C ∧ windowEntry 2 64 0 = 0xB2800000 ∧
    windowEntry 3 64 5 = 0x3F800000 := by decide +kernel

/-- A pass over the magnitudes of a list, with N = 64 and fs = 48000. -/
def passWith (M : List F32) : Pass := ⟨64, 33, 0x473B8000, #[], M.toArray, #[], #[]⟩

/-- M[0] = 32 and M[1] = 16 give a centroid of 250 Hz; the first pass's flux is the sum of M; a constant spectrum has no
peak. -/
theorem test_features :
    centroid (passWith [0x42000000, 0x41800000]) = 0x437A0000 ∧
    flux (passWith [0x42000000, 0x41800000]) = 0x42400000 ∧
    peaks (passWith (List.replicate 33 0x3F800000)) = [] := by decide +kernel

/-- Rules R539, R551: a confidence above 1 or below 0 is clamped, one between is kept. -/
theorem test_confidence :
    confidence 0x40000000 = 0x3F800000 ∧ confidence 0xBF800000 = 0 ∧ confidence 0x3F000000 = 0x3F000000 := by
  decide +kernel

/-- Rule R525: at fs = 6000, where fs/2 = 3000 is below 3200, band 5 is empty and gives 0.0 whatever M[N/2] is, and band
4 holds fs/2; at fs = 6400 band 5 holds it. -/
theorem test_contrast_bands :
    let low : Pass := { passWith (List.replicate 33 0x7F800000) with fs := 0x45BB8000 }
    (contrast low)[5]? = some 0 ∧ inContrastBand low 4 (binFreq low 32) = true ∧
    inContrastBand { low with fs := 0x45C80000 } 5 0x45480000 = true := by decide +kernel

/-- The tempo folding rows: 2812.5 BPM halved four times, 87.890625 BPM doubled once. -/
theorem test_tempo_folding :
    foldTempo 0x42700000 0x43340000 32 0x452FC800 = 0x432FC800 ∧
    foldTempo 0x42C80000 0x43340000 32 0x42AFC800 = 0x432FC800 := by decide +kernel

/-! ## Placing and running a word (the host's fetch) -/

theorem test_fetch_doorbell :
    goesOn (step (State.reset.withFetchWord 64 0x0000000000000000)) (fun s => s.cmdCount == 1 && !s.busy) = true ∧
    goesOn (step (State.reset.withFetchWord 64 0x0100000000000000)) (fun s => s.prepared) = true := by decide +kernel

theorem test_fetch_queue_and_event :
    goesOn (step (State.reset.withFetchWord 64 0x2001020040C00000)) (fun s => s.eqb[1][2] == 0x40C00000) = true ∧
    goesOn (step (State.reset.withFetchWord 64 0x3045640000000000))
      (fun s => s.voices[0].active && s.voices[0].note == 69 && s.synActive == 1) = true := by decide +kernel

/-- An agent's doorbell write at a platform address starts a command (rules R37, R100). -/
theorem test_agent_access :
    goesOn (step { State.reset with agenda := [.access 3 (.write 4 (Config.blockBase + 0x010) 0x01000000)] })
      (fun t => t.busy && t.doorbellAgent == some 3 && t.latched == 0x0100000000000000 && t.cmdHi == 0x01000000) =
      true := by
  have ho : offsetOf (Config.blockBase + 0x010) = some 0x010 := offsetOf_eq_some.2 ⟨rfl, by decide⟩
  simp only [step, nextTurn, takeTurn, agentAccess, ho]
  decide +kernel

/-- Rule R682: a second agent's doorbell write (H1), and a PQ_PUSH_HI without its PQ_PUSH_LO (H2), are refused; an address
past the window is no access of the block (rule R100). -/
theorem test_duties :
    agentAccess 1 (.write 4 (Config.blockBase + 0x010) 0) { State.reset with doorbellAgent := some 0 } =
      .refused (.hostDuty 0x010) ∧
    agentAccess 0 (.write 4 (Config.blockBase + 0x034) 0) State.reset = .refused (.hostDuty 0x034) ∧
    agentAccess 0 (.read 4 (Config.blockBase + 0x80000)) State.reset =
      .fault (.outsideWindow (Config.blockBase + 0x80000)) := by
  have h1 : offsetOf (Config.blockBase + 0x010) = some 0x010 := offsetOf_eq_some.2 ⟨rfl, by decide⟩
  have h2 : offsetOf (Config.blockBase + 0x034) = some 0x034 := offsetOf_eq_some.2 ⟨rfl, by decide⟩
  have h3 : offsetOf (Config.blockBase + 0x80000) = none := by simp [offsetOf]
  simp only [agentAccess, h1, h2, h3]
  exact ⟨rfl, rfl, trivial⟩

/-- Rules R104, I11: a write of a bad width is a bus error, whatever duty a 32-bit write would break. -/
theorem test_bad_width_of_a_duty :
    agentAccess 1 (.write 1 (Config.blockBase + 0x010) 0) { State.reset with doorbellAgent := some 0 } =
      .fault (.busError 0x010) ∧
    agentAccess 0 (.write 2 (Config.blockBase + 0x034) 0) State.reset = .fault (.busError 0x034) := by
  have h1 : offsetOf (Config.blockBase + 0x010) = some 0x010 := offsetOf_eq_some.2 ⟨rfl, by decide⟩
  have h2 : offsetOf (Config.blockBase + 0x034) = some 0x034 := offsetOf_eq_some.2 ⟨rfl, by decide⟩
  simp only [agentAccess, h1, h2]
  exact ⟨rfl, rfl⟩

/-- The engine's turn of a NOP, and a read of STATUS after it, which returns BUSY = 0 (rule R116). -/
theorem test_agenda :
    goesOn (andThen (step { State.reset with busy := true, agenda := [.engine] }) (access (.read 4 0x008)))
      (fun s => s.readData == 0 && s.cmdCount == 1 && s.agenda == []) = true := by decide +kernel

/-- Rule R670: a wavetable write while a SYN_RENDER runs is in memory after the command, and not before it. -/
theorem test_race :
    let s : State := { prep with latched := 0x0200000000000000, busy := true }
    goesOn (access (.write 4 0x2000 7) s) (fun s => s.mem == [] && s.raced == [(0x2000, 7)]) = true ∧
    goesOn (andThen (access (.write 4 0x2000 7) s) step)
      (fun s => Memory.word s.mem 0x2000 == some 7 && s.raced == [] && s.cmdResult == 0x00000200) = true := by
  decide +kernel

/-- Rules R211, R670: a push after the drain's tail snapshot waits for the next drain; one before it does not. -/
theorem test_push_while_busy :
    let s : State := { prep with latched := 0x0200000000000000, busy := true }
    goesOn (andThen (enginePart s) fun t => engineTurn (pushQueue 0x10000E00 t))
      (fun u => queueDepth u == 1 && u.cmdCount == 1) = true ∧
    goesOn (engineTurn (pushQueue 0x10000E00 s)) (fun u => queueDepth u == 0 && u.synp[14] == 0) = true := by
  decide +kernel

/-- `n` parts of the command in progress. -/
def parts : Nat → State → Res State
  | 0, s => .next s
  | n + 1, s => andThen (enginePart s) (parts n)

/-- A SYN_RENDER of one frame part by part: the checks, the drain's end, the body's begin, the frame's value, its write,
the end of the body and the published statistics (rules R204, R211, R250). -/
theorem test_parts :
    let s : State := { prep with latched := 0x0200000000000001, busy := true }
    goesOn (parts 4 s) (fun t => t.progress == .writing 0 0 0 && t.mem == []) = true ∧
    goesOn (parts 5 s) (fun t => t.progress == .running 1 0 && Memory.word t.mem 0x10004 == some 0 && t.busy) = true ∧
    goesOn (parts 7 s) (fun t => t.progress == .finishing .ok && t.cmdCount == 0) = true := by decide +kernel

/-- Rule R250: an event word no note event decodes from is counted in a part of its own, before frame 0 is read. -/
theorem test_parts_of_an_event :
    let s : State := { prep with
      latched := 0x0200000100000001, busy := true, mem := Memory.setWord (Memory.setWord [] 0x1000 0) 0x1004 0 }
    goesOn (parts 4 s) (fun t => t.progress == .running 0 1 && t.illegalCount == 1) = true ∧
    goesOn (parts 5 s) (fun t => t.progress == .writing 0 1 0) = true := by decide +kernel

/-- Rules R114, R670, I15: the sample a read may find early is what EQ_PROCESS then writes, whatever host write races in
between; that write too may stay in the end. -/
theorem test_found_new_is_written :
    let s : State := { prep with
      latched := 0x0300000000000001, busy := true, progress := .running 0 0, mem := Memory.zeroCells 0x10000 8 }
    goesOn (andThen (andThen (enginePart s) (access (.write 4 0x10000 7))) enginePart)
      (fun t => t.raced == [(0x10000, 7)] && t.progress == .running 1 0 &&
        match enginePart s with
        | .next u => Memory.word t.mem 0x10000 == Memory.word (upcoming u).mem 0x10000
        | .fault _ => false
        | .refused _ => false) = true := by decide +kernel

/-- Rule R211: a part takes an entry off the queue, and the next one applies it. -/
theorem test_parts_of_a_drain :
    let s : State := { queuedOne 0x10000E003F000000 with latched := 0x0400000000000000, busy := true }
    goesOn (parts 2 s) (fun t => t.head == 1 && t.synp[14] == 0x3F800000) = true ∧
    goesOn (parts 3 s) (fun t => t.head == 1 && t.synp[14] == 0x3F000000 && t.progress == .draining 1) = true := by
  decide +kernel

/-- Rules R450, R451: SPEC_PENDING is the hop before it is cleared and the pass begins. -/
theorem test_parts_of_an_ingestion :
    let s : State := { prep with
      latched := 0x0400000000000001, busy := true, progress := .running 0 0
      mem := Memory.zeroCells 0x10000 8, spec := { SpecEngine.reset with pending := 511 } }
    goesOn (parts 2 s) (fun t => t.spec.pending == 512 && t.spec.samples == 1 && t.specSeq == 0) = true ∧
    goesOn (parts 3 s) (fun t => t.spec.pending == 0 && t.specSeq == 1 && t.progress == .publishing 1) = true := by
  decide +kernel

/-- Rule R118: with a setter applied, SYNP[14] may still be found as it was before the command, and so may SPEC_PENDING;
the host's own BUSY_DROP, and SPEC_FRAME outside a publication, race with nothing. BUSY is found set. -/
theorem test_words_before_the_command :
    goesOn (andThen (access (.write 4 0x010 0x04000000) (queuedOne 0x10000E003F000000)) (parts 3))
      (fun t => t.synp[14] == 0x3F000000 && wordBefore .csr 0x438 t 0 == 0x3F800000 && wordBefore .csr 0x008 t 0 == 3 &&
        readRaces .csr 0x438 t && readRaces .csr 0x138 t && !readRaces .csr 0x01C t && !readRaces .csr 0x124 t) =
      true := by decide +kernel

/-- Rules R115, R210: after a push no read finds an older PQ_STATUS. -/
theorem test_push_is_found :
    goesOn (andThen (access (.write 4 0x010 0x04000000) prep) (access (.write 4 0x034 0)))
      (fun t => wordBefore .csr 0x038 t 0 == 0x00000101) = true := by decide +kernel

/-- Rule R655: the first part of a PREPARE leaves SPEC_SEQ odd, the second even; PREPARED is set by the third. -/
theorem test_parts_of_prepare :
    let s : State := { State.reset with latched := 0x0100000000000000, busy := true }
    goesOn (enginePart s) (fun t => t.specSeq == 1 && t.act == CfgRegs.reset) = true ∧
    goesOn (andThen (andThen (enginePart s) enginePart) enginePart)
      (fun t => t.specSeq == 2 && t.prepared && t.busy) = true := by decide +kernel

/-- Rule R250: a gain of -0.0 gives the same +0.0 as any other gain does on silence. -/
theorem test_silent_gain : pGain { prep with synp := prep.synp.set 14 0x80000000 } = 0 := by
  have hm : fmax 0x80000000 fZero = 0x80000000 ∨ fmax 0x80000000 fZero = fZero := by
    have h : fmax 0x80000000 fZero = if Config.zeroTie true 0x80000000 fZero then 0x80000000 else fZero := rfl
    rw [h]
    split
    · exact .inl rfl
    · exact .inr rfl
  have hc : fclamp 0x80000000 fZero (f32OfNat 4) = fmin (fmax 0x80000000 fZero) (f32OfNat 4) := rfl
  show (if isZero (fclamp 0x80000000 fZero (f32OfNat 4)) then fZero else _) = 0
  rw [hc]
  rcases hm with h | h <;> rw [h] <;> rfl

/-! ## Witnesses: states and operands that meet the hypotheses of the statements

Each is named after the statement it serves; a statement without hypotheses has none. -/

/-- The reset configuration is one PREPARE accepts (rule R43). -/
theorem cfgLegal_reset : cfgLegal CfgRegs.reset := by
  intro i hi
  interval_cases i
  all_goals first
    | exact ⟨11, by decide⟩
    | exact trivial
    | (simp only [cfgRegLegal]; decide +kernel)

theorem readable_zeroed {a : Nat} (h : 0x1000 ≤ a) (h2 : a + 4 ≤ 0x20000) :
    (Memory.word zeroed.mem a).isSome = true := by
  simp only [zeroed, word_isSome, byte_zeroCells]
  refine ⟨?_, ?_, ?_, ?_⟩ <;> rw [if_pos ⟨by omega, by omega⟩] <;> rfl

theorem word_zeroed {a : Nat} (h : 0x1000 ≤ a) (h2 : a + 4 ≤ 0x20000) : Memory.word zeroed.mem a = some 0 := by
  simp only [zeroed, Memory.word, byte_zeroCells]
  rw [if_pos ⟨by omega, by omega⟩, if_pos ⟨by omega, by omega⟩, if_pos ⟨by omega, by omega⟩, if_pos ⟨by omega, by omega⟩]
  rfl

theorem readableWords_zeroed {a n : Nat} (h : 0x1000 ≤ a) (h2 : a + 4 * n ≤ 0x20000) :
    readableWords zeroed a n = true := readableWords_iff.2 fun j hj => readable_zeroed (by omega) (by omega)

theorem test_witness_DecodeOfEncode :
    (Instr.eqType 7 0).wellFormed = true ∧ (Instr.eqType 8 0).wellFormed = false := by decide

theorem test_witness_ReservedFieldsAreIgnored :
    decodeWord .doorbell 0x0100000000000000 = .ok .prepare ∧
    ((0x0100000000000000 : Cmd) ^^^ 0x01FFFFFFFFFFFFFF) &&& (0xFF00000000000000 ||| operandMask .prepare) = 0 ∧
    decodeWord .event 0x3145000000000100 = .ok (.noteOff 69 256) ∧
    ((0x3145000000000100 : Cmd) ^^^ 0x3145FFFF00000100) &&& (0xFF00000000000000 ||| operandMask (.noteOff 69 256)) = 0 := by
  and_intros <;> rfl

/-- Both sides of each boundary: opcodes 4 and 5; B 14 and 15, A 7 and 8, B 10 and 11, B 3 and 4; opcodes 0x2F to 0x32. -/
theorem test_witness_DecoderAcceptsExactly :
    decodeWord .doorbell 0x0400000000000000 = .ok (.specProcess 0 0) ∧
    decodeWord .doorbell 0x0500000000000000 = .error (.illegalOpcode .doorbell 5) ∧
    queueWordLegal 0x10000E0000000000 ∧ ¬ queueWordLegal 0x10000F0000000000 ∧
    queueWordLegal 0x20070A0000000000 ∧ ¬ queueWordLegal 0x20080A0000000000 ∧ ¬ queueWordLegal 0x20070B0000000000 ∧
    queueWordLegal 0x2100030000000000 ∧ ¬ queueWordLegal 0x2100040000000000 ∧
    decodeWord .event 0x2F00000000000000 = .error (.illegalOpcode .event 0x2F) ∧
    decodeWord .event 0x3000000000000000 = .ok (.noteOn 0 0 0) ∧
    decodeWord .event 0x3100000000000000 = .ok (.noteOff 0 0) ∧
    decodeWord .event 0x3200000000000000 = .error (.illegalOpcode .event 0x32) := by
  refine ⟨rfl, rfl, ?_, ?_, ?_, ?_, ?_, ?_, ?_, rfl, rfl, rfl, rfl⟩ <;> unfold queueWordLegal <;> decide

theorem test_witness_IllegalEncodingsAreCounted :
    ({ State.reset with latched := 0x0500000000000000, busy := true } : State).busy = true ∧
    4 < (Cmd.op 0x0500000000000000).toNat ∧ 4 < (Cmd.op 0xFF00000000000000).toNat ∧
    ¬ queueWordLegal 0x2008000000000000 ∧ Cmd.op 0x3200000000000000 ≠ 0x30 ∧ Cmd.op 0x3200000000000000 ≠ 0x31 := by
  refine ⟨rfl, by decide, by decide, ?_, by decide, by decide⟩
  unfold queueWordLegal
  decide

/-- A block with a NOP in progress. -/
def nopRuns (turns : List Turn) : State := { State.reset with busy := true, agenda := turns }

theorem test_witness_StepRunsTheDecodedInstruction :
    ((nopRuns []).agenda = [] ∧ (nopRuns []).busy = true ∧ (nopRuns []).progress = .start ∧
      decodeWord .doorbell (nopRuns []).latched = .ok .nop) ∧
    ((nopRuns [.engine, .reset]).agenda = .engine :: [.reset] ∧ (nopRuns [.engine, .reset]).busy = true ∧
      (nopRuns [.engine, .reset]).progress = .start ∧ decodeWord .doorbell (nopRuns [.engine, .reset]).latched = .ok .nop) ∧
    (nopRuns []).raced = [] ∧ decodeWord .queue 0x10000E003F800000 = .ok (.synGain 0x3F800000) ∧
    decodeWord .event 0x3045640000000000 = .ok (.noteOn 69 100 0) := by
  and_intros <;> rfl

theorem test_witness_CommandsCompleteExactlyOnce :
    (∃ t, engineTurn (nopRuns []) = .next t) ∧ (nopRuns []).busy = true ∧ Cmd.op (nopRuns []).latched = 0x00 ∧
    Cmd.op 0x0100000000000000 = 0x01 ∧ 4 < (Cmd.op 0x0500000000000000).toNat := ⟨⟨_, rfl⟩, rfl, rfl, rfl, by decide⟩

/-- Each clause: sample rate 0; FFT size 0 and 1000; the first register (i = 0) and the last (i = 16) illegal. -/
theorem test_witness_PrepareFailuresAreOrderedAndPrecise :
    (∃ s : State, s.cfg.sampleRate = 0) ∧
    (∃ s : State, s.cfg.sampleRate ≠ 0 ∧ ∀ e, s.cfg.fftSize.toNat ≠ 2 ^ e) ∧
    (∃ s : State, s.cfg.sampleRate ≠ 0 ∧ (∃ e, s.cfg.fftSize.toNat = 2 ^ e) ∧ ¬ cfgRegLegal s.cfg 0) ∧
    (∃ s : State, s.cfg.sampleRate ≠ 0 ∧ (∃ e, s.cfg.fftSize.toNat = 2 ^ e) ∧ ¬ cfgRegLegal s.cfg 16 ∧
      ∀ j, j < 16 → cfgRegLegal s.cfg j) := by
  refine ⟨⟨{ State.reset with cfg := { CfgRegs.reset with sampleRate := 0 } }, rfl⟩,
    ⟨{ State.reset with cfg := { CfgRegs.reset with fftSize := 0 } }, by decide, fun e h => ?_⟩,
    ⟨{ State.reset with cfg := { CfgRegs.reset with sampleRate := 800000 } }, by decide, ⟨11, rfl⟩, ?_⟩,
    ⟨{ State.reset with cfg := { CfgRegs.reset with yinThresh := 0x3F800001 } }, by decide, ⟨11, rfl⟩, ?_, ?_⟩⟩
  · have h : (0 : Nat) = 2 ^ e := h
    have := Nat.two_pow_pos e
    omega
  · simp only [cfgRegLegal]
    decide
  · simp only [cfgRegLegal]
    decide +kernel
  · intro j hj
    have := cfgLegal_reset j (by omega)
    interval_cases j <;> exact this

theorem test_witness_PrepareLatchesAndResetsTheEngines : cfgLegal State.reset.cfg := cfgLegal_reset

theorem test_witness_ProcessCommandChecks :
    State.reset.prepared = false ∧ prep.prepared = true ∧ 1 < (2 : BitVec 8).toNat ∧ 1 < (255 : BitVec 8).toNat := by
  decide

/-- One entry queued, and buffer 1. -/
theorem test_witness_DrainAppliesTheQueueInOrder :
    (queuedOne 0x10000E003F800000).prepared = true ∧ (1 : BitVec 8).toNat ≤ 1 ∧
    queued (queuedOne 0x10000E003F800000) = [0x10000E003F800000] := by decide +kernel

/-- 31 entries and 30 entries. -/
theorem test_witness_PushAppendsOrDrops :
    (queued { State.reset with tail := 31 }).length = 31 ∧ (queued { State.reset with tail := 30 }).length < 31 := by
  simp only [queued_length]
  decide +kernel

theorem test_witness_StatusWordsHoldTheirFields :
    ∀ j, j = 6 ∨ j = 7 ∨ j = 11 → (6 ≤ j ∧ j ≤ 7) ∨ 11 ≤ j := by omega

theorem idle_prep (u : Fin 32) : prep.voices[u].active = false := by
  revert u
  decide +kernel

theorem test_witness_NoteOnTakesTheFirstFreeVoice :
    (64 : BitVec 8) ≠ 0 ∧ (0 : Fin 32).val < prep.act.voices.toNat ∧ prep.voices[(0 : Fin 32)].active = false ∧
    ∀ u : Fin 32, u < 0 → prep.voices[u].active = true :=
  ⟨by decide, by decide, idle_prep 0, fun u h => absurd h (by omega)⟩

/-- `n` voices held, of ages 0, and ACT.V = `n`. -/
def held (n : Nat) : State :=
  { prep with
    act := { CfgRegs.reset with voices := BitVec.ofNat 32 n }
    voices := Vector.ofFn fun v : Fin 32 => if v.val < n then freshVoice v.val 60 100 else Voice.idle v.val }

/-- The last voice below ACT.V is the only free one. -/
theorem test_witness_NoteOnTakesTheFirstFreeVoice_last :
    (15 : Fin 32).val < ({ held 15 with act := CfgRegs.reset } : State).act.voices.toNat ∧
    (held 15).voices[(15 : Fin 32)].active = false ∧ ∀ u : Fin 32, u < 15 → (held 15).voices[u].active = true := by
  decide +kernel

/-- One voice, and 32 voices of equal age, of which the first is stolen. -/
theorem test_witness_NoteOnStealsTheOldestVoice :
    ∀ n ∈ [1, 32], (held n).act.voices.toNat ≤ 32 ∧ (0 : Fin 32).val < (held n).act.voices.toNat ∧
      (∀ u : Fin 32, u.val < (held n).act.voices.toNat → (held n).voices[u].active = true) ∧
      ∀ u : Fin 32, u.val < (held n).act.voices.toNat → u ≠ 0 →
        min ((held n).voices[u].age.toNat + 1) 0xFFFFFFFF ≤ min ((held n).voices[(0 : Fin 32)].age.toNat + 1) 0xFFFFFFFF ∧
        (u < 0 → min ((held n).voices[u].age.toNat + 1) 0xFFFFFFFF <
          min ((held n).voices[(0 : Fin 32)].age.toNat + 1) 0xFFFFFFFF) := by
  decide +kernel

theorem configLegal_prep : configLegal prep := fun _ => cfgLegal_reset

theorem voicesLegal_held (n : Nat) (h : n ∈ [0, 1]) : voicesLegal { held n with act := CfgRegs.reset } := by
  simp only [List.mem_cons, List.not_mem_nil, or_false] at h
  unfold voicesLegal voiceLegal configured
  rcases h with rfl | rfl <;> decide +kernel

/-- A prepared block with one held voice. -/
theorem test_witness_NoteOnKeepsAgesDistinct :
    let s : State := { held 1 with act := CfgRegs.reset }
    s.prepared = true ∧ configLegal s ∧ voicesLegal s ∧ agesDistinct s ∧
      (∀ u : Fin 32, s.voices[u].active = true → s.voices[u].age ≠ 0xFFFFFFFF) ∧
      (∃ t, exec (.noteOn 69 100 0) s = .next t) ∧ ∃ t, exec (.noteOff 60 0) s = .next t := by
  refine ⟨rfl, fun _ => cfgLegal_reset, voicesLegal_held 1 (by decide), ?_, ?_, ?_, ?_⟩
  · unfold agesDistinct
    decide +kernel
  · decide +kernel
  · obtain ⟨t, h, -⟩ := execNoteOn_completes 69 100 0 { held 1 with act := CfgRegs.reset }
    exact ⟨t, h⟩
  · exact ⟨_, rfl⟩

/-- No event and 256 events or more; a readable wavetable, and no wavetable voice with an empty queue. -/
theorem test_witness_SynRenderCompletes :
    zeroed.prepared = true ∧ (1 : BitVec 8).toNat ≤ 1 ∧
    readableWords zeroed 0x01000 (2 * min (0 : BitVec 16).toNat 256) = true ∧
    readableWords zeroed 0x01000 (2 * min (0xFFFF : BitVec 16).toNat 256) = true ∧
    readableWords zeroed 0x02000 2048 = true ∧ zeroed.head = zeroed.tail ∧ zeroed.synp[0] ≠ 3 :=
  ⟨rfl, by decide, readableWords_zeroed (by decide) (by decide), readableWords_zeroed (by decide) (by decide),
    readableWords_zeroed (by decide) (by decide), rfl, by decide⟩

theorem synRender_zeroed (k : BitVec 8) (e : BitVec 16) (n : Word) (hk : k.toNat ≤ 1) :
    ∃ t, exec (.synRender k e n) zeroed = .next t := by
  have hr : renderReady (eventCount e) zeroed := by
    refine ⟨fun j hj => readable_zeroed (by simp only [evtBase]; omega) ?_, .inl (by decide)⟩
    have : eventCount e ≤ 256 := Nat.min_le_right _ _
    simp only [evtBase]
    omega
  obtain ⟨t, -, ht⟩ := renderBlock_completes k e n zeroed hr
  exact ⟨_, by rw [exec_synRender]; exact processCommand_completes rfl hk (drain_empty _ rfl) ht⟩

theorem test_witness_SynRenderFrame : ∃ t, exec (.synRender 1 256 4096) zeroed = .next t :=
  synRender_zeroed 1 256 4096 (by decide)

/-- The last frame and channel of a block of 512 frames of 2 channels. -/
theorem test_witness_SynRenderWritesEveryChannelAlike :
    zeroed.prepared = true ∧ (1 : BitVec 8).toNat ≤ 1 ∧ (∃ t, exec (.synRender 1 0 512) zeroed = .next t) ∧
    511 < frameCount 512 zeroed ∧ 1 < actC zeroed :=
  ⟨rfl, by decide, synRender_zeroed 1 0 512 (by decide), by decide +kernel, by decide +kernel⟩

/-- A gain of 1.0, and a gain of -0.0. -/
theorem test_witness_SynRenderOfSilence :
    prep.prepared = true ∧ prep.head = prep.tail ∧
    (∀ u, u < prep.act.voices.toNat → (prep.voices.getD u (Voice.idle u)).active = false) ∧
    isNaN prep.synp[14] = false ∧ 1023 < frameCount 512 prep * actC prep ∧
    isNaN ({ prep with synp := prep.synp.set 14 0x80000000 } : State).synp[14] = false := by
  refine ⟨rfl, rfl, ?_, by decide +kernel, by decide +kernel, by decide +kernel⟩
  have h : prep.act.voices.toNat = 16 := by decide
  rw [h]
  intro u hu
  interval_cases u <;> decide +kernel

/-- No frame, one frame and a block of 512, a readable wavetable and a waveform that reads none. -/
theorem test_witness_SynRenderAppliesEventsInOrder_frames :
    frameCount 0 zeroed = 0 ∧ frameCount 1 zeroed = 1 ∧ frameCount 512 zeroed = 512 ∧
    readableWords zeroed 0x02000 2048 = true ∧ zeroed.synp[0] ≠ 3 :=
  ⟨by decide +kernel, by decide +kernel, by decide +kernel, readableWords_zeroed (by decide) (by decide), by decide⟩

/-- An event at frame 2 of 4 is applied before that frame, and one past the end before the last (rule R250). -/
theorem test_event_frames : eventFrame 4 0x3045640000000002 = 2 ∧ eventFrame 4 0x3045640000000009 = 3 ∧
    eventFrame 0 0x3045640000000009 = 0 := by decide

/-- No event, one event, and the 256 events an E of 300 is clamped to. -/
theorem test_witness_SynRenderAppliesEventsInOrder :
    ∀ en ∈ [((0 : BitVec 16), 0), (1, 1), (300, 256)],
      zeroed.prepared = true ∧ zeroed.head = zeroed.tail ∧ zeroed.raced = [] ∧
      (List.replicate en.2 (0 : Cmd)).length = min en.1.toNat 256 ∧
      ∀ j, j < (List.replicate en.2 (0 : Cmd)).length →
        Memory.word zeroed.mem (0x01000 + 8 * j) = some (Cmd.lo ((List.replicate en.2 (0 : Cmd)).getD j 0)) ∧
        Memory.word zeroed.mem (0x01004 + 8 * j) = some (Cmd.hi ((List.replicate en.2 (0 : Cmd)).getD j 0)) := by
  intro en hen
  have hn : en.2 = min en.1.toNat 256 ∧ en.2 ≤ 256 := by
    simp only [List.mem_cons, List.not_mem_nil, or_false] at hen
    rcases hen with rfl | rfl | rfl <;> decide
  refine ⟨rfl, rfl, rfl, by rw [List.length_replicate]; exact hn.1, fun j hj => ?_⟩
  rw [List.length_replicate] at hj
  have h0 : (List.replicate en.2 (0 : Cmd)).getD j 0 = 0 := by
    rw [List.getD_eq_getElem?_getD, List.getElem?_replicate]
    split <;> rfl
  rw [h0, word_zeroed (by omega) (by omega), word_zeroed (by omega) (by omega)]
  exact ⟨rfl, rfl⟩

theorem eqProcess_zeroed (k : BitVec 8) (n : Word) (hk : k.toNat ≤ 1) : ∃ t, exec (.eqProcess k n) zeroed = .next t := by
  have hm : frameCount n zeroed ≤ 512 := Nat.min_le_right _ _
  have hc : actC zeroed = 2 := by decide
  obtain ⟨t, ht⟩ := eqBlock_completes k n zeroed fun j hj => readable_zeroed (by simp only [bufBase]; omega)
    (by rw [hc] at hj; simp only [bufBase]; omega)
  exact ⟨_, by rw [exec_eqProcess]; exact processCommand_completes rfl hk (drain_empty _ rfl) ht⟩

/-- Readable samples, the last frame and channel of the block, with both ways through the chain; and a global bypass over
samples nothing has written. -/
theorem test_witness_EqProcessCompletes :
    zeroed.prepared = true ∧ (1 : BitVec 8).toNat ≤ 1 ∧
    readableWords zeroed (bufBase 1) (frameCount 0xFFFFFFFF zeroed * actC zeroed) = true ∧
    (drain zeroed = .next zeroed ∧ zeroed.eqg[3] ≠ 1 ∧ 511 < frameCount 0xFFFFFFFF zeroed ∧
      1 < zeroed.act.channels.toNat) ∧ eqIdle zeroed = true ∧
    eqIdle { zeroed with eqg := zeroed.eqg.set 2 1, act := { CfgRegs.reset with oversample := 2 } } = false ∧
    let s : State := { prep with eqg := prep.eqg.set 3 1 }
    s.head = s.tail ∧ s.eqg[3] = 1 := by
  refine ⟨rfl, by decide, readableWords_zeroed (by decide) ?_, ⟨drain_empty _ rfl, by decide, by decide +kernel, by decide⟩,
    by decide +kernel, by decide +kernel, rfl, by decide⟩
  have : frameCount 0xFFFFFFFF zeroed * actC zeroed = 1024 := by decide +kernel
  rw [this]
  decide

theorem test_witness_EqProcessFrame : ∃ t, exec (.eqProcess 1 512) zeroed = .next t :=
  eqProcess_zeroed 1 512 (by decide)

theorem test_witness_EqGlobalBypassWritesNothing :
    let s : State := { prep with eqg := prep.eqg.set 3 1 }
    s.prepared = true ∧ (0 : BitVec 8).toNat ≤ 1 ∧ goesOn (exec (.eqProcess 0 64) s) (fun t => t.eqg[3] == 1) = true := by
  decide +kernel

/-- Oversampling 1 and 2, gains +0.0 and -0.0; the last word of the block; a word that is no NaN and one that is. -/
theorem test_witness_EqIdleReproducesItsInput :
    ∀ s : State, s = zeroed ∨
        s = { zeroed with act := { CfgRegs.reset with oversample := 2 }, eqg := #v[0x80000000, 0, 0, 0] } →
      s.prepared = true ∧ s.head = s.tail ∧ s.raced = [] ∧ (∀ b, b < 8 → bandProcesses s b = false) ∧ s.eqg[2] = 0 ∧
      isZero s.eqg[0] = true ∧ isZero s.eqg[1] = true ∧
      readableWords s (bufBase 1) (frameCount 512 s * actC s) = true ∧ 1023 < frameCount 512 s * actC s ∧
      Memory.word s.mem (bufBase 1 + 4 * 1023) = some 0 ∧ isNaN 0 = false ∧ isNaN 0x7FC00000 = true := by
  intro s hs
  have hw : Memory.word zeroed.mem (bufBase 1 + 4 * 1023) = some 0 := word_zeroed (by decide) (by decide)
  have hr : readableWords zeroed (bufBase 1) 1024 = true := readableWords_zeroed (by decide) (by decide)
  rcases hs with rfl | rfl <;>
    refine ⟨rfl, rfl, rfl, fun b hb => ?_, by decide, by decide, by decide, hr, by decide +kernel, hw, by decide, by decide⟩ <;>
    interval_cases b <;> decide +kernel

/-- EQ_PROCESS of 0 frames, with band 0 enabled and the others not. -/
theorem test_witness_EqSkippedBandsStayFrozen :
    let s : State := { prep with eqb := prep.eqb.set 0 (prep.eqb[0].set 8 1) }
    s.prepared = true ∧ (0 : BitVec 8).toNat ≤ 1 ∧
      goesOn (exec (.eqProcess 0 0) s) (fun t => bandProcesses t 7 == false && t.eqb[7][8] != 1 && t.eqg[3] != 1 &&
        t.eqb[0][8] == 1) = true := by
  decide +kernel

theorem publicationLegal_pending (n : Word) (h : n.toNat < 512) :
    publicationLegal { prep with spec := { SpecEngine.reset with pending := n } } :=
  ⟨rfl, (by decide : (0 : Word).toNat < 32), (by decide : (0 : Word).toNat ≤ 32), fun _ => .inr (.inr h)⟩

/-- 511 samples pending, so that one more sample completes the hop. -/
theorem test_witness_SpecProcessRunsOnePassPerHop :
    let s : State := { zeroed with spec := { SpecEngine.reset with pending := 511 } }
    s.prepared = true ∧ configLegal s ∧ s.spec.pending.toNat < s.act.hop.toNat ∧ (1 : BitVec 8).toNat ≤ 1 ∧
      readableWords s (bufBase 1) (frameCount 1 s * actC s) = true ∧ 0 < frameCount 1 s ∧
      s.spec.pending + 1 = s.act.hop :=
  ⟨rfl, fun _ => cfgLegal_reset, by decide, by decide, readableWords_zeroed (n := 2) (by decide) (by decide),
    by decide +kernel, by decide⟩

/-- A block of one hop from no pending sample, which runs one pass, and one of 511 samples, which runs none; the address
past the last bin and the ones next to the pass's slot, which neither writes. -/
theorem test_witness_SpecProcessFrame :
    configLegal zeroed ∧ (∃ t, exec (.specProcess 1 512) zeroed = .next t) ∧
    (zeroed.spec.pending.toNat + frameCount 512 zeroed) / zeroed.act.hop.toNat = 1 ∧
    (zeroed.spec.pending.toNat + frameCount 511 zeroed) / zeroed.act.hop.toNat = 0 ∧
    ∀ a ∈ [0x31004, 0x20200, 0x1FFFF], (∀ b, b < 1025 → ∀ base ∈ [magBase, phaseBase, powerBase],
        a < base + 4 * b ∨ base + 4 * b + 4 ≤ a) ∧
      ∀ p, p < 1 → a < histBase ((zeroed.spec.frame.toNat + p) % 32) ∨
        histBase ((zeroed.spec.frame.toNat + p) % 32) + 0x200 ≤ a := by
  refine ⟨fun _ => cfgLegal_reset, ?_, by decide +kernel, by decide +kernel, by
    intro a ha
    simp only [List.mem_cons, List.not_mem_nil, or_false] at ha
    refine ⟨fun b hb base hbase => ?_, fun p hp => ?_⟩
    · simp only [List.mem_cons, List.not_mem_nil, or_false] at hbase
      simp only [magBase, phaseBase, powerBase] at hbase
      omega
    · obtain rfl : p = 0 := by omega
      rcases ha with rfl | rfl | rfl <;> decide⟩
  have hb : ∀ j, j < frameCount 512 zeroed * actC zeroed →
      (Memory.word zeroed.mem (bufBase (1 : BitVec 8).toNat + 4 * j)).isSome = true := by
    intro j hj
    have : frameCount 512 zeroed * actC zeroed = 1024 := by decide +kernel
    have h1 : bufBase (1 : BitVec 8).toNat = 0x18000 := by decide
    rw [h1]
    exact readable_zeroed (by omega) (by omega)
  obtain ⟨t, ht, -⟩ := specBlock_completes 1 512 zeroed hb
  exact ⟨_, by rw [exec_specProcess]; exact processCommand_completes rfl (by decide) (drain_empty _ rfl) ht⟩

/-- The first word, the last measured word's successor and the last word; a full history; the first and the last bin of a
legal configuration; every feature bit is set and is clear for some configuration, and both ends of the first and the last
row's words are in its range. -/
theorem test_witness_PassPublishesItsSnapshot :
    cfgLegal prep.act ∧ 0 < actK prep ∧ 1024 < actK prep ∧
    (prep.act.featureEn.getLsbD 0 = true ∧ prep.act.featureEn.getLsbD 9 = true) ∧
    let s : State := { prep with act := { CfgRegs.reset with featureEn := 0 } }
    (∀ j ∈ [0, 104, 127], j < 128) ∧ 104 ≤ 104 ∧ ({ SpecEngine.reset with valid := 32 } : SpecEngine).valid.toNat ≤ 32 ∧
    (s.act.featureEn.getLsbD 0 = false ∧ s.act.featureEn.getLsbD 9 = false) ∧ (3 ≤ 3 ∧ 3 ≤ 9) ∧ (55 ≤ 103 ∧ 103 ≤ 103) :=
  ⟨cfgLegal_reset, by decide, by decide, by decide⟩

/-- `n` peaks of one magnitude, at the odd bins. -/
def combs (n : Nat) : Pass := passWith ((List.replicate n [0x00000000, 0x3F800000]).flatten)

/-- 16 peaks, which are all listed, and 15 peaks; bins 1 and 31 are peaks and bin 0 is none. -/
theorem test_witness_PeaksAreTheGreatestQualifyingBins :
    isPeak (combs 16) 1 = true ∧ isPeak (combs 16) 31 = true ∧ isPeak (combs 16) 0 = false ∧
    (peaks (combs 16)).length = 16 ∧ (peaks (combs 15)).length = 15 := by decide +kernel

/-- Both sides of the qualifying test: bin 1 is at the least qualifying one, and bin 31 of K = 33 at the greatest. -/
theorem test_witness_PeaksAreTheGreatestQualifyingBins_test :
    let p := combs 16
    (1 ≤ 1 ∧ 1 + 2 ≤ p.K) ∧ (31 + 2 ≤ p.K) ∧ ¬ 32 + 2 ≤ p.K ∧ flt (tab p.M 30) (tab p.M 31) = true ∧
      fle (tab p.M 32) (tab p.M 31) = true ∧ flt 0 (tab p.M 31) = true := by decide +kernel

/-- More than 16 qualifying bins: the seventeenth, of the same magnitude, is left out. -/
theorem test_witness_PeaksAreTheGreatestQualifyingBins_seventeen :
    let p : Pass := { combs 17 with K := 36 }
    33 < p.K ∧ isPeak p 33 = true ∧ 33 ∉ peaks p := by decide +kernel

/-- The ends of each unmapped hole, and the ends of each mapped range. -/
theorem test_witness_BusErrorsAreExactly :
    (∀ off ∈ [0x1800, 0x1FFC, 0x4000, 0xFFFC, 0x24000, 0x2FFFC, 0x48000],
      (0x1800 ≤ off ∧ off < 0x2000) ∨ (0x4000 ≤ off ∧ off < 0x10000) ∨ (0x24000 ≤ off ∧ off < 0x30000) ∨
        0x48000 ≤ off) ∧
    ∀ off ∈ [0x0000, 0x17FC, 0x2000, 0x3FFC, 0x10000, 0x23FFC, 0x30000, 0x47FFC],
      off % 4 = 0 ∧ (off < 0x1800 ∨ (0x2000 ≤ off ∧ off < 0x4000) ∨ (0x10000 ≤ off ∧ off < 0x24000) ∨
        (0x30000 ≤ off ∧ off < 0x48000)) := by decide

theorem test_witness_ReadsHaveNoSideEffect :
    (∃ t u, access (.read 4 0xFFC) State.reset = .next t ∧ access (.read 4 0xFFC) t = .next u) ∧
    State.reset.busy = false ∧ zeroed.busy = false ∧ Memory.word zeroed.mem 0x1000 = some 0 ∧
    ∃ t, access (.read 4 0x1000) zeroed = .next t :=
  ⟨⟨_, _, rfl, rfl⟩, rfl, rfl, word_zeroed (by decide) (by decide), _, rfl⟩

/-- A block whose buffer-1 command `op` is in progress. -/
def processRuns (op : BitVec 8) : State := { prep with latched := assemble op 1 0 0, busy := true }

/-- Both ends of each region, quiet and racing; a write to the other buffer, which does not race; racing writes to a word
the command did not write, before and after one to another word; a word the command wrote. -/
theorem test_witness_RamWritesReadBackOrRace :
    State.reset.busy = false ∧
    (¬ ((Cmd.op (processRuns 0x03).latched = 0x02 ∧ 0x2000 < 0x4000) ∨
      ((Cmd.op (processRuns 0x03).latched = 0x02 ∨ Cmd.op (processRuns 0x03).latched = 0x03 ∨
        Cmd.op (processRuns 0x03).latched = 0x04) ∧ bufBase (Cmd.fieldA (processRuns 0x03).latched).toNat ≤ 0x17FFC ∧
          0x17FFC < bufBase (Cmd.fieldA (processRuns 0x03).latched).toNat + 0x8000))) ∧
    (∀ off ∈ [0x1000, 0x17FC, 0x2000, 0x3FFC, 0x10000, 0x1FFFC], off % 4 = 0 ∧
      ((0x1000 ≤ off ∧ off < 0x1800) ∨ (0x2000 ≤ off ∧ off < 0x4000) ∨ (0x10000 ≤ off ∧ off < 0x20000))) ∧
    (∀ op ∈ [2, 3, 4], (processRuns op).busy = true ∧ Cmd.op (processRuns op).latched = op ∧
      (Cmd.fieldA (processRuns op).latched).toNat = 1 ∧ bufBase 1 ≤ 0x18000 ∧ 0x1FFFC < bufBase 1 + 0x8000) ∧
    let s : State := { prep with latched := 0x0201000000000001, raced := [(0x2000, 7), (0x18000, 1), (0x2000, 8), (0x18000, 2)] }
    (∀ w ∈ s.raced, w.1 % 4 = 0) ∧ (s.raced.filter fun w => w.1 == 0x2000).getLast? = some (0x2000, 8) ∧
      engineWrote s 0x2000 = false ∧ engineWrote s 0x18000 = true := by decide +kernel

/-- Both ends of the read-only windows, and CSR offsets next to the writable ones. -/
theorem test_witness_ReadOnlyWritesAreIgnored :
    ∀ off ∈ [0x20000, 0x23FFC, 0x30000, 0x47FFC, 0x000, 0x008, 0x014, 0x02C, 0x038, 0x03C, 0x084, 0xFFC],
      off % 4 = 0 ∧ ((0x20000 ≤ off ∧ off < 0x24000) ∨ (0x30000 ≤ off ∧ off < 0x48000) ∨
        (off < 0x1000 ∧ off ≠ 0x00C ∧ off ≠ 0x010 ∧ off ≠ 0x030 ∧ off ≠ 0x034 ∧ (off < 0x040 ∨ 0x080 < off))) := by
  decide

/-- CFG_SAMPLE_RATE and CFG_YIN_THRESH, while a PREPARE runs and while none does. -/
theorem test_witness_ConfigurationWritesReadBack :
    (∀ off ∈ [0x040, 0x080], off % 4 = 0 ∧ 0x040 ≤ off ∧ off ≤ 0x080) ∧
    ((processRuns 0x01).busy = true ∧ Cmd.op (processRuns 0x01).latched = 0x01) ∧
    ¬ (State.reset.busy = true ∧ Cmd.op State.reset.latched = 0x01) ∧
    ¬ ((processRuns 0x02).busy = true ∧ Cmd.op (processRuns 0x02).latched = 0x01) := by decide

/-- An idle block's step answers the same state. -/
theorem step_prep : step prep = .next prep := rfl

theorem test_witness_MemoryStaysCanonical :
    Memory.wf zeroed.mem ∧ Memory.wf zeroed.oldMem ∧ step zeroed = .next zeroed :=
  ⟨zeroCells_wf _ _, List.Pairwise.nil, rfl⟩

theorem paramsLegal_prep : paramsLegal prep := by
  unfold paramsLegal
  decide +kernel

theorem test_witness_ParametersStayLegal : paramsLegal prep ∧ step prep = .next prep := ⟨paramsLegal_prep, rfl⟩

theorem commandLegal_start {s : State} (h : s.progress = .start) : commandLegal s := by
  intro _
  simp only [h]

theorem test_witness_ConfigurationStaysLegal : configLegal prep ∧ commandLegal prep ∧ step prep = .next prep :=
  ⟨configLegal_prep, commandLegal_start rfl, rfl⟩

/-- A held voice, and a NOP in progress. -/
theorem test_witness_VoicesStayLegal :
    let s : State := { held 1 with act := CfgRegs.reset, busy := true }
    configLegal s ∧ commandLegal s ∧ voicesLegal s ∧ ∃ t, step s = .next t := by
  refine ⟨fun _ => cfgLegal_reset, commandLegal_start rfl, ?_, _, rfl⟩
  unfold voicesLegal voiceLegal configured
  decide +kernel

theorem test_witness_PublicationStaysLegal :
    let s : State := { prep with spec := { SpecEngine.reset with pending := 511 } }
    configLegal s ∧ commandLegal s ∧ publicationLegal s ∧ step s = .next s :=
  ⟨fun _ => cfgLegal_reset, commandLegal_start rfl, publicationLegal_pending 511 (by decide), rfl⟩

/-- A SPEC_PROCESS inside a publication: SPEC_SEQ is odd (rule R121). -/
def publishes : State :=
  { processRuns 0x04 with progress := .publishing 1, specSeq := 1, agenda := [.part] }

theorem commandLegal_publishes : commandLegal publishes :=
  fun _ => .inr ⟨by decide, .inr (.inr (by decide)), by decide, rfl⟩

theorem test_witness_PublicationStaysLegal_publishing :
    configLegal publishes ∧ commandLegal publishes ∧ publicationLegal publishes ∧ ∃ t, step publishes = .next t :=
  ⟨fun _ => cfgLegal_reset, commandLegal_publishes,
    ⟨rfl, (by decide : (0 : Word).toNat < 32), (by decide : (0 : Word).toNat ≤ 32), fun _ => .inr (.inr (by decide))⟩, _, rfl⟩

/-- A SPEC_PROCESS that has just ingested a hop: SPEC_PENDING is the hop (rules R450, R451). -/
def ingests : State :=
  { processRuns 0x04 with
    progress := .ingested 1, agenda := [.part], spec := { SpecEngine.reset with pending := 512 } }

theorem commandLegal_ingests : commandLegal ingests := fun _ => ⟨by decide, .inr (.inr (by decide)), by decide, rfl⟩

theorem test_witness_PublicationStaysLegal_ingested :
    configLegal ingests ∧ commandLegal ingests ∧ publicationLegal ingests ∧ ingests.spec.pending = ingests.act.hop ∧
      ∃ t, step ingests = .next t :=
  ⟨fun _ => cfgLegal_reset, commandLegal_ingests,
    ⟨rfl, (by decide : (0 : Word).toNat < 32), (by decide : (0 : Word).toNat ≤ 32), fun _ => .inr (.inl ⟨rfl, rfl⟩)⟩, rfl,
    _, rfl⟩

/-- The parts of a SPEC_PROCESS at its start, with a sample ingested and inside a publication, and a part turn. -/
theorem test_witness_PartsLeadToTheSameCompletion :
    publishes.agenda = .part :: [] ∧ commandLegal publishes ∧ (∃ t, enginePart publishes = .next t) ∧
    commandLegal ingests ∧ (∃ t, enginePart ingests = .next t) ∧ commandLegal (processRuns 0x04) ∧ (∃ t, enginePart (processRuns 0x04) = .next t) ∧
    Cmd.op (processRuns 0x04).latched ≠ 0x01 :=
  ⟨rfl, commandLegal_publishes, ⟨_, rfl⟩, commandLegal_ingests, ⟨_, rfl⟩, commandLegal_start rfl, ⟨_, rfl⟩, by decide⟩

theorem test_witness_SequenceLockGuardsThePublication :
    (configLegal publishes ∧ commandLegal publishes ∧ publishing publishes = true ∧
      ∃ t, enginePart publishes = .next t) ∧
    (configLegal (processRuns 0x04) ∧ commandLegal (processRuns 0x04) ∧ publishing (processRuns 0x04) = false ∧
      ∃ t, enginePart (processRuns 0x04) = .next t) ∧
    ∀ a ∈ [0x20000, 0x23FFF, 0x30000, 0x47FFF], (0x20000 ≤ a ∧ a < 0x24000) ∨ (0x30000 ≤ a ∧ a < 0x48000) :=
  ⟨⟨fun _ => cfgLegal_reset, commandLegal_publishes, rfl, _, rfl⟩,
    ⟨fun _ => cfgLegal_reset, commandLegal_start rfl, rfl, _, rfl⟩, by decide⟩

/-- A command in progress outside a publication and inside one; STATUS, SPEC_SEQ, both ends of each range of CSRs, and both
ends of HIST and of MAG to POWER, holding values. -/
theorem test_witness_BusyReadsAreOldOrNew :
    publishing publishes = true ∧
    let s : State := { processRuns 0x04 with mem := clearResults [] }
    s.busy = true ∧ publishing s = false ∧
    (∀ off ∈ [0x008, 0x00C, 0x01C, 0x03C, 0x040, 0x080, 0x110, 0x114, 0x120, 0x124, 0x12C, 0x130, 0x138, 0x140, 0x224,
      0x300, 0x3FC, 0x400, 0x438, 0x1000, 0x3FFC, 0x10000, 0x1FFFC, 0x20000, 0x23FFC, 0x30000, 0x47FFC],
      ∃ t, access (.read 4 off) s = .next t) ∧
    ∀ off ∈ [0x20000, 0x23FFC, 0x30000, 0x47FFC],
      (0x20000 ≤ off ∧ off < 0x24000) ∨ (0x30000 ≤ off ∧ off < 0x48000) := by
  refine ⟨rfl, rfl, rfl, fun off h => ?_, by decide⟩
  have hr : ∀ off ∈ [0x008, 0x00C, 0x01C, 0x03C, 0x040, 0x080, 0x110, 0x114, 0x120, 0x124, 0x12C, 0x130, 0x138, 0x140,
      0x224, 0x300, 0x3FC, 0x400, 0x438, 0x1000, 0x3FFC, 0x10000, 0x1FFFC, 0x20000, 0x23FFC, 0x30000, 0x47FFC],
      (accessRegion 4 off).isSome = true := by decide
  obtain ⟨r, hr⟩ := Option.isSome_iff_exists.1 (hr off h)
  exact ⟨hostRead r off _, by rw [access, hr]⟩

/-- A command whose next part may be found early, and one at its completion. -/
theorem test_witness_BusyReadsAreOldOrNew_early :
    (processRuns 0x04).busy = true ∧ upcoming (processRuns 0x04) ≠ processRuns 0x04 ∧
    (∀ c, (processRuns 0x04).progress ≠ .finishing c) ∧
    let s : State := { processRuns 0x04 with progress := .finishing .ok }
    s.busy = true ∧ s.progress = .finishing .ok ∧ (Cmd.op s.latched).toNat ≤ 4 ∧ (∃ t, engineTurn s = .next t) ∧
      0x014 % 4 = 0 ∧ 0x014 ≠ 0x008 :=
  ⟨rfl, fun h => absurd (congrArg State.progress h) (by decide), fun _ h => Progress.noConfusion h, rfl, rfl,
    by decide, ⟨_, rfl⟩, by decide⟩

theorem test_witness_BusyReadsAreOldOrNew_memory :
    memoryMapped { processRuns 0x04 with mem := clearResults [] } ∧
    ∀ off ∈ [0x20000, 0x23FFC, 0x30000, 0x47FFC], Memory.word (clearResults []) off ≠ none := by
  refine ⟨⟨fun c (hc : c ∈ Memory.clear (Memory.clear [] 0x20000 0x4000) 0x30000 0x18000) => ?_,
    fun w hw => absurd hw List.not_mem_nil⟩, fun off h => ?_⟩
  · have hr : (0x20000 ≤ c.1 ∧ c.1 < 0x24000) ∨ (0x30000 ≤ c.1 ∧ c.1 < 0x48000) := by
      rcases mem_clear hc with h | h
      · rcases mem_clear h with h | h
        · exact absurd h List.not_mem_nil
        · exact .inl h
      · exact .inr h
    by_cases h1 : c.1 < 0x24000
    · exact ⟨.hist, regionOf_some.2 (by simp only [windowOf]; omega), by decide⟩
    · by_cases h2 : c.1 < 0x38000
      · exact ⟨.mag, regionOf_some.2 (by simp only [windowOf]; omega), by decide⟩
      · by_cases h3 : c.1 < 0x40000
        · exact ⟨.phase, regionOf_some.2 (by simp only [windowOf]; omega), by decide⟩
        · exact ⟨.power, regionOf_some.2 (by simp only [windowOf]; omega), by decide⟩
  · have hoff : (0x20000 ≤ off ∧ off + 4 ≤ 0x24000) ∨ (0x30000 ≤ off ∧ off + 4 ≤ 0x48000) := by
      simp only [List.mem_cons, List.not_mem_nil, or_false] at h
      omega
    have hb : ∀ j, j < 4 → Memory.byte (clearResults []) (off + j) = some 0 := fun j hj => by
      rw [byte_clearResults, if_pos (by omega)]
    exact Option.isSome_iff_ne_none.1 ((word_isSome _ _).2
      ⟨by rw [← Nat.add_zero off, hb 0 (by omega)]; rfl, by rw [hb 1 (by omega)]; rfl, by rw [hb 2 (by omega)]; rfl,
        by rw [hb 3 (by omega)]; rfl⟩)

/-- A PREPARE that has latched its configuration, a SPEC_PROCESS with an entry taken off and not yet applied, and an
EQ_PROCESS that is to write the last sample of its block. -/
theorem test_witness_commandLegal :
    commandLegal { prep with latched := 0x0301000000000200, busy := true, progress := .writing 1023 0 0 } ∧
    commandLegal { processRuns 0x04 with progress := .applying 1 0 } ∧
    commandLegal { processRuns 0x01 with progress := .publishing 0 } ∧
    preparing { processRuns 0x01 with progress := .publishing 0 } = true :=
  ⟨fun _ => ⟨by decide +kernel, .inr (.inl (by decide)), by decide, rfl⟩,
    fun _ => ⟨.inr (.inr (by decide)), by decide, rfl⟩, fun _ => .inl rfl, rfl⟩

/-- Both ends of the window and the addresses next to it; a breach of each duty and an access that breaks none. -/
theorem test_witness_AgentsOweTheirDuties :
    ({ State.reset with agenda := [.access 0 (.read 4 0)] } : State).agenda = .access 0 (.read 4 0) :: [] ∧
    (Config.blockBase + 0x80000 < Config.blockBase ∨ Config.blockBase + 0x80000 ≤ Config.blockBase + 0x80000) ∧
    (0 < 0x80000 ∧ 0x7FFFC < 0x80000) ∧
    (∃ b, ({ State.reset with doorbellAgent := some 1 } : State).doorbellAgent = some b ∧ b ≠ 0) ∧
    (∃ b, ({ State.reset with producer := some 1 } : State).producer = some b ∧ b ≠ 0) ∧
    State.reset.pushLow = false ∧ ¬ ∃ b, State.reset.producer = some b ∧ b ≠ 0 :=
  ⟨rfl, .inr (Nat.le_refl _), by decide, ⟨1, rfl, by decide⟩, ⟨1, rfl, by decide⟩, rfl, by
    rintro ⟨b, h, -⟩
    exact absurd h (by simp [State.reset])⟩

/-- Both ends of each unlisted range of the map. -/
theorem test_witness_RegistersReadAtTheirOffsets :
    ∀ off ∈ [0x02C, 0x030, 0x034, 0x084, 0x0BC, 0x104, 0x10C, 0x118, 0x11C, 0x13C, 0x168, 0x17C, 0x228, 0x2FC, 0x43C,
        0x47C, 0x490, 0x4FC, 0x52C, 0x6FC, 0x714, 0x7FC, 0x800, 0xFFC],
      off % 4 = 0 ∧ (off = 0x02C ∨ off = 0x030 ∨ off = 0x034 ∨ (0x084 ≤ off ∧ off < 0x0C0) ∨
        (0x104 ≤ off ∧ off < 0x110) ∨ (0x118 ≤ off ∧ off < 0x120) ∨ off = 0x13C ∨ (0x168 ≤ off ∧ off < 0x180) ∨
        (0x228 ≤ off ∧ off < 0x300) ∨ (0x43C ≤ off ∧ off < 0x480) ∨ (0x490 ≤ off ∧ off < 0x500) ∨
        (0x500 ≤ off ∧ off < 0x700 ∧ 0x2C ≤ off % 0x40) ∨ (0x700 ≤ off ∧ off < 0x800 ∧ 0x14 ≤ off % 0x20) ∨
        0x800 ≤ off) := by decide +kernel

/-- One sample in the last word of buffer 1, and a racing write to the last wavetable entry. -/
theorem test_witness_MemoryStaysInTheRams :
    let s : State := { processRuns 0x02 with mem := Memory.setWord [] 0x1FFFC 0, raced := [(0x3FFC, 0)] }
    configLegal s ∧ commandLegal s ∧ memoryMapped s ∧ ∃ t, step s = .next t := by
  refine ⟨fun _ => cfgLegal_reset, commandLegal_start rfl, ⟨?_, ?_⟩, ?_⟩
  · intro c hc
    refine ⟨.buf 1, regionOf_some.2 ?_, by decide⟩
    have := mem_setWord [] 0x1FFFC 0 c hc
    have hr : 0x1FFFC ≤ c.1 ∧ c.1 < 0x20000 := by simpa using this
    simp only [windowOf, bufBase]
    norm_num
    omega
  · decide
  · have h : goesOn (step { processRuns 0x02 with mem := Memory.setWord [] 0x1FFFC 0, raced := [(0x3FFC, 0)] })
        (fun _ => true) = true := by decide +kernel
    revert h
    generalize step { processRuns 0x02 with mem := Memory.setWord [] 0x1FFFC 0, raced := [(0x3FFC, 0)] } = r
    cases r <;> simp [goesOn]

theorem test_witness_PreparedIsOnlyClearedByReset :
    (prep.prepared = true ∧ (∀ rest, prep.agenda ≠ .reset :: rest) ∧ step prep = .next prep) ∧
    ({ prep with agenda := [.reset, .engine] } : State).agenda = .reset :: [.engine] :=
  ⟨⟨rfl, fun _ h => by simp [prep, State.reset] at h, rfl⟩, rfl⟩

/-- The largest finite value, a subnormal and a zero divisor; both sides of the overflow bound. -/
theorem test_witness_BasicOperationsRoundToNearestEven :
    isFinite 0x7F7FFFFF = true ∧ isFinite 0x80000001 = true ∧ unitsOf 0x80000001 ≠ 0 ∧ unitsOf 0x80000000 = 0 ∧
    (unitsOf 0x7F7FFFFF + unitsOf 0x80000001).natAbs * 2 < (2 ^ 25 - 1) * 2 ^ 253 ∧
    ¬ (unitsOf 0x7F7FFFFF + unitsOf 0x7F7FFFFF).natAbs * 2 < (2 ^ 25 - 1) * 2 ^ 253 := by decide +kernel

theorem test_witness_ExactNumericsProperties :
    (isNaN 0x7F800000 = false ∧ signBit 0x7F800000 = false) ∧ flt 0 0x00000001 = true ∧ isNaN 0xFF800000 = false ∧
    isZero 0x00000000 = true ∧ isZero 0x80000000 = true := by decide +kernel

/-- A voice in Attack with all durations 0, one in Release with a release of 0, and voices in Attack, Hold and Decay with
that duration alone 0. -/
theorem test_witness_ZeroDurationsReachSustain :
    let s : State := { prep with synp := (((prep.synp.set 1 0).set 2 0).set 3 0).set 5 0 }
    (freshVoice 0 69 100).active = true ∧ (freshVoice 0 69 100).stage = .attack ∧ (durations s).attack = 0 ∧
      (durations s).hold = 0 ∧ (durations s).decay = 0 ∧ (durations s).release = 0 ∧
      ({ freshVoice 0 69 100 with stage := .release } : Voice).stage = .release ∧
      (durations { prep with synp := prep.synp.set 1 0 }).attack = 0 ∧
      (durations { prep with synp := prep.synp.set 2 0 }).hold = 0 ∧
      (durations { prep with synp := prep.synp.set 3 0 }).decay = 0 ∧
      (durations { prep with synp := prep.synp.set 1 0 }).decay ≠ 0 := by decide +kernel

/-- A NaN, both ends of the table's input range, and the inputs next to them inside it. -/
theorem test_witness_TableLookupNeverReadsPastAnEnd :
    isNaN 0xFFC00000 = true ∧ (isNaN 0xC0800000 = false ∧ fle 0xC0800000 0xC0800000 = true) ∧
    (isNaN 0x40800000 = false ∧ fle 0x40800000 0x40800000 = true) ∧
    (flt 0xC0800000 0xC07FFFFF = true ∧ flt 0xC07FFFFF 0x40800000 = true) ∧
    (flt 0xC0800000 0x407FFFFF = true ∧ flt 0x407FFFFF 0x40800000 = true) := by decide +kernel

end Sys2Proof.Tests
end

section
/-! SUPPORT. Decoding an encoded instruction (rules R150, R155, R159), family by family: an instruction without a band
operand is always given back, an equalizer band setter exactly when its band exists. -/

namespace Sys2Proof

/-- An instruction without a band operand decodes to itself (rules R155, R159). -/
theorem decodeWord_encode_of_no_band {i : Instr} (h : i.band? = none) :
    decodeWord i.channel (encode i) = .ok i := by
  cases i with
  | nop | prepare | synRender | eqProcess | specProcess =>
    simp [encode, Instr.channel, decodeWord, decodeDoorbell]
  | synWaveform | synAttack | synHold | synDecay | synSustain | synRelease | synCurve | synFilterType
  | synFilterCutoff | synFilterQ | synLfoWaveform | synLfoRate | synLfoAmpDepth | synLfoPitchDepth | synGain =>
    simp [encode, Instr.channel, decodeWord, decodeQueue, decodeSynParam]
  | eqType | eqFreq | eqGain | eqQ | eqSlope | eqDrive | eqSaturation | eqMix | eqEnable | eqSolo | eqBypass =>
    simp [Instr.band?] at h
  | eqInputGain | eqOutputGain | eqModel | eqGlobalBypass =>
    simp [encode, Instr.channel, decodeWord, decodeQueue, decodeGlobalParam]
  | noteOn | noteOff =>
    simp [encode, Instr.channel, decodeWord, decodeEvent]

/-- A band setter decodes to itself if its band exists, and is an illegal selector otherwise (rules R156, R159). -/
theorem decodeWord_encode_of_band {i : Instr} {b : BitVec 8} (h : i.band? = some b) :
    decodeWord i.channel (encode i) =
      if b.toNat < 8 then .ok i
      else .error (.illegalSelector (Cmd.op (encode i)) (Cmd.fieldA (encode i)) (Cmd.fieldB (encode i))) := by
  cases i with
  | eqType | eqFreq | eqGain | eqQ | eqSlope | eqDrive | eqSaturation | eqMix | eqEnable | eqSolo | eqBypass =>
    obtain rfl := Option.some.inj h
    simp [encode, Instr.channel, decodeWord, decodeQueue, decodeBandParam]
  | _ => simp [Instr.band?] at h

/-- Decoding the word of an instruction on its own channel (rules R155, R159). -/
theorem decodeWord_encode (i : Instr) :
    decodeWord i.channel (encode i) =
      if i.wellFormed then .ok i
      else .error (.illegalSelector (Cmd.op (encode i)) (Cmd.fieldA (encode i)) (Cmd.fieldB (encode i))) := by
  cases h : i.band? with
  | none => simp [Instr.wellFormed, h, decodeWord_encode_of_no_band h]
  | some b => simp [Instr.wellFormed, h, decodeWord_encode_of_band h]

/-- Settles O1: the byte layout is undone by `ofBytes_bytesOfCmd`, the word by the case split on the band operand. -/
theorem decodeOfEncode : Obligations.DecodeOfEncode := by
  unfold Obligations.DecodeOfEncode
  intro i rest
  rw [ofBytes_bytesOfCmd, decodeWord_encode]
  cases i.wellFormed <;> rfl

end Sys2Proof
end

section
/-! SUPPORT. Stealing a voice (rules R262, R264): after aging, with every voice below ACT.V active, the search for a
free voice fails and the search for the oldest one finds the voice the rule names. -/

namespace Sys2Proof.Machine

theorem satSucc_eq (a : Word) : Word.satSucc a = if a = 0xFFFFFFFF then 0xFFFFFFFF else a + 1 := by
  simp only [Word.satSucc]
  split
  · rename_i h
    subst h
    rfl
  · rename_i h
    exact (if_neg h).symm

/-- An active voice after aging (rule R262). -/
theorem ageVoice_of_active {v : Voice} (h : v.active = true) :
    ageVoice v = { v with age := if v.age = 0xFFFFFFFF then 0xFFFFFFFF else v.age + 1 } := by
  rw [ageVoice, if_pos h, satSucc_eq]

theorem ageVoice_age_of_active {v : Voice} (h : v.active = true) :
    (ageVoice v).age.toNat = min (v.age.toNat + 1) 0xFFFFFFFF := by
  rw [ageVoice, if_pos h]
  exact satSucc_toNat v.age

@[simp] theorem ageVoice_active (v : Voice) : (ageVoice v).active = v.active := by
  cases h : v.active <;> simp [ageVoice, h]

@[simp] theorem actV_ageVoices (s : State) : actV (ageVoices s) = actV s := by
  simp only [ageVoices_eq, actV]

theorem voiceAt_ageVoices {s : State} {u : Fin 32} (h : u.val < actV s) :
    voiceAt (ageVoices s) u.val = ageVoice s.voices[u] := by
  rw [voiceAt_fin, ageVoices_eq]
  simp [h]

/-- No voice is free where every voice below ACT.V is active (rule R262). -/
theorem freeVoice_eq_none {s : State} (hV : actV s ≤ 32)
    (h : ∀ u : Fin 32, u.val < actV s → (voiceAt s u.val).active = true) : freeVoice s = none := by
  rw [freeVoice, List.find?_eq_none]
  intro u hu
  have hu : u < actV s := List.mem_range.1 hu
  simp [isActive, h ⟨u, by omega⟩ hu]

/-- The oldest voice is the one below ACT.V that every other one is younger than, or as old as from a higher index
(rule R11). -/
theorem oldestVoice_eq {s : State} (hV : actV s ≤ 32) {v : Fin 32} (hv : v.val < actV s)
    (h : ∀ u : Fin 32, u.val < actV s → u ≠ v →
      (voiceAt s u.val).age.toNat ≤ (voiceAt s v.val).age.toNat ∧
        (u < v → (voiceAt s u.val).age.toNat < (voiceAt s v.val).age.toNat)) :
    oldestVoice s = v.val := by
  obtain ⟨hlt, hmax⟩ := oldestVoice_spec s (by omega)
  by_contra hne
  obtain ⟨hle, hstrict⟩ := h ⟨oldestVoice s, by omega⟩ hlt fun he => hne (congrArg Fin.val he)
  obtain ⟨hle', hstrict'⟩ := hmax v.val hv
  rcases Nat.lt_or_gt_of_ne hne with hb | hb
  · exact absurd (hstrict hb) (by simpa using hle')
  · exact absurd (hstrict' hb) (by simpa using hle)

/-- NOTE_ON where no voice is free: a steal of the oldest voice (rule R262). -/
theorem execNoteOn_steal {note vel : BitVec 8} {off : Word} {s : State} (hvel : vel ≠ 0)
    (hfree : freeVoice (ageVoices s) = none) :
    execNoteOn note vel off s =
      .next (setVoice (oldestVoice (ageVoices s))
        (freshVoice (oldestVoice (ageVoices s)) (midi7 note) (midi7 vel))
        { ageVoices s with steals := (ageVoices s).steals + 1 }) := by
  simp only [execNoteOn, midi7_eq_zero, if_neg hvel, allocate, hfree]

/-- Settles O21: the aged voices are all active, so the allocation steals, and the hypothesis on the aged ages is what
the search for the oldest voice finds. -/
theorem noteOnStealsTheOldestVoice : Obligations.NoteOnStealsTheOldestVoice := by
  unfold Obligations.NoteOnStealsTheOldestVoice
  intro s note vel off v hvel hV hv hactive hage
  change actV s ≤ 32 at hV
  change v.val < actV s at hv
  have haged : ∀ u : Fin 32, u.val < actV s →
      (voiceAt (ageVoices s) u.val).age.toNat = min (s.voices[u].age.toNat + 1) 0xFFFFFFFF := fun u hu => by
    rw [voiceAt_ageVoices hu, ageVoice_age_of_active (hactive u hu)]
  have hfree : freeVoice (ageVoices s) = none := by
    refine freeVoice_eq_none (by simpa using hV) fun u hu => ?_
    rw [actV_ageVoices] at hu
    rw [voiceAt_ageVoices hu, ageVoice_active]
    exact hactive u hu
  have hold : oldestVoice (ageVoices s) = v.val := by
    refine oldestVoice_eq (by simpa using hV) (by simpa using hv) fun u hu hne => ?_
    rw [actV_ageVoices] at hu
    rw [haged u hu, haged v hv]
    exact hage u hu hne
  have hvoices : (ageVoices s).voices.setIfInBounds v.val (freshVoice v.val (midi7 note) (midi7 vel)) =
      Vector.ofFn fun u : Fin 32 =>
        if u = v then freshVoice v.val (midi7 note) (midi7 vel)
        else if u.val < actV s then
          { s.voices[u] with age := if s.voices[u].age = 0xFFFFFFFF then 0xFFFFFFFF else s.voices[u].age + 1 }
        else s.voices[u] := by
    apply Vector.ext
    intro u hu
    rw [Vector.getElem_setIfInBounds, ageVoices_eq]
    simp only [Vector.getElem_ofFn, Fin.ext_iff, eq_comm (a := u)]
    split
    · rfl
    · split
      · rename_i hlt
        exact ageVoice_of_active (hactive ⟨u, hu⟩ hlt)
      · rfl
  show execNoteOn note vel off s = _
  rw [execNoteOn_steal hvel hfree, hold, setVoice, hvoices, ageVoices_eq, midi7_eq, midi7_eq]
  rfl

end Sys2Proof.Machine
end

section
/-! SUPPORT. The applied parameters stay legal (rules R17, R212): the setters store only legal values, PREPARE applies a
checked ANALOG_MODEL, and everything else leaves SYNP, EQG and EQB as they are. -/

namespace Sys2Proof.Machine

/-! ## Legal values of one register -/

/-- What a parameter register may hold (rule R212). -/
def paramOk : ParamReg → Word → Bool
  | .synp id, v => synpOk id v
  | .eqg id, v => eqgOk id v
  | .eqb _ id, v => eqbOk id v

theorem paramsLegal_iff (s : State) : paramsLegal s ↔ ∀ r, paramOk r (readParam r s) = true := by
  constructor
  · rintro ⟨hs, hg, hb⟩ r
    cases r with
    | synp id => exact hs id
    | eqg id => exact hg id
    | eqb b id => exact hb b id
  · exact fun h => ⟨fun id => h (.synp id), fun id => h (.eqg id), fun b id => h (.eqb b id)⟩

theorem readParam_writeParam (q r : ParamReg) (v : Word) (s : State) :
    readParam q (writeParam r v s) = if q = r then v else readParam q s := by
  cases q with
  | synp i => cases r <;> simp [readParam, writeParam, Vector.getElem_set, Fin.ext_iff, eq_comm]
  | eqg i => cases r <;> simp [readParam, writeParam, Vector.getElem_set, Fin.ext_iff, eq_comm]
  | eqb c i =>
    cases r with
    | synp j => simp [readParam, writeParam]
    | eqg j => simp [readParam, writeParam]
    | eqb b j =>
      by_cases hb : b = c
      · subst hb
        simp [readParam, writeParam, Vector.getElem_set, Fin.ext_iff, eq_comm]
      · have hv : b.val ≠ c.val := fun h => hb (Fin.ext h)
        simp [readParam, writeParam, hv, Ne.symm hb]

theorem writeParam_legal {r : ParamReg} {v : Word} {s : State} (hv : paramOk r v = true) (hs : paramsLegal s) :
    paramsLegal (writeParam r v s) := by
  rw [paramsLegal_iff] at *
  intro q
  rw [readParam_writeParam]
  split
  · rename_i h
    exact h ▸ hv
  · exact hs q

/-- Only SYNP, EQG and EQB count. -/
theorem paramsLegal_congr {s t : State} (hs : t.synp = s.synp) (hg : t.eqg = s.eqg) (hb : t.eqb = s.eqb)
    (h : paramsLegal s) : paramsLegal t := by
  simpa only [paramsLegal, hs, hg, hb] using h

/-! ## The setters and the drain (rules R211, R212) -/

theorem storeReal_legal {r : ParamReg} {v : Word} {s : State} (hr : ∀ v, isNaN v = false → paramOk r v = true)
    (hs : paramsLegal s) : paramsLegal (storeReal r v s) := by
  obtain ⟨-, h⟩ | ⟨hv, h⟩ := storeReal_cases r v s <;> rw [h]
  exacts [hs, writeParam_legal (hr v hv) hs]

theorem storeEnum_legal {r : ParamReg} {m : Nat} {v : Word} {s : State}
    (hr : ∀ v : Word, v.toNat ≤ m → paramOk r v = true) (hs : paramsLegal s) : paramsLegal (storeEnum r m v s) := by
  obtain ⟨hv, h⟩ | ⟨-, h⟩ := storeEnum_cases r m v s <;> rw [h]
  exacts [writeParam_legal (hr v hv) hs, hs]

theorem storeBool_legal {r : ParamReg} {v : Word} {s : State} (hr : ∀ v, boolOk v = true → paramOk r v = true)
    (hs : paramsLegal s) : paramsLegal (storeBool r v s) :=
  writeParam_legal (hr _ (by split <;> rfl)) hs

theorem inBand_legal (b : BitVec 8) {store : Fin 8 → State → State} {s : State}
    (h : ∀ i, paramsLegal (store i s)) (hs : paramsLegal s) : paramsLegal (inBand b store s) := by
  obtain ⟨i, -, e⟩ | ⟨-, e⟩ := inBand_cases b store s <;> rw [e]
  exacts [h i, hs]

/-- Every setter stores a value its register may hold, or nothing (rule R212). -/
theorem applySetter_legal {i : Instr} {s t : State} (hs : paramsLegal s) (h : applySetter i s = .next t) :
    paramsLegal t := by
  cases i with
  | synWaveform v | synFilterType v | synLfoWaveform v | eqModel v =>
    obtain rfl := Host.Outcome.next.inj h
    exact storeEnum_legal (fun _ hv => decide_eq_true hv) hs
  | synAttack v | synHold v | synDecay v | synSustain v | synRelease v | synCurve v | synFilterCutoff v | synFilterQ v
  | synLfoRate v | synLfoAmpDepth v | synLfoPitchDepth v | synGain v | eqInputGain v | eqOutputGain v =>
    obtain rfl := Host.Outcome.next.inj h
    exact storeReal_legal (fun _ hv => congrArg not hv) hs
  | eqGlobalBypass v =>
    obtain rfl := Host.Outcome.next.inj h
    exact storeBool_legal (fun _ hv => hv) hs
  | eqType b v | eqSlope b v =>
    obtain rfl := Host.Outcome.next.inj h
    exact inBand_legal b (fun _ => storeEnum_legal (fun _ hv => decide_eq_true hv) hs) hs
  | eqFreq b v | eqGain b v | eqQ b v | eqDrive b v | eqSaturation b v | eqMix b v =>
    obtain rfl := Host.Outcome.next.inj h
    exact inBand_legal b (fun _ => storeReal_legal (fun _ hv => congrArg not hv) hs) hs
  | eqEnable b v | eqSolo b v | eqBypass b v =>
    obtain rfl := Host.Outcome.next.inj h
    exact inBand_legal b (fun _ => storeBool_legal (fun _ hv => hv) hs) hs
  | nop | prepare | synRender | eqProcess | specProcess | noteOn | noteOff =>
    obtain rfl := Host.Outcome.next.inj h
    exact hs

theorem applyEntry_legal {w : Cmd} {s t : State} (hs : paramsLegal s) (h : applyEntry w s = .next t) :
    paramsLegal t := by
  simp only [applyEntry] at h
  split at h
  · exact applySetter_legal hs h
  · exact Host.Outcome.next.inj h ▸ hs

theorem drainTo_legal {q : Fin 32} {fuel : Nat} {s t : State} (hs : paramsLegal s)
    (h : drainTo q fuel s = .next t) : paramsLegal t := by
  induction fuel generalizing s with
  | zero => exact Host.Outcome.next.inj h ▸ hs
  | succ fuel ih =>
    simp only [drainTo] at h
    split at h
    · exact Host.Outcome.next.inj h ▸ hs
    · obtain ⟨s1, h1, h⟩ := andThen_eq_next.1 h
      exact ih (applyEntry_legal (s := popQueue s) hs h1) h

/-! ## PREPARE (rule R203) -/

/-- A configuration that passes PREPARE's checks has an ANALOG_MODEL in range (rules R43, R202). -/
theorem analogModel_le_of_prepareError {c : CfgRegs} (h : prepareError c = none) : c.analogModel.toNat ≤ 3 := by
  simp only [prepareError] at h
  split at h
  · simp at h
  · split at h
    · simp at h
    · simp only [firstIllegal, Option.map_eq_none_iff, List.find?_eq_none] at h
      simpa using h (0x060, decide (c.analogModel.toNat ≤ 3)) (by simp [cfgChecks])

/-- PREPARE's effect writes one parameter register, EQG[2] (rule R203). -/
theorem prepareLatch_legal {s : State} (hc : prepareError s.cfg = none) (hs : paramsLegal s) :
    paramsLegal (prepareLatch s) :=
  paramsLegal_congr (s := writeParam (.eqg 2) s.cfg.analogModel s) rfl rfl rfl
    (writeParam_legal (decide_eq_true (analogModel_le_of_prepareError hc)) hs)

theorem execPrepare_legal {s t : State} (hs : paramsLegal s) (h : execPrepare s = .next t) : paramsLegal t := by
  simp only [execPrepare] at h
  split at h
  · exact Host.Outcome.next.inj h ▸ hs
  · rename_i hc
    have hl : paramsLegal (prepareLatch s) := prepareLatch_legal hc hs
    exact Host.Outcome.next.inj h ▸ hl

/-! ## The bodies of the process commands -/

theorem applyEventWord_legal {w : Cmd} {s t : State} (hs : paramsLegal s) (h : applyEventWord w s = .next t) :
    paramsLegal t := by
  obtain ⟨u, hu, fu⟩ := applyEventWord_completes w s
  obtain rfl := Host.Outcome.next.inj (hu.symm.trans h)
  rw [onlyEvents] at fu
  rw [fu]
  exact hs

theorem renderInv_legal (base n : Nat) : RenderInv base n paramsLegal where
  voice _ _ _ _ hs _ _ := hs
  frame _ _ _ hs _ := hs
  event _ _ _ hs h := applyEventWord_legal hs h
  draw _ hs := hs

theorem renderFrom_legal {k : BitVec 8} {e : BitVec 16} {frames : Word} {j ej : Nat} {s t : State}
    (hs : paramsLegal s) (h : renderFrom k e frames j ej s = .next t) : paramsLegal t := by
  obtain ⟨u, hu, rfl⟩ := renderFrom_inv (renderInv_legal _ _) hs h
  exact hu

theorem eqFrom_legal {k : BitVec 8} {frames : Word} {j : Nat} {s t : State} (hs : paramsLegal s)
    (h : eqFrom k frames j s = .next t) : paramsLegal t :=
  eqFrom_inv (fun _ _ _ _ hu _ => hu) hs h

/-- The spectral engine's updates touch no parameter. -/
theorem onlySpec_legal {s t : State} (hs : paramsLegal s) (h : onlySpec s t) : paramsLegal t := by
  rw [onlySpec] at h
  rw [h]
  exact hs

theorem specFrom_legal {k : BitVec 8} {frames : Word} {j : Nat} {s t : State} (hs : paramsLegal s)
    (h : specFrom k frames j s = .next t) : paramsLegal t :=
  specFrames_inv (fun u m hu => onlySpec_legal hu (ingestAndAnalyse_frame m u)) _ _ _ hs h

theorem eqBegin_legal {s : State} (hs : paramsLegal s) : paramsLegal (eqBegin s) := by
  rw [eqBegin_frame]
  exact hs

theorem beginBody_legal {s : State} (hs : paramsLegal s) : paramsLegal (beginBody s) := by
  simp only [beginBody]
  split
  exacts [eqBegin_legal hs, hs]

theorem writeBody_legal (j : Nat) (w : Word) {s : State} (hs : paramsLegal s) : paramsLegal (writeBody j w s) := by
  simp only [writeBody]
  split <;> exact hs

theorem endBody_legal {s : State} (hs : paramsLegal s) : paramsLegal (endBody s) := by
  simp only [endBody]
  split <;> exact hs

theorem endPublication_legal {s : State} (hs : paramsLegal s) : paramsLegal (endPublication s) := by
  simp only [endPublication]
  split
  · exact hs
  · exact onlySpec_legal hs (onlySpec_trans (passWrites_frame s) (advanceSeq_frame _))

theorem restOfBody_legal {j ej : Nat} {s t : State} (hs : paramsLegal s) (h : restOfBody j ej s = .next t) :
    paramsLegal t := by
  simp only [restOfBody] at h
  split at h
  · exact Host.Outcome.next.inj h ▸ hs
  · exact renderFrom_legal hs h
  · exact eqFrom_legal hs h
  · exact specFrom_legal hs h
  · exact Host.Outcome.next.inj h ▸ hs

/-- The rest of a body with its completion. -/
theorem finish_restOfBody_legal {c : ResultCode} {op : BitVec 8} {j ej : Nat} {s t : State} (hs : paramsLegal s)
    (h : restOfBody j ej s = .next t) : paramsLegal (finish c op t) := by
  have ht : paramsLegal t := restOfBody_legal hs h
  exact ht

/-! ## Whole commands -/

theorem processCommand_legal {op k : BitVec 8} {body : State → Res State} {s t : State}
    (hbody : ∀ s1 s2, paramsLegal s1 → body s1 = .next s2 → paramsLegal s2) (hs : paramsLegal s)
    (h : processCommand op k body s = .next t) : paramsLegal t := by
  obtain ⟨-, rfl⟩ | ⟨-, -, rfl⟩ | ⟨-, -, s1, s2, h1, h2, rfl⟩ := processCommand_cases h
  · exact hs
  · exact hs
  · exact hbody s1 s2 (drainTo_legal hs h1) h2

/-- Every doorbell command keeps the parameters legal (rules R203, R211, R212). -/
theorem exec_doorbell_legal {w : Cmd} {i : Instr} {s t : State} (hi : decodeWord .doorbell w = .ok i)
    (hs : paramsLegal s) (h : exec i s = .next t) : paramsLegal t := by
  obtain rfl | rfl | ⟨k, e, n, rfl⟩ | ⟨k, n, rfl⟩ | ⟨k, n, rfl⟩ := doorbell_cases hi
  · exact Host.Outcome.next.inj h ▸ hs
  · exact execPrepare_legal hs h
  · exact processCommand_legal (fun _ _ => renderFrom_legal) hs h
  · exact processCommand_legal (fun _ _ h1 => eqFrom_legal (eqBegin_legal h1)) hs h
  · exact processCommand_legal (fun _ _ => specFrom_legal) hs h

theorem restOfCommand_legal {w : Cmd} {i : Instr} {s t : State} (hi : decodeWord .doorbell w = .ok i)
    (hs : paramsLegal s) (h : restOfCommand i s = .next t) : paramsLegal t := by
  obtain ⟨-, h⟩ | ⟨q, s1, u, -, h1, h2, rfl⟩ | ⟨q, w, s1, s2, u, -, h1, h2, h3, rfl⟩ | ⟨u, -, h1, rfl⟩ |
    ⟨j, ej, u, -, h1, rfl⟩ | ⟨j, ej, w, u, -, h1, rfl⟩ | ⟨j, u, -, h1, rfl⟩ | ⟨j, u, -, h1, rfl⟩ | ⟨-, rfl⟩ |
    ⟨c, -, rfl⟩ := restOfCommand_cases h
  · exact exec_doorbell_legal hi hs h
  · exact finish_restOfBody_legal (beginBody_legal (drainTo_legal hs h1)) h2
  · exact finish_restOfBody_legal (beginBody_legal (drainTo_legal (applyEntry_legal hs h1) h2)) h3
  · exact finish_restOfBody_legal (beginBody_legal hs) h1
  · exact finish_restOfBody_legal hs h1
  · have hw := writeBody_legal j w hs
    refine finish_restOfBody_legal ?_ h1
    split
    exacts [onlySpec_legal hw (afterIngest_frame _), hw]
  · exact finish_restOfBody_legal (onlySpec_legal hs (afterIngest_frame s)) h1
  · exact finish_restOfBody_legal (endPublication_legal hs) h1
  · exact endBody_legal hs
  · exact hs

theorem engineTurn_legal {s t : State} (hs : paramsLegal s) (h : engineTurn s = .next t) : paramsLegal t := by
  obtain ⟨-, rfl⟩ | ⟨-, i, u, hi, hu, rfl⟩ | ⟨-, -, rfl⟩ := engineTurn_cases h
  · exact hs
  · have ht : paramsLegal u := restOfCommand_legal hi hs hu
    exact ht
  · exact hs

/-! ## The parts of a command -/

theorem beginCommand_legal {s : State} (hs : paramsLegal s) : paramsLegal (beginCommand s) := by
  simp only [beginCommand]
  split
  · exact hs
  · split
    · exact hs
    · rename_i hc
      exact prepareLatch_legal hc hs
  · split <;> exact hs
  · split <;> exact hs
  · split <;> exact hs
  · exact hs

theorem drainPart_legal (q : Fin 32) {s : State} (hs : paramsLegal s) : paramsLegal (drainPart q s) := by
  simp only [drainPart]
  split <;> exact hs

theorem applyPart_legal {q : Fin 32} {w : Cmd} {s t : State} (hs : paramsLegal s) (h : applyPart q w s = .next t) :
    paramsLegal t := by
  obtain ⟨s1, h1, h⟩ := andThen_eq_next.1 h
  have hs1 : paramsLegal s1 := applyEntry_legal hs h1
  exact Host.Outcome.next.inj h ▸ hs1

/-- The part that applies an event (rule R250). -/
theorem applyEvent_reach_legal {e : Nat} {p : Progress} {s t : State} (hs : paramsLegal s)
    (h : (andThen (applyEvent e s) fun u => .next (reach p u)) = .next t) : paramsLegal t := by
  obtain ⟨u, hu, h⟩ := andThen_eq_next.1 h
  have hl : paramsLegal u := applyEvent_inv (fun _ _ _ => applyEventWord_legal) hs hu
  exact Host.Outcome.next.inj h ▸ hl

theorem renderPart_legal {j ej : Nat} {s t : State} (hs : paramsLegal s) (h : renderPart j ej s = .next t) :
    paramsLegal t := by
  simp only [renderPart] at h
  split at h
  · obtain ⟨⟨due, s1⟩, h1, h⟩ := andThen_eq_next.1 h
    have hs1 := dueEvent_inv (P := paramsLegal) (fun _ hu => hu) hs h1
    simp only at h hs1
    split at h
    · exact applyEvent_reach_legal hs1 h
    · obtain ⟨⟨out, s2⟩, h2, h⟩ := andThen_eq_next.1 h
      have hs2 := frameOut_inv (P := paramsLegal) (fun _ _ _ _ hu _ _ => hu) (fun _ hu => hu) hs1 h2
      exact Host.Outcome.next.inj h ▸ hs2
  · split at h
    · exact applyEvent_reach_legal hs h
    · exact Host.Outcome.next.inj h ▸ hs

theorem eqPart_legal {j : Nat} {s t : State} (hs : paramsLegal s) (h : eqPart j s = .next t) : paramsLegal t := by
  simp only [eqPart] at h
  split at h
  · obtain ⟨⟨v, s1⟩, h1, h⟩ := andThen_eq_next.1 h
    have hs1 : paramsLegal s1 := by
      rw [sampleOut_frame h1]
      exact hs
    exact Host.Outcome.next.inj h ▸ hs1
  · exact Host.Outcome.next.inj h ▸ hs

theorem specPart_legal {j : Nat} {s t : State} (hs : paramsLegal s) (h : specPart j s = .next t) : paramsLegal t := by
  simp only [specPart] at h
  split at h
  · obtain ⟨m, -, h⟩ := andThen_eq_next.1 h
    exact Host.Outcome.next.inj h ▸ hs
  · exact Host.Outcome.next.inj h ▸ hs

theorem bodyPart_legal {j ej : Nat} {s t : State} (hs : paramsLegal s) (h : bodyPart j ej s = .next t) :
    paramsLegal t := by
  simp only [bodyPart] at h
  split at h
  · exact renderPart_legal hs h
  · exact eqPart_legal hs h
  · exact specPart_legal hs h
  · exact Host.Outcome.next.inj h ▸ hs

theorem hopPart_legal (j : Nat) {s : State} (hs : paramsLegal s) : paramsLegal (hopPart j s) := by
  simp only [hopPart]
  split <;> exact hs

theorem enginePart_legal {s t : State} (hs : paramsLegal s) (h : enginePart s = .next t) : paramsLegal t := by
  obtain ⟨-, rfl⟩ | ⟨-, ⟨-, rfl⟩ | ⟨q, -, rfl⟩ | ⟨q, w, -, h⟩ | ⟨-, rfl⟩ | ⟨j, ej, -, h⟩ | ⟨j, ej, w, -, rfl⟩ |
    ⟨j, -, rfl⟩ | ⟨j, -, rfl⟩ | ⟨-, rfl⟩ | ⟨c, -, rfl⟩⟩ := enginePart_cases h
  · exact hs
  · exact beginCommand_legal hs
  · exact drainPart_legal q hs
  · exact applyPart_legal hs h
  · exact beginBody_legal hs
  · exact bodyPart_legal hs h
  · exact writeBody_legal j w hs
  · exact hopPart_legal j hs
  · exact endPublication_legal hs
  · exact endBody_legal hs
  · exact hs

/-! ## The host's accesses and the reset -/

theorem ringDoorbell_legal (v : Word) {s : State} (hs : paramsLegal s) : paramsLegal (ringDoorbell v s) := by
  simp only [ringDoorbell]
  split <;> exact hs

theorem pushQueue_legal (v : Word) {s : State} (hs : paramsLegal s) : paramsLegal (pushQueue v s) := by
  simp only [pushQueue, enqueue]
  split <;> exact hs

theorem writeCsr_legal {off : Nat} {v : Word} {s t : State} (hs : paramsLegal s) (h : writeCsr off v s = .next t) :
    paramsLegal t := by
  obtain ⟨-, rfl⟩ | ⟨-, rfl⟩ | ⟨-, rfl⟩ | ⟨-, rfl⟩ | ⟨-, rfl⟩ | rfl := writeCsr_cases h
  · exact hs
  · exact ringDoorbell_legal v hs
  · exact hs
  · exact pushQueue_legal v hs
  · exact hs
  · exact hs

theorem access_legal {a : Access} {s t : State} (hs : paramsLegal s) (h : access a s = .next t) : paramsLegal t := by
  obtain ⟨off, r, -, -, rfl⟩ | ⟨off, v, -, -, ⟨-, h⟩ | ⟨-, rfl | rfl⟩ | ⟨-, rfl⟩⟩ := access_cases h
  · exact hs
  · exact writeCsr_legal hs h
  · exact hs
  · exact hs
  · exact hs

theorem agentAccess_legal {agent : Nat} {a : Access} {s t : State} (hs : paramsLegal s)
    (h : agentAccess agent a s = .next t) : paramsLegal t := by
  obtain ⟨width, addr, off, -, -, h⟩ | ⟨width, addr, off, v, -, -, -, h⟩ := agentAccess_cases h
  · exact access_legal hs h
  · rw [noteAgent_frame] at h
    exact access_legal (by exact hs) h

/-- The reset values of SYNP, EQG and EQB are legal (rules R50, R51, R52). -/
theorem hardwareReset_legal (s : State) : paramsLegal (hardwareReset s) := by
  refine paramsLegal_congr (s := State.reset) rfl rfl rfl ⟨by decide +kernel, by decide, fun b => ?_⟩
  have hband : State.reset.eqb[b] = eqbReset := Vector.getElem_replicate _
  rw [hband]
  decide +kernel

/-- Settles O50: a step is an engine turn, a part of a command, an access or a reset, and each keeps the parameters
legal. -/
theorem parametersStayLegal : Obligations.ParametersStayLegal := by
  unfold Obligations.ParametersStayLegal
  intro s t hs h
  obtain ⟨-, h⟩ | ⟨turn, rest, -, ⟨-, h⟩ | ⟨-, h⟩ | ⟨agent, a, -, h⟩ | ⟨-, rfl⟩⟩ := step_cases h
  · exact engineTurn_legal hs h
  · exact engineTurn_legal (s := { s with agenda := rest }) hs h
  · exact enginePart_legal (s := { s with agenda := rest }) hs h
  · exact agentAccess_legal (s := { s with agenda := rest }) hs h
  · exact hardwareReset_legal _

end Sys2Proof.Machine
end

section
/-! SUPPORT. Rounding to nearest, ties to even (rule R12): the fields of a packed pattern, the integer quotient rounded
half to even, and the nearest binary32 that it makes. -/

namespace Sys2Proof.Machine

/-! ## The fields of a pattern -/

theorem expField_eq (x : F32) : expField x = x.toNat / 2 ^ 23 % 2 ^ 8 := by
  simp only [expField, BitVec.extractLsb'_toNat, Nat.shiftRight_eq_div_pow]

theorem fracField_eq (x : F32) : fracField x = x.toNat % 2 ^ 23 := by
  simp only [fracField, BitVec.extractLsb'_toNat, Nat.shiftRight_eq_div_pow, pow_zero, Nat.div_one]

theorem signBit_eq (x : F32) : signBit x = decide (2 ^ 31 ≤ x.toNat) := BitVec.msb_eq_decide x

theorem fracField_lt (x : F32) : fracField x < 2 ^ 23 := by
  rw [fracField_eq]
  exact Nat.mod_lt _ (by decide)

theorem packF32_toNat {p : Nat} (neg : Bool) (hp : p < 2 ^ 31) :
    (packF32 neg p).toNat = (if neg then 2 ^ 31 else 0) + p := by
  have hw : (BitVec.ofNat 32 p).toNat = p := by
    rw [BitVec.toNat_ofNat]
    omega
  cases neg with
  | false => simpa [packF32] using hw
  | true =>
    rw [packF32, if_pos rfl, BitVec.toNat_or, hw]
    exact (Nat.two_pow_add_eq_or_of_lt hp 1).symm

section
variable {p : Nat} (neg : Bool) (hp : p < 2 ^ 31)
include hp

theorem expField_packF32 : expField (packF32 neg p) = p / 2 ^ 23 := by
  rw [expField_eq, packF32_toNat neg hp]
  split <;> omega

theorem fracField_packF32 : fracField (packF32 neg p) = p % 2 ^ 23 := by
  rw [fracField_eq, packF32_toNat neg hp]
  split <;> omega

theorem signBit_packF32 : signBit (packF32 neg p) = neg := by
  rw [signBit_eq, packF32_toNat neg hp]
  cases neg with
  | false => exact decide_eq_false (by simpa using hp)
  | true => simp

end

theorem isFinite_packF32 {p : Nat} (neg : Bool) (hp : p < 0x7F800000) : isFinite (packF32 neg p) = true := by
  rw [isFinite, expField_packF32 neg (by omega), bne_iff_ne]
  omega

theorem isInf_packF32 (neg : Bool) : isInf (packF32 neg 0x7F800000) = true := by
  cases neg <;> decide

/-! ## Signs -/

/-- The sign of a value with the given sign bit. -/
def signOf (neg : Bool) : Int := if neg then -1 else 1

theorem unitsOf_eq (x : F32) : unitsOf x = signOf (signBit x) * magUnits x := by
  cases h : signBit x <;> simp [unitsOf, signOf, h]

theorem signOf_bne (a b : Bool) : signOf (a != b) = signOf a * signOf b := by
  cases a <;> cases b <;> rfl

theorem natAbs_signOf_mul (neg : Bool) (n : Nat) : (signOf neg * n).natAbs = n := by
  cases neg <;> simp [signOf]

theorem abs_signOf_mul (neg : Bool) (x : Int) : |signOf neg * x| = |x| := by
  cases neg <;> simp [signOf]

theorem signOf_mul_cancel (neg : Bool) (x : Int) : signOf neg * (signOf neg * x) = x := by
  cases neg <;> simp [signOf]

/-- The distance to a number with a sign is the distance to its magnitude, from the other number with that sign. -/
theorem abs_mul_sub_signOf_mul (neg : Bool) (x d y : Int) : |x * d - signOf neg * y| = |signOf neg * x * d - y| := by
  rw [← abs_signOf_mul neg (x * d - signOf neg * y), mul_sub, signOf_mul_cancel, mul_assoc]

/-- A value's sign is the sign of its units, unless it is a zero. -/
theorem signOf_mul_lt_zero_iff (neg : Bool) {n : Nat} (hn : 0 < n) : signOf neg * n < 0 ↔ neg = true := by
  cases neg <;> simp [signOf, hn]

/-! ## Magnitudes -/

/-- The pattern of `q` units of `2 ^ shift`: a carry into the exponent gives the next power of two. -/
theorem magUnits_packF32 {shift q : Nat} (neg : Bool) (hq : q ≤ 2 ^ 24) (hlow : shift = 0 ∨ 2 ^ 23 ≤ q)
    (hp : shift * 2 ^ 23 + q < 2 ^ 31) : magUnits (packF32 neg (shift * 2 ^ 23 + q)) = q * 2 ^ shift := by
  rw [magUnits, expField_packF32 neg hp, fracField_packF32 neg hp]
  by_cases hsub : q < 2 ^ 23
  · obtain rfl : shift = 0 := hlow.resolve_right (by omega)
    rw [if_pos (by omega), pow_zero]
    omega
  · rw [if_neg (by omega)]
    by_cases hcarry : q = 2 ^ 24
    · rw [show (shift * 2 ^ 23 + q) % 2 ^ 23 = 0 by omega,
        show (shift * 2 ^ 23 + q) / 2 ^ 23 - 1 = shift + 1 by omega, hcarry, pow_succ]
      ring
    · rw [show (shift * 2 ^ 23 + q) % 2 ^ 23 = q - 2 ^ 23 by omega,
        show (shift * 2 ^ 23 + q) / 2 ^ 23 - 1 = shift by omega, show 2 ^ 23 + (q - 2 ^ 23) = q by omega]

/-- Every value is a multiple of `2 ^ shift` or below the least one with 24 digits there. -/
theorem magUnits_dvd_or_lt (z : F32) (shift : Nat) : 2 ^ shift ∣ magUnits z ∨ magUnits z < 2 ^ 23 * 2 ^ shift := by
  have hf := fracField_lt z
  rw [magUnits]
  split
  · have := Nat.one_le_two_pow (n := shift)
    exact .inr (by omega)
  · by_cases hs : shift ≤ expField z - 1
    · exact .inl (Dvd.dvd.mul_left (pow_dvd_pow 2 hs) _)
    · have hle : 2 ^ (expField z - 1 + 1) ≤ 2 ^ shift := Nat.pow_le_pow_right (by decide) (by omega)
      have := Nat.mul_lt_mul_of_pos_right (show 2 ^ 23 + fracField z < 2 ^ 24 by omega)
        (Nat.two_pow_pos (expField z - 1))
      rw [pow_succ] at hle
      exact .inr (by omega)

/-! ## The rounded quotient -/

/-- `num / d` rounded to the nearest integer, half to even. -/
def roundQuotient (num d : Nat) : Nat :=
  if d < 2 * (num % d) ∨ (2 * (num % d) = d ∧ num / d % 2 = 1) then num / d + 1 else num / d

/-- The exponent shift of a quotient: what its integer part has above 24 binary digits. -/
def quotientShift (num den : Nat) : Nat := Nat.log2 (num / den) - 23

theorem roundUnits_eq (neg : Bool) (num den : Nat) :
    roundUnits neg num den =
      packF32 neg (min (quotientShift num den * 2 ^ 23 + roundQuotient num (den * 2 ^ quotientShift num den))
        0x7F800000) := rfl

/-- The rounded quotient is off by half a divisor at most, and even where it is off by that. -/
theorem roundQuotient_half (num : Nat) {d : Nat} (hd : 0 < d) :
    2 * |(roundQuotient num d * d : Int) - num| ≤ d ∧
      (2 * |(roundQuotient num d * d : Int) - num| = d → roundQuotient num d % 2 = 0) := by
  have hdiv : ((num / d : Nat) * d : Int) + (num % d : Nat) = num := by exact_mod_cast Nat.div_add_mod' num d
  have hr := Nat.mod_lt num hd
  rw [roundQuotient]
  generalize num / d = q at *
  generalize num % d = r at *
  split
  · have he : (((q + 1 : Nat) : Int) * d) - num = d - r := by
      rw [← hdiv]
      push_cast
      ring
    rw [he, abs_of_nonneg (by omega)]
    omega
  · have he : ((q : Int) * d) - num = -r := by omega
    rw [he, abs_neg, abs_of_nonneg (by omega)]
    omega

theorem roundQuotient_le {num d m : Nat} (h : num < m * d) : roundQuotient num d ≤ m := by
  have := Nat.div_lt_of_lt_mul (Nat.mul_comm m d ▸ h)
  rw [roundQuotient]
  split <;> omega

theorem le_roundQuotient {num d m : Nat} (hd : 0 < d) (h : m * d ≤ num) : m ≤ roundQuotient num d := by
  have := (Nat.le_div_iff_mul_le hd).2 h
  rw [roundQuotient]
  split <;> omega

/-- No multiple of the divisor is nearer than the rounded one, and one as near makes the rounded quotient even. -/
theorem roundQuotient_nearest (num : Nat) {d : Nat} (hd : 0 < d) (k : Int) :
    |(roundQuotient num d * d : Int) - num| ≤ |k * d - num| ∧
      (|(roundQuotient num d * d : Int) - num| = |k * d - num| → k ≠ roundQuotient num d →
        roundQuotient num d % 2 = 0) := by
  obtain ⟨hle, heven⟩ := roundQuotient_half num hd
  generalize roundQuotient num d = q at *
  by_cases hk : k = q
  · subst hk
    exact ⟨le_refl _, fun _ h => absurd rfl h⟩
  · have hgap : (d : Int) ≤ |k * d - num| + |(q * d : Int) - num| :=
      calc (d : Int) = 1 * d := (one_mul _).symm
        _ ≤ |k - q| * d := mul_le_mul_of_nonneg_right (Int.one_le_abs (sub_ne_zero.2 hk)) (by omega)
        _ = |(k * d - num) - (q * d - num)| := by rw [← Nat.abs_cast d, ← abs_mul, Nat.abs_cast]; congr 1; ring
        _ ≤ |k * d - num| + |(q * d : Int) - num| := abs_sub _ _
    exact ⟨by omega, fun he _ => heven (by omega)⟩

/-! ## The bounds of the scaled quotient -/

/-- Where a scaled quotient `q` reaches the pattern of an infinity, by the shift: below 253 never, at 253 by the carry
of the rounding alone, above 253 always. `d` is the scaled divisor and `c` the divisor scaled by `2 ^ 253`. -/
theorem lt_inf_iff_of_scaled {num d c shift q : Nat} (hhigh : num < 2 ^ 24 * d)
    (hlow : shift = 0 ∨ 2 ^ 23 * d ≤ num) (hq : q ≤ 2 ^ 24) (hq' : shift = 0 ∨ 2 ^ 23 ≤ q)
    (hhalf : 2 * |(q * d : Int) - num| ≤ d) (heven : 2 * |(q * d : Int) - num| = d → q % 2 = 0)
    (hlt : shift < 253 → 2 * d ≤ c) (heq : shift = 253 → d = c) (hgt : 253 < shift → 2 * c ≤ d) :
    shift * 2 ^ 23 + q < 0x7F800000 ↔ num * 2 < (2 ^ 25 - 1) * c := by
  rcases Nat.lt_trichotomy shift 253 with h | h | h
  · have := hlt h
    exact iff_of_true (by omega) (by omega)
  · obtain rfl := heq h
    by_cases hc : q = 2 ^ 24
    · subst hc
      have := le_abs_self (((2 ^ 24 : Nat) * d : Int) - num)
      push_cast at *
      exact iff_of_false (by omega) (by omega)
    · have habs := neg_abs_le ((q * d : Int) - num)
      refine iff_of_true (by omega) ?_
      by_cases hodd : q = 2 ^ 24 - 1
      · have hne : 2 * |(q * d : Int) - num| ≠ d := fun h => by
          have := heven h
          omega
        have hqd : (q * d : Int) = (2 ^ 24 - 1) * d := by
          rw [hodd]
          rfl
        omega
      · have hqd : (q * d : Int) ≤ (2 ^ 24 - 2) * d := mul_le_mul_of_nonneg_right (by omega) (by omega)
        omega
  · have := hgt h
    exact iff_of_false (by omega) (by omega)

section
variable (num : Nat) {den : Nat} (hden : 0 < den)
include hden

/-- The scaled divisor is positive. -/
theorem scaledDen_pos : 0 < den * 2 ^ quotientShift num den := Nat.mul_pos hden (Nat.two_pow_pos _)

/-- The scaled quotient has at most 24 binary digits before rounding. -/
theorem scaled_high : num < 2 ^ 24 * (den * 2 ^ quotientShift num den) := by
  have h1 : num / den < 2 ^ (Nat.log2 (num / den) + 1) := Nat.lt_log2_self
  have h2 : 2 ^ (Nat.log2 (num / den) + 1) ≤ 2 ^ (24 + quotientShift num den) :=
    Nat.pow_le_pow_right (by decide) (by rw [quotientShift]; omega)
  have h3 := (Nat.div_lt_iff_lt_mul hden).1 (Nat.lt_of_lt_of_le h1 h2)
  calc num < 2 ^ (24 + quotientShift num den) * den := h3
    _ = 2 ^ 24 * (den * 2 ^ quotientShift num den) := by rw [pow_add]; ring

/-- And exactly 24 where it is scaled at all. -/
theorem scaled_low : quotientShift num den = 0 ∨ 2 ^ 23 * (den * 2 ^ quotientShift num den) ≤ num := by
  by_cases hs : quotientShift num den = 0
  · exact .inl hs
  · have hlog : Nat.log2 (num / den) = 23 + quotientShift num den := by
      rw [quotientShift] at *
      omega
    have hne : num / den ≠ 0 := fun h => hs (by rw [quotientShift, h]; rfl)
    have h1 := (Nat.le_div_iff_mul_le hden).1 (hlog ▸ Nat.log2_self_le hne)
    rw [pow_add, mul_assoc, mul_comm _ den] at h1
    exact .inr h1

theorem roundQuotient_scaled_le : roundQuotient num (den * 2 ^ quotientShift num den) ≤ 2 ^ 24 :=
  roundQuotient_le (scaled_high num hden)

theorem le_roundQuotient_scaled :
    quotientShift num den = 0 ∨ 2 ^ 23 ≤ roundQuotient num (den * 2 ^ quotientShift num den) :=
  (scaled_low num hden).imp id (le_roundQuotient (scaledDen_pos num hden))

/-- The pattern is that of a finite value exactly below the bound of overflow, half a unit in the last place above the
largest finite value. -/
theorem scaled_lt_inf_iff :
    quotientShift num den * 2 ^ 23 + roundQuotient num (den * 2 ^ quotientShift num den) < 0x7F800000 ↔
      num * 2 < (2 ^ 25 - 1) * 2 ^ 253 * den := by
  obtain ⟨hhalf, heven⟩ := roundQuotient_half num (scaledDen_pos num hden)
  rw [mul_assoc, mul_comm (2 ^ 253) den]
  refine lt_inf_iff_of_scaled (scaled_high num hden) (scaled_low num hden) (roundQuotient_scaled_le num hden)
    (le_roundQuotient_scaled num hden) hhalf heven (fun h => ?_) (fun h => by rw [h]) (fun h => ?_)
  · calc 2 * (den * 2 ^ quotientShift num den) = den * 2 ^ (quotientShift num den + 1) := by rw [pow_succ]; ring
      _ ≤ den * 2 ^ 253 := Nat.mul_le_mul_left _ (Nat.pow_le_pow_right (by decide) h)
  · calc 2 * (den * 2 ^ 253) = den * 2 ^ (253 + 1) := by rw [pow_succ]; ring
      _ ≤ den * 2 ^ quotientShift num den := Nat.mul_le_mul_left _ (Nat.pow_le_pow_right (by decide) h)

end

/-! ## The nearest binary32 -/

/-- `q` units of `2 ^ shift`, the rounded quotient, is as near as every multiple of `2 ^ shift` and every number below
the least one with 24 digits there. -/
theorem roundQuotient_scaled_nearest (num : Nat) {den : Nat} (hden : 0 < den) {u : Int}
    (hu : ((2 ^ quotientShift num den : Nat) : Int) ∣ u ∨ u < (2 ^ 23 * 2 ^ quotientShift num den : Nat)) :
    let y : Int := (roundQuotient num (den * 2 ^ quotientShift num den) * 2 ^ quotientShift num den : Nat)
    |y * den - num| ≤ |u * den - num| ∧
      (|y * den - num| = |u * den - num| → u ≠ y → roundQuotient num (den * 2 ^ quotientShift num den) % 2 = 0) := by
  have hnear := roundQuotient_nearest num (scaledDen_pos num hden)
  have hlow := scaled_low num hden
  generalize quotientShift num den = shift at *
  generalize roundQuotient num (den * 2 ^ shift) = q at *
  have hy : ((q * 2 ^ shift : Nat) : Int) * den = q * (den * 2 ^ shift : Nat) := by
    push_cast
    ring
  have hdvd : ∀ k : Int, u = (2 ^ shift : Nat) * k → u * den = k * (den * 2 ^ shift : Nat) := fun k hk => by
    rw [hk]
    push_cast
    ring
  simp only [hy]
  by_cases hd : ((2 ^ shift : Nat) : Int) ∣ u
  · obtain ⟨k, hk⟩ := hd
    obtain ⟨hle, htie⟩ := hnear k
    rw [hdvd k hk]
    refine ⟨hle, fun he hne => htie he fun hkq => hne ?_⟩
    rw [hk, hkq]
    push_cast
    ring
  · have hs : shift ≠ 0 := fun h => hd (by simp [h])
    have hnum : 2 ^ 23 * (den * 2 ^ shift) ≤ num := hlow.resolve_left hs
    have hlt : u * den < (2 ^ 23 : Nat) * (den * 2 ^ shift : Nat) := by
      calc u * den < (2 ^ 23 * 2 ^ shift : Nat) * den := mul_lt_mul_of_pos_right (hu.resolve_left hd) (by omega)
        _ = (2 ^ 23 : Nat) * (den * 2 ^ shift : Nat) := by push_cast; ring
    have hstrict : |(q * (den * 2 ^ shift : Nat) : Int) - num| < |u * den - num| := by
      refine lt_of_le_of_lt (hnear (2 ^ 23 : Nat)).1 ?_
      rw [abs_of_nonpos (by omega), abs_of_nonpos (by omega)]
      omega
    exact ⟨hstrict.le, fun he => absurd he hstrict.ne⟩

/-- A value with a sign taken off is a multiple of `2 ^ shift` or below the least number with 24 digits there. -/
theorem signOf_mul_unitsOf_dvd_or_lt (neg : Bool) (z : F32) (shift : Nat) :
    ((2 ^ shift : Nat) : Int) ∣ signOf neg * unitsOf z ∨ signOf neg * unitsOf z < (2 ^ 23 * 2 ^ shift : Nat) := by
  refine (magUnits_dvd_or_lt z shift).imp (fun h => ?_) fun h => ?_
  · rw [unitsOf_eq]
    exact Dvd.dvd.mul_left (Dvd.dvd.mul_left (Int.natCast_dvd_natCast.2 h) _) _
  · calc signOf neg * unitsOf z ≤ |signOf neg * unitsOf z| := le_abs_self _
      _ = magUnits z := by rw [abs_signOf_mul, unitsOf_eq, abs_signOf_mul, Nat.abs_cast]
      _ < (2 ^ 23 * 2 ^ shift : Nat) := Int.ofNat_lt.2 h

/-- `roundUnits` rounds once, to nearest, ties to even, and overflows to an infinity (rule R12). -/
theorem roundUnits_rounded (neg : Bool) (num : Nat) {den : Nat} (hden : 0 < den) :
    rounded (signOf neg * num) den (roundUnits neg num den) := by
  have hfin := scaled_lt_inf_iff num hden
  have hmag := magUnits_packF32 neg (roundQuotient_scaled_le num hden) (le_roundQuotient_scaled num hden)
  have hnear := fun z => roundQuotient_scaled_nearest num hden (signOf_mul_unitsOf_dvd_or_lt neg z _)
  rw [rounded, natAbs_signOf_mul, roundUnits_eq]
  generalize quotientShift num den = shift at *
  generalize roundQuotient num (den * 2 ^ shift) = q at *
  by_cases hlt : shift * 2 ^ 23 + q < 0x7F800000
  · have hp : shift * 2 ^ 23 + q < 2 ^ 31 := by omega
    rw [if_pos (hfin.1 hlt), min_eq_left hlt.le]
    refine ⟨isFinite_packF32 neg hlt, fun z _ => ?_⟩
    obtain ⟨hle, htie⟩ := hnear z
    have hy : unitsOf (packF32 neg (shift * 2 ^ 23 + q)) = signOf neg * (q * 2 ^ shift : Nat) := by
      rw [unitsOf_eq, signBit_packF32 neg hp, hmag hp]
    rw [abs_mul_sub_signOf_mul, abs_mul_sub_signOf_mul, hy, signOf_mul_cancel, fracField_packF32 neg hp]
    refine ⟨hle, fun he hne => ?_⟩
    have heven := htie he fun h => hne (by rw [← h, signOf_mul_cancel])
    omega
  · have hnum : ¬ num * 2 < (2 ^ 25 - 1) * 2 ^ 253 * den := fun h => hlt (hfin.2 h)
    have hpos : 0 < num := Nat.pos_of_ne_zero fun h => hnum (by rw [h]; positivity)
    rw [if_neg hnum, min_eq_right (by omega), signOf_mul_lt_zero_iff neg hpos, signBit_packF32 neg (by decide)]
    exact ⟨isInf_packF32 neg, Iff.rfl⟩

/-! ## The operations on finite operands -/

theorem not_isNaN_of_isFinite {a : F32} (h : isFinite a = true) : isNaN a = false := by
  rw [isFinite, bne_iff_ne] at h
  simp [isNaN, h]

theorem not_isInf_of_isFinite {a : F32} (h : isFinite a = true) : isInf a = false := by
  rw [isFinite, bne_iff_ne] at h
  simp [isInf, h]

theorem roundUnits_zero (neg : Bool) : roundUnits neg 0 1 = packF32 neg 0 := by
  cases neg <;> decide

theorem expField_flipSign (x : F32) : expField (flipSign x) = expField x := by
  rw [expField, flipSign, BitVec.extractLsb'_xor]
  simp [expField]

theorem fracField_flipSign (x : F32) : fracField (flipSign x) = fracField x := by
  rw [fracField, flipSign, BitVec.extractLsb'_xor]
  simp [fracField]

theorem signBit_flipSign (x : F32) : signBit (flipSign x) = !signBit x := by
  rw [signBit, flipSign, BitVec.msb_xor]
  exact Bool.xor_true _

theorem isFinite_flipSign (x : F32) : isFinite (flipSign x) = isFinite x := by
  rw [isFinite, isFinite, expField_flipSign]

theorem unitsOf_flipSign (x : F32) : unitsOf (flipSign x) = -unitsOf x := by
  have hm : magUnits (flipSign x) = magUnits x := by
    rw [magUnits, magUnits, expField_flipSign, fracField_flipSign]
  rw [unitsOf, unitsOf, signBit_flipSign, hm]
  cases signBit x <;> simp

/-- The exact sum rounded once; a zero sum is rounded to a zero of either sign. -/
theorem addWith_rounded (op : Config.FloatOp) {a b : F32} (ha : isFinite a = true) (hb : isFinite b = true) :
    rounded (unitsOf a + unitsOf b) 1 (addWith op a b) := by
  rw [addWith, not_isNaN_of_isFinite ha, not_isNaN_of_isFinite hb, not_isInf_of_isFinite ha, not_isInf_of_isFinite hb]
  simp only [Bool.or_self, Bool.false_eq_true, if_false]
  split
  · rename_i h
    simpa [h, roundUnits_zero] using roundUnits_rounded (signBit a && signBit b) 0 Nat.one_pos
  · have hs : signOf (decide (unitsOf a + unitsOf b < 0)) * ((unitsOf a + unitsOf b).natAbs : Int) =
        unitsOf a + unitsOf b := by
      by_cases h : unitsOf a + unitsOf b < 0
      · simp [signOf, h, abs_of_neg h]
      · simp [signOf, h, abs_of_nonneg (not_lt.1 h)]
    simpa only [hs] using
      roundUnits_rounded (decide (unitsOf a + unitsOf b < 0)) (unitsOf a + unitsOf b).natAbs Nat.one_pos

theorem fmul_of_isFinite {a b : F32} (ha : isFinite a = true) (hb : isFinite b = true) :
    fmul a b = roundUnits (signBit a != signBit b) (magUnits a * magUnits b) (2 ^ 149) := by
  simp [fmul, not_isNaN_of_isFinite ha, not_isNaN_of_isFinite hb, not_isInf_of_isFinite ha, not_isInf_of_isFinite hb]

theorem fdiv_of_isFinite {a b : F32} (ha : isFinite a = true) (hb : isFinite b = true) (h0 : isZero b = false) :
    fdiv a b = roundUnits (signBit a != signBit b) (magUnits a * 2 ^ 149) (magUnits b) := by
  simp [fdiv, not_isNaN_of_isFinite ha, not_isNaN_of_isFinite hb, not_isInf_of_isFinite ha, not_isInf_of_isFinite hb,
    h0]

theorem fmul_rounded {a b : F32} (ha : isFinite a = true) (hb : isFinite b = true) :
    rounded (unitsOf a * unitsOf b) (2 ^ 149) (fmul a b) := by
  have he : unitsOf a * unitsOf b = signOf (signBit a != signBit b) * (magUnits a * magUnits b : Nat) := by
    rw [unitsOf_eq a, unitsOf_eq b, signOf_bne]
    push_cast
    ring
  rw [he, fmul_of_isFinite ha hb]
  exact roundUnits_rounded _ _ (Nat.two_pow_pos 149)

theorem fdiv_rounded {a b : F32} (ha : isFinite a = true) (hb : isFinite b = true) (h0 : unitsOf b ≠ 0) :
    rounded (unitsOf a * 2 ^ 149 * (unitsOf b).sign) (unitsOf b).natAbs (fdiv a b) := by
  have hm : magUnits b ≠ 0 := fun hm => h0 (by rw [unitsOf_eq, hm]; exact mul_zero _)
  have hz : isZero b = false := beq_eq_false_iff_ne.2 hm
  have hs : (unitsOf b).sign = signOf (signBit b) := by
    cases h : signBit b <;> simp [unitsOf, signOf, h, Nat.pos_of_ne_zero hm]
  have he : unitsOf a * 2 ^ 149 * (unitsOf b).sign =
      signOf (signBit a != signBit b) * (magUnits a * 2 ^ 149 : Nat) := by
    rw [hs, unitsOf_eq a, signOf_bne]
    push_cast
    ring
  rw [he, fdiv_of_isFinite ha hb hz, unitsOf_eq b, natAbs_signOf_mul]
  exact roundUnits_rounded _ _ (Nat.pos_of_ne_zero hm)

/-- Settles O57: each operation on finite operands is `roundUnits` of its exact result, which rounds once. -/
theorem basicOperationsRoundToNearestEven : Obligations.BasicOperationsRoundToNearestEven := by
  unfold Obligations.BasicOperationsRoundToNearestEven
  intro a b ha hb
  refine ⟨addWith_rounded .add ha hb, ?_, fmul_rounded ha hb, fdiv_rounded ha hb⟩
  rw [sub_eq_add_neg, ← unitsOf_flipSign]
  exact addWith_rounded .sub ha ((isFinite_flipSign b).trans hb)

end Sys2Proof.Machine
end

section
/-! SUPPORT. A product with 1.0 is exact (rule R12), and with it an idle EQ_PROCESS (rules R350, R364, R366): without a
processing band, with model Clean and gains of 0 dB, every sample is multiplied by 1.0 twice. -/

namespace Sys2Proof.Machine

/-! ## Exact rounding -/

theorem roundQuotient_mul (q : Nat) {d : Nat} (hd : 0 < d) : roundQuotient (q * d) d = q := by
  have hd0 : 0 ≠ d := by omega
  simp [roundQuotient, Nat.mul_div_cancel q hd, hd0]

/-- A pattern from its fields. -/
theorem packF32_fields (x : F32) : packF32 (signBit x) (expField x * 2 ^ 23 + fracField x) = x := by
  have hx := x.isLt
  apply BitVec.eq_of_toNat_eq
  rw [expField_eq, fracField_eq, signBit_eq, packF32_toNat _ (by omega)]
  split <;> simp only [decide_eq_true_eq] at * <;> omega

/-- A value has at most 24 binary digits above its exponent's unit. -/
theorem magUnits_scaled (x : F32) :
    ∃ q, magUnits x = q * 2 ^ (expField x - 1) ∧ Nat.log2 (magUnits x) - 23 = expField x - 1 ∧
      (expField x - 1) * 2 ^ 23 + q = expField x * 2 ^ 23 + fracField x := by
  have hf := fracField_lt x
  by_cases he : expField x = 0
  · refine ⟨fracField x, by simp [magUnits, he], ?_, by simp [he]⟩
    have hlog : Nat.log2 (fracField x) < 23 ∨ fracField x = 0 :=
      (eq_or_ne (fracField x) 0).symm.imp (fun h => (Nat.log2_lt h).2 hf) id
    rcases hlog with hlog | hlog
    · simp only [magUnits, he, if_true]
      omega
    · simp [magUnits, he, hlog]
  · refine ⟨2 ^ 23 + fracField x, if_neg he, ?_, by omega⟩
    have hlog : Nat.log2 (magUnits x) = 23 + (expField x - 1) := by
      rw [magUnits, if_neg he, Nat.log2_eq_iff (by positivity)]
      constructor
      · rw [pow_add]
        exact Nat.mul_le_mul_right _ (by omega)
      · rw [show 23 + (expField x - 1) + 1 = 24 + (expField x - 1) by omega, pow_add]
        exact Nat.mul_lt_mul_of_pos_right (by omega) (Nat.two_pow_pos _)
    omega

/-- Rounding a binary32's own value gives it back (rule R12). -/
theorem roundUnits_exact {x : F32} (hx : isFinite x = true) {den : Nat} (hden : 0 < den) :
    roundUnits (signBit x) (magUnits x * den) den = x := by
  obtain ⟨q, hm, hlog, hfields⟩ := magUnits_scaled x
  have hshift : quotientShift (magUnits x * den) den = expField x - 1 := by
    rw [quotientShift, Nat.mul_div_cancel _ hden, hlog]
  have hq : roundQuotient (magUnits x * den) (den * 2 ^ (expField x - 1)) = q := by
    rw [hm, mul_assoc, mul_comm _ den]
    exact roundQuotient_mul q (Nat.mul_pos hden (Nat.two_pow_pos _))
  have hlt : expField x * 2 ^ 23 + fracField x ≤ 0x7F800000 := by
    have hf := fracField_lt x
    have he : expField x < 2 ^ 8 := by
      rw [expField_eq]
      exact Nat.mod_lt _ (by decide)
    rw [isFinite, bne_iff_ne] at hx
    omega
  rw [roundUnits_eq, hshift, hq, hfields, min_eq_left hlt, packF32_fields]

/-! ## Multiplication by 1.0 -/

/-- The fraction an operation's NaN takes from its free bits is not 0. -/
theorem nanFraction_ne_zero (w : Word) :
    (if w &&& 0x007FFFFF#32 = 0 then 0x00400000#32 else w &&& 0x007FFFFF#32).extractLsb' 0 23 ≠ 0 := by
  split
  · decide
  · rename_i hne
    intro h0
    have hle : (w &&& 0x007FFFFF#32).toNat ≤ 0x007FFFFF := by
      rw [BitVec.toNat_and]
      exact Nat.and_le_right
    have h := congrArg BitVec.toNat h0
    rw [BitVec.extractLsb'_toNat, Nat.shiftRight_zero, Nat.mod_eq_of_lt (by omega)] at h
    exact hne (BitVec.eq_of_toNat_eq h)

/-- What an operation yields as a NaN is one (rule R13). -/
theorem isNaN_nanOf (op : Config.FloatOp) (a b : F32) : isNaN (nanOf op a b) = true := by
  have hfrac := nanFraction_ne_zero (Config.nanBits op a b)
  simp only [nanOf]
  generalize Config.nanBits op a b = w at *
  generalize (if w &&& 0x007FFFFF#32 = 0 then 0x00400000#32 else w &&& 0x007FFFFF#32) = f at *
  have he : expField (w &&& 0x80000000#32 ||| 0x7F800000#32 ||| f) = 255 := by
    rw [expField, BitVec.extractLsb'_or, BitVec.extractLsb'_or,
      show (0x7F800000#32).extractLsb' 23 8 = BitVec.allOnes 8 by decide, BitVec.or_allOnes, BitVec.allOnes_or]
    rfl
  have hf : fracField (w &&& 0x80000000#32 ||| 0x7F800000#32 ||| f) ≠ 0 := by
    rw [fracField, BitVec.extractLsb'_or, BitVec.extractLsb'_or, BitVec.extractLsb'_and,
      show (0x7F800000#32).extractLsb' 0 23 = 0#23 by decide, show (0x80000000#32).extractLsb' 0 23 = 0#23 by decide,
      BitVec.and_zero, BitVec.zero_or, BitVec.zero_or]
    exact fun h => hfrac (BitVec.eq_of_toNat_eq h)
  rw [isNaN, he, bne_iff_ne.2 hf]
  rfl

/-- A product with 1.0 keeps the bits of every number. -/
theorem fmul_one {x : F32} (hx : isNaN x = false) : fmul x fOne = x := by
  cases hf : isFinite x with
  | true =>
    have hs : (signBit x != signBit fOne) = signBit x := by
      rw [show signBit fOne = false from rfl, Bool.bne_false]
    have hm : magUnits fOne = 2 ^ 149 := by decide
    rw [fmul_of_isFinite hf rfl, hs, hm]
    exact roundUnits_exact hf (Nat.two_pow_pos 149)
  | false =>
    have he : expField x = 255 := by simpa [isFinite] using hf
    have hfrac : fracField x = 0 := by simpa [isNaN, he] using hx
    have hi : isInf x = true := by simp [isInf, he, hfrac]
    have hp : packF32 (signBit x) 0x7F800000 = x := by
      have h := packF32_fields x
      rwa [he, hfrac] at h
    rw [fmul, hx, hi, show isNaN fOne = false from rfl, show isZero fOne = false from rfl,
      show isInf fOne = false from rfl, show signBit fOne = false from rfl, Bool.bne_false]
    simpa using hp

/-- `w'` is the sample `w`, but for the bits of a NaN (rule R13). -/
def sameSample (w w' : Word) : Prop := (isNaN w = false → w' = w) ∧ (isNaN w = true → isNaN w' = true)

theorem sameSample_refl (w : Word) : sameSample w w := ⟨fun _ => rfl, id⟩

theorem sameSample_trans {u v w : Word} (h1 : sameSample u v) (h2 : sameSample v w) : sameSample u w := by
  refine ⟨fun h => ?_, fun h => h2.2 (h1.2 h)⟩
  obtain rfl := h1.1 h
  exact h2.1 h

theorem sameSample_fmul_one (w : Word) : sameSample w (fmul w fOne) := by
  refine ⟨fmul_one, fun h => ?_⟩
  rw [fmul, h]
  exact isNaN_nanOf _ _ _

/-! ## An idle equalizer -/

/-- No band processes, the model is Clean and both gains are a zero (rule R366 (b)), and no host write races. -/
structure EqInert (s : State) : Prop where
  bands : ∀ b, b < 8 → bandProcesses s b = false
  clean : s.eqg[2] = 0
  inGain : isZero s.eqg[0] = true
  outGain : isZero s.eqg[1] = true
  quiet : s.raced = []

/-- The two zeros. -/
theorem eq_of_isZero {x : F32} (h : isZero x = true) : x = 0x00000000 ∨ x = 0x80000000 := by
  rw [isZero, beq_iff_eq, magUnits] at h
  have hx : expField x = 0 ∧ fracField x = 0 := by
    split at h
    · exact ⟨‹_›, h⟩
    · have := Nat.mul_pos (show 0 < 2 ^ 23 + fracField x by omega) (Nat.two_pow_pos (expField x - 1))
      omega
  have hp := packF32_fields x
  rw [hx.1, hx.2] at hp
  cases hs : signBit x with
  | false => exact .inl (hp.symm.trans (by rw [hs]; rfl))
  | true => exact .inr (hp.symm.trans (by rw [hs]; rfl))

/-- A gain of 0 dB of either sign is the factor 1.0 (rules R14, R364). -/
theorem globalGain_of_isZero {s : State} {id : Fin 4} (h : isZero s.eqg[id] = true) : globalGain s id = fOne := by
  have hclosed : isZero (fdiv (clampDb 0x00000000) (f32OfNat 20)) = true ∧
      isZero (fdiv (clampDb 0x80000000) (f32OfNat 20)) = true := by decide +kernel
  have hg : isZero (fdiv (clampDb s.eqg[id]) (f32OfNat 20)) = true := by
    rcases eq_of_isZero h with hz | hz <;> rw [hz]
    exacts [hclosed.1, hclosed.2]
  exact if_pos hg

theorem bandsOut_of_idle {s : State} {bs : List Nat} (h : ∀ b ∈ bs, bandProcesses s b = false) (ch : Nat) (x : F32)
    (e : EqEngine) : bandsOut s ch bs x e = (x, e) := by
  induction bs with
  | nil => rfl
  | cons b bs ih =>
    rw [bandsOut, h b List.mem_cons_self]
    exact ih fun c hc => h c (List.mem_cons_of_mem _ hc)

section
variable {s : State} (hs : EqInert s)
include hs

theorem eqIdle_of_inert : eqIdle s = true := by
  have hall : (List.range 8).all (fun b => !bandProcesses s b) = true :=
    List.all_eq_true.2 fun b hb => by rw [hs.bands b (List.mem_range.1 hb)]; rfl
  rw [eqIdle, hall, hs.clean]
  rfl

/-- Idle, the equalizer passes a sample through at either oversampling factor (rules R350, R366). -/
theorem eqSample_of_inert (ch : Nat) (x : F32) : eqSample s ch x = (x, s.eq) := by
  have hi := eqIdle_of_inert hs
  rw [eqSample, if_neg (by simp [hi]), path, bandsOut_of_idle fun b hb => hs.bands b (List.mem_range.1 hb)]
  exact if_pos hs.clean

/-- Idle, a sample is read and multiplied by 1.0 twice (rule R350). -/
theorem sampleOut_of_inert {base j : Nat} {w : Word} (hw : Memory.word s.mem (base + 4 * j) = some w) :
    sampleOut base j s = .next (fmul (fmul w fOne) fOne, s) := by
  have hr : readWord s (base + 4 * j) = .next w := by
    rw [readWord_eq_next, seenWord_quiet hs.quiet, hw]
  rw [sampleOut, hr, andThen_next, eqSample_of_inert hs, globalGain_of_isZero (id := 0) hs.inGain,
    globalGain_of_isZero (id := 1) hs.outGain]

theorem eqInert_writeWord (a : Nat) (w : Word) : EqInert (writeWord s a w) :=
  ⟨hs.bands, hs.clean, hs.inGain, hs.outGain, hs.quiet⟩

theorem eqInert_eqBegin : EqInert (eqBegin s) := by
  rw [eqBegin_frame]
  exact ⟨hs.bands, hs.clean, hs.inGain, hs.outGain, hs.quiet⟩

end

/-! ## The block -/

/-- Every sample of the buffer at `base` that `m` holds, `m'` holds too, but for the bits of a NaN. -/
def keepsSamples (base : Nat) (m m' : List Host.Cell) : Prop :=
  ∀ j w, Memory.word m (base + 4 * j) = some w → ∃ w', Memory.word m' (base + 4 * j) = some w' ∧ sameSample w w'

theorem keepsSamples_refl (base : Nat) (m : List Host.Cell) : keepsSamples base m m :=
  fun _ w hw => ⟨w, hw, sameSample_refl w⟩

theorem keepsSamples_trans {base : Nat} {m1 m2 m3 : List Host.Cell} (h1 : keepsSamples base m1 m2)
    (h2 : keepsSamples base m2 m3) : keepsSamples base m1 m3 := by
  intro j w hw
  obtain ⟨w', hw', s1⟩ := h1 j w hw
  obtain ⟨w'', hw'', s2⟩ := h2 j w' hw'
  exact ⟨w'', hw'', sameSample_trans s1 s2⟩

theorem keepsSamples_setWord {base j : Nat} {m : List Host.Cell} {w v : Word}
    (hw : Memory.word m (base + 4 * j) = some w) (hv : sameSample w v) :
    keepsSamples base m (Memory.setWord m (base + 4 * j) v) := by
  intro i u hu
  by_cases hij : i = j
  · subst hij
    obtain rfl := Option.some.inj (hw.symm.trans hu)
    exact ⟨v, word_setWord_same _ _ _, hv⟩
  · exact ⟨u, by rw [word_setWord_other _ _ _ _ (by omega), hu], sameSample_refl u⟩

/-- Idle, the sample loop completes, keeps every sample and leaves the signal state (rule R366 (b)). -/
theorem eqSamples_of_inert {base : Nat} {js : List Nat} {s : State} (hs : EqInert s)
    (hread : ∀ j ∈ js, (Memory.word s.mem (base + 4 * j)).isSome = true) :
    ∃ t, eqSamples base js s = .next t ∧ t.eq = s.eq ∧ keepsSamples base s.mem t.mem := by
  induction js generalizing s with
  | nil => exact ⟨s, rfl, rfl, keepsSamples_refl _ _⟩
  | cons j js ih =>
    obtain ⟨w, hw⟩ := Option.isSome_iff_exists.1 (hread j List.mem_cons_self)
    have hkeep := keepsSamples_setWord hw
      (sameSample_trans (sameSample_fmul_one w) (sameSample_fmul_one (fmul w fOne)))
    obtain ⟨t, ht, heq, hm⟩ := ih (eqInert_writeWord hs (base + 4 * j) (fmul (fmul w fOne) fOne)) fun i hi =>
      word_setWord_isSome _ _ _ _ (hread i (List.mem_cons_of_mem _ hi))
    refine ⟨t, ?_, heq, keepsSamples_trans hkeep hm⟩
    rw [eqSamples, sampleOut_of_inert hs hw]
    exact ht

/-- Idle, EQ_PROCESS's body completes, keeps every sample and leaves the signal state (rule R366 (b)). -/
theorem eqBlock_of_inert {k : BitVec 8} {frames : Word} {s : State} (hs : EqInert s)
    (hread : readableWords s (bufBase k.toNat) (frameCount frames s * actC s) = true) :
    ∃ t, eqBlock k frames s = .next t ∧ t.eq = s.eq ∧ keepsSamples (bufBase k.toNat) s.mem t.mem := by
  have hb := eqInert_eqBegin hs
  rw [eqBlock]
  rw [eqBegin_frame] at *
  exact eqSamples_of_inert hb fun j hj => readableWords_iff.1 hread j
    (Nat.lt_of_lt_of_le (List.mem_range.1 (List.mem_of_mem_drop hj)) (eqLength_le _ _))

/-- Settles O32: the queue is empty, so the body runs on the same state, where it is idle. -/
theorem eqIdleReproducesItsInput : Obligations.EqIdleReproducesItsInput := by
  unfold Obligations.EqIdleReproducesItsInput
  intro s k frames hp hk hq hraced hbands hclean hin hout hread
  obtain ⟨t, ht, heq, hkeep⟩ := eqBlock_of_inert ⟨hbands, hclean, hin, hout, hraced⟩ hread
  refine ⟨finish .ok 0x03 t, processCommand_completes hp hk (drain_empty s hq) ht, heq, fun j w _ hw => ?_⟩
  exact hkeep j w hw

end Sys2Proof.Machine
end

section
/-! SUPPORT. The exact properties of the `Numerics` functions and of the transform (rules R14, R463). -/

namespace Sys2Proof.Machine

theorem not_isNaN_of_flt {a b : F32} (h : flt a b = true) : isNaN a = false ∧ isNaN b = false := by
  simp only [flt, Bool.and_eq_true, Bool.not_eq_true'] at h
  exact h.1

/-! ## The power function -/

/-- The branches of `pow` on numbers (rule R14). -/
theorem powN_of_numbers {x y : F32} (hx : isNaN x = false) (hy : isNaN y = false) :
    powN x y =
      if y = fOne && !signBit x then x
      else if x = fZero && flt fZero y then fZero
      else if x = fOne then fOne
      else Config.pow x y := by
  rw [powN, hx, hy]
  rfl

theorem powN_one_right {x : F32} (hx : isNaN x = false) (hs : signBit x = false) : powN x fOne = x := by
  rw [powN_of_numbers hx rfl, hs]
  rfl

theorem powN_zero_left {c : F32} (hc : flt fZero c = true) : powN fZero c = fZero := by
  obtain ⟨h0, hn⟩ := not_isNaN_of_flt hc
  rw [powN_of_numbers h0 hn, hc]
  split <;> rfl

theorem powN_one_left {c : F32} (hc : isNaN c = false) : powN fOne c = fOne := by
  rw [powN_of_numbers rfl hc]
  split <;> rfl

/-! ## The transform -/

theorem dftBin_of_zeros {xw : List F32} (h : ∀ x ∈ xw, isZero x = true) (k : Nat) : dftBin xw k = (fZero, fZero) :=
  if_pos (List.all_eq_true.2 h)

/-- Bins 0 and N/2 have no imaginary part (rule R463 (b)). -/
theorem dftBin_im_eq_zero {xw : List F32} {k : Nat} (h : k = 0 ∨ k = xw.length / 2) : (dftBin xw k).2 = fZero := by
  by_cases hz : xw.all isZero = true
  · rw [dftBin, if_pos hz]
  · rw [dftBin, if_neg hz]
    exact if_pos h

/-- Settles O58: each function's exact property is a branch of its definition. -/
theorem exactNumericsProperties : Obligations.ExactNumericsProperties := by
  unfold Obligations.ExactNumericsProperties
  exact ⟨if_pos rfl, if_pos rfl, if_pos rfl, if_pos rfl, if_pos rfl, if_pos rfl, if_pos rfl, if_pos rfl, if_pos rfl,
    if_pos rfl, if_pos rfl, if_pos ⟨rfl, rfl⟩, fun _ => powN_one_right, fun _ => powN_zero_left,
    fun _ => powN_one_left, fun _ k h => dftBin_of_zeros h k,
    fun _ => ⟨dftBin_im_eq_zero (.inl rfl), dftBin_im_eq_zero (.inr rfl)⟩⟩

end Sys2Proof.Machine
end

section
/-! SUPPORT. What a computation stores: the bytes it may change, and that it keeps the canonical form. Every body of a
process command stores within its block, or within the result windows (rules R109 to R111). -/

namespace Sys2Proof.Machine

/-! ## Stores within a set of bytes -/

/-- `m'` is `m` after stores to bytes of `A` alone: the canonical form is kept, a byte newly listed is one of `A`, and
every other byte reads as before. -/
structure WritesWithin (A : Nat → Prop) (m m' : List Host.Cell) : Prop where
  wf : Memory.wf m → Memory.wf m'
  cells : ∀ c ∈ m', c ∈ m ∨ A c.1
  other : ∀ x, ¬ A x → Memory.byte m' x = Memory.byte m x

theorem WritesWithin.refl (A : Nat → Prop) (m : List Host.Cell) : WritesWithin A m m :=
  ⟨id, fun _ => .inl, fun _ _ => rfl⟩

theorem WritesWithin.trans {A : Nat → Prop} {m m1 m2 : List Host.Cell} (h1 : WritesWithin A m m1)
    (h2 : WritesWithin A m1 m2) : WritesWithin A m m2 where
  wf h := h2.wf (h1.wf h)
  cells c hc := (h2.cells c hc).elim (h1.cells c) .inr
  other x hx := (h2.other x hx).trans (h1.other x hx)

theorem WritesWithin.mono {A B : Nat → Prop} {m m' : List Host.Cell} (h : WritesWithin A m m')
    (hAB : ∀ x, A x → B x) : WritesWithin B m m' where
  wf := h.wf
  cells c hc := (h.cells c hc).imp_right (hAB c.1)
  other x hx := h.other x fun ha => hx (hAB x ha)

theorem writesWithin_setWords {A : Nat → Prop} (ws : List Word) (m : List Host.Cell) (a : Nat)
    (hA : ∀ x, a ≤ x → x < a + 4 * ws.length → A x) : WritesWithin A m (Memory.setWords m a ws) where
  wf := setWords_wf ws m a
  cells c hc := (mem_setWords ws m a c hc).elim (fun h => .inr (hA _ h.1 h.2)) .inl
  other x hx := byte_setWords_other ws m a x (by
    by_contra h
    exact hx (hA x (by omega) (by omega)))

theorem writesWithin_setWord {A : Nat → Prop} (m : List Host.Cell) (a : Nat) (w : Word)
    (hA : ∀ x, a ≤ x → x < a + 4 → A x) : WritesWithin A m (Memory.setWord m a w) :=
  writesWithin_setWords [w] m a hA

theorem writesWithin_clear {A : Nat → Prop} (m : List Host.Cell) (lo len : Nat)
    (hA : ∀ x, lo ≤ x → x < lo + len → A x) : WritesWithin A m (Memory.clear m lo len) where
  wf := clear_wf m lo len
  cells c hc := (mem_clear hc).imp_right fun h => hA _ h.1 h.2
  other x hx := by rw [byte_clear, if_neg fun h => hx (hA x h.1 h.2)]

/-! ## The bytes of a block and of the results -/

/-- A byte of the block that a process command of `frames` frames covers in buffer `k` (rule R109). -/
def blockByte (k : BitVec 8) (frames : Word) (s : State) (x : Nat) : Prop :=
  bufBase k.toNat ≤ x ∧ x < bufBase k.toNat + 4 * (frameCount frames s * actC s)

/-- A byte of the first `K` words of MAG, PHASE or POWER (rule R111). -/
def binByte (K x : Nat) : Prop := ∃ base ∈ [magBase, phaseBase, powerBase], base ≤ x ∧ x < base + 4 * K

/-- A byte of a history slot (rule R110). -/
def slotByte (slot x : Nat) : Prop := histBase slot ≤ x ∧ x < histBase slot + 0x200

/-- A byte that `q` passes may write, the first of frame number `frame` (rules R464, R471): one of the spectrum windows
or of the slots of `q` frame numbers. -/
def passByte (K : Nat) (frame : Word) (q x : Nat) : Prop :=
  binByte K x ∨ ∃ p, p < q ∧ slotByte ((frame.toNat + p) % 32) x

theorem passByte_mono {K : Nat} {frame : Word} {q q' x : Nat} (hq : q ≤ q') (h : passByte K frame q x) :
    passByte K frame q' x :=
  h.imp_right fun ⟨p, hp, hx⟩ => ⟨p, by omega, hx⟩

/-- The passes after the first `q1`: their frame numbers go on from there, also across the wrap (rule R121). -/
theorem passByte_later {K : Nat} {frame : Word} {q1 q2 x : Nat}
    (h : passByte K (frame + BitVec.ofNat 32 q1) q2 x) : passByte K frame (q1 + q2) x := by
  refine h.imp_right fun ⟨p, hp, hx⟩ => ⟨q1 + p, by omega, ?_⟩
  rw [BitVec.toNat_add, BitVec.toNat_ofNat] at hx
  rwa [show (frame.toNat + (q1 + p)) % 32 = ((frame.toNat + q1 % 2 ^ 32) % 2 ^ 32 + p) % 32 by omega]

theorem length_binWords (K : Nat) (a : Array F32) : (binWords K a).length = K := by simp [binWords]

theorem maskFrom_length (fe : Word) (w : Nat) (ws : List Word) : (maskFrom fe w ws).length = ws.length := by
  induction ws generalizing w with
  | nil => rfl
  | cons v vs ih => simp [maskFrom, ih]

theorem writesWithin_publishPass {A : Nat → Prop} (m : List Host.Cell) (K slot : Nat) (sp : Spectra) {ws : List Word}
    (hws : ws.length = 128) (hA : ∀ x, binByte K x ∨ slotByte slot x → A x) :
    WritesWithin A m (publishPass m K slot sp ws) := by
  have hbin : ∀ base ∈ [magBase, phaseBase, powerBase], ∀ (m : List Host.Cell) (a : Array F32),
      WritesWithin A m (Memory.setWords m base (binWords K a)) := fun base hb m a =>
    writesWithin_setWords _ _ _ fun x h1 h2 => hA x (.inl ⟨base, hb, h1, by rwa [length_binWords] at h2⟩)
  have hslot : ∀ m, WritesWithin A m (Memory.setWords m (histBase slot) ws) := fun m =>
    writesWithin_setWords _ _ _ fun x h1 h2 => hA x (.inr ⟨h1, by rwa [hws] at h2⟩)
  exact (((hbin magBase (by simp) m sp.M).trans (hbin phaseBase (by simp) _ sp.Φ)).trans
    (hbin powerBase (by simp) _ sp.P)).trans (hslot _)

/-- The memory after a pass: the spectrum windows and the 128 words of the frame number's slot (rules R464, R471). -/
theorem passWrites_mem (s : State) : ∃ sp ws, ws.length = 128 ∧
    (passWrites s).mem = publishPass s.mem (actK s) (s.spec.frame.toNat % 32) sp ws := by
  simp only [passWrites, tempoStep_frame, onsetStep_frame]
  exact ⟨_, _, by rw [maskFrom_length, snapshotWords_length], rfl⟩

theorem passWrites_writes {A : Nat → Prop} (s : State)
    (hA : ∀ x, binByte (actK s) x ∨ slotByte (s.spec.frame.toNat % 32) x → A x) :
    WritesWithin A s.mem (passWrites s).mem := by
  obtain ⟨sp, ws, hws, hm⟩ := passWrites_mem s
  rw [hm]
  exact writesWithin_publishPass _ _ _ _ hws hA

theorem analysisPass_writes {A : Nat → Prop} (s : State)
    (hA : ∀ x, binByte (actK s) x ∨ slotByte (s.spec.frame.toNat % 32) x → A x) :
    WritesWithin A s.mem (analysisPass s).mem := by
  have h := passWrites_writes (advanceSeq s) hA
  rw [advanceSeq_mem] at h
  rwa [analysisPass, advanceSeq_mem]

/-! ## The bodies of the process commands -/

/-- The equalizer's samples change the signal state and the words of the block (rules R109, R350). -/
theorem eqFrom_frame {k : BitVec 8} {frames : Word} {i : Nat} {s t : State} (h : eqFrom k frames i s = .next t) :
    onlyEq s t ∧ WritesWithin (blockByte k frames s) s.mem t.mem := by
  refine eqFrom_inv (P := fun u => onlyEq s u ∧ WritesWithin (blockByte k frames s) s.mem u.mem)
    (fun u j e w hu hj => ⟨onlyEq_trans hu.1 rfl, hu.2.trans ?_⟩) (s := s) ⟨rfl, WritesWithin.refl _ _⟩ h
  have hact : u.act = s.act := by rw [hu.1]
  have hj : j < frameCount frames s * actC s := by
    have := Nat.lt_of_lt_of_le hj (eqLength_le _ _)
    rwa [frameCount, actC, hact] at this
  exact writesWithin_setWord _ _ _ fun x h1 h2 => ⟨by omega, by omega⟩

/-- The words of frame `i` lie in the block (rule R109). -/
theorem frame_blockByte {k : BitVec 8} {frames : Word} {s : State} {i x : Nat} (hi : i < frameCount frames s)
    (h1 : bufBase k.toNat + 4 * (i * actC s) ≤ x) (h2 : x < bufBase k.toNat + 4 * (i * actC s) + 4 * actC s) :
    blockByte k frames s x := by
  have hle : i * actC s + actC s ≤ frameCount frames s * actC s := by
    rw [← Nat.succ_mul]
    exact Nat.mul_le_mul_right _ hi
  exact ⟨by omega, by omega⟩

theorem writeFrame_onlyFrame (a : Nat) (out : Word) (s : State) : onlyFrame s (writeFrame a out s) :=
  ⟨rfl, fun _ h => word_setWords_isSome _ _ _ _ h⟩

theorem onlyRender_act {s t : State} (h : onlyRender s t) : t.act = s.act := by rw [h.1]

/-- A rendered block changes the voice file, its counters and the words of the block (rules R109, R250). -/
theorem renderInv_writes (k : BitVec 8) (frames : Word) (s : State) :
    RenderInv (bufBase k.toNat) (frameCount frames s)
      fun u => onlyRender s u ∧ WritesWithin (blockByte k frames s) s.mem u.mem where
  voice _ _ _ _ hu _ _ := ⟨onlyRender_trans hu.1 (onlyRender_of_events rfl), hu.2⟩
  draw _ hu := ⟨onlyRender_trans hu.1 (onlyRender_of_events rfl), hu.2⟩
  event u w t hu h := by
    obtain ⟨t', ht', ft⟩ := applyEventWord_completes w u
    obtain rfl := Host.Outcome.next.inj (ht'.symm.trans h)
    exact ⟨onlyRender_trans hu.1 (onlyRender_of_events ft), by rw [onlyEvents_mem ft]; exact hu.2⟩
  frame u i out hu hi := by
    have hc : actC u = actC s := by rw [actC, onlyRender_act hu.1]; rfl
    refine ⟨onlyRender_trans hu.1 (onlyRender_of_frame (writeFrame_onlyFrame _ _ _)), hu.2.trans ?_⟩
    refine writesWithin_setWords _ _ _ fun x h1 h2 => ?_
    rw [List.length_replicate, hc] at h2
    rw [hc] at h1
    exact frame_blockByte hi h1 h2

/-- SYN_RENDER's body from a frame on. -/
theorem renderFrom_writes {k : BitVec 8} {e : BitVec 16} {frames : Word} {j ej : Nat} {s t : State}
    (h : renderFrom k e frames j ej s = .next t) :
    ∃ u, t = publishSynth u ∧ onlyRender s u ∧ WritesWithin (blockByte k frames s) s.mem u.mem := by
  obtain ⟨u, hu, rfl⟩ := renderFrom_inv (renderInv_writes k frames s) ⟨⟨rfl, fun _ h => h⟩, WritesWithin.refl _ _⟩ h
  exact ⟨u, rfl, hu⟩

/-! ## The spectral engine's frames -/

/-- From `s` to `t` the spectral engine has ingested `n` samples and run `q` passes (rules R450 to R452, R471, R472):
what can change, how the counters have moved, and what the passes may have written. Fewer samples pending than a hop, the
passes are exactly the hops completed. -/
structure Ingested (n q : Nat) (s t : State) : Prop where
  frame : onlySpec s t
  hops : q * s.act.hop.toNat + t.spec.pending.toNat ≤ s.spec.pending.toNat + n
  exact : s.spec.pending.toNat < s.act.hop.toNat →
    t.spec.pending.toNat < s.act.hop.toNat ∧ q * s.act.hop.toNat + t.spec.pending.toNat = s.spec.pending.toNat + n
  number : t.spec.frame = s.spec.frame + BitVec.ofNat 32 q
  seq : t.specSeq = s.specSeq + BitVec.ofNat 32 (2 * q)
  samples : t.spec.samples = s.spec.samples + BitVec.ofNat 64 n
  writes : WritesWithin (passByte (actK s) s.spec.frame q) s.mem t.mem
  noPass : q = 0 → t.mem = s.mem ∧ t.trackers = s.trackers ∧ t.mlVec = s.mlVec ∧
    t.spec = { s.spec with
      ring := t.spec.ring
      wr := t.spec.wr
      pending := t.spec.pending
      samples := t.spec.samples }

theorem Ingested.refl (s : State) : Ingested 0 0 s s where
  frame := rfl
  hops := by omega
  exact := by omega
  number := by simp
  seq := by simp
  samples := by simp
  writes := WritesWithin.refl _ _
  noPass _ := ⟨rfl, rfl, rfl, rfl⟩

theorem Ingested.act {n q : Nat} {s t : State} (h : Ingested n q s t) : t.act = s.act := by rw [h.frame]

theorem Ingested.trans {n1 q1 n2 q2 : Nat} {s t u : State} (h1 : Ingested n1 q1 s t) (h2 : Ingested n2 q2 t u) :
    Ingested (n1 + n2) (q1 + q2) s u := by
  have hact := h1.act
  have hK : actK t = actK s := by rw [actK, actN, hact]; rfl
  have hops2 := h2.hops
  have exact2 := h2.exact
  have writes2 := h2.writes
  rw [hact] at hops2 exact2
  rw [hK, h1.number] at writes2
  have hmul := Nat.add_mul q1 q2 s.act.hop.toNat
  refine ⟨onlySpec_trans h1.frame h2.frame, ?_, fun hp => ?_, ?_, ?_, ?_, ?_, fun hq => ?_⟩
  · have := h1.hops
    omega
  · obtain ⟨hlt, he⟩ := h1.exact hp
    obtain ⟨hlt2, he2⟩ := exact2 hlt
    exact ⟨hlt2, by omega⟩
  · rw [h2.number, h1.number, BitVec.add_assoc, BitVec.ofNat_add]
  · rw [h2.seq, h1.seq, BitVec.add_assoc, Nat.mul_add, BitVec.ofNat_add]
  · rw [h2.samples, h1.samples, BitVec.add_assoc, BitVec.ofNat_add]
  · exact (h1.writes.mono fun x => passByte_mono (by omega)).trans (writes2.mono fun x => passByte_later)
  · obtain ⟨hm1, ht1, hv1, hs1⟩ := h1.noPass (by omega)
    obtain ⟨hm2, ht2, hv2, hs2⟩ := h2.noPass (by omega)
    exact ⟨hm2.trans hm1, ht2.trans ht1, hv2.trans hv1, by rw [hs2, hs1]⟩

/-- One frame: a sample ingested, and the pass of the hop it completes (rules R450, R452). -/
theorem ingestAndAnalyse_ingested (m : F32) (s : State) : ∃ q, Ingested 1 q s (ingestAndAnalyse m s) := by
  have hframe := ingestAndAnalyse_frame m s
  have hpend : (s.spec.pending + 1).toNat ≤ s.spec.pending.toNat + 1 := by
    rw [BitVec.toNat_add]
    exact Nat.mod_le _ _
  have hhop := s.act.hop.isLt
  have hexact : s.spec.pending.toNat < s.act.hop.toNat → (s.spec.pending + 1).toNat = s.spec.pending.toNat + 1 :=
    fun hp => BitVec.toNat_add_of_lt (y := 1#32) (show s.spec.pending.toNat + 1 < 2 ^ 32 by omega)
  rw [ingestAndAnalyse] at hframe ⊢
  obtain ⟨hd, he⟩ | ⟨hd, he⟩ := afterIngest_cases (ingestFrame m s) <;> rw [he] at hframe ⊢
  · have hd : s.spec.pending + 1 = s.act.hop := by simpa [hopDue, ingestFrame, ingest] using hd
    rw [hd] at hpend hexact
    refine ⟨1, hframe, ?_, fun hp => ?_, ?_, ?_, ?_, ?_, by omega⟩
    · rw [analysisPass_pending]
      show 1 * _ + (0#32).toNat ≤ _
      simpa using hpend
    · rw [analysisPass_pending]
      show (0#32).toNat < _ ∧ 1 * _ + (0#32).toNat = _
      rw [BitVec.toNat_ofNat]
      have := hexact hp
      omega
    · exact analysisPass_frameNumber _
    · rw [analysisPass_specSeq]
      exact BitVec.add_assoc _ 1 1
    · exact analysisPass_samples _
    · exact analysisPass_writes (clearPending (ingestFrame m s)) fun x hx => hx.imp_right fun h => ⟨0, by omega, h⟩
  · have hd : s.spec.pending + 1 ≠ s.act.hop := by simpa [hopDue, ingestFrame, ingest] using hd
    have hne : (s.spec.pending + 1).toNat ≠ s.act.hop.toNat := fun h => hd (BitVec.eq_of_toNat_eq h)
    refine ⟨0, hframe, ?_, fun hp => ?_, ?_, ?_, rfl, WritesWithin.refl _ _, fun _ => ⟨rfl, rfl, rfl, rfl⟩⟩
    · show 0 * _ + (s.spec.pending + 1).toNat ≤ _
      omega
    · show (s.spec.pending + 1).toNat < _ ∧ 0 * _ + (s.spec.pending + 1).toNat = _
      have := hexact hp
      omega
    · exact (BitVec.add_zero _).symm
    · exact (BitVec.add_zero _).symm

/-- The sample loop ingests one sample for each frame (rule R450). -/
theorem specFrames_ingested {base : Nat} {is : List Nat} {s t : State} (h : specFrames base is s = .next t) :
    ∃ q, Ingested is.length q s t := by
  induction is generalizing s with
  | nil =>
    obtain rfl := Host.Outcome.next.inj h
    exact ⟨0, Ingested.refl s⟩
  | cons i is ih =>
    obtain ⟨m, -, h⟩ := andThen_eq_next.1 h
    obtain ⟨q1, h1⟩ := ingestAndAnalyse_ingested m s
    obtain ⟨q2, h2⟩ := ih h
    exact ⟨q1 + q2, by rw [List.length_cons, Nat.add_comm]; exact h1.trans h2⟩

end Sys2Proof.Machine
end

section
/-! SUPPORT. The frames of the process commands (rules R109, R250, R350, R450): the drain, the body's frame and the
completion, one after the other. -/

namespace Sys2Proof.Machine

theorem drain_frame {s s1 : State} (h : drain s = .next s1) : onlyDrained s s1 ∧ s1.head = s.tail := by
  obtain ⟨t, ht, hf⟩ := drain_completes s
  obtain rfl := Host.Outcome.next.inj (ht.symm.trans h)
  exact hf

theorem onlyDrained_mem {s s1 : State} (h : onlyDrained s s1) : s1.mem = s.mem := by rw [h]

theorem onlyDrained_act {s s1 : State} (h : onlyDrained s s1) : s1.act = s.act := by rw [h]

/-- A drain leaves the block where it is. -/
theorem blockByte_drained {k : BitVec 8} {frames : Word} {s s1 : State} (h : onlyDrained s s1) :
    blockByte k frames s1 = blockByte k frames s := by
  funext x
  rw [blockByte, frameCount, actC, onlyDrained_act h]
  rfl

/-- A process command on buffer `k` passes its checks (rules R204, R601). -/
def accepts (k : BitVec 8) (s : State) : Prop := s.prepared = true ∧ k.toNat ≤ 1

/-- Outside the block every byte reads as before. -/
theorem byte_outside_block {k : BitVec 8} {frames : Word} {s : State} {m : List Host.Cell}
    (h : WritesWithin (fun x => accepts k s ∧ blockByte k frames s x) s.mem m) {a : Nat}
    (ha : a < bufBase k.toNat ∨ bufBase k.toNat + 4 * (frameCount frames s * actC s) ≤ a) :
    Memory.byte m a = Memory.byte s.mem a := h.other a fun ⟨_, h1, h2⟩ => by omega

/-! ## SYN_RENDER -/

/-- `t` is `s` but for what a SYN_RENDER changes (rule R250). -/
def onlySynRender (s t : State) : Prop :=
  t = { s with
    voices := t.voices, steals := t.steals, synActive := t.synActive, synSteals := t.synSteals,
    voiceStatus := t.voiceStatus, voiceAge := t.voiceAge, synp := t.synp, eqg := t.eqg, eqb := t.eqb,
    illegalCount := t.illegalCount, head := t.head, cmdResult := t.cmdResult, cmdCount := t.cmdCount,
    lastCycles := t.lastCycles, draws := t.draws, busy := t.busy, progress := t.progress, mem := t.mem }

/-- The drain, the rendered block and the publication each keep to the frame. -/
theorem exec_synRender_frame {k : BitVec 8} {e : BitVec 16} {frames : Word} {s t : State}
    (h : exec (.synRender k e frames) s = .next t) :
    onlySynRender s t ∧ WritesWithin (fun x => accepts k s ∧ blockByte k frames s x) s.mem t.mem := by
  obtain ⟨-, rfl⟩ | ⟨-, -, rfl⟩ | ⟨hp, hk, s1, s2, h1, h2, rfl⟩ := processCommand_cases h
  · exact ⟨rfl, WritesWithin.refl _ _⟩
  · exact ⟨rfl, WritesWithin.refl _ _⟩
  · obtain ⟨hd, -⟩ := drain_frame h1
    obtain ⟨u, rfl, ⟨hu, -⟩, hw⟩ := renderFrom_writes h2
    rw [onlyDrained_mem hd, blockByte_drained hd] at hw
    refine ⟨?_, hw.mono fun x hx => ⟨⟨hp, hk⟩, hx⟩⟩
    rw [onlyDrained] at hd
    rw [onlySynRender, hu, hd]
    rfl

/-- Settles O25: a SYN_RENDER keeps to its frame, and a byte outside the block to its value. -/
theorem synRenderFrame : Obligations.SynRenderFrame := by
  unfold Obligations.SynRenderFrame
  intro s t k e frames h
  obtain ⟨hf, hw⟩ := exec_synRender_frame h
  exact ⟨hf, fun a ha => byte_outside_block hw ha⟩

/-! ## EQ_PROCESS -/

/-- `t` is `s` but for what an EQ_PROCESS changes (rule R350). -/
def onlyEqProcess (s t : State) : Prop :=
  t = { s with
    eq := t.eq, eqc := t.eqc, synp := t.synp, eqg := t.eqg, eqb := t.eqb, illegalCount := t.illegalCount,
    head := t.head, cmdResult := t.cmdResult, cmdCount := t.cmdCount, lastCycles := t.lastCycles,
    draws := t.draws, busy := t.busy, progress := t.progress, mem := t.mem }

/-- The drain, the coefficients and the samples each keep to the frame. -/
theorem exec_eqProcess_frame {k : BitVec 8} {frames : Word} {s t : State}
    (h : exec (.eqProcess k frames) s = .next t) :
    onlyEqProcess s t ∧ WritesWithin (fun x => accepts k s ∧ blockByte k frames s x) s.mem t.mem := by
  obtain ⟨-, rfl⟩ | ⟨-, -, rfl⟩ | ⟨hp, hk, s1, s2, h1, h2, rfl⟩ := processCommand_cases h
  · exact ⟨rfl, WritesWithin.refl _ _⟩
  · exact ⟨rfl, WritesWithin.refl _ _⟩
  · obtain ⟨hd, -⟩ := drain_frame h1
    have hb := eqBegin_frame s1
    obtain ⟨hu, hw⟩ := eqFrom_frame h2
    have hblock : blockByte k frames (eqBegin s1) = blockByte k frames s1 := by rw [hb]; rfl
    have hmem : (eqBegin s1).mem = s1.mem := by rw [hb]
    rw [hmem, hblock, onlyDrained_mem hd, blockByte_drained hd] at hw
    refine ⟨?_, hw.mono fun x hx => ⟨⟨hp, hk⟩, hx⟩⟩
    rw [onlyDrained] at hd
    rw [onlyEq] at hu
    rw [onlyEqProcess, hu, hb, hd]
    rfl

/-- Settles O30: an EQ_PROCESS keeps to its frame, and a byte outside the block to its value. -/
theorem eqProcessFrame : Obligations.EqProcessFrame := by
  unfold Obligations.EqProcessFrame
  intro s t k frames h
  obtain ⟨hf, hw⟩ := exec_eqProcess_frame h
  exact ⟨hf, fun a ha => byte_outside_block hw ha⟩

/-! ## SPEC_PROCESS -/

/-- SPEC_PROCESS's body ingests its frames (rule R450). -/
theorem specBlock_ingested {k : BitVec 8} {frames : Word} {s t : State} (h : specBlock k frames s = .next t) :
    ∃ q, Ingested (frameCount frames s) q s t := by
  obtain ⟨q, hq⟩ := specFrames_ingested h
  exact ⟨q, by simpa using hq⟩

/-- `t` is `s` but for what a SPEC_PROCESS changes (rule R450). -/
def onlySpecProcess (s t : State) : Prop :=
  t = { s with
    spec := t.spec, specSeq := t.specSeq, trackers := t.trackers, mlVec := t.mlVec, synp := t.synp, eqg := t.eqg,
    eqb := t.eqb, illegalCount := t.illegalCount, head := t.head, cmdResult := t.cmdResult,
    cmdCount := t.cmdCount, lastCycles := t.lastCycles, draws := t.draws, busy := t.busy, progress := t.progress,
    mem := t.mem }

/-- The drain and the ingested frames keep to the frame, with some number of passes that the samples suffice for. -/
theorem exec_specProcess_frame {k : BitVec 8} {frames : Word} {s t : State}
    (h : exec (.specProcess k frames) s = .next t) :
    onlySpecProcess s t ∧ ∃ q, (accepts k s ∨ q = 0) ∧ q * s.act.hop.toNat ≤ s.spec.pending.toNat + frameCount frames s ∧
      WritesWithin (fun x => accepts k s ∧ passByte (actK s) s.spec.frame q x) s.mem t.mem ∧
      (q = 0 → t.mem = s.mem ∧ t.trackers = s.trackers ∧ t.mlVec = s.mlVec ∧ t.specSeq = s.specSeq ∧
        t.spec = { s.spec with
          ring := t.spec.ring, wr := t.spec.wr, pending := t.spec.pending, samples := t.spec.samples }) := by
  obtain ⟨-, rfl⟩ | ⟨-, -, rfl⟩ | ⟨hp, hk, s1, s2, h1, h2, rfl⟩ := processCommand_cases h
  · exact ⟨rfl, 0, .inr rfl, by omega, WritesWithin.refl _ _, fun _ => ⟨rfl, rfl, rfl, rfl, rfl⟩⟩
  · exact ⟨rfl, 0, .inr rfl, by omega, WritesWithin.refl _ _, fun _ => ⟨rfl, rfl, rfl, rfl, rfl⟩⟩
  · obtain ⟨hd, -⟩ := drain_frame h1
    obtain ⟨q, hq⟩ := specBlock_ingested h2
    have hact := onlyDrained_act hd
    have hspec : s1.spec = s.spec := by rw [hd]
    have hf := hq.frame
    have hhops := hq.hops
    have hw := hq.writes
    rw [frameCount, hact, hspec] at hhops
    rw [actK, actN, hact, hspec, onlyDrained_mem hd] at hw
    refine ⟨?_, q, .inl ⟨hp, hk⟩, (Nat.le_add_right _ _).trans hhops, hw.mono fun x hx => ⟨⟨hp, hk⟩, hx⟩, fun h0 => ?_⟩
    · rw [onlyDrained] at hd
      rw [onlySpec] at hf
      rw [onlySpecProcess, hf, hd]
      rfl
    · obtain ⟨hm, htr, hml, hsp⟩ := hq.noPass h0
      have hseq : s2.specSeq = s1.specSeq := by
        rw [hq.seq, h0]
        exact BitVec.add_zero _
      rw [hd] at hm htr hml hsp hseq
      exact ⟨hm, htr, hml, hseq, hsp⟩

/-- The hop of a legal configuration is not 0 (rule R43). -/
theorem hop_pos {c : CfgRegs} (h : cfgLegal c) : 0 < c.hop.toNat := (h 5 (by omega)).1

/-- A byte of a pass is a byte of a word of a spectrum window or of a slot (rules R110, R111). -/
theorem not_passByte {K : Nat} {frame : Word} {q a : Nat}
    (hb : ∀ b, b < K → ∀ base ∈ [magBase, phaseBase, powerBase], a < base + 4 * b ∨ base + 4 * b + 4 ≤ a)
    (hp : ∀ p, p < q → a < histBase ((frame.toNat + p) % 32) ∨ histBase ((frame.toNat + p) % 32) + 0x200 ≤ a) :
    ¬ passByte K frame q a := by
  rintro (⟨base, hbase, h1, h2⟩ | ⟨p, hpq, h1, h2⟩)
  · have := hb ((a - base) / 4) (by omega) base hbase
    omega
  · have := hp p hpq
    omega

/-- Settles O35: no more passes run than hops fit into the samples, and none at all if a check fails. -/
theorem specProcessFrame : Obligations.SpecProcessFrame := by
  unfold Obligations.SpecProcessFrame
  intro s t k frames hcfg h passes
  obtain ⟨hf, q, hacc, hhops, hw, h0⟩ := exec_specProcess_frame h
  have hle : q ≤ passes := by
    obtain ha | rfl := hacc
    · exact (Nat.le_div_iff_mul_le (hop_pos (hcfg (.inl ha.1)))).2 hhops
    · exact Nat.zero_le _
  exact ⟨hf, fun a hb hs => hw.other a fun hx => not_passByte hb hs (passByte_mono hle hx.2),
    fun hz => h0 (by omega)⟩

end Sys2Proof.Machine
end

section
/-! SUPPORT. The states a sample loop goes through, one after each sample (rules R350, R450), and with them the runs of
SPEC_PROCESS and EQ_PROCESS. -/

namespace Sys2Proof.Machine

/-! ## The states of a loop -/

theorem andThen_assoc {α β γ : Type} (r : Res α) (f : α → Res β) (g : β → Res γ) :
    andThen (andThen r f) g = andThen r fun a => andThen (f a) g := by cases r <;> rfl

section
variable {loop : List Nat → State → Res State} {body : Nat → State → Res State}
  (hnil : ∀ s, loop [] s = .next s) (hcons : ∀ i is s, loop (i :: is) s = andThen (body i s) (loop is))
include hnil hcons

theorem loop_append (is js : List Nat) (s : State) : loop (is ++ js) s = andThen (loop is s) (loop js) := by
  induction is generalizing s with
  | nil => rw [hnil]; rfl
  | cons i is ih =>
    rw [List.cons_append, hcons, hcons, andThen_assoc]
    exact congrArg _ (funext ih)

/-- A loop over the numbers below `n` goes through `n + 1` states, each body taking one to the next. -/
theorem loop_states {n : Nat} {s t : State} (h : loop (List.range n) s = .next t) :
    ∃ st : Nat → State, st 0 = s ∧ st n = t ∧ ∀ i, i < n → body i (st i) = .next (st (i + 1)) := by
  induction n generalizing t with
  | zero => exact ⟨fun _ => s, rfl, Host.Outcome.next.inj ((hnil s).symm.trans h), by omega⟩
  | succ n ih =>
    rw [List.range_succ, loop_append hnil hcons, andThen_eq_next] at h
    obtain ⟨u, hu, h⟩ := h
    obtain ⟨v, hv, h⟩ := andThen_eq_next.1 ((hcons n [] u).symm.trans h)
    obtain rfl := Host.Outcome.next.inj ((hnil v).symm.trans h)
    obtain ⟨st, h0, hn, hst⟩ := ih hu
    refine ⟨fun i => if i ≤ n then st i else v, h0, if_neg (by omega), fun i hi => ?_⟩
    rcases Nat.lt_succ_iff_lt_or_eq.1 hi with hlt | rfl
    · simpa only [if_pos (show i ≤ n by omega), if_pos (show i + 1 ≤ n by omega)] using hst i hlt
    · simpa only [if_pos le_rfl, if_neg (show ¬ i + 1 ≤ i by omega), hn] using hv

end

/-- A property of the first state that every step keeps holds of all. -/
theorem states_inv {P : State → Prop} {st : Nat → State} {n : Nat} (h0 : P (st 0))
    (hstep : ∀ i, i < n → P (st i) → P (st (i + 1))) : ∀ i, i ≤ n → P (st i)
  | 0, _ => h0
  | i + 1, hi => hstep i hi (states_inv h0 hstep i (by omega))

/-! ## SPEC_PROCESS -/

/-- The states of SPEC_PROCESS's body, one after each frame (rule R450). -/
theorem specBlock_states {k : BitVec 8} {frames : Word} {s t : State} (h : specBlock k frames s = .next t) :
    ∃ st : Nat → State, st 0 = s ∧ st (frameCount frames s) = t ∧ ∀ i, i < frameCount frames s →
      ∃ m, monoFrame (st i) (bufBase k.toNat) i = .next m ∧ st (i + 1) = ingestAndAnalyse m (st i) := by
  obtain ⟨st, h0, hn, hst⟩ := loop_states (loop := specFrames (bufBase k.toNat))
    (body := fun i s => andThen (monoFrame s (bufBase k.toNat) i) fun m => .next (ingestAndAnalyse m s))
    (fun _ => rfl) (fun i is s => by rw [andThen_assoc]; rfl) h
  refine ⟨st, h0, hn, fun i hi => ?_⟩
  obtain ⟨m, hm, hi⟩ := andThen_eq_next.1 (hst i hi)
  exact ⟨m, hm, (Host.Outcome.next.inj hi).symm⟩

/-- One frame's effect (rules R450 to R452). -/
theorem ingestAndAnalyse_eq (m : F32) (s : State) :
    ingestAndAnalyse m s =
      if s.spec.pending + 1 = s.act.hop then
        analysisPass { s with spec := { s.spec with
          ring := s.spec.ring.set s.spec.wr m
          wr := s.spec.wr + 1
          samples := s.spec.samples + 1
          pending := 0 } }
      else { s with spec := { s.spec with
          ring := s.spec.ring.set s.spec.wr m
          wr := s.spec.wr + 1
          samples := s.spec.samples + 1
          pending := s.spec.pending + 1 } } := by
  rw [ingestAndAnalyse, afterIngest]
  simp only [hopDue, beq_iff_eq]
  rfl

/-- The words of a block stay readable through the drain (rule R211). -/
theorem readable_drained {k : BitVec 8} {frames : Word} {s s1 : State} (hd : onlyDrained s s1)
    (h : readableWords s (bufBase k.toNat) (frameCount frames s * actC s) = true) (j : Nat)
    (hj : j < frameCount frames s1 * actC s1) : (Memory.word s1.mem (bufBase k.toNat + 4 * j)).isSome = true := by
  have hact : s1.act = s.act := by rw [hd]
  rw [onlyDrained_mem hd]
  exact readableWords_iff.1 h j (by rwa [frameCount, actC, hact] at hj)

/-- Settles O34: the states are those of the sample loop, and the counters those of the ingested frames. -/
theorem specProcessRunsOnePassPerHop : Obligations.SpecProcessRunsOnePassPerHop := by
  unfold Obligations.SpecProcessRunsOnePassPerHop
  intro s k frames hp hcfg hpend hk hread
  obtain ⟨s1, h1, hd, htail⟩ := drain_completes s
  obtain ⟨t, ht, -⟩ := specBlock_completes k frames s1 (readable_drained hd hread)
  obtain ⟨q, hq⟩ := specBlock_ingested ht
  obtain ⟨st, rfl, rfl, hst⟩ := specBlock_states ht
  have hact : (st 0).act = s.act := by rw [hd]
  have hn : frameCount frames (st 0) = frameCount frames s := by rw [frameCount, hact, frameCount]
  rw [hn] at hq hst ht
  have hacts := states_inv (P := fun u => u.act = s.act) hact fun i hi hu => by
    obtain ⟨m, -, hm⟩ := hst i hi
    rw [hm, ingestAndAnalyse_frame m (st i)]
    exact hu
  obtain ⟨hlt, hsum⟩ := hq.exact (by rw [hd]; exact hpend)
  rw [hact] at hlt hsum
  have hspec : (st 0).spec = s.spec := by rw [hd]
  rw [hspec] at hsum
  have hsum : (st (frameCount frames s)).spec.pending.toNat + s.act.hop.toNat * q =
      s.spec.pending.toNat + frameCount frames s := by
    rw [Nat.mul_comm, ← hsum, Nat.add_comm]
  obtain ⟨hdiv, hmod⟩ := (Nat.div_mod_unique (hop_pos (hcfg (.inl hp)))).2 ⟨hsum, hlt⟩
  rw [hdiv, hmod]
  refine ⟨st, _, h1, fun i hi => ?_, processCommand_completes hp hk h1 ht, ⟨_, rfl⟩, ?_, ?_, ?_, rfl, ?_⟩
  · obtain ⟨m, hm, hs⟩ := hst i hi
    rw [← hacts i (by omega)]
    exact ⟨m, hm, hs.trans (ingestAndAnalyse_eq m (st i))⟩
  · rw [finish_head, hq.frame]
    exact htail
  · exact hspec ▸ hq.number
  · have hseq : (st 0).specSeq = s.specSeq := by rw [hd]
    exact hseq ▸ hq.seq
  · exact hspec ▸ hq.samples

end Sys2Proof.Machine
end

section
/-! SUPPORT. What every step stores (rules R101, R105, R109 to R111, R670): the engine's stores keep the canonical form,
and where the configuration and the command in progress are legal they lie in the RAMs; so do the host's. -/

namespace Sys2Proof.Machine

/-! ## Bytes of the RAMs -/

/-- A byte of a RAM region (rule R101). -/
def ramByte (x : Nat) : Prop := ∃ r, regionOf x = some r ∧ r ≠ .csr

theorem ramByte_iff {x : Nat} :
    ramByte x ↔ (0x1000 ≤ x ∧ x < 0x1800) ∨ (0x2000 ≤ x ∧ x < 0x4000) ∨ (0x10000 ≤ x ∧ x < 0x24000) ∨
      (0x30000 ≤ x ∧ x < 0x48000) := by
  unfold ramByte
  obtain ⟨hx, h⟩ | ⟨hx, h⟩ | ⟨hx, h⟩ | ⟨hx, h⟩ | ⟨hx, h⟩ | ⟨hx, h⟩ | ⟨hx, h⟩ | ⟨hx, h⟩ | ⟨hx, h⟩ | ⟨hx, h⟩ :=
    regionOf_cases x <;>
    simp only [h, Option.some.injEq, exists_eq_left', ne_eq, reduceCtorEq, not_true_eq_false, not_false_eq_true,
      true_iff, false_iff, false_and, exists_false] <;> omega

/-- The offset of a word the host may write in EVT, WT or a buffer (rules R101, R104). -/
def hostWord (off : Nat) : Prop :=
  off % 4 = 0 ∧ ((0x1000 ≤ off ∧ off < 0x1800) ∨ (0x2000 ≤ off ∧ off < 0x4000) ∨ (0x10000 ≤ off ∧ off < 0x20000))

theorem hostWord_ramByte {off x : Nat} (h : hostWord off) (h1 : off ≤ x) (h2 : x < off + 4) : ramByte x := by
  obtain ⟨ha, h⟩ := h
  exact ramByte_iff.2 (by omega)

/-- A byte of HIST, MAG, PHASE or POWER (rules R110, R111). -/
def resultByte (x : Nat) : Prop := (0x20000 ≤ x ∧ x < 0x24000) ∨ (0x30000 ≤ x ∧ x < 0x48000)

theorem resultByte_ramByte {x : Nat} (h : resultByte x) : ramByte x := by
  obtain h | h := h <;> exact ramByte_iff.2 (by omega)

/-- The block of a legal configuration lies in its buffer (rules R43, R109). -/
theorem blockByte_ramByte {k : BitVec 8} {frames : Word} {s : State} (hc : cfgLegal s.act) (hk : k.toNat ≤ 1) {x : Nat}
    (h : blockByte k frames s x) : ramByte x := by
  have hb : s.act.maxBlock.toNat ≤ 4096 := (hc 1 (by omega)).2
  have hch : actC s ≤ 2 := by
    obtain h | h : s.act.channels = 1 ∨ s.act.channels = 2 := hc 2 (by omega) <;> rw [actC, h] <;> decide
  have hn : frameCount frames s * actC s ≤ 4096 * 2 := Nat.mul_le_mul ((Nat.min_le_right _ _).trans hb) hch
  obtain ⟨h1, h2⟩ := h
  rw [bufBase] at h1 h2
  exact ramByte_iff.2 (by omega)

/-- The bins of a legal configuration lie in the spectrum windows (rules R43, R111). -/
theorem binByte_resultByte {s : State} (hc : cfgLegal s.act) {x : Nat} (h : binByte (actK s) x) : resultByte x := by
  obtain ⟨e, -, he, hN⟩ : ∃ e, 6 ≤ e ∧ e ≤ 13 ∧ s.act.fftSize.toNat = 2 ^ e := hc 4 (by omega)
  have hK : actK s ≤ 4097 := by
    have : 2 ^ e ≤ 2 ^ 13 := Nat.pow_le_pow_right (by omega) he
    rw [actK, actN, hN]
    omega
  obtain ⟨base, hb, h1, h2⟩ := h
  simp only [magBase, phaseBase, powerBase, List.mem_cons, List.not_mem_nil, or_false] at hb
  obtain rfl | rfl | rfl := hb <;> exact .inr (by omega)

theorem slotByte_resultByte {n x : Nat} (h : slotByte (n % 32) x) : resultByte x := by
  obtain ⟨h1, h2⟩ := h
  rw [histBase] at h1 h2
  exact .inl (by omega)

theorem passByte_resultByte {s : State} (hc : cfgLegal s.act) {frame : Word} {q x : Nat}
    (h : passByte (actK s) frame q x) : resultByte x := by
  obtain h | ⟨p, -, h⟩ := h
  exacts [binByte_resultByte hc h, slotByte_resultByte h]

/-! ## What a command stores -/

/-- From `s` to `t` the engine has stored to bytes of `A` alone; the racing host writes and the memory from before the
command are as they were. -/
structure StoresWithin (A : Nat → Prop) (s t : State) : Prop where
  raced : t.raced = s.raced
  oldMem : t.oldMem = s.oldMem
  mem : WritesWithin A s.mem t.mem

theorem StoresWithin.refl (A : Nat → Prop) (s : State) : StoresWithin A s s := ⟨rfl, rfl, WritesWithin.refl _ _⟩

theorem StoresWithin.trans {A : Nat → Prop} {s t u : State} (h1 : StoresWithin A s t) (h2 : StoresWithin A t u) :
    StoresWithin A s u :=
  ⟨h2.raced.trans h1.raced, h2.oldMem.trans h1.oldMem, h1.mem.trans h2.mem⟩

theorem StoresWithin.mono {A B : Nat → Prop} {s t : State} (h : StoresWithin A s t) (hAB : ∀ x, A x → B x) :
    StoresWithin B s t := ⟨h.raced, h.oldMem, h.mem.mono hAB⟩

/-- A completion stores nothing. -/
theorem StoresWithin.finish {A : Nat → Prop} {s t : State} (h : StoresWithin A s t) (c : ResultCode) (op : BitVec 8) :
    StoresWithin A s (finish c op t) := ⟨h.raced, h.oldMem, h.mem⟩

/-- A byte that the body of the command in progress may write: one of its block, or of the results of a pass (rules
R109 to R111). -/
def bodyByte (s : State) (x : Nat) : Prop :=
  ((Cmd.op s.latched = 0x02 ∨ Cmd.op s.latched = 0x03) ∧ blockByte (runBuffer s) (Cmd.fieldV s.latched) s x) ∨
    (Cmd.op s.latched = 0x04 ∧ (binByte (actK s) x ∨ resultByte x))

/-- The bytes of a body are told by the command and the active configuration. -/
theorem bodyByte_congr {s t : State} (hl : t.latched = s.latched) (ha : t.act = s.act) : bodyByte t = bodyByte s := by
  funext x
  simp only [bodyByte, blockByte, runBuffer, frameCount, actC, actK, actN, hl, ha]

theorem op_eq_of_toNat {w : Cmd} {n : Nat} (h : (Cmd.op w).toNat = n) : Cmd.op w = BitVec.ofNat 8 n := by
  rw [← h, BitVec.ofNat_toNat, BitVec.setWidth_eq]

theorem restOfBody_stores {j ej : Nat} {s t : State} (h : restOfBody j ej s = .next t) :
    StoresWithin (bodyByte s) s t := by
  simp only [restOfBody] at h
  split at h
  · obtain rfl := Host.Outcome.next.inj h
    exact ⟨rfl, rfl, WritesWithin.refl _ _⟩
  · rename_i hop
    obtain ⟨u, rfl, ⟨hu, -⟩, hw⟩ := renderFrom_writes h
    have hw := hw.mono fun x hx => (.inl ⟨.inl (op_eq_of_toNat hop), hx⟩ : bodyByte s x)
    exact ⟨by rw [hu]; rfl, by rw [hu]; rfl, hw⟩
  · rename_i hop
    obtain ⟨hu, hw⟩ := eqFrom_frame h
    have hw := hw.mono fun x hx => (.inl ⟨.inr (op_eq_of_toNat hop), hx⟩ : bodyByte s x)
    exact ⟨by rw [hu], by rw [hu], hw⟩
  · rename_i hop
    obtain ⟨q, hq⟩ := specFrames_ingested h
    have hw := hq.writes.mono fun x hx =>
      (.inr ⟨op_eq_of_toNat hop, hx.imp_right fun ⟨_, _, h⟩ => slotByte_resultByte h⟩ : bodyByte s x)
    exact ⟨by rw [hq.frame], by rw [hq.frame], hw⟩
  · obtain rfl := Host.Outcome.next.inj h
    exact StoresWithin.refl _ s

/-- From `s` to `t` the command in progress has come further, storing to bytes of `A` alone. -/
structure Advances (A : Nat → Prop) (s t : State) : Prop extends StoresWithin A s t where
  latched : t.latched = s.latched
  act : t.act = s.act

theorem Advances.trans {A : Nat → Prop} {s t u : State} (h1 : Advances A s t) (h2 : Advances A t u) : Advances A s u :=
  ⟨h1.toStoresWithin.trans h2.toStoresWithin, h2.latched.trans h1.latched, h2.act.trans h1.act⟩

/-- The rest of the body from where the command has come, with its completion. -/
theorem Advances.finish_restOfBody {A : Nat → Prop} {s t u : State} {j ej : Nat} (hs : Advances A s t)
    (hA : ∀ x, bodyByte s x → A x) (h : restOfBody j ej t = .next u) (c : ResultCode) (op : BitVec 8) :
    StoresWithin A s (finish c op u) := by
  have hu := restOfBody_stores h
  rw [bodyByte_congr hs.latched hs.act] at hu
  exact (hs.toStoresWithin.trans (hu.mono hA)).finish c op

theorem advances_of_onlyParams {A : Nat → Prop} {s t : State} (h : onlyParams s t) : Advances A s t := by
  rw [onlyParams] at h
  rw [h]
  exact ⟨⟨rfl, rfl, WritesWithin.refl _ _⟩, rfl, rfl⟩

theorem drainTo_advances {A : Nat → Prop} {q : Fin 32} {n : Nat} {s t : State} (h : drainTo q n s = .next t) :
    Advances A s t := by
  obtain ⟨u, hu, hd, -⟩ := drainTo_completes q n s
  obtain rfl := Host.Outcome.next.inj (hu.symm.trans h)
  rw [hd]
  exact ⟨⟨rfl, rfl, WritesWithin.refl _ _⟩, rfl, rfl⟩

theorem applyEntry_advances {A : Nat → Prop} {w : Cmd} {s t : State} (h : applyEntry w s = .next t) :
    Advances A s t := by
  obtain ⟨u, hu, hf⟩ := applyEntry_completes w s
  obtain rfl := Host.Outcome.next.inj (hu.symm.trans h)
  exact advances_of_onlyParams hf

theorem Advances.refl (A : Nat → Prop) (s : State) : Advances A s s := ⟨StoresWithin.refl A s, rfl, rfl⟩

theorem beginBody_advances (A : Nat → Prop) (s : State) : Advances A s (beginBody s) := by
  simp only [beginBody]
  split
  · rw [eqBegin_frame]
    exact ⟨⟨rfl, rfl, WritesWithin.refl _ _⟩, rfl, rfl⟩
  · exact ⟨StoresWithin.refl _ s, rfl, rfl⟩

/-- A frame or sample of the body is written within its block. -/
theorem writeBody_advances {A : Nat → Prop} (j : Nat) (w : Word) (s : State)
    (hA : ∀ x, (j < bodyLength s → bodyByte s x) → A x) : Advances A s (writeBody j w s) := by
  simp only [writeBody]
  split
  · rename_i hop
    have hop : Cmd.op s.latched = 0x02 := op_eq_of_toNat hop
    refine ⟨⟨rfl, rfl, writesWithin_setWords _ _ _ fun x h1 h2 => hA x fun hj => ?_⟩, rfl, rfl⟩
    simp only [bodyLength, bodyAddress, hop, List.length_replicate] at hj h1 h2
    exact .inl ⟨.inl hop, frame_blockByte hj h1 h2⟩
  · rename_i hop
    have hop : Cmd.op s.latched = 0x03 := op_eq_of_toNat hop
    refine ⟨⟨rfl, rfl, writesWithin_setWord _ _ _ fun x h1 h2 => hA x fun hj => ?_⟩, rfl, rfl⟩
    simp only [bodyLength, bodyAddress, hop, if_true] at hj h1 h2
    have hj : j < runFrames s * actC s := Nat.lt_of_lt_of_le hj (eqLength_le _ _)
    exact .inl ⟨.inr hop, by omega, show x < _ + 4 * (runFrames s * actC s) by omega⟩
  · exact ⟨⟨rfl, rfl, WritesWithin.refl _ _⟩, rfl, rfl⟩
  · exact ⟨StoresWithin.refl _ s, rfl, rfl⟩

theorem afterIngest_advances {A : Nat → Prop} (s : State) (hA : ∀ x, binByte (actK s) x ∨ resultByte x → A x) :
    Advances A s (afterIngest s) := by
  have hf := afterIngest_frame s
  refine ⟨⟨by rw [hf], by rw [hf], ?_⟩, by rw [hf], by rw [hf]⟩
  obtain ⟨-, e⟩ | ⟨-, e⟩ := afterIngest_cases s <;> rw [e]
  · exact analysisPass_writes (clearPending s) fun x hx => hA x (hx.imp_right slotByte_resultByte)
  · exact WritesWithin.refl _ _

theorem clearResults_writes {A : Nat → Prop} (m : List Host.Cell) (hA : ∀ x, resultByte x → A x) :
    WritesWithin A m (clearResults m) :=
  (writesWithin_clear _ _ _ fun x h1 h2 => hA x (.inl (by omega))).trans
    (writesWithin_clear _ _ _ fun x h1 h2 => hA x (.inr (by omega)))

theorem prepareClear_advances {A : Nat → Prop} (s : State) (hA : ∀ x, resultByte x → A x) :
    Advances A s (prepareClear s) := ⟨⟨rfl, rfl, clearResults_writes _ hA⟩, rfl, rfl⟩

theorem advanceSeq_advances (A : Nat → Prop) (s : State) : Advances A s (advanceSeq s) :=
  ⟨⟨rfl, rfl, WritesWithin.refl _ _⟩, rfl, rfl⟩

theorem markPrepared_advances (A : Nat → Prop) (s : State) : Advances A s (markPrepared s) :=
  ⟨⟨rfl, rfl, WritesWithin.refl _ _⟩, rfl, rfl⟩

theorem endPublication_advances {A : Nat → Prop} (s : State)
    (hA : ∀ x, resultByte x ∨ (Cmd.op s.latched ≠ 0x01 ∧ binByte (actK s) x) → A x) :
    Advances A s (endPublication s) := by
  simp only [endPublication]
  split
  · exact (prepareClear_advances s fun x hx => hA x (.inl hx)).trans (advanceSeq_advances _ _)
  · rename_i hop
    have hf := onlySpec_trans (passWrites_frame s) (advanceSeq_frame _)
    refine ⟨⟨by rw [hf], by rw [hf], ?_⟩, by rw [hf], by rw [hf]⟩
    rw [advanceSeq_mem]
    exact passWrites_writes s fun x hx => hA x (hx.elim (fun h => .inr ⟨hop, h⟩) fun h => .inl (slotByte_resultByte h))

theorem endBody_advances (A : Nat → Prop) (s : State) : Advances A s (endBody s) := by
  simp only [endBody]
  split <;> exact ⟨⟨rfl, rfl, WritesWithin.refl _ _⟩, rfl, rfl⟩

/-! ## Legal commands -/

/-- The configuration and the command in progress are legal, and the racing writes are the host's (rules R43, R204). -/
def legalRun (s : State) : Prop := configLegal s ∧ commandLegal s ∧ ∀ w ∈ s.raced, hostWord w.1

/-- A byte the machine stores to, which lies in a RAM where the run is legal. -/
def safeByte (s : State) (x : Nat) : Prop := legalRun s → ramByte x

/-- A legal command that is under way and not at its completion is a PREPARE or a process command past its checks. -/
theorem commandLegal_cases {s : State} (h : commandLegal s) (hb : s.busy = true) (hs : s.progress ≠ .start)
    (hf : ∀ c, s.progress ≠ .finishing c) : Cmd.op s.latched = 0x01 ∨ pastChecks s := by
  have h := h hb
  cases hp : s.progress <;> simp only [hp] at h
  case start => exact absurd hp hs
  case finishing c => exact absurd hp (hf c)
  case draining | applying | beginning | running => exact .inr h
  case writing | ingested => exact .inr h.2
  case ending => exact h
  case publishing => exact h.imp_right And.right

theorem bodyByte_ramByte {s : State} (hc : configLegal s) (hp : pastChecks s) {x : Nat} (h : bodyByte s x) :
    ramByte x := by
  obtain ⟨-, hk, hprep⟩ := hp
  obtain ⟨-, h⟩ | ⟨-, h | h⟩ := h
  · exact blockByte_ramByte (hc (.inl hprep)) hk h
  · exact resultByte_ramByte (binByte_resultByte (hc (.inl hprep)) h)
  · exact resultByte_ramByte h

/-- The bytes of the body of a command that is under way. -/
theorem bodyByte_safe {s : State} (hb : s.busy = true) (hs : s.progress ≠ .start) (hf : ∀ c, s.progress ≠ .finishing c)
    {x : Nat} (h : bodyByte s x) : safeByte s x := by
  rintro ⟨hc, hl, -⟩
  obtain hop | hp := commandLegal_cases hl hb hs hf
  · simp [bodyByte, hop] at h
  · exact bodyByte_ramByte hc hp h

/-- The bytes of the frame or sample about to be written. -/
theorem writing_safe {s : State} (hb : s.busy = true) {j ej : Nat} {w : Word} (hp : s.progress = .writing j ej w)
    {x : Nat} (h : j < bodyLength s → bodyByte s x) : safeByte s x := fun hr => by
  have hl := hr.2.1 hb
  simp only [hp] at hl
  exact bodyByte_safe hb (by simp [hp]) (by simp [hp]) (h hl.1) hr

/-- The bytes of the pass that a sample just ingested may complete. -/
theorem ingested_safe {s : State} (hb : s.busy = true) {j : Nat} (hp : s.progress = .ingested j) {x : Nat}
    (h : binByte (actK s) x ∨ resultByte x) : safeByte s x := fun hr => by
  have hl := hr.2.1 hb
  simp only [hp] at hl
  exact bodyByte_safe hb (by simp [hp]) (by simp [hp]) (.inr ⟨hl.1, h⟩) hr

/-- The bytes of the publication in progress: a PREPARE's, or those of a SPEC_PROCESS's pass. -/
theorem publishing_safe {s : State} (hb : s.busy = true) {j : Nat} (hp : s.progress = .publishing j) {x : Nat}
    (h : resultByte x ∨ (Cmd.op s.latched ≠ 0x01 ∧ binByte (actK s) x)) : safeByte s x := fun hr => by
  have hl := hr.2.1 hb
  simp only [hp] at hl
  obtain h | ⟨hne, h⟩ := h
  · exact resultByte_ramByte h
  · obtain ⟨-, hpc⟩ := hl.resolve_left hne
    exact resultByte_ramByte (binByte_resultByte (hr.1 (.inl hpc.2.2)) h)

/-! ## The engine's turn -/

theorem prepareLatch_stores (A : Nat → Prop) (s : State) : StoresWithin A s (prepareLatch s) := by
  rw [prepareLatch, publishSynth]
  exact ⟨rfl, rfl, WritesWithin.refl _ _⟩

theorem prepareEffect_stores {A : Nat → Prop} (s : State) (hA : ∀ x, resultByte x → A x) :
    StoresWithin A s (prepareEffect s) :=
  have hclear := prepareClear_advances (advanceSeq (prepareLatch s)) hA
  ((prepareLatch_stores A s).trans (((advanceSeq_advances _ _).trans hclear).trans
    ((advanceSeq_advances _ _).trans (markPrepared_advances _ _))).toStoresWithin)

theorem execPrepare_stores {A : Nat → Prop} {s t : State} (hA : ∀ x, resultByte x → A x)
    (h : execPrepare s = .next t) : StoresWithin A s t := by
  simp only [execPrepare] at h
  split at h <;> rw [← Host.Outcome.next.inj h]
  · exact ⟨rfl, rfl, WritesWithin.refl _ _⟩
  · exact (prepareEffect_stores s hA).finish _ _

/-- A doorbell command executed whole. -/
theorem exec_stores {w : Cmd} {i : Instr} {s t : State} (hi : decodeWord .doorbell w = .ok i)
    (h : exec i s = .next t) : StoresWithin (safeByte s) s t := by
  obtain rfl | rfl | ⟨k, e, n, rfl⟩ | ⟨k, n, rfl⟩ | ⟨k, n, rfl⟩ := doorbell_cases hi
  · obtain rfl := Host.Outcome.next.inj h
    exact (StoresWithin.refl _ s).finish _ _
  · exact execPrepare_stores (fun x hx _ => resultByte_ramByte hx) h
  · obtain ⟨hf, hw⟩ := exec_synRender_frame h
    exact ⟨by rw [hf], by rw [hf], hw.mono fun x hx hr => blockByte_ramByte (hr.1 (.inl hx.1.1)) hx.1.2 hx.2⟩
  · obtain ⟨hf, hw⟩ := exec_eqProcess_frame h
    exact ⟨by rw [hf], by rw [hf], hw.mono fun x hx hr => blockByte_ramByte (hr.1 (.inl hx.1.1)) hx.1.2 hx.2⟩
  · obtain ⟨hf, q, -, -, hw, -⟩ := exec_specProcess_frame h
    exact ⟨by rw [hf], by rw [hf], hw.mono fun x hx hr =>
      resultByte_ramByte (passByte_resultByte (hr.1 (.inl hx.1.1)) hx.2)⟩

/-- The rest of the command in progress. -/
theorem restOfCommand_stores {w : Cmd} {i : Instr} {s t : State} (hb : s.busy = true)
    (hi : decodeWord .doorbell w = .ok i) (h : restOfCommand i s = .next t) : StoresWithin (safeByte s) s t := by
  have hbody : s.progress ≠ .start → (∀ c, s.progress ≠ .finishing c) → ∀ x, bodyByte s x → safeByte s x :=
    fun hs hf x => bodyByte_safe hb hs hf
  obtain ⟨-, h⟩ | ⟨q, s1, u, hp, h1, h2, rfl⟩ | ⟨q, w, s1, s2, u, hp, h1, h2, h3, rfl⟩ | ⟨u, hp, h1, rfl⟩ |
    ⟨j, ej, u, hp, h1, rfl⟩ | ⟨j, ej, w, u, hp, h1, rfl⟩ | ⟨j, u, hp, h1, rfl⟩ | ⟨j, u, hp, h1, rfl⟩ | ⟨hp, rfl⟩ |
    ⟨c, -, rfl⟩ := restOfCommand_cases h
  · exact exec_stores hi h
  · exact ((drainTo_advances h1).trans (beginBody_advances _ _)).finish_restOfBody
      (hbody (by simp [hp]) (by simp [hp])) h2 _ _
  · exact (((applyEntry_advances h1).trans (drainTo_advances h2)).trans (beginBody_advances _ _)).finish_restOfBody
      (hbody (by simp [hp]) (by simp [hp])) h3 _ _
  · exact (beginBody_advances _ _).finish_restOfBody (hbody (by simp [hp]) (by simp [hp])) h1 _ _
  · exact (Advances.refl _ s).finish_restOfBody (hbody (by simp [hp]) (by simp [hp])) h1 _ _
  · have hbody := hbody (by simp [hp]) (by simp [hp])
    have hw := writeBody_advances j w s fun x => writing_safe hb hp
    refine Advances.finish_restOfBody ?_ hbody h1 _ _
    split
    · rename_i hop
      refine hw.trans (afterIngest_advances _ fun x hx => hbody x (.inr ⟨hop, ?_⟩))
      rwa [actK, actN, hw.act] at hx
    · exact hw
  · exact (afterIngest_advances s fun x => ingested_safe hb hp).finish_restOfBody
      (hbody (by simp [hp]) (by simp [hp])) h1 _ _
  · exact (endPublication_advances s fun x => publishing_safe hb hp).finish_restOfBody
      (hbody (by simp [hp]) (by simp [hp])) h1 _ _
  · exact (endBody_advances _ s).toStoresWithin.finish _ _
  · exact (StoresWithin.refl _ s).finish _ _

/-! ## One part of a command -/

theorem StoresWithin.reach {A : Nat → Prop} {s t : State} (h : StoresWithin A s t) (p : Progress) :
    StoresWithin A s (reach p t) := ⟨h.raced, h.oldMem, h.mem⟩

theorem beginCommand_stores (A : Nat → Prop) (s : State) : StoresWithin A s (beginCommand s) := by
  have hnone : ∀ p, StoresWithin A s (Machine.reach p s) := (StoresWithin.refl A s).reach
  simp only [beginCommand]
  split
  · exact hnone _
  · split
    · exact ⟨rfl, rfl, WritesWithin.refl _ _⟩
    · exact ((prepareLatch_stores A s).trans (advanceSeq_advances _ _).toStoresWithin).reach _
  · split <;> exact hnone _
  · split <;> exact hnone _
  · split <;> exact hnone _
  · exact hnone _

theorem applyEventWord_stores {A : Nat → Prop} {s u t : State} {w : Cmd} (hs : StoresWithin A s u)
    (h : applyEventWord w u = .next t) : StoresWithin A s t := by
  obtain ⟨v, hv, hf⟩ := applyEventWord_completes w u
  obtain rfl := Host.Outcome.next.inj (hv.symm.trans h)
  rw [onlyEvents] at hf
  rw [hf]
  exact hs.trans ⟨rfl, rfl, WritesWithin.refl _ _⟩

/-- The part that applies an event (rule R250). -/
theorem applyEvent_stores {A : Nat → Prop} {s u t : State} {e : Nat} {p : Progress} (hs : StoresWithin A s u)
    (h : (andThen (applyEvent e u) fun v => .next (reach p v)) = .next t) : StoresWithin A s t := by
  obtain ⟨v, hv, h⟩ := andThen_eq_next.1 h
  rw [← Host.Outcome.next.inj h]
  exact (applyEvent_inv (P := StoresWithin A s) (fun _ _ _ => applyEventWord_stores) hs hv).reach _

theorem renderPart_stores {A : Nat → Prop} {j ej : Nat} {s t : State} (h : renderPart j ej s = .next t) :
    StoresWithin A s t := by
  have hs := StoresWithin.refl A s
  simp only [renderPart] at h
  split at h
  · obtain ⟨⟨due, s1⟩, h1, h⟩ := andThen_eq_next.1 h
    have hs1 := dueEvent_inv (P := StoresWithin A s) (fun u hu => ⟨hu.raced, hu.oldMem, hu.mem⟩) hs h1
    simp only at h hs1
    split at h
    · exact applyEvent_stores hs1 h
    · obtain ⟨⟨out, s2⟩, h2, h⟩ := andThen_eq_next.1 h
      rw [← Host.Outcome.next.inj h]
      exact (frameOut_inv (P := StoresWithin A s) (fun u _ _ _ hu _ _ => ⟨hu.raced, hu.oldMem, hu.mem⟩)
        (fun u hu => ⟨hu.raced, hu.oldMem, hu.mem⟩) hs1 h2).reach _
  · split at h
    · exact applyEvent_stores hs h
    · rw [← Host.Outcome.next.inj h]
      exact hs.reach _

theorem eqPart_stores {A : Nat → Prop} {j : Nat} {s t : State} (h : eqPart j s = .next t) : StoresWithin A s t := by
  simp only [eqPart] at h
  split at h
  · obtain ⟨⟨v, s1⟩, h1, h⟩ := andThen_eq_next.1 h
    rw [← Host.Outcome.next.inj h, sampleOut_frame h1]
    exact ⟨rfl, rfl, WritesWithin.refl _ _⟩
  · rw [← Host.Outcome.next.inj h]
    exact (StoresWithin.refl A s).reach _

theorem specPart_stores {A : Nat → Prop} {j : Nat} {s t : State} (h : specPart j s = .next t) :
    StoresWithin A s t := by
  simp only [specPart] at h
  split at h
  · obtain ⟨m, -, h⟩ := andThen_eq_next.1 h
    rw [← Host.Outcome.next.inj h]
    exact (StoresWithin.refl A s).reach _
  · rw [← Host.Outcome.next.inj h]
    exact (StoresWithin.refl A s).reach _

theorem bodyPart_stores {A : Nat → Prop} {j ej : Nat} {s t : State} (h : bodyPart j ej s = .next t) :
    StoresWithin A s t := by
  simp only [bodyPart] at h
  split at h
  · exact renderPart_stores h
  · exact eqPart_stores h
  · exact specPart_stores h
  · rw [← Host.Outcome.next.inj h]
    exact (StoresWithin.refl A s).reach _

theorem hopPart_stores (A : Nat → Prop) (j : Nat) (s : State) : StoresWithin A s (hopPart j s) := by
  simp only [hopPart]
  split
  · have hclear : StoresWithin A s (clearPending s) := ⟨rfl, rfl, WritesWithin.refl _ _⟩
    exact (hclear.trans (advanceSeq_advances _ _).toStoresWithin).reach _
  · exact (StoresWithin.refl A s).reach _

theorem enginePart_stores {s t : State} (h : enginePart s = .next t) : StoresWithin (safeByte s) s t := by
  have hs := StoresWithin.refl (safeByte s) s
  obtain ⟨-, rfl⟩ | ⟨hb, ⟨-, rfl⟩ | ⟨q, -, rfl⟩ | ⟨q, w, -, h⟩ | ⟨-, rfl⟩ | ⟨j, ej, -, h⟩ | ⟨j, ej, w, hp, rfl⟩ |
    ⟨j, -, rfl⟩ | ⟨j, hp, rfl⟩ | ⟨-, rfl⟩ | ⟨c, -, rfl⟩⟩ := enginePart_cases h
  · exact hs
  · exact beginCommand_stores _ _
  · simp only [drainPart]
    split
    · exact hs.reach _
    · exact ⟨rfl, rfl, WritesWithin.refl _ _⟩
  · obtain ⟨s1, h1, h⟩ := andThen_eq_next.1 h
    rw [← Host.Outcome.next.inj h]
    exact (applyEntry_advances h1).reach _
  · exact (beginBody_advances _ s).reach _
  · exact bodyPart_stores h
  · exact (writeBody_advances j w s fun x => writing_safe hb hp).reach _
  · exact hopPart_stores _ j s
  · exact (endPublication_advances s fun x => publishing_safe hb hp).reach _
  · exact (endBody_advances _ s).reach _
  · exact hs

/-! ## Whole steps -/

/-- What a step other than the reset stores: within the RAMs where the run is legal; the memory kept from before a
command is that of an earlier one or of this state; a racing write is one of before or a new one of the host. -/
structure StepStores (s t : State) : Prop where
  mem : WritesWithin (safeByte s) s.mem t.mem
  oldMem : t.oldMem = s.oldMem ∨ t.oldMem = s.mem
  raced : ∀ w ∈ t.raced, w ∈ s.raced ∨ hostWord w.1

theorem stepStores_of_storesWithin {s t : State} (h : StoresWithin (safeByte s) s t) : StepStores s t :=
  ⟨h.mem, .inl h.oldMem, fun _ hw => .inl (h.raced ▸ hw)⟩

/-- A step that touches neither memory nor the racing writes. -/
theorem stepStores_of_eq {s t : State} (hm : t.mem = s.mem) (ho : t.oldMem = s.oldMem) (hr : t.raced = s.raced) :
    StepStores s t := stepStores_of_storesWithin ⟨hr, ho, by rw [hm]; exact WritesWithin.refl _ _⟩

/-- The racing writes settle in the words the host wrote (rule R670). -/
theorem settleRaces_stores {s u : State} (h : StoresWithin (safeByte s) s u) : StepStores s (settleRaces u) where
  mem := settleRaces_inv (P := WritesWithin (safeByte s) s.mem) u h.mem fun m r hr hm =>
    hm.trans (writesWithin_setWord _ _ _ fun _ h1 h2 hl => hostWord_ramByte (hl.2.2 r (h.raced ▸ hr)) h1 h2)
  oldMem := .inl h.oldMem
  raced _ hw := by simp at hw

theorem engineTurn_stores {s t : State} (h : engineTurn s = .next t) : StepStores s t := by
  obtain ⟨-, rfl⟩ | ⟨hb, i, u, hi, hu, rfl⟩ | ⟨-, -, rfl⟩ := engineTurn_cases h
  · exact stepStores_of_eq rfl rfl rfl
  · exact settleRaces_stores (restOfCommand_stores hb hi hu)
  · exact stepStores_of_eq rfl rfl rfl

/-- The doorbell keeps the memory as it is before the command it starts (rule R118). -/
theorem ringDoorbell_stores (v : Word) (s : State) : StepStores s (ringDoorbell v s) := by
  simp only [ringDoorbell]
  split
  · exact stepStores_of_eq rfl rfl rfl
  · exact ⟨WritesWithin.refl _ _, .inr rfl, fun _ => .inl⟩

theorem writeCsr_stores {off : Nat} {v : Word} {s t : State} (h : writeCsr off v s = .next t) : StepStores s t := by
  obtain ⟨-, rfl⟩ | ⟨-, rfl⟩ | ⟨-, rfl⟩ | ⟨-, rfl⟩ | ⟨-, rfl⟩ | rfl := writeCsr_cases h
  · exact stepStores_of_eq rfl rfl rfl
  · exact ringDoorbell_stores v s
  · exact stepStores_of_eq rfl rfl rfl
  · simp only [pushQueue, enqueue]
    split <;> exact stepStores_of_eq rfl rfl rfl
  · exact stepStores_of_eq rfl rfl rfl
  · exact stepStores_of_eq rfl rfl rfl

theorem access_stores {a : Access} {s t : State} (h : access a s = .next t) : StepStores s t := by
  obtain ⟨off, r, -, -, rfl⟩ | ⟨off, v, -, ha, ⟨-, h⟩ | ⟨hr, rfl | rfl⟩ | ⟨-, rfl⟩⟩ := access_cases h
  · exact stepStores_of_eq rfl rfl rfl
  · exact writeCsr_stores h
  · exact ⟨writesWithin_setWord _ _ _ fun _ h1 h2 _ => hostWord_ramByte ⟨ha, hr⟩ h1 h2, .inl rfl, fun _ => .inl⟩
  · refine ⟨WritesWithin.refl _ _, .inl rfl, fun w hw => ?_⟩
    obtain hw | rfl := by simpa using hw
    exacts [.inl hw, .inr ⟨ha, hr⟩]
  · exact stepStores_of_eq rfl rfl rfl

theorem agentAccess_stores {agent : Nat} {a : Access} {s t : State} (h : agentAccess agent a s = .next t) :
    StepStores s t := by
  obtain ⟨width, addr, off, -, -, h⟩ | ⟨width, addr, off, v, -, -, -, h⟩ := agentAccess_cases h
  · exact access_stores h
  · have hst := access_stores h
    rw [noteAgent_frame] at hst
    exact ⟨hst.mem, hst.oldMem, hst.raced⟩

/-- The turns still to be taken are no matter. -/
theorem stepStores_of_agenda {s t : State} {rest : List Turn} (h : StepStores { s with agenda := rest } t) :
    StepStores s t := ⟨h.mem, h.oldMem, h.raced⟩

/-- A step stores as its turn does, or resets the block, which empties the memory (rules R30, R650). -/
theorem step_stores {s t : State} (h : step s = .next t) :
    StepStores s t ∨ (t.mem = [] ∧ t.oldMem = [] ∧ t.raced = []) := by
  obtain ⟨-, h⟩ | ⟨turn, rest, -, ⟨-, h⟩ | ⟨-, h⟩ | ⟨agent, a, -, h⟩ | ⟨-, rfl⟩⟩ := step_cases h
  · exact .inl (engineTurn_stores h)
  · exact .inl (stepStores_of_agenda (engineTurn_stores h))
  · exact .inl (stepStores_of_agenda (stepStores_of_storesWithin (enginePart_stores h)))
  · exact .inl (stepStores_of_agenda (agentAccess_stores h))
  · exact .inr ⟨rfl, rfl, rfl⟩

/-- Settles O49: every store keeps the canonical form, and what a command's start keeps is the memory. -/
theorem memoryStaysCanonical : Obligations.MemoryStaysCanonical := by
  unfold Obligations.MemoryStaysCanonical
  rintro s t ⟨hmem, hold⟩ h
  obtain hst | ⟨hm, ho, -⟩ := step_stores h
  · refine ⟨hst.mem.wf hmem, ?_⟩
    obtain ho | ho := hst.oldMem <;> rw [ho]
    exacts [hold, hmem]
  · rw [hm, ho]
    exact ⟨.nil, .nil⟩

/-- Settles O54: the run is legal, so every byte newly listed lies in a RAM, and a new racing write is the host's. -/
theorem memoryStaysInTheRams : Obligations.MemoryStaysInTheRams := by
  unfold Obligations.MemoryStaysInTheRams
  rintro s t hcfg hcmd ⟨hcells, hraced⟩ h
  obtain hst | ⟨hm, -, hr⟩ := step_stores h
  · refine ⟨fun c hc => ?_, fun w hw => (hst.raced w hw).elim (hraced w) id⟩
    exact (hst.mem.cells c hc).elim (hcells c) fun hs => hs ⟨hcfg, hcmd, hraced⟩
  · rw [memoryMapped, hm, hr]
    simp

end Sys2Proof.Machine
end

section
/-! SUPPORT. The run of an EQ_PROCESS (rules R350 to R352, R364, R365, R367): the states of its sample loop, the gains and
the choice of the oversampler in the terms of the rules. -/

namespace Sys2Proof.Machine

theorem globalGain_eq (s : State) (id : Fin 4) :
    globalGain s id = pow10N (fdiv (fclamp s.eqg[id] 0xC1C00000 0x41C00000) 0x41A00000) := by
  have hlo : f32OfInt (-24) = 0xC1C00000 := by decide
  have hhi : f32OfNat 24 = 0x41C00000 := by decide
  have hdb : f32OfNat 20 = 0x41A00000 := by decide
  rw [globalGain, clampDb, hlo, hhi, hdb]

theorem eqIdle_eq_false {s : State} :
    eqIdle s = false ↔ (∃ b, b < 8 ∧ bandProcesses s b = true) ∨ s.eqg[2] ≠ 0 := by
  simp [eqIdle, or_iff_not_imp_left]

/-- One sample between its gains: oversampled if the factor is 2 and the equalizer is not idle (rules R350, R367). -/
theorem eqSample_eq (s : State) (ch : Nat) (x : F32) {p : Prop} [Decidable p]
    (hp : p ↔ s.act.oversample = 2 ∧ ((∃ b, b < 8 ∧ bandProcesses s b = true) ∨ s.eqg[2] ≠ 0)) :
    eqSample s ch x = if p then oversample s ch x s.eq else path s ch x s.eq :=
  if_congr ((and_congr_right fun _ => eqIdle_eq_false).trans hp.symm) rfl rfl

theorem bandParam_fin (s : State) (b : Fin 8) (id : Fin 11) : bandParam s b.val id = s.eqb[b][id] := by
  simp [bandParam, Vector.getD]

/-- The coefficients designed anew where the equalizer is not bypassed (rules R351, R365). -/
theorem eqBegin_of_processing {s : State} (h : s.eqg[3] ≠ 1) :
    eqBegin s = { s with
      eqc := Vector.ofFn fun b : Fin 8 => if s.eqb[b][8] = 1 then designBand s b.val else s.eqc[b] } := by
  have hflag : ∀ b : Fin 8, bandFlag s b.val 8 = true ↔ s.eqb[b][8] = 1 := fun b => by
    rw [bandFlag, bandParam_fin, beq_iff_eq]
    rfl
  rw [eqBegin, if_neg h]
  simp only [recomputeBands, hflag]

/-- A bypassed equalizer's body does nothing (rule R365). -/
theorem eqBlock_of_bypass (k : BitVec 8) (frames : Word) {s : State} (h : s.eqg[3] = 1) :
    eqBlock k frames s = .next s := by
  rw [eqBlock, eqBegin, if_pos h, eqFrom, eqLength, if_pos h]
  rfl

/-- The states of EQ_PROCESS's sample loop, one after each sample (rule R350). -/
theorem eqSamples_states {base n : Nat} {s t : State} (h : eqSamples base (List.range n) s = .next t) :
    ∃ st : Nat → State, st 0 = s ∧ st n = t ∧ ∀ j, j < n →
      ∃ w, readWord (st j) (base + 4 * j) = .next w ∧
        let out := eqSample (st j) (j % actC (st j)) (fmul w (globalGain (st j) 0))
        st (j + 1) = writeWord { st j with eq := out.2 } (base + 4 * j) (fmul out.1 (globalGain (st j) 1)) := by
  obtain ⟨st, h0, hn, hst⟩ := loop_states (loop := eqSamples base)
    (body := fun j s => andThen (sampleOut base j s) fun r => .next (writeWord r.2 (base + 4 * j) r.1))
    (fun _ => rfl) (fun j js s => by rw [andThen_assoc]; rfl) h
  refine ⟨st, h0, hn, fun j hj => ?_⟩
  obtain ⟨⟨v, s1⟩, hout, hj⟩ := andThen_eq_next.1 (hst j hj)
  obtain ⟨w, hw, hout⟩ := andThen_eq_next.1 hout
  obtain ⟨rfl, rfl⟩ := Prod.mk.inj (Host.Outcome.next.inj hout)
  exact ⟨w, hw, (Host.Outcome.next.inj hj).symm⟩

/-- What a sample is told by besides its word and the signal state is as it was when the samples began (rule R350). -/
structure SameEqualizer (s t : State) : Prop where
  act : t.act = s.act
  eqg : t.eqg = s.eqg
  eqb : t.eqb = s.eqb

theorem SameEqualizer.bandProcesses {s t : State} (h : SameEqualizer s t) : bandProcesses t = bandProcesses s := by
  funext b
  simp only [Machine.bandProcesses, soloMode, bandFlag, bandParam, h.eqb]

/-- Settles O29: the drain, then nothing under bypass, else the states of the sample loop. -/
theorem eqProcessCompletes : Obligations.EqProcessCompletes := by
  unfold Obligations.EqProcessCompletes
  intro s k frames hp hk hread
  obtain ⟨s1, h1, hd, htail⟩ := drain_completes s
  have hact := onlyDrained_act hd
  have hcount : s1.cmdCount = s.cmdCount := by rw [hd]
  by_cases hby : s1.eqg[3] = 1
  · exact ⟨s1, fun _ => s1, _, h1, processCommand_completes hp hk h1 (eqBlock_of_bypass k frames hby), htail,
      congrArg (· + 1) hcount, fun _ => ⟨_, rfl⟩, fun h => absurd hby h⟩
  have hread : readableWords s (bufBase k.toNat) (frameCount frames s * actC s) = true := by
    refine hread.resolve_right fun ⟨hempty, hg⟩ => ?_
    obtain rfl := Host.Outcome.next.inj ((drain_empty s hempty).symm.trans h1)
    exact hby hg
  obtain ⟨t, ht⟩ := eqBlock_completes k frames s1 (readable_drained hd hread)
  have hexec := processCommand_completes (op := 0x03) hp hk h1 ht
  have hframe := (eqFrom_frame ht).1
  have hbegin := eqBegin_of_processing hby
  have hlen : eqLength (frameCount frames (eqBegin s1)) (eqBegin s1) = frameCount frames s * s.act.channels.toNat := by
    rw [hbegin, eqLength, if_neg hby, frameCount, actC, hact]
    rfl
  rw [eqBlock, eqFrom, hlen] at ht
  obtain ⟨st, h0, hn, hst⟩ := eqSamples_states ht
  have hsame := states_inv (P := SameEqualizer s1) (st := st) (n := frameCount frames s * s.act.channels.toNat)
    (by rw [h0, hbegin]; exact ⟨rfl, rfl, rfl⟩) fun j hj hu => by
      obtain ⟨w, -, hj⟩ := hst j hj
      rw [hj]
      exact ⟨hu.act, hu.eqg, hu.eqb⟩
  refine ⟨s1, st, _, h1, hexec, ?_, ?_, fun h => absurd h hby, fun _ => ⟨h0.trans hbegin, ?_, ?_⟩⟩
  · rw [finish_head, hframe, hbegin]
    exact htail
  · rw [finish_cmdCount, hframe, hbegin]
    exact congrArg (· + 1) hcount
  · intro i ch hi hch j
    have hj : j < frameCount frames s * s.act.channels.toNat := samplePosition_lt hi hch
    obtain ⟨w, hw, hj'⟩ := hst j hj
    have hu := hsame j hj.le
    have hmod : j % actC (st j) = ch := by
      rw [actC, hu.act, hact, Nat.mul_add_mod_of_lt hch]
    refine ⟨w, hw, ?_⟩
    have hgain : ∀ id, globalGain (st j) id = pow10N (fdiv (fclamp s1.eqg[id] 0xC1C00000 0x41C00000) 0x41A00000) :=
      fun id => by rw [globalGain_eq, hu.eqg]
    simp only [hmod, hgain] at hj'
    rw [eqSample_eq (st j) ch _ (by rw [hu.bandProcesses, hu.eqg, hu.act, hact])] at hj'
    exact hj'
  · rw [hn]
    exact ⟨_, rfl⟩

end Sys2Proof.Machine
end

section
/-! SUPPORT. The drain as a list of entries (rules R211, R213): what an entry does is told by its word alone, and neither
reads nor writes the queue, so draining is applying the queued words in order and moving the head to the tail. -/

namespace Sys2Proof.Machine

/-! ## What one entry does -/

/-- An update of the state that a queue entry can be: it is counted as illegal, or writes one parameter register. -/
def isEntryEffect (f : State → State) : Prop := f = countIllegal ∨ ∃ r v, f = writeParam r v

theorem storeReal_isEntryEffect (r : ParamReg) (v : Word) : isEntryEffect (storeReal r v) := by
  cases h : isNaN v
  · exact .inr ⟨r, v, funext fun s => by simp [storeReal, h]⟩
  · exact .inl (funext fun s => by simp [storeReal, h])

theorem storeEnum_isEntryEffect (r : ParamReg) (m : Nat) (v : Word) : isEntryEffect (storeEnum r m v) := by
  by_cases h : v.toNat ≤ m
  · exact .inr ⟨r, v, funext fun s => if_pos h⟩
  · exact .inl (funext fun s => if_neg h)

theorem storeBool_isEntryEffect (r : ParamReg) (v : Word) : isEntryEffect (storeBool r v) := .inr ⟨r, _, rfl⟩

theorem inBand_isEntryEffect (b : BitVec 8) {store : Fin 8 → State → State} (h : ∀ i, isEntryEffect (store i)) :
    isEntryEffect (inBand b store) := by
  by_cases hb : b.toNat < 8
  · rw [show inBand b store = store ⟨b.toNat, hb⟩ from funext fun s => dif_pos hb]
    exact h _
  · exact .inl (funext fun s => dif_neg hb)

/-- Every setter is one such update (rule R212). -/
theorem applySetter_effect (i : Instr) : ∃ f, isEntryEffect f ∧ ∀ s, applySetter i s = .next (f s) := by
  cases i with
  | synWaveform v | synFilterType v | synLfoWaveform v | eqModel v =>
    exact ⟨_, storeEnum_isEntryEffect _ _ v, fun _ => rfl⟩
  | synAttack v | synHold v | synDecay v | synSustain v | synRelease v | synCurve v | synFilterCutoff v | synFilterQ v
  | synLfoRate v | synLfoAmpDepth v | synLfoPitchDepth v | synGain v | eqInputGain v | eqOutputGain v =>
    exact ⟨_, storeReal_isEntryEffect _ v, fun _ => rfl⟩
  | eqGlobalBypass v => exact ⟨_, storeBool_isEntryEffect _ v, fun _ => rfl⟩
  | eqType b v | eqSlope b v =>
    exact ⟨_, inBand_isEntryEffect b fun _ => storeEnum_isEntryEffect _ _ v, fun _ => rfl⟩
  | eqFreq b v | eqGain b v | eqQ b v | eqDrive b v | eqSaturation b v | eqMix b v =>
    exact ⟨_, inBand_isEntryEffect b fun _ => storeReal_isEntryEffect _ v, fun _ => rfl⟩
  | eqEnable b v | eqSolo b v | eqBypass b v =>
    exact ⟨_, inBand_isEntryEffect b fun _ => storeBool_isEntryEffect _ v, fun _ => rfl⟩
  | nop | prepare | synRender | eqProcess | specProcess | noteOn | noteOff =>
    exact ⟨_, .inl rfl, fun _ => rfl⟩

theorem applyEntry_effect (w : Cmd) : ∃ f, isEntryEffect f ∧ ∀ s, applyEntry w s = .next (f s) := by
  unfold applyEntry
  cases decodeWord .queue w with
  | ok i => exact applySetter_effect i
  | error e => exact ⟨_, .inl rfl, fun _ => rfl⟩

/-! ## The queue's head -/

/-- The queue with its head moved. -/
def moveHead (h : Fin 32) (s : State) : State := { s with head := h }

/-- An entry is applied wherever the head stands. -/
theorem isEntryEffect_moveHead {f : State → State} (hf : isEntryEffect f) (h : Fin 32) (s : State) :
    f (moveHead h s) = moveHead h (f s) := by
  obtain rfl | ⟨r, v, rfl⟩ := hf
  · rfl
  · cases r <;> rfl

theorem isEntryEffect_slots {f : State → State} (hf : isEntryEffect f) (s : State) :
    (f s).slots = s.slots ∧ (f s).head = s.head := by
  obtain rfl | ⟨r, v, rfl⟩ := hf
  · exact ⟨rfl, rfl⟩
  · cases r <;> exact ⟨rfl, rfl⟩

/-- Entries are applied wherever the head stands. -/
theorem applyEntries_moveHead (ws : List Cmd) (h : Fin 32) (s : State) :
    applyEntries ws (moveHead h s) = andThen (applyEntries ws s) fun t => .next (moveHead h t) := by
  induction ws generalizing s with
  | nil => rfl
  | cons w ws ih =>
    obtain ⟨f, hf, hw⟩ := applyEntry_effect w
    simp only [applyEntries, hw, andThen_next, isEntryEffect_moveHead hf, ih]

theorem applyEntries_completes (ws : List Cmd) (s : State) : ∃ t, applyEntries ws s = .next t := by
  induction ws generalizing s with
  | nil => exact ⟨s, rfl⟩
  | cons w ws ih =>
    obtain ⟨u, hu, -⟩ := applyEntry_completes w s
    rw [applyEntries, hu]
    exact ih u

/-! ## The drain -/

/-- The first `n` entries of the queue. -/
def entries (s : State) (n : Nat) : List Cmd := (List.range n).map fun j => s.slots.getD ((s.head.val + j) % 32) 0

theorem entries_succ (s : State) (n : Nat) :
    entries s (n + 1) = s.slots[s.head] :: entries (popQueue s) n := by
  have hslot : s.slots.getD (s.head.val % 32) 0 = s.slots[s.head] := by
    simp [Vector.getD, Nat.mod_eq_of_lt s.head.isLt]
  have hhead : ∀ j, (s.head.val + (j + 1)) % 32 = ((s.head + 1).val + j) % 32 := fun j => by
    rw [Fin.val_add]
    simp only [Fin.val_one]
    omega
  simp only [entries, List.range_succ_eq_map, List.map_cons, List.map_map, Nat.add_zero, hslot]
  simp only [Function.comp_def, Nat.succ_eq_add_one, hhead]
  rfl

theorem entries_congr {s t : State} (hs : t.slots = s.slots) (hh : t.head = s.head) (n : Nat) :
    entries t n = entries s n := by rw [entries, hs, hh, entries]

/-- One entry fewer lies between the head and the tail once the head moves. -/
theorem distance_succ {t h : Fin 32} (hne : h ≠ t) : (t - h).val = (t - (h + 1)).val + 1 := by
  have h0 : (t - h).val ≠ 0 := fun h0 => hne (sub_eq_zero.1 (Fin.ext h0)).symm
  rw [← sub_sub]
  generalize t - h = d at *
  rw [Fin.sub_def]
  simp only [Fin.val_one]
  omega

/-- Draining is applying the entries in order and moving the head (rules R211, R213). -/
theorem drainTo_eq (t : Fin 32) (fuel : Nat) (s : State) (h : (t - s.head).val ≤ fuel) :
    drainTo t fuel s = andThen (applyEntries (entries s (t - s.head).val) s) fun u => .next (moveHead t u) := by
  induction fuel generalizing s with
  | zero =>
    obtain rfl : t = s.head := sub_eq_zero.1 (Fin.ext (Nat.le_zero.1 h))
    rw [sub_self]
    rfl
  | succ fuel ih =>
    by_cases hst : s.head = t
    · rw [drainTo, if_pos hst, ← hst, sub_self]
      rfl
    · obtain ⟨f, hf, hw⟩ := applyEntry_effect s.slots[s.head]
      obtain ⟨hslots, hhead⟩ := isEntryEffect_slots hf (popQueue s)
      have hdist := distance_succ hst
      have hpop : f (popQueue s) = moveHead (s.head + 1) (f s) := isEntryEffect_moveHead hf (s.head + 1) s
      rw [drainTo, if_neg hst, hw, andThen_next, ih _ (by rw [hhead, popQueue_head]; omega), hhead, popQueue_head, hdist,
        entries_congr hslots hhead, entries_succ, applyEntries, hw, andThen_next, hpop, applyEntries_moveHead,
        andThen_assoc]
      rfl

/-- `drain()` is applying the queued words in order and emptying the queue (rules R211, R213). -/
theorem drain_eq (s : State) :
    drain s = andThen (applyEntries (queued s) s) fun u => .next (moveHead s.tail u) :=
  drainTo_eq s.tail 31 s (by omega)

/-- A process command does what it does on the drained queue (rule R204). -/
theorem processCommand_drained {op k : BitVec 8} {body : State → Res State} {s s1 : State} (hp : s.prepared = true)
    (hk : k.toNat ≤ 1) (h : drain s = .next s1) : processCommand op k body s = processCommand op k body s1 := by
  obtain ⟨hd, htail⟩ := drain_frame h
  have hp1 : s1.prepared = true := by rw [hd]; exact hp
  have hempty : s1.head = s1.tail := by
    rw [htail, hd]
  have hk : ¬ 1 < k.toNat := by omega
  simp only [processCommand, prologueError, hp, hp1, hk, h, drain_empty s1 hempty, Bool.true_eq_false, if_false]

/-- Settles O13: the drain is the list of entries, and a process command starts from what it leaves. -/
theorem drainAppliesTheQueueInOrder : Obligations.DrainAppliesTheQueueInOrder := by
  unfold Obligations.DrainAppliesTheQueueInOrder
  intro s k hp hk
  obtain ⟨t, ht⟩ := applyEntries_completes (queued s) s
  have hdrain : drain s = .next (moveHead s.tail t) := by rw [drain_eq, ht, andThen_next]
  have hbody : specBlock k 0 (moveHead s.tail t) = .next (moveHead s.tail t) := by
    simp [specBlock, specFrom, frameCount, specFrames]
  exact ⟨t, ht, fun e n => ⟨processCommand_drained hp hk hdrain, processCommand_drained hp hk hdrain,
    processCommand_drained hp hk hdrain⟩, _, processCommand_completes hp hk hdrain hbody, _, rfl⟩

end Sys2Proof.Machine
end

section
/-! SUPPORT. What a SYN_RENDER writes (rules R109, R250): each frame's words hold one value, and no later frame or event
changes them. -/

namespace Sys2Proof.Machine

/-- Every channel's word of frame `i` of the block at `base` holds one value. -/
def frameAlike (base i : Nat) (s : State) : Prop :=
  ∃ w, ∀ ch, ch < actC s → Memory.word s.mem (base + 4 * (i * actC s + ch)) = some w

/-- Memory and active configuration are as they were. -/
def sameWords (s t : State) : Prop := t.mem = s.mem ∧ t.act = s.act

theorem frameAlike_congr {base i : Nat} {s t : State} (h : sameWords s t) : frameAlike base i t ↔ frameAlike base i s := by
  simp only [frameAlike, actC, h.1, h.2]

theorem frameOut_sameWords {s : State} {os : Word × State} (h : frameOut s = .next os) : sameWords s os.2 :=
  frameOut_inv (P := sameWords s) (fun _ _ _ _ hu _ _ => hu) (fun _ hu => hu) (s := s) ⟨rfl, rfl⟩ h

theorem applyEventWord_sameWords {s u t : State} {w : Cmd} (hu : sameWords s u) (h : applyEventWord w u = .next t) :
    sameWords s t := by
  obtain ⟨v, hv, hf⟩ := applyEventWord_completes w u
  obtain rfl := Host.Outcome.next.inj (hv.symm.trans h)
  rw [hf]
  exact hu

/-- Frame `i` written: its words hold its value, and those of another frame what they held. -/
theorem writeFrame_alike (base i : Nat) (out : Word) (s : State) :
    frameAlike base i (writeFrame (base + 4 * (i * actC s)) out s) ∧
      ∀ j, j ≠ i → frameAlike base j s → frameAlike base j (writeFrame (base + 4 * (i * actC s)) out s) := by
  have hact : actC (writeFrame (base + 4 * (i * actC s)) out s) = actC s := rfl
  refine ⟨⟨out, fun ch hch => ?_⟩, fun j hj ⟨w, hw⟩ => ⟨w, fun ch hch => ?_⟩⟩ <;> rw [hact] at hch ⊢
  · have hword := word_setWords (List.replicate (actC s) out) s.mem (base + 4 * (i * actC s)) ch (by simpa using hch)
    rw [List.getElem_replicate] at hword
    rwa [show base + 4 * (i * actC s + ch) = base + 4 * (i * actC s) + 4 * ch by ring]
  · rw [← hw ch hch]
    refine word_setWords_other _ _ _ _ ?_
    rw [List.length_replicate]
    rcases Nat.lt_or_gt_of_ne hj with hlt | hgt
    · have := samplePosition_lt (n := i) hlt hch
      omega
    · have := Nat.mul_le_mul_right (actC s) (show i + 1 ≤ j by omega)
      rw [Nat.succ_mul] at this
      omega

theorem renderFrame_alike {base i : Nat} {s t : State} (h : renderFrame base i s = .next t) :
    frameAlike base i t ∧ ∀ j, frameAlike base j s → frameAlike base j t := by
  obtain ⟨⟨out, s1⟩, h1, h⟩ := andThen_eq_next.1 h
  have hs1 : sameWords s s1 := frameOut_sameWords h1
  obtain ⟨hi, hj⟩ := writeFrame_alike base i out s1
  rw [← Host.Outcome.next.inj h]
  refine ⟨hi, fun j hs => ?_⟩
  by_cases hji : j = i
  · exact hji ▸ hi
  · exact hj j hji ((frameAlike_congr hs1).2 hs)

/-- The frames rendered, and any that were alike before, are alike after a block's frames (rule R250). -/
theorem renderFrames_alike {base n cnt : Nat} {is : List Nat} {ei : Nat} {s : State} {es : Nat × State}
    (h : renderFrames base n cnt is ei s = .next es) (i : Nat) (hi : i ∈ is ∨ frameAlike base i s) :
    frameAlike base i es.2 := by
  induction is generalizing ei s with
  | nil =>
    obtain rfl := Host.Outcome.next.inj h
    exact hi.resolve_left List.not_mem_nil
  | cons j is ih =>
    obtain ⟨⟨ej, s1⟩, h1, h⟩ := andThen_eq_next.1 h
    obtain ⟨s2, h2, h⟩ := andThen_eq_next.1 h
    have hs1 : sameWords s s1 := applyDue_inv (P := sameWords s) (fun _ _ _ => applyEventWord_sameWords)
      (fun _ hu => hu) n cnt j cnt ei s ⟨rfl, rfl⟩ _ h1
    obtain ⟨hj, hkeep⟩ := renderFrame_alike h2
    refine ih h ?_
    rw [List.mem_cons] at hi
    obtain (rfl | hi) | hi := hi
    · exact .inr hj
    · exact .inl hi
    · exact .inr (hkeep i ((frameAlike_congr hs1).2 hi))

/-- Settles O26: every frame below n is rendered, and the events left after the frames write no word. -/
theorem synRenderWritesEveryChannelAlike : Obligations.SynRenderWritesEveryChannelAlike := by
  unfold Obligations.SynRenderWritesEveryChannelAlike
  intro s t k e frames hp hk h i ch hi hch
  obtain ⟨hp', -⟩ | ⟨-, hk', -⟩ | ⟨-, -, s1, s2, h1, h2, rfl⟩ := processCommand_cases h
  · simp [hp] at hp'
  · omega
  have hact := onlyDrained_act (drain_frame h1).1
  have hn : frameCount frames s1 = frameCount frames s := by rw [frameCount, hact, frameCount]
  obtain ⟨⟨ei, s3⟩, h3, h2⟩ := andThen_eq_next.1 h2
  obtain ⟨u, hu, rfl⟩ := renderEnd_inv (P := sameWords s3) (fun _ _ _ => applyEventWord_sameWords) (s := s3) ⟨rfl, rfl⟩ h2
  obtain ⟨w, hw⟩ := (frameAlike_congr hu).2 (renderFrames_alike h3 i (.inl (by simpa [hn] using hi)))
  have hactu : actC u = actC s := by
    have hf := (exec_synRender_frame h).1
    rw [onlySynRender] at hf
    have hu := congrArg State.act hf
    rw [finish_act] at hu
    rw [actC, show u.act = s.act from hu, actC]
  rw [hactu] at hw
  exact ⟨w, hw ch hch, hw 0 (by omega)⟩

end Sys2Proof.Machine
end

section
/-! SUPPORT. SYN_RENDER with its events as a list (rules R107, R250, R266): the events read from the event RAM at their
frames are those of the list in order. Without racing host writes the draw counter, which the looks at events move, is
read by nothing. -/

namespace Sys2Proof.Machine

/-! ## The draw counter -/

/-- The draw counter set to `d`. -/
def setDraws (d : Nat) (s : State) : State := { s with draws := d }

theorem noteOff_setDraws (nt : BitVec 8) (d : Nat) (s : State) :
    noteOff nt (setDraws d s) = setDraws d (noteOff nt s) := by
  rw [noteOff_eq, noteOff_eq]
  rfl

theorem ageVoices_setDraws (d : Nat) (s : State) : ageVoices (setDraws d s) = setDraws d (ageVoices s) := by
  rw [ageVoices_eq, ageVoices_eq]
  rfl

theorem allocate_setDraws (nt vl : BitVec 8) (d : Nat) (s : State) :
    allocate nt vl (setDraws d s) = setDraws d (allocate nt vl s) := by
  have hfree : freeVoice (setDraws d s) = freeVoice s := rfl
  rw [allocate, allocate, hfree]
  cases freeVoice s <;> rfl

/-- An event is applied whatever the draw counter. -/
theorem applyEventWord_setDraws {w : Cmd} {s t : State} (h : applyEventWord w s = .next t) (d : Nat) :
    applyEventWord w (setDraws d s) = .next (setDraws d t) := by
  simp only [applyEventWord] at h ⊢
  split at h
  · rename_i note vel off _
    simp only [execNoteOn] at h ⊢
    split at h
    · rename_i hv
      rw [if_pos hv, noteOff_setDraws, Host.Outcome.next.inj h]
    · rename_i hv
      rw [if_neg hv, ageVoices_setDraws, allocate_setDraws, Host.Outcome.next.inj h]
  · rw [← Host.Outcome.next.inj h]
    exact congrArg _ (noteOff_setDraws _ d s)
  · exact congrArg _ (congrArg (setDraws d) (Host.Outcome.next.inj h))
  · exact congrArg _ (congrArg (setDraws d) (Host.Outcome.next.inj h))

theorem readWord_setDraws {s : State} (hq : s.raced = []) (d a : Nat) : readWord (setDraws d s) a = readWord s a := by
  have hq' : (setDraws d s).raced = [] := hq
  rw [readWord, readWord, seenWord_quiet hq, seenWord_quiet hq']
  rfl

theorem voiceSample_setDraws {s : State} (hq : s.raced = []) (d : Nat) (v : Voice) :
    voiceSample (setDraws d s) v = voiceSample s v := by
  have hosc : ∀ inc, oscillator (setDraws d s) v inc = oscillator s v inc := fun inc => by
    simp only [oscillator, wavetable, readWord_setDraws hq]
    rfl
  have hosc' := hosc (phaseInc s v.note (lfoValue s v.lfoPhase))
  rw [voiceSample, voiceSample]
  show andThen (oscillator (setDraws d s) v (phaseInc s v.note (lfoValue s v.lfoPhase))) _ = _
  rw [hosc']
  rfl

/-- The voices are mixed whatever the draw counter. -/
theorem mixVoices_setDraws {us : List Nat} {acc : F32} {s : State} {as : F32 × State} (hq : s.raced = [])
    (h : mixVoices us acc s = .next as) (d : Nat) :
    ∃ d', mixVoices us acc (setDraws d s) = .next (as.1, setDraws d' as.2) := by
  induction us generalizing acc s d with
  | nil =>
    rw [← Host.Outcome.next.inj h]
    exact ⟨d, rfl⟩
  | cons u us ih =>
    have hact : isActive (setDraws d s) u = isActive s u := rfl
    have hv : voiceSample (setDraws d s) (voiceAt (setDraws d s) u) = voiceSample s (voiceAt s u) :=
      voiceSample_setDraws hq d (voiceAt s u)
    rw [mixVoices] at h ⊢
    rw [hact, hv]
    split at h
    · rename_i ha
      obtain ⟨⟨y, v⟩, h1, h2⟩ := andThen_eq_next.1 h
      rw [if_pos ha, h1]
      exact ih (s := nextDraw (setVoice u v s)) hq h2 (d + 1)
    · rename_i ha
      rw [if_neg ha]
      exact ih hq h d

/-- A frame is rendered whatever the draw counter. -/
theorem renderFrame_setDraws {base i : Nat} {s t : State} (hq : s.raced = []) (h : renderFrame base i s = .next t)
    (d : Nat) : ∃ d', renderFrame base i (setDraws d s) = .next (setDraws d' t) := by
  obtain ⟨os, hos, h⟩ := andThen_eq_next.1 h
  obtain ⟨as, has, hos⟩ := andThen_eq_next.1 hos
  obtain ⟨d', hd⟩ := mixVoices_setDraws hq has d
  rw [← Host.Outcome.next.inj h, ← Host.Outcome.next.inj hos]
  refine ⟨d', ?_⟩
  rw [renderFrame, frameOut]
  show andThen (andThen (mixVoices (List.range (actV s)) fZero (setDraws d s)) _) _ = _
  rw [hd]
  rfl

/-! ## The events in the event RAM -/

theorem ofWords_hi_lo (w : Cmd) : Cmd.ofWords (Cmd.hi w) (Cmd.lo w) = w := by
  rw [Cmd.ofWords, Cmd.hi, Cmd.lo, BitVec.extractLsb'_append_extractLsb'_eq_extractLsb' (start₁ := 0) (len₁ := 32) (start₂ := 32) (len₂ := 32) rfl,
    BitVec.extractLsb'_eq_self]

/-- No host write races, and the first event slots hold the words `ws` (rules R107, R266). -/
structure HoldsEvents (ws : List Cmd) (s : State) : Prop where
  quiet : s.raced = []
  length_le : ws.length ≤ 256
  lo : ∀ j, j < ws.length → Memory.word s.mem (evtBase + 8 * j) = some (Cmd.lo (ws.getD j 0))
  hi : ∀ j, j < ws.length → Memory.word s.mem (evtBase + 4 + 8 * j) = some (Cmd.hi (ws.getD j 0))

/-- The events stay where memory below the buffers does. -/
theorem HoldsEvents.congr {ws : List Cmd} {s t : State} (h : HoldsEvents ws s) (hr : t.raced = s.raced)
    (hm : ∀ a, a + 4 ≤ 0x10000 → Memory.word t.mem a = Memory.word s.mem a) : HoldsEvents ws t where
  quiet := hr.trans h.quiet
  length_le := h.length_le
  lo j hj := (hm _ (by have := h.length_le; unfold evtBase; omega)).trans (h.lo j hj)
  hi j hj := (hm _ (by have := h.length_le; unfold evtBase; omega)).trans (h.hi j hj)

theorem HoldsEvents.setDraws {ws : List Cmd} {s : State} (h : HoldsEvents ws s) (d : Nat) :
    HoldsEvents ws (setDraws d s) := h.congr rfl fun _ _ => rfl

theorem HoldsEvents.applyEventWord {ws : List Cmd} {w : Cmd} {s t : State} (h : HoldsEvents ws s)
    (ht : applyEventWord w s = .next t) : HoldsEvents ws t := by
  obtain ⟨u, hu, hf⟩ := applyEventWord_completes w s
  obtain rfl := Host.Outcome.next.inj (hu.symm.trans ht)
  exact h.congr (by rw [hf]) fun _ _ => by rw [hf]

theorem HoldsEvents.applyEventWords {ws vs : List Cmd} {s t : State} (h : HoldsEvents ws s)
    (ht : applyEventWords vs s = .next t) : HoldsEvents ws t := by
  induction vs generalizing s with
  | nil => exact Host.Outcome.next.inj ht ▸ h
  | cons v vs ih =>
    obtain ⟨u, hu, ht⟩ := andThen_eq_next.1 ht
    exact ih (h.applyEventWord hu) ht

theorem HoldsEvents.renderFrame {ws : List Cmd} {base i : Nat} {s t : State} (h : HoldsEvents ws s)
    (hb : 0x10000 ≤ base) (ht : renderFrame base i s = .next t) : HoldsEvents ws t := by
  obtain ⟨⟨out, s1⟩, h1, ht⟩ := andThen_eq_next.1 ht
  have h1 := frameOut_inv (P := HoldsEvents ws) (fun _ _ _ _ hu _ _ => hu.congr rfl fun _ _ => rfl)
    (fun _ hu => hu.congr rfl fun _ _ => rfl) h h1
  rw [← Host.Outcome.next.inj ht]
  exact h1.congr rfl fun a ha => word_setWords_other _ _ _ _ (by omega)

theorem readEvent_held {ws : List Cmd} {s : State} (h : HoldsEvents ws s) {e : Nat} (he : e < ws.length) :
    readEvent e s = .next (ws.getD e 0) := by
  have hhi := (readWord_eq_next s _ _).2 ((seenWord_quiet h.quiet _).trans (h.hi e he))
  have hlo := (readWord_eq_next s _ _).2 ((seenWord_quiet h.quiet _).trans (h.lo e he))
  rw [readEvent, hhi, andThen_next, hlo, andThen_next, ofWords_hi_lo]

theorem applyEvent_held {ws : List Cmd} {s t : State} (h : HoldsEvents ws s) {e : Nat} (he : e < ws.length)
    (ht : applyEventWord (ws.getD e 0) s = .next t) (d : Nat) : applyEvent e (setDraws d s) = .next (setDraws d t) := by
  rw [applyEvent, readEvent_held (h.setDraws d) he, andThen_next, applyEventWord_setDraws ht]

theorem dueEvent_held {ws : List Cmd} {s : State} (h : HoldsEvents ws s) (n i : Nat) {e : Nat} (he : e < ws.length) :
    dueEvent n ws.length i e s = .next (decide (eventFrame n (ws.getD e 0) ≤ i), nextDraw s) := by
  have hlo := (readWord_eq_next s _ _).2 ((seenWord_quiet h.quiet _).trans (h.lo e he))
  rw [dueEvent, if_pos he, hlo, andThen_next, eventFrame]

theorem drop_eq_cons {ws : List Cmd} {e : Nat} (he : e < ws.length) : ws.drop e = ws.getD e 0 :: ws.drop (e + 1) := by
  rw [List.drop_eq_getElem_cons he, List.getD_eq_getElem _ _ he]

/-! ## Events before a frame, and after the frames -/

/-- The events applied before frame `i`, from event `ei` on, are the list's up to the first one later (rule R250). -/
theorem applyDue_list {ws : List Cmd} {n i fuel ei : Nat} {s t : State} (h : HoldsEvents ws s)
    (hfuel : ws.length ≤ ei + fuel)
    (ht : applyEventWords ((ws.drop ei).takeWhile fun w => eventFrame n w ≤ i) s = .next t) (d : Nat) :
    ∃ ej d', applyDue n ws.length i fuel ei (setDraws d s) = .next (ej, setDraws d' t) ∧
      (ws.drop ei).dropWhile (fun w => eventFrame n w ≤ i) = ws.drop ej := by
  induction fuel generalizing ei s d with
  | zero =>
    have hnil : ws.drop ei = [] := List.drop_eq_nil_of_le hfuel
    rw [hnil] at ht ⊢
    exact ⟨ei, d, by rw [← Host.Outcome.next.inj ht]; rfl, hnil.symm⟩
  | succ fuel ih =>
    rw [applyDue]
    by_cases he : ei < ws.length
    · rw [dueEvent_held (h.setDraws d) n i he, andThen_next]
      rw [drop_eq_cons he] at ht ⊢
      by_cases hdue : eventFrame n (ws.getD ei 0) ≤ i
      · rw [List.takeWhile_cons_of_pos (by simpa using hdue)] at ht
        obtain ⟨u, hu, ht⟩ := andThen_eq_next.1 ht
        obtain ⟨ej, d', hj, hdrop⟩ := ih (h.applyEventWord hu) (by omega) ht (d + 1)
        rw [List.dropWhile_cons_of_pos (by simpa using hdue)]
        refine ⟨ej, d', ?_, hdrop⟩
        simp only [hdue, decide_true, if_true]
        exact (congrArg (andThen · _) (applyEvent_held h he hu (d + 1))).trans hj
      · rw [List.takeWhile_cons_of_neg (by simpa using hdue)] at ht
        rw [List.dropWhile_cons_of_neg (by simpa using hdue), ← drop_eq_cons he]
        refine ⟨ei, d + 1, ?_, rfl⟩
        simp only [hdue, decide_false, Bool.false_eq_true, if_false, ← Host.Outcome.next.inj ht]
        rfl
    · rw [dueEvent, if_neg he, andThen_next]
      rw [List.drop_eq_nil_of_le (by omega)] at ht ⊢
      refine ⟨ei, d, ?_, by rw [List.drop_eq_nil_of_le (by omega)]; rfl⟩
      rw [← Host.Outcome.next.inj ht]
      rfl

/-- The events left after the frames are the rest of the list (rule R250). -/
theorem applyRest_list {ws : List Cmd} {fuel ei : Nat} {s t : State} (h : HoldsEvents ws s)
    (hfuel : ws.length ≤ ei + fuel) (ht : applyEventWords (ws.drop ei) s = .next t) (d : Nat) :
    applyRest ws.length fuel ei (setDraws d s) = .next (setDraws d t) := by
  induction fuel generalizing ei s with
  | zero =>
    rw [show ws.drop ei = [] from List.drop_eq_nil_of_le hfuel] at ht
    rw [← Host.Outcome.next.inj ht]
    rfl
  | succ fuel ih =>
    rw [applyRest]
    by_cases he : ei < ws.length
    · rw [drop_eq_cons he] at ht
      obtain ⟨u, hu, ht⟩ := andThen_eq_next.1 ht
      rw [if_pos he, applyEvent_held h he hu d, andThen_next]
      exact ih (h.applyEventWord hu) (by omega) ht
    · rw [List.drop_eq_nil_of_le (by omega)] at ht
      rw [if_neg he, ← Host.Outcome.next.inj ht]

/-! ## The block -/

/-- The frames of a block with the events before and after them (rule R250). -/
theorem renderFrames_list {ws : List Cmd} {base n : Nat} (hb : 0x10000 ≤ base) {is : List Nat} {ei : Nat} {s t : State}
    (h : HoldsEvents ws s) (ht : renderWithEvents base n is (ws.drop ei) s = .next t) (d : Nat) :
    ∃ d', (andThen (renderFrames base n ws.length is ei (setDraws d s)) fun r =>
      applyRest ws.length ws.length r.1 r.2) = .next (setDraws d' t) := by
  induction is generalizing ei s d with
  | nil => exact ⟨d, applyRest_list h (by omega) ht d⟩
  | cons i is ih =>
    obtain ⟨s1, h1, ht⟩ := andThen_eq_next.1 ht
    obtain ⟨s2, h2, ht⟩ := andThen_eq_next.1 ht
    obtain ⟨ej, d1, hdue, hdrop⟩ := applyDue_list h (Nat.le_add_left _ _) h1 d
    have hs1 := h.applyEventWords h1
    obtain ⟨d2, hframe⟩ := renderFrame_setDraws hs1.quiet h2 d1
    rw [hdrop] at ht
    obtain ⟨d', hrest⟩ := ih (hs1.renderFrame hb h2) ht d2
    refine ⟨d', ?_⟩
    rw [renderFrames, hdue, andThen_next]
    simp only [hframe, andThen_next]
    exact hrest

theorem applyEventWords_completes (ws : List Cmd) (s : State) :
    ∃ t, applyEventWords ws s = .next t ∧ onlyEvents s t := by
  induction ws generalizing s with
  | nil => exact ⟨s, rfl, rfl⟩
  | cons w ws ih =>
    obtain ⟨u, hu, fu⟩ := applyEventWord_completes w s
    obtain ⟨t, ht, ft⟩ := ih u
    exact ⟨t, by rw [applyEventWords, hu, andThen_next, ht], onlyEvents_trans fu ft⟩

/-- The block is rendered if the wavetable can be read where it is (rules R112, R250). -/
theorem renderWithEvents_completes (base n : Nat) (is : List Nat) (ws : List Cmd) (s : State)
    (h : is ≠ [] → s.synp[0].toNat ≠ 3 ∨ tableReadable s.mem) : ∃ t, renderWithEvents base n is ws s = .next t := by
  induction is generalizing ws s with
  | nil =>
    obtain ⟨t, ht, -⟩ := applyEventWords_completes ws s
    exact ⟨t, ht⟩
  | cons i is ih =>
    obtain ⟨s1, h1, f1⟩ := applyEventWords_completes (ws.takeWhile fun w => eventFrame n w ≤ i) s
    have hready : s1.synp[0].toNat ≠ 3 ∨ tableReadable s1.mem := by
      rw [onlyEvents_mem f1, f1]
      exact h (List.cons_ne_nil _ _)
    obtain ⟨s2, h2, f2, hkeep⟩ := renderFrame_completes base i s1 hready
    rw [renderWithEvents, h1, andThen_next, h2, andThen_next]
    refine ih _ s2 fun _ => hready.imp (fun h3 => ?_) fun htab j hj => hkeep _ (htab j hj)
    rw [f2]
    exact h3

/-- Settles O28: the run over the list of events exists, and the run over the event RAM follows it. -/
theorem synRenderAppliesEventsInOrder : Obligations.SynRenderAppliesEventsInOrder := by
  unfold Obligations.SynRenderAppliesEventsInOrder
  intro s k e frames ws hp hk hempty hquiet hlen hevents htable
  have hheld : HoldsEvents ws s :=
    ⟨hquiet, hlen ▸ Nat.min_le_right _ _, fun j hj => (hevents j hj).1, fun j hj => (hevents j hj).2⟩
  have hready : List.range (frameCount frames s) ≠ [] → s.synp[0].toNat ≠ 3 ∨ tableReadable s.mem := fun hne => by
    obtain h | h | h := htable
    · exact .inr (readableWords_iff.1 h)
    · exact .inl fun h3 => h (BitVec.eq_of_toNat_eq h3)
    · simp [h] at hne
  obtain ⟨t, ht⟩ := renderWithEvents_completes (bufBase k.toNat) (frameCount frames s) _ ws s hready
  obtain ⟨d, hd⟩ := renderFrames_list (ei := 0) (Nat.le_add_right _ _) hheld ht s.draws
  have hbody : renderBlock k e frames s = .next (publishSynth (setDraws d t)) := by
    obtain ⟨⟨ei, s1⟩, hframes, hrest⟩ := andThen_eq_next.1 hd
    have hcount : eventCount e = ws.length := hlen.symm
    rw [renderBlock, renderFrom, hcount, List.drop_zero]
    refine andThen_eq_next.2 ⟨(ei, s1), hframes, ?_⟩
    show renderEnd e ei s1 = _
    rw [renderEnd, hcount, hrest, andThen_next]
  exact ⟨t, _, d, ht, processCommand_completes hp hk (drain_empty s hempty) hbody, _, rfl⟩

end Sys2Proof.Machine
end

section
/-! SUPPORT. The port (rules R101 to R105, R113, R670): which accesses are bus errors, and what a host write to EVT, WT or a
buffer does, racing with the command in progress or not. -/

namespace Sys2Proof.Machine

/-! ## Bus errors -/

/-- The offsets of no region (rules R101, R105). -/
theorem regionOf_eq_none {off : Nat} :
    regionOf off = none ↔ (0x1800 ≤ off ∧ off < 0x2000) ∨ (0x4000 ≤ off ∧ off < 0x10000) ∨
      (0x24000 ≤ off ∧ off < 0x30000) ∨ 0x48000 ≤ off := by
  obtain ⟨hx, h⟩ | ⟨hx, h⟩ | ⟨hx, h⟩ | ⟨hx, h⟩ | ⟨hx, h⟩ | ⟨hx, h⟩ | ⟨hx, h⟩ | ⟨hx, h⟩ | ⟨hx, h⟩ | ⟨hx, h⟩ :=
    regionOf_cases off <;> simp only [h, reduceCtorEq, true_iff, false_iff] <;> omega

theorem accessRegion_eq_none {width off : Nat} :
    accessRegion width off = none ↔ width ≠ 4 ∨ off % 4 ≠ 0 ∨ regionOf off = none := by
  simp only [accessRegion]
  split
  · rename_i h
    simp [h]
  · rename_i h
    exact iff_of_true rfl (by tauto)

theorem accessRegion_of_aligned {off : Nat} (h : off % 4 = 0) : accessRegion 4 off = regionOf off := if_pos ⟨rfl, h⟩

/-- Settles O38: an access is a bus error exactly where it has no region, and a read has no other way to stop. -/
theorem busErrorsAreExactly : Obligations.BusErrorsAreExactly := by
  unfold Obligations.BusErrorsAreExactly
  refine fun s width off v => ⟨fun h => ?_, fun hw ha h => ?_⟩
  · have hr : accessRegion width off = none := by
      rw [accessRegion_eq_none, regionOf_eq_none]
      exact h
    exact ⟨by rw [access, hr], by rw [access, hr]⟩
  · obtain ⟨r, hr⟩ : ∃ r, accessRegion width off = some r := by
      rw [← Option.ne_none_iff_exists', Ne, accessRegion_eq_none, regionOf_eq_none]
      omega
    exact ⟨hostRead r off s, by rw [access, hr]⟩

/-! ## Host writes to the RAMs -/

/-- A host write to the word at an aligned offset of EVT, WT or a buffer races with the command in progress (rule
R670). -/
def wordRaces (off : Nat) (s : State) : Prop :=
  (Cmd.op s.latched = 0x02 ∧ off < 0x4000) ∨
    ((Cmd.op s.latched = 0x02 ∨ Cmd.op s.latched = 0x03 ∨ Cmd.op s.latched = 0x04) ∧
      bufBase (Cmd.fieldA s.latched).toNat ≤ off ∧ off < bufBase (Cmd.fieldA s.latched).toNat + 0x8000)

theorem racesWith_evt_wt {off : Nat} (hoff : off < 0x4000) (s : State) (hb : s.busy = true) {r : Region}
    (hr : r = .evt ∨ r = .wt) : racesWith r s = true ↔ wordRaces off s := by
  have hbuf : 0x10000 ≤ bufBase (Cmd.fieldA s.latched).toNat := Nat.le_add_right _ _
  have h : racesWith r s = (Cmd.op s.latched == 0x02) := by obtain rfl | rfl := hr <;> simp [racesWith, hb]
  rw [h, beq_iff_eq, wordRaces]
  constructor
  · exact fun hop => .inl ⟨hop, hoff⟩
  · rintro (⟨hop, -⟩ | ⟨-, hle, -⟩)
    · exact hop
    · omega

theorem racesWith_buf {off : Nat} {k : Fin 2} (h1 : bufBase k ≤ off) (h2 : off < bufBase k + 0x8000) (s : State)
    (hb : s.busy = true) : racesWith (.buf k) s = true ↔ wordRaces off s := by
  simp only [bufBase] at h1 h2
  simp only [racesWith, hb, wordRaces, bufBase, Bool.true_and, Bool.and_eq_true, Bool.or_eq_true, beq_iff_eq, or_assoc]
  constructor
  · rintro ⟨hop, hk⟩
    exact .inr ⟨hop, by omega, by omega⟩
  · rintro (⟨-, hlt⟩ | ⟨hop, hle, hlt⟩)
    · omega
    · exact ⟨hop, by omega⟩

/-- A region the host writes words of. -/
theorem writable_cases {off : Nat}
    (h : (0x1000 ≤ off ∧ off < 0x1800) ∨ (0x2000 ≤ off ∧ off < 0x4000) ∨ (0x10000 ≤ off ∧ off < 0x20000)) :
    ∃ r, regionOf off = some r ∧ r ≠ .csr ∧
      (∀ v s, hostWrite r off v s = .next (writeRam r off v s)) ∧
      ∀ s : State, s.busy = true → (racesWith r s = true ↔ wordRaces off s) := by
  have hbuf : ∀ k : Fin 2, bufBase k ≤ off → off < bufBase k + 0x8000 → _ := fun k h1 h2 =>
    (⟨.buf k, regionOf_some.2 ⟨h1, h2⟩, by simp, fun _ _ => rfl, fun s => racesWith_buf h1 h2 s⟩ :
      ∃ r, regionOf off = some r ∧ r ≠ .csr ∧ (∀ v s, hostWrite r off v s = .next (writeRam r off v s)) ∧
        ∀ s : State, s.busy = true → (racesWith r s = true ↔ wordRaces off s))
  obtain h | h | h := h
  · exact ⟨.evt, regionOf_some.2 h, by simp, fun _ _ => rfl, fun s hb => racesWith_evt_wt (by omega) s hb (.inl rfl)⟩
  · exact ⟨.wt, regionOf_some.2 h, by simp, fun _ _ => rfl, fun s hb => racesWith_evt_wt (by omega) s hb (.inr rfl)⟩
  · by_cases hk : off < 0x18000
    · exact hbuf 0 (show 0x10000 + 0x8000 * 0 ≤ off by omega) (show off < 0x10000 + 0x8000 * 0 + 0x8000 by omega)
    · exact hbuf 1 (show 0x10000 + 0x8000 * 1 ≤ off by omega) (show off < 0x10000 + 0x8000 * 1 + 0x8000 by omega)

theorem plainRead_of_ram {r : Region} (hr : r ≠ .csr) (off : Nat) (s : State) (draw : Nat) :
    plainRead r off s draw = (Memory.word s.mem off).getD (Config.hostWord draw) := by
  cases r
  case csr => exact absurd rfl hr
  all_goals rfl

/-- A write that does not race is stored. -/
theorem access_write_quiet {s : State} {off : Nat} (h : hostWord off) (v : Word)
    (hfree : s.busy = false ∨ ¬ wordRaces off s) : access (.write 4 off v) s = .next (writeWord s off v) := by
  obtain ⟨r, hr, -, hwrite, hraces⟩ := writable_cases h.2
  have hfree : racesWith r s = false := by
    cases hb : s.busy with
    | false => simp [racesWith, hb]
    | true =>
      rw [← Bool.not_eq_true, hraces s hb]
      exact hfree.resolve_left (by simp [hb])
  rw [access, accessRegion_of_aligned h.1, hr]
  exact (hwrite v s).trans (by rw [writeRam, hfree]; rfl)

/-- A write that races is kept beside the memory. -/
theorem access_write_racing {s : State} {off : Nat} (h : hostWord off) (v : Word)
    (hb : s.busy = true) (hrace : wordRaces off s) :
    access (.write 4 off v) s = .next { s with raced := s.raced ++ [(off, v)] } := by
  obtain ⟨r, hr, -, hwrite, hraces⟩ := writable_cases h.2
  rw [access, accessRegion_of_aligned h.1, hr]
  exact (hwrite v s).trans (by rw [writeRam, (hraces s hb).2 hrace]; rfl)

/-- With no command in progress a word just written reads back (rule R113). -/
theorem access_read_written {s : State} {off : Nat} (h : hostWord off) (v : Word)
    (hb : s.busy = false) : ∃ u, access (.read 4 off) (writeWord s off v) = .next u ∧ u.readData = v := by
  obtain ⟨r, hr, hcsr, -⟩ := writable_cases h.2
  refine ⟨hostRead r off (writeWord s off v), by rw [access, accessRegion_of_aligned h.1, hr], ?_⟩
  simp only [hostRead, hb, Bool.false_eq_true, if_false, plainRead_of_ram hcsr, writeWord,
    word_setWord_same, Option.getD_some]

/-! ## Racing writes -/

/-- What the engine sees is what the memory holds or a racing value (rule R670). -/
theorem seenWord_cases (s : State) (a : Nat) :
    seenWord s a = Memory.word s.mem a ∨ ∃ v, (a, v) ∈ s.raced ∧ seenWord s a = some v := by
  have hraced : ∀ v ∈ racedValues s a, (a, v) ∈ s.raced := by
    intro v hv
    obtain ⟨⟨b, u⟩, hmem, rfl⟩ := List.mem_map.1 hv
    obtain ⟨hin, hb⟩ := List.mem_filter.1 hmem
    exact (show b = a from beq_iff_eq.1 hb) ▸ hin
  simp only [seenWord]
  split
  · exact .inl rfl
  · rename_i v vs hvs
    rw [hvs] at hraced
    have hlt : Config.raceChoice s.draws a % (vs.length + 2) <
        (Memory.word s.mem a :: some v :: vs.map some).length := by
      rw [List.length_cons, List.length_cons, List.length_map]
      exact Nat.mod_lt _ (by omega)
    have hmem := List.getElem_mem hlt
    rw [← List.getD_eq_getElem _ (some v) hlt] at hmem
    rw [show some v :: vs.map some = (v :: vs).map some from rfl, List.mem_cons, List.mem_map] at hmem
    obtain hmem | ⟨u, hu, hmem⟩ := hmem
    · exact .inl hmem
    · exact .inr ⟨u, hraced u hu, hmem.symm⟩

/-- One racing write settles (rule R670): only its own word can change, to its value. -/
theorem word_settleWord {s : State} {m : List Host.Cell} {r : Nat × Word} {off : Nat} (hr : r.1 % 4 = 0)
    (ho : off % 4 = 0) :
    (r.1 ≠ off → Memory.word (settleWord s m r) off = Memory.word m off) ∧
      (Memory.word (settleWord s m r) off = Memory.word m off ∨ r.1 = off ∧ Memory.word (settleWord s m r) off = some r.2) ∧
      (r.1 = off → engineWrote s off = false → Memory.word (settleWord s m r) off = some r.2) := by
  have hother : r.1 ≠ off → Memory.word (Memory.setWord m r.1 r.2) off = Memory.word m off := fun hne =>
    word_setWord_other _ _ _ _ (by omega)
  have hsame : r.1 = off → Memory.word (Memory.setWord m r.1 r.2) off = some r.2 := by
    rintro rfl
    exact word_setWord_same _ _ _
  rw [settleWord]
  split
  · rename_i hw
    refine ⟨fun _ => rfl, .inl rfl, ?_⟩
    rintro rfl he
    simp [he] at hw
  · refine ⟨hother, ?_, fun h _ => hsame h⟩
    by_cases h : r.1 = off
    · exact .inr ⟨h, hsame h⟩
    · exact .inl (hother h)

/-- After the racing writes of a list a word holds what it held or one of them; a word the command did not write, the last
of them (rule R670). -/
theorem word_settled {s : State} {off : Nat} (ho : off % 4 = 0) (m : List Host.Cell) (rs : List (Nat × Word))
    (hrs : ∀ r ∈ rs, r.1 % 4 = 0) :
    (∀ v, (rs.filter fun r => r.1 == off).getLast? = some (off, v) → engineWrote s off = false →
      Memory.word (rs.foldl (settleWord s) m) off = some v) ∧
    (Memory.word (rs.foldl (settleWord s) m) off = Memory.word m off ∨
      ∃ v, (off, v) ∈ rs ∧ Memory.word (rs.foldl (settleWord s) m) off = some v) := by
  induction rs using List.reverseRecOn with
  | nil => exact ⟨by simp, .inl rfl⟩
  | append_singleton rs r ih =>
    obtain ⟨hlast, hcases⟩ := ih fun q hq => hrs q (List.mem_append_left _ hq)
    obtain ⟨hother, hone, hsame⟩ := word_settleWord (s := s) (m := rs.foldl (settleWord s) m)
      (hrs r (List.mem_append_right _ List.mem_cons_self)) ho
    rw [List.foldl_append, List.foldl_cons, List.foldl_nil, List.filter_append]
    refine ⟨fun v hv he => ?_, ?_⟩
    · by_cases hr : r.1 = off
      · rw [List.filter_cons_of_pos (by simpa using hr), List.filter_nil, List.getLast?_concat, Option.some.injEq] at hv
        rw [hsame hr he, hv]
      · rw [List.filter_cons_of_neg (by simpa using hr), List.filter_nil, List.append_nil] at hv
        rw [hother hr]
        exact hlast v hv he
    · obtain h | ⟨rfl, h⟩ := hone
      · rw [h]
        exact hcases.imp_right fun ⟨v, hv, hw⟩ => ⟨v, List.mem_append_left _ hv, hw⟩
      · exact .inr ⟨r.2, List.mem_append_right _ List.mem_cons_self, h⟩

/-- Settles O40: a write to a region of the host's is stored or kept aside as it races; the races settle in order. -/
theorem ramWritesReadBackOrRace : Obligations.RamWritesReadBackOrRace := by
  unfold Obligations.RamWritesReadBackOrRace
  refine ⟨fun s off v ha hoff => ⟨fun hfree => ?_, access_write_racing ⟨ha, hoff⟩ v⟩, seenWord_cases,
    fun s hs off ho => word_settled ho s.mem s.raced hs⟩
  refine ⟨writeWord s off v, access_write_quiet ⟨ha, hoff⟩ v hfree, rfl, fun j hj => ?_, fun a h =>
    byte_setWord_other _ _ _ _ h, access_read_written ⟨ha, hoff⟩ v⟩
  show Memory.byte (Memory.setWord s.mem off v) (off + j) = _
  rw [byte_setWord, if_pos (by omega), wordByte, Nat.add_sub_cancel_left]

end Sys2Proof.Machine
end

section
/-! SUPPORT. What the decoder reads of a word and what it accepts (rules R152, R155 to R159): the rows of each channel and
family, the words each refuses, and the fields two words share that agree on the bits an instruction reads. -/

namespace Sys2Proof
open Sys2Proof.Machine

/-! ## The rows of each channel -/

/-- The doorbell rows of rule R155. -/
theorem decodeDoorbell_ok_iff {w : Cmd} {i : Instr} :
    decodeDoorbell w = .ok i ↔
      (Cmd.op w = 0x00 ∧ i = .nop) ∨ (Cmd.op w = 0x01 ∧ i = .prepare) ∨
      (Cmd.op w = 0x02 ∧ i = .synRender (Cmd.fieldA w) (Cmd.fieldE w) (Cmd.fieldV w)) ∨
      (Cmd.op w = 0x03 ∧ i = .eqProcess (Cmd.fieldA w) (Cmd.fieldV w)) ∨
      (Cmd.op w = 0x04 ∧ i = .specProcess (Cmd.fieldA w) (Cmd.fieldV w)) := by
  constructor
  · intro h
    unfold decodeDoorbell at h
    split at h <;> cases h
    case h_1 hop => exact .inl ⟨BitVec.eq_of_toNat_eq hop, rfl⟩
    case h_2 hop => exact .inr (.inl ⟨BitVec.eq_of_toNat_eq hop, rfl⟩)
    case h_3 hop => exact .inr (.inr (.inl ⟨BitVec.eq_of_toNat_eq hop, rfl⟩))
    case h_4 hop => exact .inr (.inr (.inr (.inl ⟨BitVec.eq_of_toNat_eq hop, rfl⟩)))
    case h_5 hop => exact .inr (.inr (.inr (.inr ⟨BitVec.eq_of_toNat_eq hop, rfl⟩)))
  · rintro (⟨hop, rfl⟩ | ⟨hop, rfl⟩ | ⟨hop, rfl⟩ | ⟨hop, rfl⟩ | ⟨hop, rfl⟩) <;> simp [decodeDoorbell, hop]

/-- The queue's three families, told apart by the opcode (rule R155). -/
theorem decodeQueue_ok_iff {w : Cmd} {i : Instr} :
    decodeQueue w = .ok i ↔
      (Cmd.op w = 0x10 ∧ decodeSynParam w = .ok i) ∨ (Cmd.op w = 0x20 ∧ decodeBandParam w = .ok i) ∨
      (Cmd.op w = 0x21 ∧ decodeGlobalParam w = .ok i) := by
  constructor
  · intro h
    unfold decodeQueue at h
    split at h
    case h_1 hop => exact .inl ⟨BitVec.eq_of_toNat_eq hop, h⟩
    case h_2 hop => exact .inr (.inl ⟨BitVec.eq_of_toNat_eq hop, h⟩)
    case h_3 hop => exact .inr (.inr ⟨BitVec.eq_of_toNat_eq hop, h⟩)
    case h_4 => cases h
  · rintro (⟨hop, h⟩ | ⟨hop, h⟩ | ⟨hop, h⟩) <;> simpa [decodeQueue, hop] using h

/-- The event rows of rule R155. -/
theorem decodeEvent_ok_iff {w : Cmd} {i : Instr} :
    decodeEvent w = .ok i ↔
      (Cmd.op w = 0x30 ∧ i = .noteOn (Cmd.fieldA w) (Cmd.fieldB w) (Cmd.fieldV w)) ∨
      (Cmd.op w = 0x31 ∧ i = .noteOff (Cmd.fieldA w) (Cmd.fieldV w)) := by
  constructor
  · intro h
    unfold decodeEvent at h
    split at h <;> cases h
    case h_1 hop => exact .inl ⟨BitVec.eq_of_toNat_eq hop, rfl⟩
    case h_2 hop => exact .inr ⟨BitVec.eq_of_toNat_eq hop, rfl⟩
  · rintro (⟨hop, rfl⟩ | ⟨hop, rfl⟩) <;> simp [decodeEvent, hop]

/-! ## What each row gives -/

/-- A SYN_PARAM row gives a queue instruction without a band that reads B and V (rule R155). -/
theorem decodeSynParam_ok {w : Cmd} {i : Instr} (h : decodeSynParam w = .ok i) :
    (i.wellFormed = true ∧ i.channel = .queue) ∧ operandMask i = 0x0000FF00FFFFFFFF := by
  unfold decodeSynParam at h
  split at h <;> cases h <;> exact ⟨⟨rfl, rfl⟩, rfl⟩

/-- An EQ_BAND_PARAM row gives a queue instruction of a band below 8 that reads A, B and V (rules R155, R156). -/
theorem decodeBandParam_ok {w : Cmd} {i : Instr} (h : decodeBandParam w = .ok i) :
    (i.wellFormed = true ∧ i.channel = .queue) ∧ operandMask i = 0x00FFFF00FFFFFFFF := by
  unfold decodeBandParam at h
  split at h
  · rename_i hA
    split at h <;> cases h <;> exact ⟨⟨decide_eq_true hA, rfl⟩, rfl⟩
  · cases h

/-- An EQ_GLOBAL_PARAM row gives a queue instruction without a band that reads B and V (rule R155). -/
theorem decodeGlobalParam_ok {w : Cmd} {i : Instr} (h : decodeGlobalParam w = .ok i) :
    (i.wellFormed = true ∧ i.channel = .queue) ∧ operandMask i = 0x0000FF00FFFFFFFF := by
  unfold decodeGlobalParam at h
  split at h <;> cases h <;> exact ⟨⟨rfl, rfl⟩, rfl⟩

/-- What the decoder gives is well formed and of the channel it came through (rules R152, R159). -/
theorem decodeWord_ok {ch : Channel} {w : Cmd} {i : Instr} (h : decodeWord ch w = .ok i) :
    i.wellFormed = true ∧ i.channel = ch := by
  cases ch with
  | doorbell =>
    obtain rfl | rfl | ⟨_, _, _, rfl⟩ | ⟨_, _, rfl⟩ | ⟨_, _, rfl⟩ := doorbell_cases h <;> exact ⟨rfl, rfl⟩
  | queue =>
    obtain ⟨-, h⟩ | ⟨-, h⟩ | ⟨-, h⟩ := decodeQueue_ok_iff.1 h
    exacts [(decodeSynParam_ok h).1, (decodeBandParam_ok h).1, (decodeGlobalParam_ok h).1]
  | event => obtain ⟨-, rfl⟩ | ⟨-, rfl⟩ := decodeEvent_ok_iff.1 h <;> exact ⟨rfl, rfl⟩

/-! ## What each row refuses -/

theorem decodeDoorbell_error_iff {w : Cmd} : (∃ e, decodeDoorbell w = .error e) ↔ 4 < (Cmd.op w).toNat := by
  unfold decodeDoorbell
  split
  case h_6 => simp only [Except.error.injEq, exists_eq', true_iff, imp_false] at *; omega
  all_goals simp [*]

theorem decodeSynParam_error_iff {w : Cmd} : (∃ e, decodeSynParam w = .error e) ↔ 15 ≤ (Cmd.fieldB w).toNat := by
  unfold decodeSynParam
  split
  case h_16 => simp only [Except.error.injEq, exists_eq', true_iff, imp_false] at *; omega
  all_goals simp [*]

theorem decodeBandParam_error_iff {w : Cmd} :
    (∃ e, decodeBandParam w = .error e) ↔ 8 ≤ (Cmd.fieldA w).toNat ∨ 11 ≤ (Cmd.fieldB w).toNat := by
  unfold decodeBandParam
  split
  · split
    case h_12 => simp only [Except.error.injEq, exists_eq', true_iff, imp_false] at *; omega
    all_goals simp [*]
  · simp only [Except.error.injEq, exists_eq', true_iff]
    omega

theorem decodeGlobalParam_error_iff {w : Cmd} :
    (∃ e, decodeGlobalParam w = .error e) ↔ 4 ≤ (Cmd.fieldB w).toNat := by
  unfold decodeGlobalParam
  split
  case h_5 => simp only [Except.error.injEq, exists_eq', true_iff, imp_false] at *; omega
  all_goals simp [*]

theorem decodeQueue_error_iff {w : Cmd} : (∃ e, decodeQueue w = .error e) ↔ ¬ queueWordLegal w := by
  unfold decodeQueue queueWordLegal
  simp only [← BitVec.toNat_inj]
  split
  case h_1 hop => simp [hop, decodeSynParam_error_iff]
  case h_2 hop => simp [hop, decodeBandParam_error_iff, imp_iff_not_or]
  case h_3 hop => simp [hop, decodeGlobalParam_error_iff]
  case h_4 h10 h20 h21 => simpa using ⟨fun h => (h10 h).elim, fun h => (h20 h).elim, fun h => (h21 h).elim⟩

theorem decodeEvent_error_iff {w : Cmd} :
    (∃ e, decodeEvent w = .error e) ↔ Cmd.op w ≠ 0x30 ∧ Cmd.op w ≠ 0x31 := by
  unfold decodeEvent
  simp only [ne_eq, ← BitVec.toNat_inj]
  split
  case h_1 hop => simp [hop]
  case h_2 hop => simp [hop]
  case h_3 h30 h31 => simpa using ⟨h30, h31⟩

/-- Settles O3: `decodeWord_ok` and the refusals of the three channels. -/
theorem decoderAcceptsExactly : Obligations.DecoderAcceptsExactly := by
  unfold Obligations.DecoderAcceptsExactly
  exact ⟨fun _ _ _ => decodeWord_ok,
    fun _ => ⟨decodeDoorbell_error_iff, decodeQueue_error_iff, decodeEvent_error_iff⟩⟩

/-! ## Words that agree on the bits an instruction reads -/

/-- Two words that agree on the bits of a mask share each field the mask holds whole. -/
theorem extractLsb'_eq_of_agree {w w' m : Cmd} {start len : Nat} (h : (w ^^^ w') &&& m = 0)
    (hm : m.extractLsb' start len = BitVec.allOnes len) : w'.extractLsb' start len = w.extractLsb' start len := by
  have hx := congrArg (BitVec.extractLsb' start len) h
  rw [BitVec.extractLsb'_and, hm, BitVec.and_allOnes, BitVec.extractLsb'_xor] at hx
  exact (BitVec.xor_eq_zero_iff.1 (hx.trans BitVec.extractLsb'_zero)).symm

/-- The field A is shared when the mask holds it whole; so for the other fields. -/
theorem fieldA_eq_of_agree {w w' m : Cmd} (h : (w ^^^ w') &&& m = 0) (hm : m.extractLsb' 48 8 = BitVec.allOnes 8) :
    Cmd.fieldA w' = Cmd.fieldA w := extractLsb'_eq_of_agree h hm

theorem fieldB_eq_of_agree {w w' m : Cmd} (h : (w ^^^ w') &&& m = 0) (hm : m.extractLsb' 40 8 = BitVec.allOnes 8) :
    Cmd.fieldB w' = Cmd.fieldB w := extractLsb'_eq_of_agree h hm

theorem fieldE_eq_of_agree {w w' m : Cmd} (h : (w ^^^ w') &&& m = 0) (hm : m.extractLsb' 32 16 = BitVec.allOnes 16) :
    Cmd.fieldE w' = Cmd.fieldE w := extractLsb'_eq_of_agree h hm

theorem fieldV_eq_of_agree {w w' m : Cmd} (h : (w ^^^ w') &&& m = 0) (hm : m.extractLsb' 0 32 = BitVec.allOnes 32) :
    Cmd.fieldV w' = Cmd.fieldV w := extractLsb'_eq_of_agree h hm

/-- Agreement on two masks together is agreement on each. -/
theorem agree_or {x m n : Cmd} (h : x &&& (m ||| n) = 0) : x &&& m = 0 ∧ x &&& n = 0 := by
  rw [BitVec.and_or_distrib_left] at h
  exact BitVec.or_eq_zero_iff.1 h

theorem decodeSynParam_congr {w w' : Cmd} {i : Instr} (hB : Cmd.fieldB w' = Cmd.fieldB w)
    (hV : Cmd.fieldV w' = Cmd.fieldV w) (h : decodeSynParam w = .ok i) : decodeSynParam w' = .ok i := by
  unfold decodeSynParam at h ⊢
  rw [hB, hV]
  split at h <;> simp_all

theorem decodeBandParam_congr {w w' : Cmd} {i : Instr} (hA : Cmd.fieldA w' = Cmd.fieldA w)
    (hB : Cmd.fieldB w' = Cmd.fieldB w) (hV : Cmd.fieldV w' = Cmd.fieldV w) (h : decodeBandParam w = .ok i) :
    decodeBandParam w' = .ok i := by
  unfold decodeBandParam at h ⊢
  rw [hA, hB, hV]
  split at h
  · rename_i hlt
    rw [if_pos hlt]
    split at h <;> simp_all
  · cases h

theorem decodeGlobalParam_congr {w w' : Cmd} {i : Instr} (hB : Cmd.fieldB w' = Cmd.fieldB w)
    (hV : Cmd.fieldV w' = Cmd.fieldV w) (h : decodeGlobalParam w = .ok i) : decodeGlobalParam w' = .ok i := by
  unfold decodeGlobalParam at h ⊢
  rw [hB, hV]
  split at h <;> simp_all

theorem decodeDoorbell_of_agree {w w' : Cmd} {i : Instr} (hop : Cmd.op w' = Cmd.op w)
    (hm : (w ^^^ w') &&& operandMask i = 0) (h : decodeDoorbell w = .ok i) : decodeDoorbell w' = .ok i := by
  rw [decodeDoorbell_ok_iff, hop]
  obtain h | h | ⟨ho, rfl⟩ | ⟨ho, rfl⟩ | ⟨ho, rfl⟩ := decodeDoorbell_ok_iff.1 h <;> simp only [operandMask] at hm
  · exact .inl h
  · exact .inr (.inl h)
  · rw [fieldA_eq_of_agree hm rfl, fieldE_eq_of_agree hm rfl, fieldV_eq_of_agree hm rfl]
    exact .inr (.inr (.inl ⟨ho, rfl⟩))
  · rw [fieldA_eq_of_agree hm rfl, fieldV_eq_of_agree hm rfl]
    exact .inr (.inr (.inr (.inl ⟨ho, rfl⟩)))
  · rw [fieldA_eq_of_agree hm rfl, fieldV_eq_of_agree hm rfl]
    exact .inr (.inr (.inr (.inr ⟨ho, rfl⟩)))

theorem decodeQueue_of_agree {w w' : Cmd} {i : Instr} (hop : Cmd.op w' = Cmd.op w)
    (hm : (w ^^^ w') &&& operandMask i = 0) (h : decodeQueue w = .ok i) : decodeQueue w' = .ok i := by
  rw [decodeQueue_ok_iff, hop]
  obtain ⟨ho, h⟩ | ⟨ho, h⟩ | ⟨ho, h⟩ := decodeQueue_ok_iff.1 h
  · rw [(decodeSynParam_ok h).2] at hm
    exact .inl ⟨ho, decodeSynParam_congr (fieldB_eq_of_agree hm rfl) (fieldV_eq_of_agree hm rfl) h⟩
  · rw [(decodeBandParam_ok h).2] at hm
    exact .inr (.inl ⟨ho, decodeBandParam_congr (fieldA_eq_of_agree hm rfl) (fieldB_eq_of_agree hm rfl)
      (fieldV_eq_of_agree hm rfl) h⟩)
  · rw [(decodeGlobalParam_ok h).2] at hm
    exact .inr (.inr ⟨ho, decodeGlobalParam_congr (fieldB_eq_of_agree hm rfl) (fieldV_eq_of_agree hm rfl) h⟩)

theorem decodeEvent_of_agree {w w' : Cmd} {i : Instr} (hop : Cmd.op w' = Cmd.op w)
    (hm : (w ^^^ w') &&& operandMask i = 0) (h : decodeEvent w = .ok i) : decodeEvent w' = .ok i := by
  rw [decodeEvent_ok_iff, hop]
  obtain ⟨ho, rfl⟩ | ⟨ho, rfl⟩ := decodeEvent_ok_iff.1 h <;> simp only [operandMask] at hm
  · rw [fieldA_eq_of_agree hm rfl, fieldB_eq_of_agree hm rfl, fieldV_eq_of_agree hm rfl]
    exact .inl ⟨ho, rfl⟩
  · rw [fieldA_eq_of_agree hm rfl, fieldV_eq_of_agree hm rfl]
    exact .inr ⟨ho, rfl⟩

/-- Settles O2: the opcode and the fields a row reads are the same in both words, channel by channel. -/
theorem reservedFieldsAreIgnored : Obligations.ReservedFieldsAreIgnored := by
  unfold Obligations.ReservedFieldsAreIgnored
  intro ch w w' i h hagree
  obtain ⟨hop, hm⟩ := agree_or hagree
  have hop : Cmd.op w' = Cmd.op w := extractLsb'_eq_of_agree hop rfl
  cases ch with
  | doorbell => exact decodeDoorbell_of_agree hop hm h
  | queue => exact decodeQueue_of_agree hop hm h
  | event => exact decodeEvent_of_agree hop hm h

end Sys2Proof
end

section
/-! SUPPORT. What an illegal word and a decoded one do (rules R156, R159, R200, R211, R266): the engine's turn, a queue
entry and an event word by what they decode to. -/

namespace Sys2Proof.Machine

/-! ## A decoded instruction is executed -/

/-- The turn of a command nothing of which is done is its execution, then the settling of racing writes (rule R200). -/
theorem engineTurn_of_decoded {s : State} {i : Instr} (hb : s.busy = true) (hp : s.progress = .start)
    (h : decodeWord .doorbell s.latched = .ok i) :
    engineTurn s = andThen (exec i s) fun t => .next (settleRaces t) := by
  simp only [engineTurn, fetch, hb, h, if_true, restOfCommand_start hp]

/-- A setter of the queue is applied as `exec` of it (rule R211). -/
theorem applySetter_eq_exec {i : Instr} (h : i.channel = .queue) (s : State) : applySetter i s = exec i s := by
  cases i with
  | nop | prepare | synRender | eqProcess | specProcess | noteOn | noteOff => cases h
  | _ => rfl

theorem applyEntry_of_decoded {w : Cmd} {i : Instr} (h : decodeWord .queue w = .ok i) (s : State) :
    applyEntry w s = exec i s := by
  simp only [applyEntry, h, applySetter_eq_exec (decodeWord_ok h).2]

theorem applyEventWord_of_decoded {w : Cmd} {i : Instr} (h : decodeWord .event w = .ok i) (s : State) :
    applyEventWord w s = exec i s := by
  obtain ⟨-, rfl⟩ | ⟨-, rfl⟩ := decodeEvent_ok_iff.1 h <;> simp only [applyEventWord, h] <;> rfl

/-- Settles O6: a step is the engine's turn, on an empty agenda or as its first turn, and that turn executes. -/
theorem stepRunsTheDecodedInstruction : Obligations.StepRunsTheDecodedInstruction := by
  unfold Obligations.StepRunsTheDecodedInstruction
  refine ⟨fun s i ha hb hp hd => ?_, fun s rest i ha hb hp hd => ?_, fun s => ⟨settleRaces_frame s, settleRaces_quiet⟩,
    fun s w i hd => applyEntry_of_decoded hd s, fun s w i hd => applyEventWord_of_decoded hd s⟩
  · rw [step, nextTurn, ha]
    exact engineTurn_of_decoded hb hp hd
  · rw [step, nextTurn, ha]
    exact engineTurn_of_decoded (s := { s with agenda := rest }) hb hp hd

/-! ## An illegal word is counted -/

theorem engineTurn_of_refused {s : State} {e : DecodeError} (hb : s.busy = true)
    (h : decodeWord .doorbell s.latched = .error e) : engineTurn s = .next (illegalDoorbell s) := by
  simp only [engineTurn, fetch, hb, h, if_true]

theorem applyEntry_of_refused {w : Cmd} {e : DecodeError} (h : decodeWord .queue w = .error e) (s : State) :
    applyEntry w s = .next (countIllegal s) := by
  simp only [applyEntry, h]

theorem applyEventWord_of_refused {w : Cmd} {e : DecodeError} (h : decodeWord .event w = .error e) (s : State) :
    applyEventWord w s = .next (countIllegal s) := by
  simp only [applyEventWord, h]

/-- Settles O4: each of these words is refused by its channel's decoder (O3), and a refused word only counts. -/
theorem illegalEncodingsAreCounted : Obligations.IllegalEncodingsAreCounted := by
  unfold Obligations.IllegalEncodingsAreCounted
  refine ⟨fun s hb hop => ?_, fun s w hw => ?_, fun s w h30 h31 => ?_⟩
  · obtain ⟨e, he⟩ := decodeDoorbell_error_iff.2 hop
    exact ⟨_, engineTurn_of_refused hb he, finish_completedWith .illegalOpcode _ s⟩
  · obtain ⟨e, he⟩ := decodeQueue_error_iff.2 hw
    exact applyEntry_of_refused he s
  · obtain ⟨e, he⟩ := decodeEvent_error_iff.2 ⟨h30, h31⟩
    exact applyEventWord_of_refused he s

/-! ## The words of rule R162 -/

/-- The reals of rule R162 as binary32 patterns: 0.01, 1000.0 and 6.0. -/
theorem exampleReals :
    decimal 1 2 = 0x3C23D70A ∧ f32OfNat 1000 = 0x447A0000 ∧ f32OfNat 6 = 0x40C00000 := by
  decide

/-- Settles O5: each word's fields are read off, with the reals as their patterns. -/
theorem exampleWordsDecode : Obligations.ExampleWordsDecode := by
  unfold Obligations.ExampleWordsDecode
  obtain ⟨h001, h1000, h6⟩ := exampleReals
  rw [h001, h1000, h6]
  and_intros <;> rfl

end Sys2Proof.Machine
end

section
/-! SUPPORT. The equalizer setters by the register they store into (rules R212, R370 to R384). -/

namespace Sys2Proof.Machine

/-! ## The stores -/

/-- A real value stored into an equalizer band's register: its whole effect (rules R156, R212). -/
theorem inBand_storeReal (b : BitVec 8) (id : Fin 11) (v : Word) (s : State) :
    inBand b (fun i => storeReal (.eqb i id) v) s =
      if _h : b.toNat < 8 then
        if isNaN v then { s with illegalCount := s.illegalCount + 1 }
        else { s with eqb := s.eqb.set b.toNat (s.eqb[b.toNat].set id v) }
      else { s with illegalCount := s.illegalCount + 1 } := rfl

/-- A choice of at most `m` stored into an equalizer band's register: its whole effect (rules R156, R212). -/
theorem inBand_storeEnum (b : BitVec 8) (id : Fin 11) (m : Nat) (v : Word) (s : State) :
    inBand b (fun i => storeEnum (.eqb i id) m v) s =
      if _h : b.toNat < 8 then
        if v.toNat ≤ m then { s with eqb := s.eqb.set b.toNat (s.eqb[b.toNat].set id v) }
        else { s with illegalCount := s.illegalCount + 1 }
      else { s with illegalCount := s.illegalCount + 1 } := rfl

/-- A switch stored into an equalizer band's register: its whole effect (rules R156, R212). -/
theorem inBand_storeBool (b : BitVec 8) (id : Fin 11) (v : Word) (s : State) :
    inBand b (fun i => storeBool (.eqb i id) v) s =
      if _h : b.toNat < 8 then
        { s with eqb := s.eqb.set b.toNat (s.eqb[b.toNat].set id (if v = 0 then 0 else 1)) }
      else { s with illegalCount := s.illegalCount + 1 } := rfl

theorem storeReal_eqg (id : Fin 4) (v : Word) (s : State) :
    storeReal (.eqg id) v s =
      if isNaN v then { s with illegalCount := s.illegalCount + 1 } else { s with eqg := s.eqg.set id v } := rfl

theorem storeEnum_eqg (id : Fin 4) (m : Nat) (v : Word) (s : State) :
    storeEnum (.eqg id) m v s =
      if v.toNat ≤ m then { s with eqg := s.eqg.set id v }
      else { s with illegalCount := s.illegalCount + 1 } := rfl

theorem storeBool_eqg (id : Fin 4) (v : Word) (s : State) :
    storeBool (.eqg id) v s = { s with eqg := s.eqg.set id (if v = 0 then 0 else 1) } := rfl

/-! ## The setters -/

/-- Settles O18: each of the six setters is `inBand_storeReal` at its register. -/
theorem eqBandRealSettersStore : Obligations.EqBandRealSettersStore := by
  unfold Obligations.EqBandRealSettersStore
  intro s b v
  exact ⟨congrArg Host.Outcome.next (inBand_storeReal b 1 v s),
    congrArg Host.Outcome.next (inBand_storeReal b 2 v s),
    congrArg Host.Outcome.next (inBand_storeReal b 3 v s),
    congrArg Host.Outcome.next (inBand_storeReal b 5 v s),
    congrArg Host.Outcome.next (inBand_storeReal b 6 v s),
    congrArg Host.Outcome.next (inBand_storeReal b 7 v s)⟩

/-- Settles O19: each setter is its kind of store at its register. -/
theorem eqChoiceAndGlobalSettersStore : Obligations.EqChoiceAndGlobalSettersStore := by
  unfold Obligations.EqChoiceAndGlobalSettersStore
  intro s b v
  exact ⟨congrArg Host.Outcome.next (inBand_storeEnum b 0 6 v s),
    congrArg Host.Outcome.next (inBand_storeEnum b 4 2 v s),
    congrArg Host.Outcome.next (inBand_storeBool b 8 v s),
    congrArg Host.Outcome.next (inBand_storeBool b 9 v s),
    congrArg Host.Outcome.next (inBand_storeBool b 10 v s),
    congrArg Host.Outcome.next (storeReal_eqg 0 v s),
    congrArg Host.Outcome.next (storeReal_eqg 1 v s),
    congrArg Host.Outcome.next (storeEnum_eqg 2 3 v s),
    congrArg Host.Outcome.next (storeBool_eqg 3 v s)⟩

end Sys2Proof.Machine
end

section
/-! SUPPORT. The control commands NOP and PREPARE and the checks of the process commands (rules R201 to R204, R655). -/

namespace Sys2Proof.Machine

/-! ## PREPARE's checks (rules R43, R202) -/

/-- The test of rule R202 finds the powers of two. -/
theorem isPow2_iff {w : Word} : isPow2 w = true ↔ ∃ e, w.toNat = 2 ^ e := by
  have hand : (w &&& (w - 1)).toNat = w.toNat &&& (w - 1).toNat := BitVec.toNat_and ..
  have hpred : w.toNat ≠ 0 → (w - 1).toNat = w.toNat - 1 := fun h0 =>
    BitVec.toNat_sub_of_le (Nat.one_le_iff_ne_zero.2 h0)
  rw [isPow2, Bool.and_eq_true, bne_iff_ne, beq_iff_eq, ← BitVec.toNat_ne_iff_ne, ← BitVec.toNat_inj, hand]
  constructor
  · rintro ⟨h0, hw⟩
    rw [hpred h0] at hw
    have hlo := Nat.log2_self_le h0
    have hhi := Nat.lt_log2_self (n := w.toNat)
    refine ⟨w.toNat.log2, hlo.antisymm' (not_lt.1 fun hlt => ?_)⟩
    -- Above its leading power of two, `w` and `w - 1` share the leading bit.
    have hbit : (w.toNat &&& (w.toNat - 1)).testBit w.toNat.log2 = true := by
      rw [Nat.testBit_and, Nat.testBit_log2 h0, Bool.true_and]
      exact Nat.testBit_of_two_pow_le_and_two_pow_add_one_gt (by omega) (by omega)
    rw [hw] at hbit
    exact absurd hbit (by simp)
  · rintro ⟨e, he⟩
    have h0 : w.toNat ≠ 0 := he ▸ (Nat.two_pow_pos e).ne'
    refine ⟨h0, ?_⟩
    rw [hpred h0, he, Nat.and_two_pow_sub_one_eq_mod, Nat.mod_self]
    rfl

theorem fftSize_check_iff (w : Word) :
    (isPow2 w = true ∧ 64 ≤ w.toNat) ∧ w.toNat ≤ 8192 ↔ ∃ e, 6 ≤ e ∧ e ≤ 13 ∧ w.toNat = 2 ^ e := by
  have hexp : ∀ e, (2 ^ 6 ≤ 2 ^ e ∧ 2 ^ e ≤ 2 ^ 13) ↔ 6 ≤ e ∧ e ≤ 13 := fun e => by
    simp only [Nat.pow_le_pow_iff_right (show 1 < 2 by decide)]
  rw [isPow2_iff, and_assoc]
  constructor
  · rintro ⟨⟨e, he⟩, hr⟩
    rw [he] at hr
    obtain ⟨h1, h2⟩ := (hexp e).1 hr
    exact ⟨e, h1, h2, he⟩
  · rintro ⟨e, h1, h2, he⟩
    refine ⟨⟨e, he⟩, ?_⟩
    rw [he]
    exact (hexp e).2 ⟨h1, h2⟩

theorem eq_one_or_two_iff (w : Word) : w = 1 ∨ w = 2 ↔ w.toNat = 1 ∨ w.toNat = 2 := by
  simp [← BitVec.toNat_inj]

/-- A check of PREPARE is the legal column of its register (rules R43, R202). -/
theorem cfgChecks_iff (c : CfgRegs) {i : Nat} (hi : i < 17) : (cfgChecks c)[i].2 = true ↔ cfgRegLegal c i := by
  match i, hi with
  | 2, _ =>
    rw [show cfgRegLegal c 2 ↔ _ from eq_one_or_two_iff c.channels]
    simp only [cfgChecks, List.getElem_cons_succ, List.getElem_cons_zero, Bool.and_eq_true, decide_eq_true_eq,
      Config.maxChannels]
    omega
  | 4, _ => simpa [cfgChecks, cfgRegLegal] using fftSize_check_iff c.fftSize
  | 7, _ => simpa [cfgChecks, cfgRegLegal] using (eq_one_or_two_iff c.oversample).symm
  | 0, _ | 1, _ | 3, _ | 5, _ | 6, _ | 8, _ | 9, _ | 10, _ | 11, _ | 12, _ | 13, _ | 14, _ | 15, _ | 16, _ =>
    simp [cfgChecks, cfgRegLegal, finitePos, and_assoc]
  | n + 17, hn => omega

/-- PREPARE's range check finds nothing in the legal configurations alone. -/
theorem firstIllegal_eq_none_iff {c : CfgRegs} : firstIllegal c = none ↔ cfgLegal c := by
  rw [firstIllegal, Option.map_eq_none_iff, List.find?_eq_none, List.forall_mem_iff_getElem]
  refine forall₂_congr fun i hi => ?_
  rw [← cfgChecks_iff c hi, Bool.not_eq_true, Bool.not_eq_false']

theorem prepareError_of_cfgLegal {c : CfgRegs} (h : cfgLegal c) : prepareError c = none := by
  obtain ⟨hfs, -⟩ : cfgRegLegal c 0 := h 0 (by omega)
  obtain ⟨e, -, -, hN⟩ : cfgRegLegal c 4 := h 4 (by omega)
  have hrate : c.sampleRate ≠ 0 := fun h0 => absurd (h0 ▸ hfs : 1 ≤ (0 : Word).toNat) (by decide)
  rw [prepareError, if_neg hrate, isPow2_iff.2 ⟨e, hN⟩, firstIllegal_eq_none_iff.2 h]
  rfl

/-! ## What PREPARE publishes of the synth (rules R267, R655) -/

section
variable {s : State} (h : s.voices = idleVoices)
include h

theorem voiceAt_of_idleVoices (v : Nat) : voiceAt s v = Voice.idle v := by
  rw [voiceAt, h]
  by_cases hv : v < 32 <;> simp [Vector.getD, idleVoices, hv]

theorem publishedStatus_of_idleVoices (v : Nat) : publishedStatus s v = 0 := by
  have hidle : voiceStatusWord (Voice.idle v) = 0 := by simp [voiceStatusWord, Voice.idle, stageNumber]
  rw [publishedStatus, voiceAt_of_idleVoices h, hidle, ite_self]

theorem publishedAge_of_idleVoices (v : Nat) : publishedAge s v = 0 := by
  have hidle : (Voice.idle v).age = 0 := rfl
  rw [publishedAge, voiceAt_of_idleVoices h, hidle, ite_self]

theorem activeCount_of_idleVoices : activeCount s = 0 := by
  rw [activeCount, List.countP_eq_zero]
  intro v _
  rw [isActive, voiceAt_of_idleVoices h]
  exact Bool.false_ne_true

/-- With every voice idle the published statistics are 0, but for the steals (rule R267). -/
theorem publishSynth_of_idleVoices :
    publishSynth s =
      { s with
        synActive := 0
        synSteals := s.steals
        voiceStatus := Vector.replicate 32 0
        voiceAge := Vector.replicate 32 0 } := by
  have hstatus : (Vector.ofFn fun v : Fin 32 => publishedStatus s v.val) = Vector.replicate 32 0 := by
    ext v hv
    simp [publishedStatus_of_idleVoices h]
  have hage : (Vector.ofFn fun v : Fin 32 => publishedAge s v.val) = Vector.replicate 32 0 := by
    ext v hv
    simp [publishedAge_of_idleVoices h]
  rw [publishSynth, hstatus, hage, activeCount_of_idleVoices h]
  rfl

end

/-! ## The commands -/

/-- Settles O11: the checks pass, every voice is idle when the synth is published, and the memory is `clearResults` of
the one before. -/
theorem prepareLatchesAndResetsTheEngines : Obligations.PrepareLatchesAndResetsTheEngines := by
  unfold Obligations.PrepareLatchesAndResetsTheEngines
  intro s hc
  have hexec : exec .prepare s = .next (finish .ok 0x01 (prepareEffect s)) := by
    rw [exec, execPrepare, prepareError_of_cfgLegal hc]
  have hseq : s.specSeq + 2 = s.specSeq + 1 + 1 := (add_assoc s.specSeq 1 1).symm
  refine ⟨_, hexec, ⟨clearResults s.mem, Config.lastCycles s.draws, ?_⟩, byte_clearResults s.mem⟩
  rw [hseq, prepareEffect, prepareLatch, publishSynth_of_idleVoices rfl]
  rfl

/-- Settles O9: NOP is its completion. -/
theorem nopCompletes : Obligations.NopCompletes := by
  unfold Obligations.NopCompletes
  exact fun s => ⟨_, rfl, finish_completedWith .ok 0x00 s⟩

/-- Settles O12: each process command is its body behind the shared prologue, which fails first on PREPARED, then on the
buffer index. -/
theorem processCommandChecks : Obligations.ProcessCommandChecks := by
  unfold Obligations.ProcessCommandChecks
  refine fun s k e n => ⟨fun hp => ?_, fun hp hk => ?_⟩
  · have hfail := fun op body => processCommand_notPrepared op k body hp
    exact ⟨⟨_, hfail 0x02 _, finish_completedWith .notPrepared 0x02 s⟩,
      ⟨_, hfail 0x03 _, finish_completedWith .notPrepared 0x03 s⟩,
      ⟨_, hfail 0x04 _, finish_completedWith .notPrepared 0x04 s⟩⟩
  · have hfail := fun op body => processCommand_badBuffer op body hp hk
    exact ⟨⟨_, hfail 0x02 _, finish_completedWith .badBuffer 0x02 s⟩,
      ⟨_, hfail 0x03 _, finish_completedWith .badBuffer 0x03 s⟩,
      ⟨_, hfail 0x04 _, finish_completedWith .badBuffer 0x04 s⟩⟩

end Sys2Proof.Machine
end

section
/-! SUPPORT. The push into the parameter queue (rules R42, R210, R213). -/

namespace Sys2Proof.Machine

/-! ## The queue as a list (rules R42, R213) -/

theorem queueDepth_eq (s : State) : queueDepth s = (32 - s.head.val + s.tail.val) % 32 := by
  rw [queueDepth, Fin.sub_def]

theorem queueDepth_le (s : State) : queueDepth s ≤ 31 := by
  rw [queueDepth_eq]
  omega

/-- FULL is a DEPTH of 31 (rule R42). -/
theorem queueFull_iff (s : State) : queueFull s = true ↔ queueDepth s = 31 := by
  rw [queueFull, beq_iff_eq, Fin.ext_iff, Fin.val_add, Fin.val_one, queueDepth_eq]
  omega

/-- The slot after the last queued entry is the one the tail names, and no queued entry is in it. -/
theorem slot_eq_tail_iff (s : State) {j : Nat} (hj : j ≤ queueDepth s) :
    (s.head.val + j) % 32 = s.tail.val ↔ j = queueDepth s := by
  rw [queueDepth_eq] at *
  omega

theorem slots_set_getD (slots : Vector Cmd 32) (i : Fin 32) (w : Cmd) (k : Nat) :
    (slots.set i w).getD (k % 32) 0 = if k % 32 = i.val then w else slots.getD (k % 32) 0 := by
  have hk : k % 32 < 32 := Nat.mod_lt k (by omega)
  simp [Vector.getD, hk, Array.getElem_set, eq_comm]

section
variable {s t : State} (hq : queueDepth s < 31) (hhead : t.head = s.head) (htail : t.tail = s.tail + 1)
include hq hhead htail

theorem queueDepth_of_tail_succ : queueDepth t = queueDepth s + 1 := by
  rw [queueDepth_eq] at hq
  rw [queueDepth_eq, hhead, htail, Fin.val_add, Fin.val_one, queueDepth_eq]
  omega

/-- A word stored at the tail, with the tail moved on, is queued behind the words before it (rule R210). -/
theorem queued_of_tail_succ {w : Cmd} (hslots : t.slots = s.slots.set s.tail w) : queued t = queued s ++ [w] := by
  have hold : ∀ j ∈ List.range (queueDepth s),
      t.slots.getD ((t.head.val + j) % 32) 0 = s.slots.getD ((s.head.val + j) % 32) 0 := fun j hj => by
    have hj := List.mem_range.1 hj
    rw [hhead, hslots, slots_set_getD, if_neg fun h => hj.ne ((slot_eq_tail_iff s hj.le).1 h)]
  have hnew : t.slots.getD ((t.head.val + queueDepth s) % 32) 0 = w := by
    rw [hhead, hslots, slots_set_getD, if_pos ((slot_eq_tail_iff s le_rfl).2 rfl)]
  rw [queued, queueDepth_of_tail_succ hq hhead htail, List.range_succ, List.map_append, List.map_congr_left hold,
    List.map_singleton, hnew, queued]

end

/-! ## The push (rule R210) -/

theorem pushQueue_full (h : Word) {s : State} (hq : queueDepth s = 31) :
    pushQueue h s =
      { s with
        pqOverflow := s.pqOverflow + 1, lastPushOk := false
        oldCsrs := s.oldCsrs.set 14 (readCsr (pushQueue h s) 0x038) } := by
  have henq : enqueue h s = { s with pqOverflow := s.pqOverflow + 1, lastPushOk := false } :=
    if_pos ((queueFull_iff s).2 hq)
  rw [pushQueue, henq]
  rfl

theorem pushQueue_free (h : Word) {s : State} (hq : queueDepth s < 31) :
    pushQueue h s =
      { s with
        slots := s.slots.set s.tail (Cmd.ofWords h s.pushLatch), tail := s.tail + 1, lastPushOk := true
        oldCsrs := s.oldCsrs.set 14 (readCsr (pushQueue h s) 0x038) } := by
  have henq : enqueue h s =
      { s with
        slots := s.slots.set s.tail (Cmd.ofWords h s.pushLatch), tail := s.tail + 1, lastPushOk := true } :=
    if_neg fun hf => hq.ne ((queueFull_iff s).1 hf)
  rw [pushQueue, henq]
  rfl

/-- Settles O14: with 31 entries the queue is full; with fewer the slot at the tail is free. -/
theorem pushAppendsOrDrops : Obligations.PushAppendsOrDrops := by
  unfold Obligations.PushAppendsOrDrops
  intro s h
  have hpush : access (.write 4 0x034 h) s = .next (pushQueue h s) := rfl
  rw [queued_length]
  refine ⟨queueDepth_le s, rfl, fun hq => ⟨_, hpush, pushQueue_full h hq⟩,
    fun hq => ⟨_, hpush, queued_of_tail_succ hq ?_ ?_ ?_, pushQueue_free h hq⟩⟩
  all_goals rw [pushQueue_free h hq]

end Sys2Proof.Machine
end

section
/-! SUPPORT. The synth setters by the register they store into (rules R212, R270 to R284). -/

namespace Sys2Proof.Machine

theorem storeReal_synp (id : Fin 15) (v : Word) (s : State) :
    storeReal (.synp id) v s =
      if isNaN v then { s with illegalCount := s.illegalCount + 1 } else { s with synp := s.synp.set id v } := rfl

theorem storeEnum_synp (id : Fin 15) (m : Nat) (v : Word) (s : State) :
    storeEnum (.synp id) m v s =
      if v.toNat ≤ m then { s with synp := s.synp.set id v }
      else { s with illegalCount := s.illegalCount + 1 } := rfl

/-- Settles O16: each of the six setters is `storeReal_synp` at its register. -/
theorem synEnvelopeSettersStore : Obligations.SynEnvelopeSettersStore := by
  unfold Obligations.SynEnvelopeSettersStore
  intro s v
  have hreal := fun id => congrArg (Host.Outcome.next (φ := Fault) (ρ := Refusal)) (storeReal_synp id v s)
  exact ⟨hreal 1, hreal 2, hreal 3, hreal 4, hreal 5, hreal 6⟩

/-- Settles O17: each setter is its kind of store at its register. -/
theorem synOtherSettersStore : Obligations.SynOtherSettersStore := by
  unfold Obligations.SynOtherSettersStore
  intro s v
  have hreal := fun id => congrArg (Host.Outcome.next (φ := Fault) (ρ := Refusal)) (storeReal_synp id v s)
  have henum := fun id m => congrArg (Host.Outcome.next (φ := Fault) (ρ := Refusal)) (storeEnum_synp id m v s)
  exact ⟨hreal 8, hreal 9, hreal 11, hreal 12, hreal 13, hreal 14, henum 0 4, henum 7 4, henum 10 3⟩

end Sys2Proof.Machine
end

section
/-! SUPPORT. Envelope stages of no duration (rule R261): the loop that passes them ends before its fuel does, so one
such stage more changes nothing. -/

namespace Sys2Proof.Machine

/-- How many stages can be passed from a stage on (rule R261). -/
def stagesAhead : Stage → Nat
  | .attack => 3
  | .hold => 2
  | .decay => 1
  | .release => 1
  | .idle => 0
  | .sustain => 0

theorem stagesAhead_le (g : Stage) : stagesAhead g ≤ 3 := by cases g <;> decide

/-- Passing a stage leaves fewer stages ahead (rule R261). -/
theorem stagesAhead_of_stageEnd {d : Durations} {g next : Stage} {len : Word} (h : stageEnd d g = some (len, next)) :
    stagesAhead next < stagesAhead g := by
  cases g <;> simp only [stageEnd, Option.some.injEq, Prod.mk.injEq, reduceCtorEq] at h <;> rw [← h.2] <;> decide

/-- Fuel for the stages ahead is enough (rule R261). -/
theorem passStages_succ (d : Durations) {fuel : Nat} {v : Voice} (h : stagesAhead v.stage ≤ fuel) :
    passStages d (fuel + 1) v = passStages d fuel v := by
  induction fuel generalizing v with
  | zero =>
    simp only [passStages]
    split
    · rename_i hend
      exact absurd (stagesAhead_of_stageEnd hend) (by omega)
    · rfl
  | succ fuel ih =>
    rw [passStages, passStages]
    split
    · rename_i len next hend
      have := stagesAhead_of_stageEnd hend
      split
      · exact ih (show stagesAhead next ≤ fuel by omega)
      · rfl
    · rfl

/-- A stage of no duration is passed at once (rule R261). -/
theorem envStep_of_zero_duration {s : State} {v : Voice} {next : Stage}
    (h : stageEnd (durations s) v.stage = some (0, next)) :
    envStep s v = envStep s { v with stage := next, t := 0 } := by
  have hpass : passStages (durations s) 4 v = passStages (durations s) 4 { v with stage := next, t := 0 } := by
    rw [passStages_succ (fuel := 3) (v := { v with stage := next, t := 0 }) _ (stagesAhead_le next), passStages, h]
    rfl
  rw [envStep, hpass, envStep]

/-- A voice in Sustain stays there at the sustain level (rule R261). -/
theorem envStep_of_sustain (s : State) {v : Voice} (h : v.stage = .sustain) :
    envStep s v = (pSustain s, { v with value := pSustain s }) := by
  simp [envStep, passStages, envValue, advanceStage, stageEnd, h]

/-- A voice in Idle gives 0.0 and leaves the pool (rule R261). -/
theorem envStep_of_idle (s : State) {v : Voice} (h : v.stage = .idle) :
    envStep s v = (fZero, { v with value := fZero, active := false }) := by
  simp [envStep, passStages, envValue, advanceStage, stageEnd, h]

section
variable {s : State} {v : Voice}

theorem envStep_of_attack (hg : v.stage = .attack) (h : (durations s).attack = 0) :
    envStep s v = envStep s { v with stage := .hold, t := 0 } :=
  envStep_of_zero_duration (by rw [hg, stageEnd, h])

theorem envStep_of_hold (hg : v.stage = .hold) (h : (durations s).hold = 0) :
    envStep s v = envStep s { v with stage := .decay, t := 0 } :=
  envStep_of_zero_duration (by rw [hg, stageEnd, h])

theorem envStep_of_decay (hg : v.stage = .decay) (h : (durations s).decay = 0) :
    envStep s v = envStep s { v with stage := .sustain, t := 0 } :=
  envStep_of_zero_duration (by rw [hg, stageEnd, h])

theorem envStep_of_release (hg : v.stage = .release) (h : (durations s).release = 0) :
    envStep s v = envStep s { v with stage := .idle, t := 0 } :=
  envStep_of_zero_duration (by rw [hg, stageEnd, h])

end

/-- Settles O59: each stage of no duration is `envStep_of_zero_duration` at it, and the corner cases pass one after the
other. -/
theorem zeroDurationsReachSustain : Obligations.ZeroDurationsReachSustain := by
  unfold Obligations.ZeroDurationsReachSustain
  refine ⟨fun s v => ⟨envStep_of_attack, envStep_of_hold, envStep_of_decay, envStep_of_release⟩,
    fun s v hact => ⟨fun hg ha hh hd => ?_, fun hg hr => ?_⟩⟩
  · rw [envStep_of_attack hg ha, envStep_of_hold rfl hh, envStep_of_decay rfl hd, envStep_of_sustain s rfl]
    exact ⟨rfl, rfl, hact⟩
  · rw [envStep_of_release hg hr, envStep_of_idle s rfl]
    exact ⟨rfl, rfl, rfl⟩

end Sys2Proof.Machine
end

section
/-! SUPPORT. Note events that steal no voice (rules R262, R263), and the ages they leave (rule R268). -/

namespace Sys2Proof.Machine

/-! ## Releasing -/

@[simp] theorem releaseVoice_active (nt : BitVec 8) (v : Voice) : (releaseVoice nt v).active = v.active := by
  rw [releaseVoice]
  split <;> rfl

@[simp] theorem releaseVoice_age (nt : BitVec 8) (v : Voice) : (releaseVoice nt v).age = v.age := by
  rw [releaseVoice]
  split <;> rfl

/-- NOTE_ON of velocity 0 is a note-off (rule R262). -/
theorem execNoteOn_zero (note : BitVec 8) (off : Word) (s : State) :
    execNoteOn note 0 off s = .next (noteOff (midi7 note) s) := rfl

/-- Settles O22: a note-off is one update of the voice file, by `releaseVoice` below ACT.V. -/
theorem noteOffReleasesHeldVoices : Obligations.NoteOffReleasesHeldVoices := by
  unfold Obligations.NoteOffReleasesHeldVoices
  intro s note off
  refine ⟨noteOff (midi7 note) s, rfl, execNoteOn_zero note off s, ?_⟩
  rw [noteOff_eq, midi7_eq]
  congr 2
  funext u
  simp only [releaseVoice, ← ite_and, Bool.and_eq_true, beq_iff_eq, bne_iff_ne, and_assoc]
  rfl

/-! ## Allocating a free voice -/

theorem ageVoice_eq (v : Voice) :
    ageVoice v =
      if v.active = true then { v with age := if v.age = 0xFFFFFFFF then 0xFFFFFFFF else v.age + 1 } else v := by
  rw [ageVoice, satSucc_eq]

theorem ageVoices_getElem (s : State) (u : Fin 32) :
    (ageVoices s).voices[u] = if u.val < actV s then ageVoice s.voices[u] else s.voices[u] := by
  rw [ageVoices_eq]
  simp

theorem active_ageVoices (s : State) (u : Fin 32) : (ageVoices s).voices[u].active = s.voices[u].active := by
  rw [ageVoices_getElem]
  split
  · exact ageVoice_active _
  · rfl

@[simp] theorem isActive_ageVoices (s : State) (u : Nat) : isActive (ageVoices s) u = isActive s u := by
  by_cases hu : u < 32
  · rw [isActive, isActive, voiceAt_fin _ ⟨u, hu⟩, voiceAt_fin _ ⟨u, hu⟩]
    exact active_ageVoices s ⟨u, hu⟩
  · simp [isActive, voiceAt, Vector.getD, hu]

/-- The search finds the first free voice (rule R262). -/
theorem freeVoice_eq_some {s : State} {v : Nat} (hv : v < actV s) (hfree : isActive s v = false)
    (h : ∀ u, u < v → isActive s u = true) : freeVoice s = some v := by
  rw [freeVoice, List.find?_range_eq_some]
  exact ⟨by rw [hfree]; rfl, List.mem_range.2 hv, fun u hu => by rw [h u hu]; rfl⟩

/-- NOTE_ON of another velocity ages, then allocates (rule R262). -/
theorem execNoteOn_of_ne_zero (note : BitVec 8) {vel : BitVec 8} (off : Word) (s : State) (hvel : vel ≠ 0) :
    execNoteOn note vel off s = .next (allocate (midi7 note) (midi7 vel) (ageVoices s)) := by
  simp only [execNoteOn, midi7_eq_zero, if_neg hvel]

/-- NOTE_ON where a voice is free: the first free voice is allocated (rule R262). -/
theorem execNoteOn_free {note vel : BitVec 8} {off : Word} {s : State} {v : Nat} (hvel : vel ≠ 0)
    (hfree : freeVoice (ageVoices s) = some v) :
    execNoteOn note vel off s = .next (setVoice v (freshVoice v (midi7 note) (midi7 vel)) (ageVoices s)) := by
  rw [execNoteOn_of_ne_zero note off s hvel, allocate, hfree]

/-- The voice file after aging with voice `v` replaced. -/
theorem ageVoices_set (v : Fin 32) (x : Voice) (s : State) :
    (ageVoices s).voices.setIfInBounds v.val x = Vector.ofFn fun u : Fin 32 =>
      if u = v then x
      else if u.val < actV s ∧ s.voices[u].active = true then
        { s.voices[u] with age := if s.voices[u].age = 0xFFFFFFFF then 0xFFFFFFFF else s.voices[u].age + 1 }
      else s.voices[u] := by
  apply Vector.ext
  intro u hu
  rw [Vector.getElem_setIfInBounds, ageVoices_eq]
  simp only [Vector.getElem_ofFn, Fin.ext_iff, eq_comm (a := u), ageVoice_eq, ite_and]

/-- Settles O20: the search finds `v` after aging as before it, and `v` is set in the aged voice file. -/
theorem noteOnTakesTheFirstFreeVoice : Obligations.NoteOnTakesTheFirstFreeVoice := by
  unfold Obligations.NoteOnTakesTheFirstFreeVoice
  intro s note vel off v hvel hv hinactive hactive
  have hfree : freeVoice (ageVoices s) = some v.val := by
    refine freeVoice_eq_some (by rwa [actV_ageVoices]) ?_ fun u hu => ?_ <;> rw [isActive_ageVoices, isActive]
    · rwa [voiceAt_fin]
    · have := hactive ⟨u, by omega⟩ hu
      rwa [← voiceAt_fin] at this
  show execNoteOn note vel off s = _
  rw [execNoteOn_free hvel hfree, setVoice, ageVoices_set, ageVoices_eq, midi7_eq, midi7_eq]
  rfl

/-! ## Ages -/

theorem agesDistinct_congr {s t : State} (hactive : ∀ u : Fin 32, t.voices[u].active = s.voices[u].active)
    (hage : ∀ u : Fin 32, t.voices[u].age = s.voices[u].age) (h : agesDistinct s) : agesDistinct t := by
  intro u v huv hu hv
  rw [hage, hage]
  exact h u v huv (hactive u ▸ hu) (hactive v ▸ hv)

/-- A note-off changes no age and frees no voice (rule R263). -/
theorem agesDistinct_noteOff (nt : BitVec 8) {s : State} (h : agesDistinct s) : agesDistinct (noteOff nt s) := by
  have hget : ∀ u : Fin 32,
      (noteOff nt s).voices[u] = if u.val < actV s then releaseVoice nt s.voices[u] else s.voices[u] := fun u => by
    rw [noteOff_eq]
    simp
  refine agesDistinct_congr (fun u => ?_) (fun u => ?_) h <;> rw [hget] <;> split <;> simp

section
variable {s : State} (hbelow : ∀ u : Fin 32, s.voices[u].active = true → u.val < actV s)
  (hsat : ∀ u : Fin 32, s.voices[u].active = true → s.voices[u].age ≠ 0xFFFFFFFF)
include hbelow hsat

/-- Aging makes every active voice one older, where only voices below ACT.V are active and none is saturated (rule
R262). -/
theorem age_ageVoices {u : Fin 32} (hu : s.voices[u].active = true) :
    (ageVoices s).voices[u].age = s.voices[u].age + 1 := by
  rw [ageVoices_getElem, if_pos (hbelow u hu), ageVoice_of_active hu]
  exact if_neg (hsat u hu)

theorem agesDistinct_ageVoices (h : agesDistinct s) : agesDistinct (ageVoices s) := by
  intro u v huv hu hv
  rw [active_ageVoices] at hu hv
  rw [age_ageVoices hbelow hsat hu, age_ageVoices hbelow hsat hv]
  exact fun he => h u v huv hu hv (add_right_cancel he)

/-- After aging no active voice has the age 0 of a new one. -/
theorem age_ageVoices_ne_zero {u : Fin 32} (hu : (ageVoices s).voices[u].active = true) :
    (ageVoices s).voices[u].age ≠ 0 := by
  rw [active_ageVoices] at hu
  have := hsat u hu
  rw [age_ageVoices hbelow hsat hu]
  bv_omega

end

/-- An allocation, free or by a steal, resets one voice (rules R262, R264). -/
theorem allocate_voices (nt vl : BitVec 8) (s : State) :
    ∃ v, (allocate nt vl s).voices = s.voices.setIfInBounds v (freshVoice v nt vl) := by
  rw [allocate]
  split
  · exact ⟨_, rfl⟩
  · exact ⟨_, rfl⟩

/-- A new voice has age 0, which no other active one has. -/
theorem agesDistinct_allocate (nt vl : BitVec 8) {s : State} (h : agesDistinct s)
    (hne : ∀ u : Fin 32, s.voices[u].active = true → s.voices[u].age ≠ 0) : agesDistinct (allocate nt vl s) := by
  obtain ⟨v, hv⟩ := allocate_voices nt vl s
  have hget : ∀ u : Fin 32,
      (allocate nt vl s).voices[u] = if v = u.val then freshVoice v nt vl else s.voices[u] := fun u => by
    simp [hv, Vector.getElem_setIfInBounds]
  intro u w huw hu hw
  rw [hget] at hu hw
  rw [hget, hget]
  by_cases hvu : v = u.val
  · have hvw : v ≠ w.val := fun he => huw (Fin.ext (hvu.symm.trans he))
    rw [if_neg hvw] at hw
    rw [if_pos hvu, if_neg hvw]
    exact (hne w hw).symm
  · rw [if_neg hvu] at hu
    rw [if_neg hvu]
    by_cases hvw : v = w.val
    · rw [if_pos hvw]
      exact hne u hu
    · rw [if_neg hvw] at hw
      rw [if_neg hvw]
      exact h u w huw hu hw

/-- Settles O23: a note-off keeps the ages, and an allocation follows an aging that keeps them distinct and above 0. -/
theorem noteOnKeepsAgesDistinct : Obligations.NoteOnKeepsAgesDistinct := by
  unfold Obligations.NoteOnKeepsAgesDistinct
  intro s t note vel off hp _ hlegal hages hsat h
  have hbelow : ∀ u : Fin 32, s.voices[u].active = true → u.val < actV s := fun u hu => by
    by_contra hge
    exact Bool.false_ne_true ((hlegal.2 (.inl hp) u (not_lt.1 hge)).symm.trans hu)
  rcases h with hon | hoff
  · by_cases hvel : vel = 0
    · subst hvel
      rw [← Host.Outcome.next.inj ((execNoteOn_zero note off s).symm.trans hon)]
      exact agesDistinct_noteOff _ hages
    · rw [← Host.Outcome.next.inj ((execNoteOn_of_ne_zero note off s hvel).symm.trans hon)]
      exact agesDistinct_allocate _ _ (agesDistinct_ageVoices hbelow hsat hages)
        fun u hu => age_ageVoices_ne_zero hbelow hsat hu
  · rw [← Host.Outcome.next.inj hoff]
    exact agesDistinct_noteOff _ hages

end Sys2Proof.Machine
end

section
/-! SUPPORT. A clamp of a number lies between its bounds (rule R11), and with it a block of silence (rules R250, R265):
its gain times +0.0 is +0.0, and its frames are one write of zeros. -/

namespace Sys2Proof.Machine

/-! ## The extrema as exact values (rule R11) -/

/-- Of two numbers, `max` is one of the greater value, whichever zero it picks. -/
theorem unitsOf_fmax {a b : F32} (ha : isNaN a = false) (hb : isNaN b = false) :
    isNaN (fmax a b) = false ∧ unitsOf (fmax a b) = max (unitsOf a) (unitsOf b) := by
  simp only [fmax, flt, ha, hb, Bool.or_self, Bool.not_false, Bool.true_and, decide_eq_true_eq, Bool.false_eq_true,
    if_false]
  split_ifs <;> exact ⟨by assumption, by omega⟩

/-- Of two numbers, `min` is one of the lesser value, whichever zero it picks. -/
theorem unitsOf_fmin {a b : F32} (ha : isNaN a = false) (hb : isNaN b = false) :
    isNaN (fmin a b) = false ∧ unitsOf (fmin a b) = min (unitsOf a) (unitsOf b) := by
  simp only [fmin, flt, ha, hb, Bool.or_self, Bool.not_false, Bool.true_and, decide_eq_true_eq, Bool.false_eq_true,
    if_false]
  split_ifs <;> exact ⟨by assumption, by omega⟩

theorem unitsOf_fclamp {x lo hi : F32} (hx : isNaN x = false) (hlo : isNaN lo = false) (hhi : isNaN hi = false) :
    unitsOf (fclamp x lo hi) = min (max (unitsOf x) (unitsOf lo)) (unitsOf hi) := by
  obtain ⟨hn, hmax⟩ := unitsOf_fmax hx hlo
  rw [fclamp, hx, if_neg Bool.false_ne_true, (unitsOf_fmin hn hhi).2, hmax]

/-- A value below 2^128 that is not negative is finite. -/
theorem isFinite_of_unitsOf_lt {x : F32} (h0 : 0 ≤ unitsOf x) (h : unitsOf x < 2 ^ 23 * 2 ^ 254) :
    isFinite x = true := by
  rw [isFinite, bne_iff_ne]
  intro he
  have hm : magUnits x = (2 ^ 23 + fracField x) * 2 ^ 254 := by
    rw [magUnits, he]
    rfl
  have habs : (unitsOf x).natAbs = magUnits x := by rw [unitsOf_eq, natAbs_signOf_mul]
  omega

/-! ## Silence -/

theorem signBit_of_unitsOf_pos {x : F32} (h : 0 < unitsOf x) : signBit x = false := by
  rw [Bool.eq_false_iff]
  intro hs
  rw [unitsOf, if_pos hs] at h
  omega

theorem unitsOf_ne_zero {x : F32} (h : isZero x = false) : unitsOf x ≠ 0 := by
  have hm : magUnits x ≠ 0 := by simpa [isZero] using h
  rwa [← Int.natAbs_ne_zero, unitsOf_eq, natAbs_signOf_mul]

/-- A gain that is a number is clamped to a finite one without a sign (rule R250). -/
theorem pGain_finite {s : State} (h : isNaN s.synp[14] = false) :
    isFinite (pGain s) = true ∧ signBit (pGain s) = false := by
  have hg := unitsOf_fclamp (lo := fZero) (hi := f32OfNat 4) h rfl (by decide)
  rw [show unitsOf (f32OfNat 4) = 2 ^ 151 by decide, show unitsOf fZero = 0 from rfl] at hg
  rw [pGain]
  generalize fclamp s.synp[14] fZero (f32OfNat 4) = g at *
  split
  · exact ⟨rfl, rfl⟩
  · rename_i hz
    have hne := unitsOf_ne_zero (Bool.eq_false_iff.2 hz)
    exact ⟨isFinite_of_unitsOf_lt (by omega) (by omega), signBit_of_unitsOf_pos (by omega)⟩

/-- `+0.0 x gain = +0.0` at every gain that is a number (rule R250). -/
theorem fmul_zero_pGain {s : State} (h : isNaN s.synp[14] = false) : fmul fZero (pGain s) = fZero := by
  obtain ⟨hf, hs⟩ := pGain_finite h
  rw [fmul_of_isFinite rfl hf, hs, show magUnits fZero = 0 from rfl, Nat.zero_mul]
  decide

theorem mixVoices_of_silent {us : List Nat} {s : State} (h : ∀ u ∈ us, isActive s u = false) (acc : F32) :
    mixVoices us acc s = .next (acc, s) := by
  induction us with
  | nil => rfl
  | cons u us ih =>
    rw [mixVoices, h u List.mem_cons_self]
    exact ih fun v hv => h v (List.mem_cons_of_mem _ hv)

theorem setWords_append (xs ys : List Word) (m : List Host.Cell) (a : Nat) :
    Memory.setWords m a (xs ++ ys) = Memory.setWords (Memory.setWords m a xs) (a + 4 * xs.length) ys := by
  induction xs generalizing m a with
  | nil => rfl
  | cons x xs ih =>
    rw [List.cons_append, Memory.setWords, Memory.setWords, ih, List.length_cons]
    congr 1
    ring

/-- `n` words of +0.0 written from `a` on. -/
def writeZeros (a n : Nat) (s : State) : State := { s with mem := Memory.setWords s.mem a (List.replicate n fZero) }

theorem writeZeros_add (a m n : Nat) (s : State) :
    writeZeros (a + 4 * m) n (writeZeros a m s) = writeZeros a (m + n) s := by
  rw [writeZeros, writeZeros, writeZeros, List.replicate_add, setWords_append, List.length_replicate]

/-- No voice below ACT.V is active, and the gain is a number. -/
structure Silent (s : State) : Prop where
  inactive : ∀ u, u < actV s → isActive s u = false
  gain : isNaN s.synp[14] = false

theorem Silent.writeZeros {s : State} (h : Silent s) (a n : Nat) : Silent (writeZeros a n s) := ⟨h.inactive, h.gain⟩

theorem renderFrame_of_silent {s : State} (h : Silent s) (base i : Nat) :
    renderFrame base i s = .next (writeZeros (base + 4 * (i * actC s)) (actC s) s) := by
  have hmix : mixVoices (List.range (actV s)) fZero s = .next (fZero, s) :=
    mixVoices_of_silent (fun u hu => h.inactive u (List.mem_range.1 hu)) fZero
  rw [renderFrame, frameOut, hmix, andThen_next, andThen_next, fmul_zero_pGain h.gain]
  rfl

/-- Without events, the frames from `i` on are one write of zeros (rule R250). -/
theorem renderFrames_of_silent (base n m i ei : Nat) {s : State} (h : Silent s) :
    renderFrames base n 0 (List.range' i m) ei s =
      .next (ei, writeZeros (base + 4 * (i * actC s)) (m * actC s) s) := by
  induction m generalizing i s with
  | zero =>
    rw [Nat.zero_mul]
    rfl
  | succ m ih =>
    have hdue : applyDue n 0 i 0 ei s = .next (ei, s) := rfl
    rw [List.range'_succ, renderFrames, hdue, andThen_next]
    simp only [renderFrame_of_silent h, andThen_next]
    rw [ih (i + 1) (h.writeZeros _ _)]
    have hact : actC (writeZeros (base + 4 * (i * actC s)) (actC s) s) = actC s := rfl
    rw [hact, show base + 4 * ((i + 1) * actC s) = base + 4 * (i * actC s) + 4 * actC s by ring, writeZeros_add,
      show actC s + m * actC s = (m + 1) * actC s by ring]

theorem renderBlock_of_silent (k : BitVec 8) (frames : Word) {s : State} (h : Silent s) :
    renderBlock k 0 frames s =
      .next (publishSynth (writeZeros (bufBase k.toNat) (frameCount frames s * actC s) s)) := by
  have hframes := renderFrames_of_silent (bufBase k.toNat) (frameCount frames s) (frameCount frames s) 0 0 h
  rw [Nat.zero_mul, ← List.range_eq_range'] at hframes
  rw [renderBlock, renderFrom]
  show andThen (renderFrames _ _ 0 _ 0 s) _ = _
  rw [List.drop_zero, hframes]
  rfl

theorem activeCount_of_silent {s : State} (h : Silent s) : activeCount s = 0 := by
  rw [activeCount, List.countP_eq_zero]
  intro u hu
  rw [h.inactive u (List.mem_range.1 hu)]
  exact Bool.false_ne_true

/-- Settles O27: the queue is empty, and the body is one write of zeros and the publication of no active voice. -/
theorem synRenderOfSilence : Obligations.SynRenderOfSilence := by
  unfold Obligations.SynRenderOfSilence
  intro s k frames hp hk hq hinactive hgain
  have h : Silent s := ⟨hinactive, hgain⟩
  refine ⟨_, processCommand_completes hp hk (drain_empty s hq) (renderBlock_of_silent k frames h), rfl, ?_,
    fun j hj => ?_⟩
  · exact congrArg (BitVec.ofNat 32) (activeCount_of_silent (h.writeZeros _ _))
  · have hword := word_setWords (List.replicate (frameCount frames s * actC s) fZero) s.mem (bufBase k.toNat) j
      (by rwa [List.length_replicate])
    rwa [List.getElem_replicate] at hword

end Sys2Proof.Machine
end

section
/-! SUPPORT. The equalizer under global bypass (rule R365). -/

namespace Sys2Proof.Machine

/-- EQ_PROCESS's body keeps the global parameters (rule R350). -/
theorem eqBlock_eqg {k : BitVec 8} {frames : Word} {s t : State} (h : eqBlock k frames s = .next t) :
    t.eqg = s.eqg := by
  have hframe := (eqFrom_frame h).1
  rw [onlyEq, eqBegin_frame] at hframe
  rw [hframe]

/-- Settles O31: the body keeps EQG, so it was bypassed when it began, and the drain touches none of the three. -/
theorem eqGlobalBypassWritesNothing : Obligations.EqGlobalBypassWritesNothing := by
  unfold Obligations.EqGlobalBypassWritesNothing
  intro s t k frames hp hk h hbypass
  obtain ⟨hn, -⟩ | ⟨-, hn, -⟩ | ⟨-, -, s1, s2, h1, h2, rfl⟩ := processCommand_cases h
  · exact absurd hp (by simp [hn])
  · omega
  · have hbypass1 : s1.eqg[3] = 1 := by rwa [← eqBlock_eqg h2]
    obtain rfl := Host.Outcome.next.inj ((eqBlock_of_bypass k frames hbypass1).symm.trans h2)
    obtain ⟨hd, -⟩ := drain_frame h1
    rw [hd]
    exact ⟨rfl, rfl, rfl⟩

end Sys2Proof.Machine
end

section
/-! SUPPORT. The lookup in a saturation table (rule R405), branch by branch. -/

namespace Sys2Proof.Machine

/-! ## The order of numbers (rule R13) -/

theorem flt_eq_false_of_fle {a b : F32} (h : fle a b = true) : flt b a = false := by
  simp only [fle, flt, Bool.and_eq_true, decide_eq_true_eq] at *
  simp [h.2]

theorem flt_of_flt_of_fle {a b c : F32} (hab : flt a b = true) (hbc : fle b c = true) : flt a c = true := by
  simp only [fle, flt, Bool.and_eq_true, decide_eq_true_eq] at *
  obtain ⟨⟨ha, -⟩, hlt⟩ := hab
  obtain ⟨⟨-, hc⟩, hle⟩ := hbc
  exact ⟨⟨ha, hc⟩, by omega⟩

/-! ## The lookup -/

theorem f32_lutEnds : f32OfInt (-4) = 0xC0800000 ∧ f32OfNat 4 = 0x40800000 := by decide

section
variable {T : Vector F32 4096} {x : F32}

theorem lut_of_isNaN (hn : isNaN x = true) : lut T x = x := if_pos hn

theorem lut_of_low (hn : isNaN x = false) (hlo : flt 0xC0800000 x = false) : lut T x = T[0] := by
  simp only [lut, f32_lutEnds, hn, hlo, Bool.false_eq_true, Bool.not_false, if_true, if_false]

theorem lut_of_high (hlo : flt 0xC0800000 x = true) (hhi : flt x 0x40800000 = false) : lut T x = T[4095] := by
  simp only [lut, f32_lutEnds, (not_isNaN_of_flt hlo).2, hlo, hhi, Bool.false_eq_true, Bool.not_true, Bool.not_false,
    if_true, if_false]

/-- Between the ends the index is at most 4094, so both entries are the table's own. -/
theorem lut_of_between (hlo : flt 0xC0800000 x = true) (hhi : flt x 0x40800000 = true) {pos : F32} {j : Nat}
    (hpos : pos = fdiv (fmul (fadd x 0x40800000) (f32OfNat 4095)) 0x41000000)
    (hj : j = min (floorInt pos).toNat 4094) (hlt : j + 1 < 4096) :
    lut T x = fadd T[j] (fmul (fsub pos (f32OfNat j)) (fsub T[j + 1] T[j])) := by
  have hscale : f32OfNat 8 = 0x41000000 := by decide
  have hget : ∀ i (hi : i < 4096), T.getD i fZero = T[i] := fun i hi => dif_pos (by rwa [T.size_toArray])
  simp only [lut, f32_lutEnds, hscale, (not_isNaN_of_flt hlo).2, hlo, hhi, Bool.false_eq_true, Bool.not_true, if_false,
    ← hpos, ← hj, hget j (Nat.lt_of_succ_lt hlt), hget (j + 1) hlt]

end

/-- Settles O60: each clause is one branch of the lookup. -/
theorem tableLookupNeverReadsPastAnEnd : Obligations.TableLookupNeverReadsPastAnEnd := by
  unfold Obligations.TableLookupNeverReadsPastAnEnd
  intro T x
  refine ⟨lut_of_isNaN, fun hn hle => lut_of_low hn (flt_eq_false_of_fle hle), fun _ hge => ?_, fun hlo hhi => ?_⟩
  · exact lut_of_high (flt_of_flt_of_fle (by decide : flt 0xC0800000 0x40800000 = true) hge) (flt_eq_false_of_fle hge)
  · exact ⟨_, by omega, rfl, lut_of_between hlo hhi rfl rfl (by omega)⟩

end Sys2Proof.Machine
end

section
/-! SUPPORT. The peaks of a pass (rule R558): an insertion sort of the qualifying bins, cut after 16. -/

namespace Sys2Proof.Machine

/-! ## The order of the peaks -/

/-- Bin `a` comes before bin `b` among the peaks: magnitude descending, then bin ascending. -/
def peakBefore (p : Pass) (a b : Nat) : Prop :=
  unitsOf (tab p.M b) < unitsOf (tab p.M a) ∨ (unitsOf (tab p.M b) = unitsOf (tab p.M a) ∧ a < b)

theorem flt_iff_of_numbers {a b : F32} (ha : isNaN a = false) (hb : isNaN b = false) :
    flt a b = true ↔ unitsOf a < unitsOf b := by
  simp [flt, ha, hb]

theorem isPeak_iff {p : Pass} {k : Nat} :
    isPeak p k = true ↔ 1 ≤ k ∧ k + 2 ≤ p.K ∧ flt (tab p.M (k - 1)) (tab p.M k) = true ∧
      fle (tab p.M (k + 1)) (tab p.M k) = true ∧ flt fZero (tab p.M k) = true := by
  simp only [isPeak, Bool.and_eq_true, decide_eq_true_eq, and_assoc]

theorem not_isNaN_of_isPeak {p : Pass} {k : Nat} (h : isPeak p k = true) : isNaN (tab p.M k) = false := by
  obtain ⟨-, -, -, -, hpos⟩ := isPeak_iff.mp h
  exact (not_isNaN_of_flt hpos).2

/-! ## One insertion -/

theorem perm_insertPeak (p : Pass) (k : Nat) (js : List Nat) : (insertPeak p k js).Perm (k :: js) := by
  induction js with
  | nil => exact .refl _
  | cons j js ih =>
    rw [insertPeak]
    split
    · exact .refl _
    · exact (ih.cons j).trans (.swap k j js)

/-- A number inserted among numbers at lower bins keeps the order: it stops before the first one below it. -/
theorem pairwise_insertPeak {p : Pass} {k : Nat} {js : List Nat} (hk : isNaN (tab p.M k) = false)
    (hjs : ∀ j ∈ js, isNaN (tab p.M j) = false ∧ j < k) (hs : js.Pairwise (peakBefore p)) :
    (insertPeak p k js).Pairwise (peakBefore p) := by
  induction js with
  | nil => exact List.pairwise_singleton _ k
  | cons j js ih =>
    obtain ⟨⟨hj, hjk⟩, hrest⟩ := List.forall_mem_cons.mp hjs
    obtain ⟨hhead, htail⟩ := List.pairwise_cons.mp hs
    have hflt := flt_iff_of_numbers hj hk
    rw [insertPeak]
    split
    case isTrue hlt =>
      have hunits := hflt.mp hlt
      refine .cons (List.forall_mem_cons.mpr ⟨.inl hunits, fun i hi => .inl ?_⟩) hs
      have hji := hhead i hi
      unfold peakBefore at hji
      omega
    case isFalse hge =>
      have hkj : peakBefore p j k := by
        have hunits := mt hflt.mpr hge
        unfold peakBefore
        omega
      refine .cons (fun i hi => ?_) (ih hrest htail)
      obtain rfl | hi := List.mem_cons.mp ((perm_insertPeak p k js).mem_iff.mp hi)
      · exact hkj
      · exact hhead i hi

/-! ## The sort -/

/-- Some bins in the order of the peaks, inserted from the first to the last. -/
def rankBins (p : Pass) (ks : List Nat) : List Nat := ks.foldl (fun js k => insertPeak p k js) []

theorem rankBins_concat (p : Pass) (ks : List Nat) (k : Nat) :
    rankBins p (ks ++ [k]) = insertPeak p k (rankBins p ks) := List.foldl_concat ..

theorem perm_rankBins (p : Pass) (ks : List Nat) : (rankBins p ks).Perm ks := by
  induction ks using List.reverseRecOn with
  | nil => exact .refl _
  | append_singleton ks k ih =>
    rw [rankBins_concat]
    exact ((perm_insertPeak p k _).trans (ih.cons k)).trans (List.perm_append_singleton k ks).symm

theorem pairwise_rankBins {p : Pass} {ks : List Nat} (hnum : ∀ k ∈ ks, isNaN (tab p.M k) = false)
    (hasc : ks.Pairwise (· < ·)) : (rankBins p ks).Pairwise (peakBefore p) := by
  induction ks using List.reverseRecOn with
  | nil => exact .nil
  | append_singleton ks k ih =>
    obtain ⟨hks, -, hlast⟩ := List.pairwise_append.mp hasc
    obtain ⟨hnums, hk⟩ := List.forall_mem_append.mp hnum
    rw [rankBins_concat]
    refine pairwise_insertPeak (hk k (List.mem_singleton_self k)) (fun j hj => ?_) (ih hnums hks)
    have hmem := (perm_rankBins p ks).mem_iff.mp hj
    exact ⟨hnums j hmem, hlast j hmem k (List.mem_singleton_self k)⟩

/-! ## The peaks -/

/-- Every qualifying bin of a pass, in the order of the peaks. -/
def rankedPeaks (p : Pass) : List Nat := rankBins p ((List.range p.K).filter (isPeak p))

theorem peaks_eq_take_rankedPeaks (p : Pass) : peaks p = (rankedPeaks p).take 16 := rfl

theorem mem_rankedPeaks {p : Pass} {k : Nat} : k ∈ rankedPeaks p ↔ isPeak p k = true := by
  rw [rankedPeaks, (perm_rankBins p _).mem_iff, List.mem_filter, List.mem_range, and_iff_right_iff_imp]
  intro h
  obtain ⟨-, hk, -⟩ := isPeak_iff.mp h
  omega

theorem pairwise_rankedPeaks (p : Pass) : (rankedPeaks p).Pairwise (peakBefore p) :=
  pairwise_rankBins (fun _ hk => not_isNaN_of_isPeak (List.mem_filter.mp hk).2) (List.pairwise_lt_range.filter _)

/-- In an ordered list, an entry that the first `n` leave out comes after each of them, and they are `n`. -/
theorem length_take_and_forall_of_not_mem_take {α : Type} {r : α → α → Prop} {l : List α} {n : Nat} {x : α}
    (hs : l.Pairwise r) (hx : x ∈ l) (hout : x ∉ l.take n) :
    (l.take n).length = n ∧ ∀ y ∈ l.take n, r y x := by
  rw [← List.take_append_drop n l] at hs hx
  have hdrop : x ∈ l.drop n := (List.mem_append.mp hx).resolve_left hout
  have hlen : 0 < (l.drop n).length := List.length_pos_of_mem hdrop
  rw [List.length_drop] at hlen
  obtain ⟨-, -, hcross⟩ := List.pairwise_append.mp hs
  exact ⟨List.length_take_of_le (by omega), fun y hy => hcross y hy x hdrop⟩

/-- Settles O37: the peaks are the first 16 of the qualifying bins in their order. -/
theorem peaksAreTheGreatestQualifyingBins : Obligations.PeaksAreTheGreatestQualifyingBins := by
  unfold Obligations.PeaksAreTheGreatestQualifyingBins
  intro p before qualifies
  have hmem : ∀ k, k ∈ rankedPeaks p ↔ qualifies k := fun k => mem_rankedPeaks.trans isPeak_iff
  have hsorted : (rankedPeaks p).Pairwise before := pairwise_rankedPeaks p
  rw [peaks_eq_take_rankedPeaks]
  exact ⟨List.length_take_le 16 _, fun k hk => (hmem k).mp (List.mem_of_mem_take hk),
    hsorted.sublist (List.take_sublist 16 _),
    fun k hk => length_take_and_forall_of_not_mem_take hsorted ((hmem k).mpr hk)⟩

end Sys2Proof.Machine
end

section
/-! SUPPORT. The reset state (rules R650, R651): no configuration, no command in progress, every voice idle. -/

namespace Sys2Proof.Machine

/-! ## Idle voices (rule R655) -/

/-- The noise seed 0x12345678 plus an index stays clear of 0, the fixed point of the noise generator. -/
theorem voiceLegal_idle (v : Fin 32) : voiceLegal (Voice.idle v.val) := by
  have hnoise : (Voice.idle v.val).noise ≠ 0 := by
    have hv := v.isLt
    simp only [Voice.idle]
    bv_omega
  exact ⟨by simp [Voice.idle], Nat.zero_le _, Nat.zero_le _, fun h => Bool.noConfusion h, hnoise⟩

section
variable {s : State} (h : s.voices = idleVoices)
include h

theorem getElem_voices_of_idleVoices (v : Fin 32) : s.voices[v] = Voice.idle v.val := by
  simp [h, idleVoices]

theorem not_active_of_idleVoices (v : Fin 32) : s.voices[v].active = false := by
  rw [getElem_voices_of_idleVoices h]
  rfl

theorem voicesLegal_of_idleVoices : voicesLegal s := by
  refine ⟨fun v => ?_, fun _ v _ => not_active_of_idleVoices h v⟩
  rw [getElem_voices_of_idleVoices h]
  exact voiceLegal_idle v

theorem agesDistinct_of_idleVoices : agesDistinct s := fun u _ _ hu =>
  absurd hu (Bool.eq_false_iff.mp (not_active_of_idleVoices h u))

end

/-! ## The reset state -/

/-- Hardware reset clears PREPARED, and no PREPARE is in progress (rules R36, R650). -/
theorem not_configured_reset : ¬ configured State.reset := by
  simp [configured, preparing, State.reset]

theorem paramsLegal_reset : paramsLegal State.reset := hardwareReset_legal State.reset

theorem memoryMapped_reset : memoryMapped State.reset :=
  ⟨List.forall_mem_nil _, List.forall_mem_nil _⟩

theorem publicationLegal_reset : publicationLegal State.reset := by
  have hseq : State.reset.specSeq.toNat % 2 = (if publishing State.reset then 1 else 0) := rfl
  have hlatest : State.reset.spec.latest.toNat < 32 := Nat.zero_lt_succ _
  have hvalid : State.reset.spec.valid.toNat ≤ 32 := Nat.zero_le _
  exact ⟨hseq, hlatest, hvalid, fun h => absurd h not_configured_reset⟩

/-- Settles O55: nothing is stored and no command runs, so the memory, configuration and command invariants ask nothing;
the registers' reset values and the idle voices meet the others. -/
theorem resetMeetsTheInvariants : Obligations.ResetMeetsTheInvariants := by
  unfold Obligations.ResetMeetsTheInvariants
  have hmem : Memory.wf State.reset.mem := List.Pairwise.nil
  have hold : Memory.wf State.reset.oldMem := List.Pairwise.nil
  have hconfig : configLegal State.reset := fun h => absurd h not_configured_reset
  have hcommand : commandLegal State.reset := fun hbusy => Bool.noConfusion hbusy
  exact ⟨hmem, hold, memoryMapped_reset, paramsLegal_reset, hconfig, hcommand,
    voicesLegal_of_idleVoices rfl, publicationLegal_reset, agesDistinct_of_idleVoices rfl⟩

end Sys2Proof.Machine
end

section
/-! SUPPORT. The engine's turn as the parts it takes (rules R32, R200, R211, R250, R350, R450): what a part may write, how
far it takes the command, and that the turn from after a part answers what the turn from before it answers. -/

namespace Sys2Proof.Machine

/-! ## What a drain and a body may write -/

/-- `t` is `s` but for what a command's drain, body and publication may write: every other register, among them the
latched word, the configurations, BUSY and the completion registers, is as it was. -/
def onlyWork (s t : State) : Prop :=
  t = { s with
    progress := t.progress, illegalCount := t.illegalCount, head := t.head, synActive := t.synActive
    synSteals := t.synSteals, steals := t.steals, voiceStatus := t.voiceStatus, voiceAge := t.voiceAge
    specSeq := t.specSeq, trackers := t.trackers, mlVec := t.mlVec, synp := t.synp, eqg := t.eqg, eqb := t.eqb
    eqc := t.eqc, voices := t.voices, eq := t.eq, spec := t.spec, mem := t.mem, draws := t.draws }

theorem onlyWork_refl (s : State) : onlyWork s s := rfl

theorem onlyWork_trans {s t u : State} (h1 : onlyWork s t) (h2 : onlyWork t u) : onlyWork s u := by
  simp only [onlyWork] at *
  rw [h2, h1]

theorem onlyWork_reach (p : Progress) {s t : State} (h : onlyWork s t) : onlyWork s (reach p t) :=
  onlyWork_trans h rfl

theorem onlyWork_of_params {s t : State} (h : onlyParams s t) : onlyWork s t := by
  rw [onlyParams] at h
  rw [h]
  rfl

theorem onlyWork_of_drained {s t : State} (h : onlyDrained s t) : onlyWork s t := by
  rw [onlyDrained] at h
  rw [h]
  rfl

theorem onlyWork_of_spec {s t : State} (h : onlySpec s t) : onlyWork s t := by
  rw [onlySpec] at h
  rw [h]
  rfl

theorem onlyWork_of_eq {s t : State} (h : onlyEq s t) : onlyWork s t := by
  rw [onlyEq] at h
  rw [h]
  rfl

theorem onlyWork_of_render {s t : State} (h : onlyRender s t) : onlyWork s t := by
  rw [onlyWork, h.1]

theorem drainTo_work {q : Fin 32} {n : Nat} {s t : State} (h : drainTo q n s = .next t) : onlyWork s t := by
  obtain ⟨u, hu, hd, -⟩ := drainTo_completes q n s
  obtain rfl := Host.Outcome.next.inj (hu.symm.trans h)
  exact onlyWork_of_drained hd

theorem applyEntry_work {w : Cmd} {s t : State} (h : applyEntry w s = .next t) : onlyWork s t := by
  obtain ⟨u, hu, hf⟩ := applyEntry_completes w s
  obtain rfl := Host.Outcome.next.inj (hu.symm.trans h)
  exact onlyWork_of_params hf

theorem beginBody_work (s : State) : onlyWork s (beginBody s) := by
  simp only [beginBody]
  split
  · rw [eqBegin_frame]
    rfl
  · rfl

theorem writeBody_work (j : Nat) (w : Word) (s : State) : onlyWork s (writeBody j w s) := by
  simp only [writeBody]
  split <;> rfl

theorem afterIngest_work (s : State) : onlyWork s (afterIngest s) := onlyWork_of_spec (afterIngest_frame s)

theorem endPublication_work (s : State) : onlyWork s (endPublication s) := by
  simp only [endPublication]
  split
  · rfl
  · exact onlyWork_of_spec (onlySpec_trans (passWrites_frame s) (advanceSeq_frame _))

/-- The end of a body is a PREPARE's last writes or the publication of the voices (rules R203, R267). -/
theorem endBody_cases (s : State) :
    (Cmd.op s.latched = 0x01 ∧ endBody s = markPrepared s) ∨ (Cmd.op s.latched ≠ 0x01 ∧ onlyWork s (endBody s)) := by
  simp only [endBody]
  split
  · rename_i hop
    exact .inl ⟨op_eq_of_toNat hop, rfl⟩
  · rename_i hop
    exact .inr ⟨by rw [op_eq_of_toNat hop]; decide, rfl⟩
  · rename_i hne _
    exact .inr ⟨fun h => hne (by rw [h]; rfl), rfl⟩

/-- The rest of a body is a PREPARE's last writes or work of a process command (rules R203, R250, R350, R450). -/
theorem restOfBody_cases {j ej : Nat} {s t : State} (h : restOfBody j ej s = .next t) :
    (Cmd.op s.latched = 0x01 ∧ t = markPrepared s) ∨ (Cmd.op s.latched ≠ 0x01 ∧ onlyWork s t) := by
  simp only [restOfBody] at h
  split at h
  · rename_i hop
    exact .inl ⟨op_eq_of_toNat hop, (Host.Outcome.next.inj h).symm⟩
  · rename_i hop
    obtain ⟨u, rfl, hu, -⟩ := renderFrom_writes h
    exact .inr ⟨by rw [op_eq_of_toNat hop]; decide, onlyWork_trans (onlyWork_of_render hu) rfl⟩
  · rename_i hop
    exact .inr ⟨by rw [op_eq_of_toNat hop]; decide, onlyWork_of_eq (eqFrom_frame h).1⟩
  · rename_i hop
    obtain ⟨q, hq⟩ := specFrames_ingested h
    exact .inr ⟨by rw [op_eq_of_toNat hop]; decide, onlyWork_of_spec hq.frame⟩
  · rename_i hne _ _ _
    exact .inr ⟨fun h => hne (by rw [h]; rfl), onlyWork_of_drained (Host.Outcome.next.inj h ▸ rfl)⟩

/-! ## What a part of a body reads -/

/-- `t` is `s` but for what a body changes while it reads its words: the voices with their events, ILLEGAL_COUNT, the
draw counter and the equalizer's signal state (rules R250, R350, R450). -/
def onlyReads (s t : State) : Prop :=
  t = { s with
    voices := t.voices, steals := t.steals, illegalCount := t.illegalCount, draws := t.draws, eq := t.eq }

theorem onlyReads_refl (s : State) : onlyReads s s := rfl

theorem onlyReads_trans {s t u : State} (h1 : onlyReads s t) (h2 : onlyReads t u) : onlyReads s u := by
  simp only [onlyReads] at *
  rw [h2, h1]

theorem onlyWork_of_reads {s t : State} (h : onlyReads s t) : onlyWork s t := by
  rw [onlyReads] at h
  rw [h]
  rfl

theorem applyEventWord_reads {s u t : State} {w : Cmd} (hs : onlyReads s u) (h : applyEventWord w u = .next t) :
    onlyReads s t := by
  obtain ⟨v, hv, hf⟩ := applyEventWord_completes w u
  obtain rfl := Host.Outcome.next.inj (hv.symm.trans h)
  rw [onlyEvents] at hf
  exact onlyReads_trans hs (by rw [hf]; rfl)

theorem applyEvent_reads {e : Nat} {s t : State} (h : applyEvent e s = .next t) : onlyReads s t :=
  applyEvent_inv (P := onlyReads s) (fun _ _ _ => applyEventWord_reads) (onlyReads_refl s) h

theorem dueEvent_reads {n cnt i ei : Nat} {s t : State} {due : Bool} (h : dueEvent n cnt i ei s = .next (due, t)) :
    onlyReads s t :=
  dueEvent_inv (P := onlyReads s) (fun _ hu => onlyReads_trans hu rfl) (onlyReads_refl s) h

theorem frameOut_reads {s t : State} {w : Word} (h : frameOut s = .next (w, t)) : onlyReads s t :=
  frameOut_inv (P := onlyReads s) (fun _ _ _ _ hu _ _ => onlyReads_trans hu rfl) (fun _ hu => onlyReads_trans hu rfl)
    (onlyReads_refl s) h

/-- Only an event of the list is due (rule R250). -/
theorem lt_of_dueEvent {n cnt i ei : Nat} {s t : State} (h : dueEvent n cnt i ei s = .next (true, t)) : ei < cnt := by
  by_contra hge
  simp [dueEvent, hge] at h

/-- Where a part of a body at frame or sample `j` and event `ej` takes the command: past an event, to the write of what
it has read, or to the end of the body. -/
def bodyReaches (s : State) (j ej : Nat) (p : Progress) : Prop :=
  (p = .running j (ej + 1) ∧ ej < eventCount (runEvents s)) ∨ (j < bodyLength s ∧ ∃ e w, p = .writing j e w) ∨
    p = .ending

/-- The part that applies an event (rule R250). -/
theorem eventPart_cases {e j ej : Nat} {s u t : State} (hs : onlyReads s u) (he : ej < eventCount (runEvents s))
    (h : (andThen (applyEvent e u) fun v => .next (reach (.running j (ej + 1)) v)) = .next t) :
    ∃ v p, t = reach p v ∧ onlyReads s v ∧ bodyReaches s j ej p := by
  obtain ⟨v, hv, h⟩ := andThen_eq_next.1 h
  exact ⟨v, _, (Host.Outcome.next.inj h).symm, onlyReads_trans hs (applyEvent_reads hv), .inl ⟨rfl, he⟩⟩

theorem renderPart_cases {j ej : Nat} {s t : State} (h : renderPart j ej s = .next t) :
    ∃ u p, t = reach p u ∧ onlyReads s u ∧ bodyReaches s j ej p := by
  simp only [renderPart] at h
  split at h
  · rename_i hj
    obtain ⟨⟨due, s1⟩, h1, h⟩ := andThen_eq_next.1 h
    have hs1 := dueEvent_reads h1
    cases due with
    | true => exact eventPart_cases hs1 (lt_of_dueEvent h1) h
    | false =>
      obtain ⟨⟨out, s2⟩, h2, h⟩ := andThen_eq_next.1 h
      exact ⟨s2, _, (Host.Outcome.next.inj h).symm, onlyReads_trans hs1 (frameOut_reads h2),
        .inr (.inl ⟨hj, ej, out, rfl⟩)⟩
  · split at h
    · rename_i he
      exact eventPart_cases (onlyReads_refl s) he h
    · exact ⟨s, _, (Host.Outcome.next.inj h).symm, rfl, .inr (.inr rfl)⟩

theorem eqPart_cases {j : Nat} (ej : Nat) {s t : State} (h : eqPart j s = .next t) :
    ∃ u p, t = reach p u ∧ onlyReads s u ∧ bodyReaches s j ej p := by
  simp only [eqPart] at h
  split at h
  · rename_i hj
    obtain ⟨⟨v, s1⟩, h1, h⟩ := andThen_eq_next.1 h
    exact ⟨s1, _, (Host.Outcome.next.inj h).symm, by rw [sampleOut_frame h1]; rfl, .inr (.inl ⟨hj, 0, v, rfl⟩)⟩
  · exact ⟨s, _, (Host.Outcome.next.inj h).symm, rfl, .inr (.inr rfl)⟩

theorem specPart_cases {j : Nat} (ej : Nat) {s t : State} (h : specPart j s = .next t) :
    ∃ u p, t = reach p u ∧ onlyReads s u ∧ bodyReaches s j ej p := by
  simp only [specPart] at h
  split at h
  · rename_i hj
    obtain ⟨m, -, h⟩ := andThen_eq_next.1 h
    exact ⟨s, _, (Host.Outcome.next.inj h).symm, rfl, .inr (.inl ⟨hj, 0, m, rfl⟩)⟩
  · exact ⟨s, _, (Host.Outcome.next.inj h).symm, rfl, .inr (.inr rfl)⟩

/-- A part of a body reads and takes the command a little further, and writes nothing yet (rules R250, R350, R450). -/
theorem bodyPart_cases {j ej : Nat} {s t : State} (h : bodyPart j ej s = .next t) :
    ∃ u p, t = reach p u ∧ onlyReads s u ∧ bodyReaches s j ej p := by
  simp only [bodyPart] at h
  split at h
  · exact renderPart_cases h
  · exact eqPart_cases ej h
  · exact specPart_cases ej h
  · exact ⟨s, _, (Host.Outcome.next.inj h).symm, rfl, .inr (.inr rfl)⟩

/-! ## What a part writes -/

/-- A part after the first one is work of the command, or a PREPARE's last writes (rules R203, R211, R250, R350, R450). -/
theorem enginePart_work {s t : State} (hp : s.progress ≠ .start) (h : enginePart s = .next t) :
    onlyWork s t ∨ (Cmd.op s.latched = 0x01 ∧ t = reach (.finishing .ok) (markPrepared s)) := by
  obtain ⟨-, rfl⟩ | ⟨-, ⟨h0, -⟩ | ⟨q, -, rfl⟩ | ⟨q, w, -, h⟩ | ⟨-, rfl⟩ | ⟨j, ej, -, h⟩ | ⟨j, ej, w, -, rfl⟩ |
    ⟨j, -, rfl⟩ | ⟨j, -, rfl⟩ | ⟨-, rfl⟩ | ⟨c, -, rfl⟩⟩ := enginePart_cases h
  · exact .inl rfl
  · exact absurd h0 hp
  · left
    simp only [drainPart]
    split <;> rfl
  · obtain ⟨u, hu, h⟩ := andThen_eq_next.1 h
    exact .inl (Host.Outcome.next.inj h ▸ onlyWork_reach _ (applyEntry_work hu))
  · exact .inl (onlyWork_reach _ (beginBody_work s))
  · obtain ⟨u, p, rfl, hu, -⟩ := bodyPart_cases h
    exact .inl (onlyWork_reach _ (onlyWork_of_reads hu))
  · exact .inl (onlyWork_reach _ (writeBody_work j w s))
  · left
    simp only [hopPart]
    split <;> rfl
  · exact .inl (onlyWork_reach _ (endPublication_work s))
  · obtain ⟨hop, he⟩ | ⟨-, he⟩ := endBody_cases s
    · exact .inr ⟨hop, by rw [he]⟩
    · exact .inl (onlyWork_reach _ he)
  · exact .inl rfl

/-- What the first part of a command does (rules R156, R201 to R204): it goes to the completion, for a NOP, an illegal
opcode or a check that fails; or a PREPARE latches its configuration; or a process command takes its tail snapshot. -/
theorem beginCommand_cases (s : State) :
    (∃ c, beginCommand s = reach (.finishing c) s) ∨
    (Cmd.op s.latched = 0x01 ∧ ∃ c e, prepareError s.cfg = some (c, e) ∧
      beginCommand s = reach (.finishing c) { s with cfgErrField := e }) ∨
    (Cmd.op s.latched = 0x01 ∧ prepareError s.cfg = none ∧
      beginCommand s = reach (.publishing 0) (advanceSeq (prepareLatch s))) ∨
    (pastChecks s ∧ beginCommand s = reach (.draining s.tail) s) := by
  by_cases hproc : Cmd.op s.latched = 0x02 ∨ Cmd.op s.latched = 0x03 ∨ Cmd.op s.latched = 0x04
  · have hb : beginCommand s = match prologueError (runBuffer s) s with
        | some c => reach (.finishing c) s
        | none => reach (.draining s.tail) s := by
      obtain h | h | h := hproc <;> simp only [beginCommand, h] <;> rfl
    obtain ⟨-, he⟩ | ⟨-, -, he⟩ | ⟨hprep, hk, he⟩ := prologueError_cases (runBuffer s) s <;> rw [hb, he]
    · exact .inl ⟨_, rfl⟩
    · exact .inl ⟨_, rfl⟩
    · exact .inr (.inr (.inr ⟨⟨hproc, hk, hprep⟩, rfl⟩))
  · simp only [beginCommand]
    split
    · exact .inl ⟨_, rfl⟩
    · rename_i hop
      split
      · rename_i c e he
        exact .inr (.inl ⟨op_eq_of_toNat hop, c, e, he, rfl⟩)
      · rename_i he
        exact .inr (.inr (.inl ⟨op_eq_of_toNat hop, he, rfl⟩))
    · rename_i hop
      exact absurd (.inl (op_eq_of_toNat hop)) hproc
    · rename_i hop
      exact absurd (.inr (.inl (op_eq_of_toNat hop))) hproc
    · rename_i hop
      exact absurd (.inr (.inr (op_eq_of_toNat hop))) hproc
    · exact .inl ⟨_, rfl⟩

/-! ## The loops, one round at a time -/

theorem andThen_congr {α β : Type} {r : Res α} {f g : α → Res β} (h : ∀ a, r = .next a → f a = g a) :
    andThen r f = andThen r g := by
  cases r with
  | next a => exact h a rfl
  | fault e => rfl
  | refused e => rfl

/-- The drain, one entry at a time: its fuel never ends before the queue does (rules R210, R211). -/
theorem drainTo_step {q : Fin 32} {s : State} (h : s.head ≠ q) :
    drainTo q 31 s = andThen (applyEntry s.slots[s.head] (popQueue s)) (drainTo q 31) := by
  rw [drainTo, if_neg h]
  refine andThen_congr fun t ht => ?_
  obtain ⟨u, hu, hf⟩ := applyEntry_completes s.slots[s.head] (popQueue s)
  obtain rfl := Host.Outcome.next.inj (ht.symm.trans hu)
  have hhead : t.head = s.head + 1 := by rw [hf]; rfl
  have hlt : (q - t.head).val ≤ 30 := by
    have := distance_succ h
    rw [hhead]
    omega
  rw [drainTo_eq q 30 t hlt, drainTo_eq q 31 t (by omega)]

theorem applyDue_past {n cnt i ei : Nat} (h : cnt ≤ ei) (fuel : Nat) (s : State) :
    applyDue n cnt i fuel ei s = .next (ei, s) := by
  cases fuel with
  | zero => rfl
  | succ fuel => simp [applyDue, dueEvent, Nat.not_lt.2 h]

/-- Fuel for every event left is fuel enough (rule R250). -/
theorem applyDue_fuel {n cnt i f g ei : Nat} (hf : cnt ≤ ei + f) (hg : cnt ≤ ei + g) (s : State) :
    applyDue n cnt i f ei s = applyDue n cnt i g ei s := by
  induction f generalizing g ei s with
  | zero => rw [applyDue_past (by omega), applyDue_past (by omega)]
  | succ f ih =>
    cases g with
    | zero => rw [applyDue_past (by omega), applyDue_past (by omega)]
    | succ g =>
      simp only [applyDue]
      refine andThen_congr fun ds _ => ?_
      split
      · exact andThen_congr fun u _ => ih (by omega) (by omega) u
      · rfl

/-- The events before a frame, one at a time (rule R250). -/
theorem applyDue_step (n cnt i ei : Nat) (s : State) :
    applyDue n cnt i cnt ei s = andThen (dueEvent n cnt i ei s) fun ds =>
      if ds.1 then andThen (applyEvent ei ds.2) (applyDue n cnt i cnt (ei + 1)) else .next (ei, ds.2) := by
  rw [applyDue_fuel (g := cnt + 1) (by omega) (by omega), applyDue]

theorem applyRest_fuel {cnt f g ei : Nat} (hf : cnt ≤ ei + f) (hg : cnt ≤ ei + g) (s : State) :
    applyRest cnt f ei s = applyRest cnt g ei s := by
  have hpast : ∀ {ei : Nat}, cnt ≤ ei → ∀ fuel s, applyRest cnt fuel ei s = .next s := fun h fuel s => by
    cases fuel with
    | zero => rfl
    | succ fuel => simp [applyRest, Nat.not_lt.2 h]
  induction f generalizing g ei s with
  | zero => rw [hpast (by omega), hpast (by omega)]
  | succ f ih =>
    cases g with
    | zero => rw [hpast (by omega), hpast (by omega)]
    | succ g =>
      simp only [applyRest]
      split
      · exact andThen_congr fun u _ => ih (by omega) (by omega) u
      · rfl

/-- The end of SYN_RENDER's body, one event at a time (rule R250). -/
theorem renderEnd_step (e : BitVec 16) (ei : Nat) (s : State) :
    renderEnd e ei s =
      if ei < eventCount e then andThen (applyEvent ei s) (renderEnd e (ei + 1)) else .next (publishSynth s) := by
  rw [renderEnd, applyRest_fuel (g := eventCount e + 1) (by omega) (by omega), applyRest]
  split
  · rw [andThen_assoc]
    exact andThen_congr fun u _ => congrArg (andThen · _) (applyRest_fuel (by omega) (by omega) u)
  · rfl

theorem range_drop_of_lt {n j : Nat} (h : j < n) : (List.range n).drop j = j :: (List.range n).drop (j + 1) := by
  rw [List.drop_eq_getElem_cons (by simpa using h), List.getElem_range]

theorem range_drop_of_le {n j : Nat} (h : n ≤ j) : (List.range n).drop j = [] :=
  List.drop_eq_nil_of_le (by simpa using h)

theorem frameCount_congr {s t : State} (h : t.act = s.act) (frames : Word) :
    frameCount frames t = frameCount frames s := by
  rw [frameCount, h, frameCount]

theorem act_of_reads {s t : State} (h : onlyReads s t) : t.act = s.act := by rw [h]

theorem applyDue_reads {n cnt i fuel ei : Nat} {s : State} {es : Nat × State}
    (h : applyDue n cnt i fuel ei s = .next es) : onlyReads s es.2 :=
  applyDue_inv (P := onlyReads s) (fun _ _ _ => applyEventWord_reads) (fun _ hu => onlyReads_trans hu rfl) _ _ _ _ _ _
    (onlyReads_refl s) _ h

/-- SYN_RENDER's body from a frame of the block on: the events before it, the frame, the frames after it (rule R250). -/
theorem renderFrom_frame {k : BitVec 8} {e : BitVec 16} {frames : Word} {j : Nat} (ej : Nat) {s : State}
    (hj : j < frameCount frames s) :
    renderFrom k e frames j ej s =
      andThen (applyDue (frameCount frames s) (eventCount e) j (eventCount e) ej s) fun es =>
        andThen (renderFrame (bufBase k.toNat) j es.2) (renderFrom k e frames (j + 1) es.1) := by
  simp only [renderFrom, range_drop_of_lt hj, renderFrames, andThen_assoc]
  refine andThen_congr fun es hes => andThen_congr fun u hu => ?_
  obtain ⟨⟨out, s1⟩, hos, hu⟩ := andThen_eq_next.1 hu
  have hact : u.act = s.act := by
    rw [← Host.Outcome.next.inj hu, writeFrame_act]
    exact (act_of_reads (frameOut_reads hos)).trans (act_of_reads (applyDue_reads hes))
  rw [renderFrom, frameCount_congr hact]

/-- SYN_RENDER's body from a frame of the block on, up to the next event applied or frame written (rule R250). -/
theorem renderFrom_step {k : BitVec 8} {e : BitVec 16} {frames : Word} {j : Nat} (ej : Nat) {s : State}
    (hj : j < frameCount frames s) :
    renderFrom k e frames j ej s = andThen (dueEvent (frameCount frames s) (eventCount e) j ej s) fun ds =>
      if ds.1 then andThen (applyEvent ej ds.2) (renderFrom k e frames j (ej + 1))
      else andThen (frameOut ds.2) fun os =>
        renderFrom k e frames (j + 1) ej (writeFrame (bufBase k.toNat + 4 * (j * actC os.2)) os.1 os.2) := by
  rw [renderFrom_frame ej hj, applyDue_step, andThen_assoc]
  refine andThen_congr fun ⟨due, s1⟩ h1 => ?_
  cases due with
  | true =>
    simp only [if_true, andThen_assoc]
    refine andThen_congr fun u hu => ?_
    have hact : u.act = s.act := (act_of_reads (applyEvent_reads hu)).trans (act_of_reads (dueEvent_reads h1))
    rw [renderFrom_frame (ej + 1) (by rwa [frameCount_congr hact]), frameCount_congr hact]
  | false => simp [renderFrame, andThen_assoc]

/-- SYN_RENDER's body after its last frame (rule R250). -/
theorem renderFrom_end {k : BitVec 8} {e : BitVec 16} {frames : Word} {j : Nat} (ej : Nat) {s : State}
    (hj : frameCount frames s ≤ j) : renderFrom k e frames j ej s = renderEnd e ej s := by
  simp only [renderFrom, range_drop_of_le hj, renderFrames, andThen_next]

/-- EQ_PROCESS's samples from a sample of the block on (rule R350). -/
theorem eqFrom_step {k : BitVec 8} {frames : Word} {j : Nat} {s : State}
    (hj : j < eqLength (frameCount frames s) s) :
    eqFrom k frames j s = andThen (sampleOut (bufBase k.toNat) j s) fun vs =>
      eqFrom k frames (j + 1) (writeWord vs.2 (bufBase k.toNat + 4 * j) vs.1) := by
  rw [eqFrom, range_drop_of_lt hj, eqSamples]
  refine andThen_congr fun ⟨v, s1⟩ h1 => ?_
  rw [sampleOut_frame h1]
  rfl

theorem eqFrom_end {k : BitVec 8} {frames : Word} {j : Nat} {s : State} (hj : eqLength (frameCount frames s) s ≤ j) :
    eqFrom k frames j s = .next s := by
  rw [eqFrom, range_drop_of_le hj, eqSamples]

/-- SPEC_PROCESS's body from a frame of the block on (rule R450). -/
theorem specFrom_step {k : BitVec 8} {frames : Word} {j : Nat} {s : State} (hj : j < frameCount frames s) :
    specFrom k frames j s = andThen (monoFrame s (bufBase k.toNat) j) fun m =>
      specFrom k frames (j + 1) (ingestAndAnalyse m s) := by
  rw [specFrom, range_drop_of_lt hj, specFrames]
  refine andThen_congr fun m _ => ?_
  have hact : (ingestAndAnalyse m s).act = s.act := by rw [ingestAndAnalyse_frame m s]
  rw [specFrom, frameCount_congr hact]

theorem specFrom_end {k : BitVec 8} {frames : Word} {j : Nat} {s : State} (hj : frameCount frames s ≤ j) :
    specFrom k frames j s = .next s := by
  rw [specFrom, range_drop_of_le hj, specFrames]

/-! ## The rest of a command, by how far it has come -/

/-- The rest of a body with the completion of a command of opcode `op` (rule R200). -/
def completeBody (op : BitVec 8) (j ej : Nat) (s : State) : Res State :=
  andThen (restOfBody j ej s) fun u => .next (finish .ok op u)

/-- How far the command has come is no matter to the rest of a body. -/
@[simp] theorem completeBody_reach (op : BitVec 8) (j ej : Nat) (p : Progress) (s : State) :
    completeBody op j ej (reach p s) = completeBody op j ej s := by
  simp only [completeBody, restOfBody_reach, andThen_assoc, andThen_next, finish_reach]

section
variable {i : Instr} {s : State}

theorem restOfCommand_draining {q : Fin 32} (h : s.progress = .draining q) :
    restOfCommand i s = andThen (drainTo q 31 s) fun u => completeBody (Cmd.op s.latched) 0 0 (beginBody u) := by
  simp only [restOfCommand, h, completeBody]

theorem restOfCommand_applying {q : Fin 32} {w : Cmd} (h : s.progress = .applying q w) :
    restOfCommand i s = andThen (applyEntry w s) fun u =>
      andThen (drainTo q 31 u) fun v => completeBody (Cmd.op s.latched) 0 0 (beginBody v) := by
  simp only [restOfCommand, h, completeBody]

theorem restOfCommand_beginning (h : s.progress = .beginning) :
    restOfCommand i s = completeBody (Cmd.op s.latched) 0 0 (beginBody s) := by
  simp only [restOfCommand, h, completeBody]

theorem restOfCommand_running {j ej : Nat} (h : s.progress = .running j ej) :
    restOfCommand i s = completeBody (Cmd.op s.latched) j ej s := by
  simp only [restOfCommand, h, completeBody]

theorem restOfCommand_writing {j ej : Nat} {w : Word} (h : s.progress = .writing j ej w) :
    restOfCommand i s = completeBody (Cmd.op s.latched) (j + 1) ej
      (if Cmd.op s.latched = 0x04 then afterIngest (writeBody j w s) else writeBody j w s) := by
  simp only [restOfCommand, h, completeBody]

theorem restOfCommand_ingested {j : Nat} (h : s.progress = .ingested j) :
    restOfCommand i s = completeBody (Cmd.op s.latched) j 0 (afterIngest s) := by
  simp only [restOfCommand, h, completeBody]

theorem restOfCommand_publishing {j : Nat} (h : s.progress = .publishing j) :
    restOfCommand i s = completeBody (Cmd.op s.latched) j 0 (endPublication s) := by
  simp only [restOfCommand, h, completeBody]

theorem restOfCommand_ending (h : s.progress = .ending) :
    restOfCommand i s = .next (finish .ok (Cmd.op s.latched) (endBody s)) := by
  simp only [restOfCommand, h]

theorem restOfCommand_finishing {c : ResultCode} (h : s.progress = .finishing c) :
    restOfCommand i s = .next (finish c (Cmd.op s.latched) s) := by
  simp only [restOfCommand, h]

end

theorem latched_of_work {s t : State} (h : onlyWork s t) : t.latched = s.latched := by rw [h]

theorem op_of_work {s t : State} (h : onlyWork s t) : Cmd.op t.latched = Cmd.op s.latched := by rw [h]

theorem act_of_work {s t : State} (h : onlyWork s t) : t.act = s.act := by rw [h]

theorem writeWord_work (a : Nat) (w : Word) (s : State) : onlyWork s (writeWord s a w) := rfl

theorem writeFrame_work (a : Nat) (w : Word) (s : State) : onlyWork s (writeFrame a w s) := rfl

/-! ## The body of each command -/

section
variable {s u : State} (hu : onlyWork s u) (j ej : Nat)
include hu

theorem restOfBody_prepare (hop : Cmd.op s.latched = 0x01) : restOfBody j ej u = .next (markPrepared u) := by
  simp only [restOfBody, latched_of_work hu, hop]
  rfl

theorem restOfBody_synRender (hop : Cmd.op s.latched = 0x02) :
    restOfBody j ej u = renderFrom (runBuffer s) (runEvents s) (Cmd.fieldV s.latched) j ej u := by
  simp only [restOfBody, runBuffer, runEvents, latched_of_work hu, hop]
  rfl

theorem restOfBody_eqProcess (hop : Cmd.op s.latched = 0x03) :
    restOfBody j ej u = eqFrom (runBuffer s) (Cmd.fieldV s.latched) j u := by
  simp only [restOfBody, runBuffer, latched_of_work hu, hop]
  rfl

theorem restOfBody_specProcess (hop : Cmd.op s.latched = 0x04) :
    restOfBody j ej u = specFrom (runBuffer s) (Cmd.fieldV s.latched) j u := by
  simp only [restOfBody, runBuffer, latched_of_work hu, hop]
  rfl

theorem writeBody_synRender (w : Word) (hop : Cmd.op s.latched = 0x02) :
    writeBody j w u = writeFrame (bufBase (runBuffer s).toNat + 4 * (j * actC u)) w u := by
  simp only [writeBody, bodyAddress, runBuffer, latched_of_work hu, hop]
  rfl

theorem writeBody_eqProcess (w : Word) (hop : Cmd.op s.latched = 0x03) :
    writeBody j w u = writeWord u (bufBase (runBuffer s).toNat + 4 * j) w := by
  simp only [writeBody, bodyAddress, runBuffer, latched_of_work hu, hop]
  rfl

theorem writeBody_specProcess (w : Word) (hop : Cmd.op s.latched = 0x04) : writeBody j w u = ingestFrame w u := by
  simp only [writeBody, latched_of_work hu, hop]
  rfl

end

theorem beginBody_eqProcess {s : State} (hop : Cmd.op s.latched = 0x03) : beginBody s = eqBegin s := if_pos hop

theorem beginBody_of_ne {s : State} (hop : Cmd.op s.latched ≠ 0x03) : beginBody s = s := if_neg hop

theorem bodyLength_of_ne {s : State} (hop : Cmd.op s.latched ≠ 0x03) :
    bodyLength s = frameCount (Cmd.fieldV s.latched) s :=
  if_neg hop

theorem bodyLength_eqProcess {s : State} (hop : Cmd.op s.latched = 0x03) :
    bodyLength s = eqLength (frameCount (Cmd.fieldV s.latched) s) s := if_pos hop

theorem endBody_synRender {s : State} (hop : Cmd.op s.latched = 0x02) : endBody s = publishSynth s := by
  simp only [endBody, hop]
  rfl

/-- The end of an EQ_PROCESS's or a SPEC_PROCESS's body does nothing. -/
theorem endBody_of_ne {s : State} (h1 : Cmd.op s.latched ≠ 0x01) (h2 : Cmd.op s.latched ≠ 0x02) : endBody s = s := by
  simp only [endBody]
  split
  · rename_i hop
    exact absurd (op_eq_of_toNat hop) h1
  · rename_i hop
    exact absurd (op_eq_of_toNat hop) h2
  · rfl

/-! ## A part of a body and its rest -/

section
variable (i : Instr) {s : State} (j ej : Nat)

/-- An event applied in its own part, then the rest of the body. -/
theorem eventPart_rest {u : State} (hu : onlyReads s u) :
    (andThen (andThen (applyEvent ej u) fun v => .next (reach (.running j (ej + 1)) v)) (restOfCommand i)) =
      andThen (applyEvent ej u) (completeBody (Cmd.op s.latched) j (ej + 1)) := by
  rw [andThen_assoc]
  refine andThen_congr fun v hv => ?_
  rw [andThen_next, restOfCommand_running (j := j) (ej := ej + 1) rfl, completeBody_reach, reach_latched,
    op_of_work (onlyWork_of_reads (onlyReads_trans hu (applyEvent_reads hv)))]

theorem completeBody_synRender (hop : Cmd.op s.latched = 0x02) :
    completeBody (Cmd.op s.latched) j ej s = andThen (renderPart j ej s) (restOfCommand i) := by
  have hlen := bodyLength_of_ne (s := s) (by rw [hop]; decide)
  rw [completeBody, restOfBody_synRender (onlyWork_refl s) j ej hop, renderPart]
  by_cases hj : j < bodyLength s
  · simp only [if_pos hj]
    rw [renderFrom_step ej (hlen ▸ hj), andThen_assoc, andThen_assoc]
    refine andThen_congr fun ⟨due, s1⟩ h1 => ?_
    have hs1 := dueEvent_reads h1
    cases due with
    | true =>
      simp only [if_true]
      rw [eventPart_rest i j ej hs1, andThen_assoc]
      refine andThen_congr fun u hu => ?_
      rw [completeBody, restOfBody_synRender (onlyWork_of_reads (onlyReads_trans hs1 (applyEvent_reads hu))) _ _ hop]
    | false =>
      simp only [Bool.false_eq_true, if_false, andThen_assoc]
      refine andThen_congr fun ⟨out, s2⟩ h2 => ?_
      have hs2 := onlyWork_of_reads (onlyReads_trans hs1 (frameOut_reads h2))
      have hop2 : Cmd.op s2.latched = 0x02 := (op_of_work hs2).trans hop
      rw [andThen_next, restOfCommand_writing (j := j) (ej := ej) (w := out) rfl, writeBody_reach, reach_latched, hop2,
        if_neg (by decide), completeBody_reach, writeBody_synRender hs2 j out hop, completeBody,
        restOfBody_synRender (onlyWork_trans hs2 (writeFrame_work ..)) _ _ hop, hop]
  · simp only [if_neg hj]
    rw [renderFrom_end ej (hlen ▸ Nat.le_of_not_lt hj), renderEnd_step]
    split
    · rename_i he
      rw [eventPart_rest i j ej (onlyReads_refl s), andThen_assoc]
      refine andThen_congr fun u hu => ?_
      have hu := onlyWork_of_reads (applyEvent_reads hu)
      have hlenu : frameCount (Cmd.fieldV s.latched) u ≤ j := by
        rw [frameCount_congr (act_of_work hu), ← hlen]
        exact Nat.le_of_not_lt hj
      rw [completeBody, restOfBody_synRender hu _ _ hop, renderFrom_end _ hlenu]
    · rw [andThen_next, andThen_next, restOfCommand_ending rfl, endBody_reach, finish_reach, reach_latched,
        endBody_synRender hop]

theorem completeBody_eqProcess (hop : Cmd.op s.latched = 0x03) :
    completeBody (Cmd.op s.latched) j ej s = andThen (eqPart j s) (restOfCommand i) := by
  have hlen := bodyLength_eqProcess hop
  rw [completeBody, restOfBody_eqProcess (onlyWork_refl s) j ej hop, eqPart]
  by_cases hj : j < bodyLength s
  · rw [if_pos hj, eqFrom_step (hlen ▸ hj), andThen_assoc, andThen_assoc]
    refine andThen_congr fun ⟨v, s1⟩ h1 => ?_
    have hs1 : onlyWork s s1 := by
      rw [sampleOut_frame h1]
      rfl
    have hop1 : Cmd.op s1.latched = 0x03 := (op_of_work hs1).trans hop
    rw [andThen_next, restOfCommand_writing (j := j) (ej := 0) (w := v) rfl, writeBody_reach, reach_latched, hop1,
      if_neg (by decide), completeBody_reach, writeBody_eqProcess hs1 j v hop, completeBody,
      restOfBody_eqProcess (onlyWork_trans hs1 (writeWord_work ..)) _ _ hop, hop]
  · rw [if_neg hj, eqFrom_end (hlen ▸ Nat.le_of_not_lt hj), andThen_next, andThen_next, restOfCommand_ending rfl,
      endBody_reach, finish_reach, reach_latched, endBody_of_ne (by rw [hop]; decide) (by rw [hop]; decide)]

theorem completeBody_specProcess (hop : Cmd.op s.latched = 0x04) :
    completeBody (Cmd.op s.latched) j ej s = andThen (specPart j s) (restOfCommand i) := by
  have hlen := bodyLength_of_ne (s := s) (by rw [hop]; decide)
  rw [completeBody, restOfBody_specProcess (onlyWork_refl s) j ej hop, specPart]
  by_cases hj : j < bodyLength s
  · rw [if_pos hj, specFrom_step (hlen ▸ hj), andThen_assoc, andThen_assoc]
    refine andThen_congr fun m _ => ?_
    rw [andThen_next, restOfCommand_writing (j := j) (ej := 0) (w := m) rfl, writeBody_reach, reach_latched, if_pos hop,
      writeBody_specProcess (onlyWork_refl s) j m hop, afterIngest_reach, completeBody_reach, completeBody,
      restOfBody_specProcess (u := afterIngest (ingestFrame m s)) (onlyWork_of_spec (ingestAndAnalyse_frame m s)) _ _
        hop]
    rfl
  · rw [if_neg hj, specFrom_end (hlen ▸ Nat.le_of_not_lt hj), andThen_next, andThen_next, restOfCommand_ending rfl,
      endBody_reach, finish_reach, reach_latched, endBody_of_ne (by rw [hop]; decide) (by rw [hop]; decide)]

end

/-! ## A part and the rest of the command -/

/-- The first part of a process command (rules R204, R211). -/
theorem beginCommand_process {s : State}
    (hop : Cmd.op s.latched = 0x02 ∨ Cmd.op s.latched = 0x03 ∨ Cmd.op s.latched = 0x04) :
    beginCommand s =
      reach (((prologueError (runBuffer s) s).map .finishing).getD (.draining s.tail)) s := by
  obtain h | h | h := hop <;>
  · simp only [beginCommand, h]
    cases prologueError (runBuffer s) s <;> rfl

/-- The first part of a PREPARE that fails a check (rules R40, R202). -/
theorem beginCommand_of_failing {s : State} {ce : ResultCode × Word} (hop : Cmd.op s.latched = 0x01)
    (he : prepareError s.cfg = some ce) :
    beginCommand s = reach (.finishing ce.1) { s with cfgErrField := ce.2 } := by
  simp only [beginCommand, hop, he]
  rfl

/-- The first part of a PREPARE that passes its checks (rules R203, R655). -/
theorem beginCommand_of_passing {s : State} (hop : Cmd.op s.latched = 0x01) (he : prepareError s.cfg = none) :
    beginCommand s = reach (.publishing 0) (advanceSeq (prepareLatch s)) := by
  simp only [beginCommand, hop, he]
  rfl

/-- A process command executed whole is the rest of it after its checks (rules R204, R211). -/
theorem processCommand_begin {i : Instr} {s : State} {body : State → Res State}
    (hop : Cmd.op s.latched = 0x02 ∨ Cmd.op s.latched = 0x03 ∨ Cmd.op s.latched = 0x04)
    (hbody : ∀ u, onlyWork s u → body u = restOfBody 0 0 (beginBody u)) :
    processCommand (Cmd.op s.latched) (runBuffer s) body s = restOfCommand i (beginCommand s) := by
  rw [beginCommand_process hop, processCommand]
  cases prologueError (runBuffer s) s with
  | some c => rw [restOfCommand_finishing rfl, finish_reach, reach_latched]
  | none =>
    rw [restOfCommand_draining rfl, drainTo_reach, andThen_assoc]
    refine andThen_congr fun u hu => ?_
    rw [andThen_next, beginBody_reach, completeBody_reach, hbody u (drainTo_work hu)]
    rfl

/-- A command executed whole is the rest of it after its first part (rules R200 to R204). -/
theorem exec_eq_rest_of_begin {i : Instr} {s : State} (hi : decodeWord .doorbell s.latched = .ok i) :
    exec i s = restOfCommand i (beginCommand s) := by
  obtain ⟨hop, rfl⟩ | ⟨hop, rfl⟩ | ⟨hop, rfl⟩ | ⟨hop, rfl⟩ | ⟨hop, rfl⟩ := decodeDoorbell_ok_iff.1 hi
  · have hb : beginCommand s = reach (.finishing .ok) s := by
      simp only [beginCommand, hop]
      rfl
    rw [hb, restOfCommand_finishing rfl, finish_reach, reach_latched, hop]
    rfl
  · cases he : prepareError s.cfg with
    | some ce =>
      rw [beginCommand_of_failing hop he, restOfCommand_finishing rfl, finish_reach, reach_latched]
      simp only [exec, execPrepare, he, hop]
    | none =>
      have hop1 : Cmd.op (advanceSeq (prepareLatch s)).latched = 0x01 := hop
      rw [beginCommand_of_passing hop he, restOfCommand_publishing rfl, endPublication_reach, completeBody_reach,
        completeBody, restOfBody_prepare (endPublication_work _) _ _ hop1, endPublication, if_pos hop1, reach_latched,
        hop1]
      simp only [exec, execPrepare, he]
      rfl
  · rw [exec_synRender, ← hop]
    refine processCommand_begin (.inl hop) fun u hu => ?_
    rw [beginBody_of_ne (by rw [op_of_work hu, hop]; decide), restOfBody_synRender hu _ _ hop]
    rfl
  · rw [exec_eqProcess, ← hop]
    refine processCommand_begin (.inr (.inl hop)) fun u hu => ?_
    rw [restOfBody_eqProcess (onlyWork_trans hu (beginBody_work u)) _ _ hop,
      beginBody_eqProcess ((op_of_work hu).trans hop)]
    rfl
  · rw [exec_specProcess, ← hop]
    refine processCommand_begin (.inr (.inr hop)) fun u hu => ?_
    rw [beginBody_of_ne (by rw [op_of_work hu, hop]; decide), restOfBody_specProcess hu _ _ hop]
    rfl

/-- A legal command that has passed its first part and is not at its completion is a doorbell command (rule R204). -/
theorem decoded_of_commandLegal {s : State} (hl : commandLegal s) (hb : s.busy = true) (hs : s.progress ≠ .start)
    (hf : ∀ c, s.progress ≠ .finishing c) : ∃ i, decodeWord .doorbell s.latched = .ok i := by
  have hop : ¬ 4 < (Cmd.op s.latched).toNat := by
    obtain h | ⟨h | h | h, -⟩ := commandLegal_cases hl hb hs hf <;> rw [h] <;> decide
  cases hd : decodeWord .doorbell s.latched with
  | ok i => exact ⟨i, rfl⟩
  | error e => exact absurd (decodeDoorbell_error_iff.1 ⟨e, hd⟩) hop

/-- The rest of a legal command is its next part and the rest after that part (rules R32, R200). -/
theorem restOfCommand_parts {i : Instr} {s : State} (hb : s.busy = true) (hl : commandLegal s)
    (hi : decodeWord .doorbell s.latched = .ok i) :
    restOfCommand i s = andThen (enginePart s) (restOfCommand i) := by
  have hl := hl hb
  rw [enginePart, if_pos hb]
  cases hp : s.progress with
  | start =>
    dsimp only
    rw [restOfCommand_start hp, andThen_next, exec_eq_rest_of_begin hi]
  | draining q =>
    dsimp only
    rw [restOfCommand_draining hp, andThen_next, drainPart]
    split
    · rename_i hq
      rw [restOfCommand_beginning rfl, drainTo, if_pos hq, andThen_next, beginBody_reach, completeBody_reach,
        reach_latched]
    · rename_i hq
      rw [restOfCommand_applying rfl, drainTo_step hq, applyEntry_reach, andThen_assoc, andThen_assoc]
      refine andThen_congr fun u _ => ?_
      rw [andThen_next, drainTo_reach, andThen_assoc]
      refine andThen_congr fun v _ => ?_
      rw [andThen_next, beginBody_reach, completeBody_reach]
      rfl
  | applying q w =>
    dsimp only
    rw [restOfCommand_applying hp, applyPart, andThen_assoc]
    refine andThen_congr fun u hu => ?_
    rw [andThen_next, restOfCommand_draining rfl, drainTo_reach, andThen_assoc, reach_latched,
      op_of_work (applyEntry_work hu)]
    refine andThen_congr fun v _ => ?_
    rw [andThen_next, beginBody_reach, completeBody_reach]
  | beginning =>
    dsimp only
    rw [restOfCommand_beginning hp, andThen_next, restOfCommand_running rfl, completeBody_reach, reach_latched,
      op_of_work (beginBody_work s)]
  | running j ej =>
    dsimp only
    have hpast : pastChecks s := by simpa only [hp] using hl
    rw [restOfCommand_running hp]
    obtain hop | hop | hop := hpast.1
    · rw [completeBody_synRender i j ej hop]
      simp only [bodyPart, hop]
      rfl
    · rw [completeBody_eqProcess i j ej hop]
      simp only [bodyPart, hop]
      rfl
    · rw [completeBody_specProcess i j ej hop]
      simp only [bodyPart, hop]
      rfl
  | writing j ej w =>
    dsimp only
    rw [restOfCommand_writing hp, andThen_next, writePart]
    split
    · rename_i hop
      have hwork := onlyWork_trans (writeBody_work j w s) (afterIngest_work _)
      rw [restOfCommand_ingested rfl, afterIngest_reach, completeBody_reach, reach_latched,
        op_of_work (writeBody_work j w s), completeBody, restOfBody_specProcess hwork _ _ hop, completeBody,
        restOfBody_specProcess hwork _ _ hop]
    · rw [restOfCommand_running rfl, completeBody_reach, reach_latched, op_of_work (writeBody_work j w s)]
  | ingested j =>
    dsimp only
    have hop : Cmd.op s.latched = 0x04 := by
      simp only [hp] at hl
      exact hl.1
    rw [restOfCommand_ingested hp, andThen_next, hopPart, afterIngest]
    split
    · have hop' : Cmd.op (advanceSeq (clearPending s)).latched ≠ 0x01 := by
        show Cmd.op s.latched ≠ 0x01
        rw [hop]
        decide
      rw [restOfCommand_publishing rfl, endPublication_reach, completeBody_reach, endPublication, if_neg hop']
      rfl
    · rw [restOfCommand_running rfl, completeBody_reach, reach_latched]
  | publishing j =>
    dsimp only
    have hop' := op_of_work (endPublication_work s)
    rw [restOfCommand_publishing hp, andThen_next, publishPart]
    split
    · rename_i hop
      rw [restOfCommand_ending rfl, endBody_reach, finish_reach, reach_latched, hop', completeBody,
        restOfBody_prepare (endPublication_work s) _ _ hop, andThen_next]
      simp only [endBody, hop', hop]
      rfl
    · rw [restOfCommand_running rfl, completeBody_reach, reach_latched, hop']
  | ending =>
    dsimp only
    have hop : Cmd.op (endBody s).latched = Cmd.op s.latched := by
      obtain ⟨-, h⟩ | ⟨-, h⟩ := endBody_cases s
      · rw [h]
        rfl
      · exact op_of_work h
    rw [restOfCommand_ending hp, andThen_next, restOfCommand_finishing rfl, finish_reach, reach_latched, hop]
  | finishing c =>
    dsimp only
    rw [andThen_next]

/-! ## The turn and its parts -/

/-- The engine's turn of a command the decoder accepts (rule R200). -/
theorem engineTurn_of_rest {i : Instr} {s : State} (hb : s.busy = true) (hi : decodeWord .doorbell s.latched = .ok i) :
    engineTurn s = andThen (restOfCommand i s) fun u => .next (settleRaces u) := by
  simp only [engineTurn, fetch, hb, hi, if_true]

/-- What a part leaves as it is whatever the command: BUSY, the latched word, the completion registers and the pending
configuration; of any command but a PREPARE also the active configuration, PREPARED and CFG_ERR_FIELD (rule R200). -/
structure SameCommand (s t : State) : Prop where
  busy : t.busy = s.busy
  latched : t.latched = s.latched
  cmdResult : t.cmdResult = s.cmdResult
  cmdCount : t.cmdCount = s.cmdCount
  lastCycles : t.lastCycles = s.lastCycles
  cfg : t.cfg = s.cfg
  config : Cmd.op s.latched ≠ 0x01 → t.act = s.act ∧ t.prepared = s.prepared ∧ t.cfgErrField = s.cfgErrField

theorem sameCommand_of_work {s t : State} (h : onlyWork s t) : SameCommand s t := by
  rw [onlyWork] at h
  rw [h]
  exact ⟨rfl, rfl, rfl, rfl, rfl, rfl, fun _ => ⟨rfl, rfl, rfl⟩⟩

theorem enginePart_sameCommand {s t : State} (h : enginePart s = .next t) : SameCommand s t := by
  by_cases hp : s.progress = .start
  · obtain ⟨-, rfl⟩ | ⟨-, ⟨-, rfl⟩ | h⟩ := enginePart_cases h
    · exact sameCommand_of_work (onlyWork_refl _)
    · obtain ⟨c, e⟩ | ⟨hop, c, f, -, e⟩ | ⟨hop, -, e⟩ | ⟨-, e⟩ := beginCommand_cases s <;> rw [e]
      · exact sameCommand_of_work (onlyWork_reach _ (onlyWork_refl s))
      · exact ⟨rfl, rfl, rfl, rfl, rfl, rfl, fun hne => absurd hop hne⟩
      · exact ⟨rfl, rfl, rfl, rfl, rfl, rfl, fun hne => absurd hop hne⟩
      · exact sameCommand_of_work (onlyWork_reach _ (onlyWork_refl s))
    · simp [hp] at h
  · obtain h | ⟨hop, rfl⟩ := enginePart_work hp h
    · exact sameCommand_of_work h
    · exact ⟨rfl, rfl, rfl, rfl, rfl, rfl, fun hne => absurd hop hne⟩

theorem reach_of_progress {s : State} {p : Progress} (h : s.progress = p) : reach p s = s := by
  subst h
  rfl

/-- The engine's turn is the next part and the turn from after it (rules R32, R200). -/
theorem engineTurn_parts {s : State} (hb : s.busy = true) (hl : commandLegal s) :
    engineTurn s = andThen (enginePart s) engineTurn := by
  cases hd : decodeWord .doorbell s.latched with
  | ok i =>
    rw [engineTurn_of_rest hb hd, restOfCommand_parts hb hl hd, andThen_assoc]
    refine andThen_congr fun t ht => ?_
    have hsame := enginePart_sameCommand ht
    rw [engineTurn_of_rest (hsame.busy.trans hb) (by rw [hsame.latched, hd])]
  | error e =>
    have hop : 4 < (Cmd.op s.latched).toNat := decodeDoorbell_error_iff.1 ⟨e, hd⟩
    obtain ⟨p, hp⟩ : ∃ p, enginePart s = .next (reach p s) := by
      rw [enginePart, if_pos hb]
      cases hp : s.progress with
      | start =>
        obtain ⟨c, h⟩ | ⟨h, -⟩ | ⟨h, -⟩ | ⟨⟨h | h | h, -⟩, -⟩ := beginCommand_cases s
        · exact ⟨_, congrArg _ h⟩
        all_goals
          rw [h] at hop
          exact absurd hop (by decide)
      | finishing c => exact ⟨.finishing c, congrArg _ (reach_of_progress hp).symm⟩
      | _ =>
        obtain ⟨i, hi⟩ := decoded_of_commandLegal hl hb (by simp [hp]) (by simp [hp])
        rw [hi] at hd
        cases hd
    rw [engineTurn_of_refused hb hd, hp, andThen_next, engineTurn_of_refused (s := reach p s) hb hd, illegalDoorbell,
      illegalDoorbell, finish_reach, reach_latched]

/-- Settles O45: the turn from before a part is that part and the turn from after it. -/
theorem partsLeadToTheSameCompletion : Obligations.PartsLeadToTheSameCompletion := by
  unfold Obligations.PartsLeadToTheSameCompletion
  refine ⟨fun s rest h => by rw [step, nextTurn, h]; rfl, fun s t hl h => ?_⟩
  have hsame := enginePart_sameCommand h
  refine ⟨?_, hsame.busy, hsame.latched, hsame.cmdResult, hsame.cmdCount, hsame.lastCycles, hsame.cfg, hsame.config⟩
  cases hb : s.busy with
  | true => rw [engineTurn_parts hb hl, h, andThen_next]
  | false =>
    rw [enginePart, hb] at h
    rw [← Host.Outcome.next.inj h]

end Sys2Proof.Machine
end

section
/-! SUPPORT. The command in progress and the active configuration stay legal (rules R43, R202 to R204), and with that an
induction over the parts of a turn: what every part keeps holds where the turn completes the command. -/

namespace Sys2Proof.Machine

/-! ## Commands that come as far as they may -/

theorem bodyLength_congr {s t : State} (hl : t.latched = s.latched) (ha : t.act = s.act) (hg : t.eqg = s.eqg) :
    bodyLength t = bodyLength s := by
  simp only [bodyLength, runFrames, eqLength, frameCount, actC, hl, ha, hg]

theorem bodyLength_of_reads {s t : State} (h : onlyReads s t) : bodyLength t = bodyLength s :=
  bodyLength_congr (by rw [h]) (by rw [h]) (by rw [h])

theorem pastChecks_of_work {s t : State} (h : onlyWork s t) (hp : pastChecks s) : pastChecks t := by
  rw [h]
  exact hp

/-- What a process command past its checks may have come to: it writes within its block, and only a SPEC_PROCESS ingests
and publishes (rules R250, R350, R450). -/
def comesTo (s : State) (p : Progress) : Prop :=
  match p with
  | .writing j _ _ => j < bodyLength s
  | .ingested _ | .publishing _ => Cmd.op s.latched = 0x04
  | .start | .draining _ | .applying _ _ | .beginning | .running _ _ | .ending | .finishing _ => True

theorem commandLegal_of_past {s : State} (hp : pastChecks s) (h : comesTo s s.progress) : commandLegal s := by
  intro _
  cases hs : s.progress <;> simp only [hs, comesTo] at h ⊢
  case draining | applying | beginning | running => exact hp
  case writing | ingested => exact ⟨h, hp⟩
  case publishing => exact .inr ⟨h, hp⟩
  case ending => exact .inr hp

/-- A part after which the command is at its completion. -/
theorem commandLegal_finishing (c : ResultCode) (s : State) : commandLegal (reach (.finishing c) s) := fun _ => trivial

theorem op_ne_prepare_of_past {s : State} (h : pastChecks s) : Cmd.op s.latched ≠ 0x01 := by
  obtain ⟨h | h | h, -⟩ := h <;> rw [h] <;> decide

/-- A part takes the command as far as it may come (rules R203, R204, R450, R472). -/
theorem enginePart_commandLegal {s t : State} (hl : commandLegal s) (h : enginePart s = .next t) : commandLegal t := by
  obtain ⟨-, rfl⟩ | ⟨hb, h⟩ := enginePart_cases h
  · exact hl
  have hl' := hl hb
  obtain ⟨hp, rfl⟩ | ⟨q, hp, rfl⟩ | ⟨q, w, hp, h⟩ | ⟨hp, rfl⟩ | ⟨j, ej, hp, h⟩ | ⟨j, ej, w, hp, rfl⟩ | ⟨j, hp, rfl⟩ |
    ⟨j, hp, rfl⟩ | ⟨hp, rfl⟩ | ⟨c, hp, rfl⟩ := h <;> simp only [hp] at hl'
  · obtain ⟨c, e⟩ | ⟨-, c, f, -, e⟩ | ⟨hop, -, e⟩ | ⟨hpast, e⟩ := beginCommand_cases s <;> rw [e]
    · exact commandLegal_finishing c s
    · exact commandLegal_finishing c _
    · exact fun _ => .inl hop
    · exact commandLegal_of_past hpast trivial
  · rw [drainPart]
    split
    · exact commandLegal_of_past hl' trivial
    · exact commandLegal_of_past hl' trivial
  · obtain ⟨u, hu, h⟩ := andThen_eq_next.1 h
    exact Host.Outcome.next.inj h ▸ commandLegal_of_past
      (pastChecks_of_work (onlyWork_reach _ (applyEntry_work hu)) hl') trivial
  · exact commandLegal_of_past (pastChecks_of_work (onlyWork_reach _ (beginBody_work s)) hl') trivial
  · obtain ⟨u, p, rfl, hu, hbody⟩ := bodyPart_cases h
    have hpast : pastChecks u := pastChecks_of_work (onlyWork_of_reads hu) hl'
    obtain ⟨rfl, -⟩ | ⟨hj, e, w, rfl⟩ | rfl := hbody
    · exact commandLegal_of_past hpast trivial
    · exact commandLegal_of_past hpast (show j < bodyLength u by rwa [bodyLength_of_reads hu])
    · exact commandLegal_of_past hpast trivial
  · have hpast := fun p => pastChecks_of_work (onlyWork_reach p (writeBody_work j w s)) hl'.2
    rw [writePart]
    split
    · rename_i hop
      exact commandLegal_of_past (hpast _) ((op_of_work (writeBody_work j w s)).trans hop)
    · exact commandLegal_of_past (hpast _) trivial
  · rw [hopPart]
    split
    · exact commandLegal_of_past (s := reach _ (advanceSeq (clearPending s))) hl'.2 hl'.1
    · exact commandLegal_of_past hl'.2 trivial
  · have hwork := endPublication_work s
    rw [publishPart]
    split
    · rename_i hop
      exact fun _ => .inl ((op_of_work hwork).trans hop)
    · rename_i hop
      exact commandLegal_of_past
        (pastChecks_of_work (onlyWork_reach _ hwork) (hl'.resolve_left hop).2) trivial
  · exact commandLegal_finishing _ _
  · exact hl

/-! ## The active configuration -/

/-- PREPARE latches a configuration that it has checked (rules R202, R203). -/
theorem cfgLegal_of_prepareError {c : CfgRegs} (h : prepareError c = none) : cfgLegal c := by
  simp only [prepareError] at h
  split at h
  · simp at h
  · split at h
    · simp at h
    · exact firstIllegal_eq_none_iff.1 (Option.map_eq_none_iff.1 h)

theorem configLegal_congr {s t : State} (h : configLegal s) (ha : t.act = s.act) (hc : configured t → configured s) :
    configLegal t := fun ht => by
  rw [ha]
  exact h (hc ht)

theorem not_preparing_of_op {s : State} (h : Cmd.op s.latched ≠ 0x01) : preparing s = false := by
  simp only [preparing, beq_false_of_ne h, Bool.and_false, Bool.false_and]

/-- Work of a command leaves the configuration as it was, and a block under a process command is prepared. -/
theorem configured_of_work {s t : State} (h : onlyWork s t) (hop : Cmd.op s.latched ≠ 0x01) :
    configured t ↔ configured s := by
  have hprep : t.prepared = s.prepared := by rw [h]
  rw [configured, configured, hprep, not_preparing_of_op hop, not_preparing_of_op (by rwa [op_of_work h])]

/-- A legal PREPARE is at its start, its publication, its end or its completion (rule R203). -/
theorem prepare_cases {s : State} (hl : commandLegal s) (hb : s.busy = true) (hop : Cmd.op s.latched = 0x01) :
    s.progress = .start ∨ (∃ c, s.progress = .finishing c) ∨ preparing s = true := by
  have hno : ¬ pastChecks s := fun h => op_ne_prepare_of_past h hop
  have h := hl hb
  cases hp : s.progress <;> simp only [hp] at h
  case start => exact .inl rfl
  case finishing c => exact .inr (.inl ⟨c, rfl⟩)
  case publishing | ending => exact .inr (.inr (by simp [preparing, hb, hop, hp]))
  case draining | applying | beginning | running => exact absurd h hno
  case writing | ingested => exact absurd h.2 hno

/-- A command that has come to its completion is not the PREPARE that is yet to end (rule R203). -/
theorem configured_finishing {c : ResultCode} {s : State} (h : configured (reach (.finishing c) s)) : configured s :=
  .inl (h.resolve_right (by simp [preparing]))

/-- The state in which a PREPARE has latched its configuration and reset the engines (rules R203, R655). -/
def prepareLatched (s : State) : State := reach (.publishing 0) (advanceSeq (prepareLatch s))

/-- A part leaves the active configuration as it is and configures no block, unless it is the one in which a PREPARE
latches what its checks have accepted (rules R202, R203). -/
theorem enginePart_configured {s t : State} (hl : commandLegal s) (h : enginePart s = .next t) :
    (s.busy = true ∧ s.progress = .start ∧ Cmd.op s.latched = 0x01 ∧ prepareError s.cfg = none ∧ t = prepareLatched s) ∨
      (t.act = s.act ∧ (configured t → configured s)) := by
  obtain ⟨-, he⟩ | ⟨hb, hparts⟩ := enginePart_cases h
  · rw [he]
    exact .inr ⟨rfl, id⟩
  by_cases hstart : s.progress = .start
  · simp only [hstart, reduceCtorEq, false_and, exists_false, or_false, true_and] at hparts
    subst hparts
    obtain ⟨c, e⟩ | ⟨-, c, f, -, e⟩ | ⟨hop, he, e⟩ | ⟨hpast, e⟩ := beginCommand_cases s <;> rw [e]
    · exact .inr ⟨rfl, configured_finishing⟩
    · exact .inr ⟨rfl, configured_finishing (s := { s with cfgErrField := f })⟩
    · exact .inl ⟨hb, hstart, hop, he, rfl⟩
    · exact .inr ⟨rfl, (configured_of_work (onlyWork_reach _ (onlyWork_refl s)) (op_ne_prepare_of_past hpast)).1⟩
  right
  by_cases hop : Cmd.op s.latched = 0x01
  · have hact : t.act = s.act := by
      obtain hw | ⟨-, rfl⟩ := enginePart_work hstart h
      · exact act_of_work hw
      · rfl
    refine ⟨hact, fun ht => ?_⟩
    obtain h0 | ⟨c, hp⟩ | hp := prepare_cases hl hb hop
    · exact absurd h0 hstart
    · simp only [hp, reduceCtorEq, false_and, exists_false, false_or] at hparts
      obtain ⟨-, -, he⟩ := hparts
      exact he ▸ ht
    · exact .inr hp
  · have hw := (enginePart_work hstart h).resolve_right fun ⟨he, _⟩ => hop he
    exact ⟨act_of_work hw, (configured_of_work hw hop).1⟩

/-- A part keeps the active configuration legal (rules R202, R203). -/
theorem enginePart_configLegal {s t : State} (hc : configLegal s) (hl : commandLegal s) (h : enginePart s = .next t) :
    configLegal t := by
  obtain ⟨-, -, -, he, rfl⟩ | ⟨ha, hcfg⟩ := enginePart_configured hl h
  · exact fun _ => cfgLegal_of_prepareError he
  · exact configLegal_congr hc ha hcfg

/-! ## What every part keeps holds where the turn completes the command -/

/-- How far a command is from its completion: its stage, then the entries or the frames left, then the parts left of one
of them (rules R211, R250, R350, R450). -/
def remaining (s : State) : ℕ ×ₗ ℕ ×ₗ ℕ :=
  match s.progress with
  | .start => toLex (5, toLex (0, 0))
  | .draining q => toLex (4, toLex ((q - s.head).val, 0))
  | .applying q _ => toLex (4, toLex ((q - s.head).val, 1))
  | .beginning => toLex (3, toLex (0, 0))
  | .running j ej => toLex (2, toLex (bodyLength s - j, eventCount (runEvents s) - ej + 1))
  | .writing j _ _ => toLex (2, toLex (bodyLength s - j, 0))
  | .ingested j => toLex (2, toLex (bodyLength s - j, eventCount (runEvents s) + 3))
  | .publishing j => toLex (2, toLex (bodyLength s - j, eventCount (runEvents s) + 2))
  | .ending => toLex (1, toLex (0, 0))
  | .finishing _ => toLex (0, toLex (0, 0))

theorem stage_lt {a b c a' b' c' : ℕ} (h : a < a' ∨ a = a' ∧ (b < b' ∨ b = b' ∧ c < c')) :
    toLex (a, toLex (b, c)) < toLex (a', toLex (b', c')) := by
  simpa only [Prod.Lex.toLex_lt_toLex] using h

@[simp] theorem bodyLength_reach (p : Progress) (s : State) : bodyLength (reach p s) = bodyLength s := rfl

@[simp] theorem runEvents_reach (p : Progress) (s : State) : runEvents (reach p s) = runEvents s := rfl

theorem bodyLength_writeBody (j : Nat) (w : Word) (s : State) : bodyLength (writeBody j w s) = bodyLength s := by
  have hw := writeBody_work j w s
  refine bodyLength_congr (latched_of_work hw) (act_of_work hw) ?_
  simp only [writeBody]
  split <;> rfl

theorem bodyLength_endPublication (s : State) : bodyLength (endPublication s) = bodyLength s := by
  have hw := endPublication_work s
  refine bodyLength_congr (latched_of_work hw) (act_of_work hw) ?_
  simp only [endPublication]
  split
  · rfl
  · rw [onlySpec_trans (passWrites_frame s) (advanceSeq_frame _)]

theorem remaining_lt {s t : State} (hb : s.busy = true) (hl : commandLegal s) (hf : ∀ c, s.progress ≠ .finishing c)
    (h : enginePart s = .next t) : remaining t < remaining s := by
  obtain ⟨hb', -⟩ | ⟨-, h⟩ := enginePart_cases h
  · simp [hb] at hb'
  obtain ⟨hp, rfl⟩ | ⟨q, hp, rfl⟩ | ⟨q, w, hp, h⟩ | ⟨hp, rfl⟩ | ⟨j, ej, hp, h⟩ | ⟨j, ej, w, hp, rfl⟩ | ⟨j, hp, rfl⟩ |
    ⟨j, hp, rfl⟩ | ⟨hp, rfl⟩ | ⟨c, hp, -⟩ := h <;> rw [remaining.eq_def s, hp]
  · obtain ⟨c, e⟩ | ⟨-, c, f, -, e⟩ | ⟨-, -, e⟩ | ⟨-, e⟩ := beginCommand_cases s <;> rw [e] <;>
      exact stage_lt (.inl (by decide))
  · rw [drainPart]
    split
    · exact stage_lt (.inl (by decide))
    · rename_i hne
      exact stage_lt (.inr ⟨rfl, .inl (distance_succ hne ▸ Nat.lt_succ_self _)⟩)
  · obtain ⟨u, hu, h⟩ := andThen_eq_next.1 h
    obtain ⟨v, hv, hf⟩ := applyEntry_completes w s
    obtain rfl := Host.Outcome.next.inj (hv.symm.trans hu)
    obtain rfl := Host.Outcome.next.inj h
    have hhead : v.head = s.head := by rw [hf]
    exact stage_lt (.inr ⟨rfl, .inr ⟨by rw [reach_head, hhead], Nat.zero_lt_one⟩⟩)
  · exact stage_lt (.inl (by decide))
  · obtain ⟨u, p, rfl, hu, ⟨rfl, hej⟩ | ⟨hj, e, w, rfl⟩ | rfl⟩ := bodyPart_cases h
    · have hev : runEvents u = runEvents s := by rw [hu, runEvents, runEvents]
      refine stage_lt (.inr ⟨rfl, .inr ⟨?_, ?_⟩⟩)
      · rw [bodyLength_reach, bodyLength_of_reads hu]
      · rw [runEvents_reach, hev]
        omega
    · refine stage_lt (.inr ⟨rfl, .inr ⟨?_, Nat.succ_pos _⟩⟩)
      rw [bodyLength_reach, bodyLength_of_reads hu]
    · exact stage_lt (.inl (by decide))
  · have hlen := bodyLength_writeBody j w s
    have hl' := hl hb
    simp only [hp] at hl'
    rw [writePart]
    split
    · refine stage_lt (.inr ⟨rfl, .inl ?_⟩)
      rw [bodyLength_reach, hlen]
      omega
    · refine stage_lt (.inr ⟨rfl, .inl ?_⟩)
      rw [bodyLength_reach, hlen]
      omega
  · rw [hopPart]
    split
    · exact stage_lt (.inr ⟨rfl, .inr ⟨rfl, Nat.lt_succ_self _⟩⟩)
    · exact stage_lt (.inr ⟨rfl, .inr ⟨rfl, Nat.add_lt_add_of_le_of_lt (Nat.sub_le _ _) (by decide)⟩⟩)
  · have hev : runEvents (endPublication s) = runEvents s := by
      rw [runEvents, latched_of_work (endPublication_work s), runEvents]
    rw [publishPart]
    split
    · exact stage_lt (.inl (by decide))
    · refine stage_lt (.inr ⟨rfl, .inr ⟨?_, ?_⟩⟩)
      · rw [bodyLength_reach, bodyLength_endPublication]
      · rw [runEvents_reach, hev]
        omega
  · exact stage_lt (.inl (by decide))
  · exact absurd hp (hf c)

theorem engineTurn_completion {P : State → Prop}
    (keep : ∀ u v, u.busy = true → commandLegal u → P u → enginePart u = .next v → P v) {s t : State}
    (hb : s.busy = true) (hl : commandLegal s) (hs : P s) (h : engineTurn s = .next t) :
    ∃ u c, P u ∧ u.busy = true ∧ u.progress = .finishing c ∧ engineTurn u = .next t := by
  by_cases hf : ∃ c, s.progress = .finishing c
  · obtain ⟨c, hc⟩ := hf
    exact ⟨s, c, hs, hb, hc, h⟩
  · rw [engineTurn_parts hb hl] at h
    obtain ⟨u, hu, h⟩ := andThen_eq_next.1 h
    have hlt : remaining u < remaining s := remaining_lt hb hl (fun c hc => hf ⟨c, hc⟩) hu
    exact engineTurn_completion keep ((enginePart_sameCommand hu).busy.trans hb) (enginePart_commandLegal hl hu)
      (keep s u hb hl hs hu) h
termination_by remaining s
decreasing_by exact hlt

/-- `t` is `s` with its command completed: what a completion and the settling of the racing writes change (rules R38, R39,
R670). -/
def onlyCompletes (s t : State) : Prop :=
  t = { s with
    busy := false, progress := .start, cmdResult := t.cmdResult, cmdCount := t.cmdCount
    lastCycles := t.lastCycles, draws := t.draws, mem := t.mem, raced := t.raced, illegalCount := t.illegalCount }

theorem engineTurn_finishing {c : ResultCode} {s t : State} (hb : s.busy = true) (hp : s.progress = .finishing c)
    (h : engineTurn s = .next t) : onlyCompletes s t := by
  obtain ⟨hb', -⟩ | ⟨-, i, u, -, hu, rfl⟩ | ⟨-, -, rfl⟩ := engineTurn_cases h
  · simp [hb] at hb'
  · rw [restOfCommand_finishing hp] at hu
    obtain rfl := Host.Outcome.next.inj hu
    rfl
  · rfl

/-! ## What the host's accesses may change -/

/-- `t` is `s` but for what an access may change; it leaves a command in progress where it is, or begins one. -/
def onlyHost (s t : State) : Prop :=
  t = { s with
    busy := t.busy, cmdLo := t.cmdLo, cmdHi := t.cmdHi, latched := t.latched, progress := t.progress
    busyDrop := t.busyDrop, pushLatch := t.pushLatch, slots := t.slots, tail := t.tail, lastPushOk := t.lastPushOk
    pqOverflow := t.pqOverflow, cfg := t.cfg, mem := t.mem, raced := t.raced, readData := t.readData
    hostDraws := t.hostDraws, doorbellAgent := t.doorbellAgent, producer := t.producer, pushLow := t.pushLow
    oldCsrs := t.oldCsrs, oldMem := t.oldMem } ∧
  (t.busy = s.busy ∧ t.latched = s.latched ∧ t.progress = s.progress ∨
    s.busy = false ∧ t.busy = true ∧ t.progress = .start)

theorem ringDoorbell_onlyHost (v : Word) (s : State) : onlyHost s (ringDoorbell v s) := by
  simp only [ringDoorbell]
  split
  · exact ⟨rfl, .inl ⟨rfl, rfl, rfl⟩⟩
  · rename_i hb
    simp only [startCommand]
    generalize csrWords _ = ws
    exact ⟨rfl, .inr ⟨by simpa using hb, rfl, rfl⟩⟩

theorem pushQueue_onlyHost (v : Word) (s : State) : onlyHost s (pushQueue v s) := by
  simp only [pushQueue, enqueue]
  split <;> exact ⟨rfl, .inl ⟨rfl, rfl, rfl⟩⟩

theorem writeCsr_onlyHost {off : Nat} {v : Word} {s t : State} (h : writeCsr off v s = .next t) : onlyHost s t := by
  obtain ⟨-, rfl⟩ | ⟨-, rfl⟩ | ⟨-, rfl⟩ | ⟨-, rfl⟩ | ⟨-, rfl⟩ | rfl := writeCsr_cases h
  · exact ⟨rfl, .inl ⟨rfl, rfl, rfl⟩⟩
  · exact ringDoorbell_onlyHost v s
  · exact ⟨rfl, .inl ⟨rfl, rfl, rfl⟩⟩
  · exact pushQueue_onlyHost v s
  · exact ⟨rfl, .inl ⟨rfl, rfl, rfl⟩⟩
  · exact ⟨rfl, .inl ⟨rfl, rfl, rfl⟩⟩

theorem access_onlyHost {a : Access} {s t : State} (h : access a s = .next t) : onlyHost s t := by
  obtain ⟨off, r, -, -, rfl⟩ | ⟨off, v, -, -, ⟨-, h⟩ | ⟨-, rfl | rfl⟩ | ⟨-, rfl⟩⟩ := access_cases h
  · exact ⟨rfl, .inl ⟨rfl, rfl, rfl⟩⟩
  · exact writeCsr_onlyHost h
  all_goals exact ⟨rfl, .inl ⟨rfl, rfl, rfl⟩⟩

theorem agentAccess_onlyHost {agent : Nat} {a : Access} {s t : State} (h : agentAccess agent a s = .next t) :
    onlyHost s t := by
  obtain ⟨width, addr, off, -, -, h⟩ | ⟨width, addr, off, v, -, -, -, h⟩ := agentAccess_cases h
  · exact access_onlyHost h
  · rw [noteAgent_frame] at h
    obtain ⟨ht, hp⟩ := access_onlyHost h
    exact ⟨by rw [ht], hp⟩

/-! ## An invariant of every step -/

theorem configured_of_completes {s t : State} (h : onlyCompletes s t) (ht : configured t) : configured s := by
  have hprep : t.prepared = s.prepared := by rw [h]
  have hbusy : t.busy = false := by rw [h]
  exact .inl (hprep ▸ ht.resolve_right (by simp [preparing, hbusy]))

theorem configLegal_of_completes {s t : State} (hc : configLegal s) (h : onlyCompletes s t) : configLegal t :=
  configLegal_congr hc (by rw [h]) (configured_of_completes h)

theorem commandLegal_of_completes {s t : State} (h : onlyCompletes s t) : commandLegal t := fun hb => by
  have hbusy : t.busy = false := by rw [h]
  exact absurd (hbusy.symm.trans hb) Bool.false_ne_true

/-- An access configures no block: a doorbell only begins its command. -/
theorem configured_of_host {s t : State} (h : onlyHost s t) (hc : configured t) : configured s := by
  obtain ⟨ht, ⟨hb, hl, hp⟩ | ⟨-, -, hp⟩⟩ := h
  · have hprep : t.prepared = s.prepared := by rw [ht]
    simpa only [configured, preparing, hprep, hb, hl, hp] using hc
  · refine .inl ?_
    have hprep : t.prepared = s.prepared := by rw [ht]
    exact hprep ▸ hc.resolve_right (by simp [preparing, hp])

theorem configLegal_of_host {s t : State} (hc : configLegal s) (h : onlyHost s t) : configLegal t :=
  configLegal_congr hc (by rw [h.1]) (configured_of_host h)

theorem commandLegal_of_host {s t : State} (hl : commandLegal s) (h : onlyHost s t) : commandLegal t := by
  obtain ⟨ht, ⟨hb, hlatched, hp⟩ | ⟨-, -, hp⟩⟩ := h
  · have hlen : bodyLength t = bodyLength s := bodyLength_congr hlatched (by rw [ht]) (by rw [ht])
    have hprep : t.prepared = s.prepared := by rw [ht]
    simpa only [commandLegal, pastChecks, runBuffer, hlen, hprep, hb, hlatched, hp] using hl
  · intro _
    simp only [hp]

/-- A state whose active configuration and command in progress are legal, and in which `P` holds. -/
structure LegalWith (P : State → Prop) (s : State) : Prop where
  config : configLegal s
  command : commandLegal s
  holds : P s

/-- A part of a legal command keeps a legal state legal. -/
theorem LegalWith.part {P : State → Prop}
    (hpart : ∀ s t, LegalWith P s → s.busy = true → enginePart s = .next t → P t) {s t : State} (hs : LegalWith P s)
    (hb : s.busy = true) (h : enginePart s = .next t) : LegalWith P t :=
  ⟨enginePart_configLegal hs.config hs.command h, enginePart_commandLegal hs.command h, hpart s t hs hb h⟩

/-- The engine's turn keeps what every part and every completion keeps (rule R32). -/
theorem LegalWith.turn {P : State → Prop}
    (hpart : ∀ s t, LegalWith P s → s.busy = true → enginePart s = .next t → P t)
    (hcompletes : ∀ s t c, P s → s.progress = .finishing c → onlyCompletes s t → P t) {s t : State}
    (hs : LegalWith P s) (h : engineTurn s = .next t) : LegalWith P t := by
  cases hb : s.busy with
  | false =>
    rw [engineTurn, hb] at h
    exact Host.Outcome.next.inj h ▸ hs
  | true =>
    obtain ⟨u, c, hu, hbu, hp, ht⟩ := engineTurn_completion (P := LegalWith P)
      (fun u v hb _ hu h => hu.part hpart hb h) hb hs.command hs h
    have hdone := engineTurn_finishing hbu hp ht
    exact ⟨configLegal_of_completes hu.config hdone, commandLegal_of_completes hdone,
      hcompletes u t c hu.holds hp hdone⟩

/-- A property that every part of a legal command, every completion and every access keeps is kept by every step of a
legal state, but for the reset (rules R31, R32). -/
theorem step_keeps {P : State → Prop} (hagenda : ∀ s rest, P s → P { s with agenda := rest })
    (hpart : ∀ s t, LegalWith P s → s.busy = true → enginePart s = .next t → P t)
    (hcompletes : ∀ s t c, P s → s.progress = .finishing c → onlyCompletes s t → P t)
    (haccess : ∀ s t, P s → onlyHost s t → P t) {s t : State} (hs : LegalWith P s)
    (h : step s = .next t) : LegalWith P t ∨ ∃ u, t = hardwareReset u := by
  have hrest : ∀ rest, LegalWith P { s with agenda := rest } := fun rest =>
    ⟨hs.config, hs.command, hagenda s rest hs.holds⟩
  obtain ⟨-, h⟩ | ⟨turn, rest, -, ⟨-, h⟩ | ⟨-, h⟩ | ⟨agent, a, -, h⟩ | ⟨-, rfl⟩⟩ := step_cases h
  · exact .inl (hs.turn hpart hcompletes h)
  · exact .inl ((hrest rest).turn hpart hcompletes h)
  · left
    cases hb : s.busy with
    | false =>
      obtain ⟨-, rfl⟩ | ⟨hb', -⟩ := enginePart_cases h
      · exact hrest rest
      · exact absurd (hb.symm.trans hb') Bool.false_ne_true
    | true => exact (hrest rest).part hpart hb h
  · have hhost := agentAccess_onlyHost h
    exact .inl ⟨configLegal_of_host (hrest rest).config hhost, commandLegal_of_host (hrest rest).command hhost,
      haccess _ _ (hrest rest).holds hhost⟩
  · exact .inr ⟨_, rfl⟩

/-- Settles O51: a PREPARE latches a configuration that its checks have accepted; every other part leaves the active
configuration as it is and takes the command no further than it may come. -/
theorem configurationStaysLegal : Obligations.ConfigurationStaysLegal := by
  unfold Obligations.ConfigurationStaysLegal
  intro s t hc hl h
  obtain ht | ⟨u, rfl⟩ := step_keeps (P := fun _ => True) (fun _ _ _ => trivial) (fun _ _ _ _ _ => trivial)
    (fun _ _ _ _ _ _ => trivial) (fun _ _ _ _ => trivial) ⟨hc, hl, trivial⟩ h
  · exact ⟨ht.config, ht.command⟩
  · exact ⟨fun h => absurd h not_configured_reset, fun hbusy => Bool.noConfusion hbusy⟩

end Sys2Proof.Machine
end

section
/-! SUPPORT. The parts of a command by what they write (rules R32, R203, R211, R250, R350, R450, R472): registers, voices
and events of a render, a word of the body, a frame's mean, or a publication's start and end. -/

namespace Sys2Proof.Machine

/-! ## Parts outside a publication (rules R121, R450) -/

/-- From `s` to `t` no publication begins or ends, and no hop is left due. -/
structure Quiet (s t : State) : Prop where
  outside : publishing s = false
  noHop : ingesting s = true → hopDue s = false
  publishing : publishing t = false
  ingesting : ingesting t = false

/-- Progress outside a publication and not at the end of a frame's ingestion. -/
def quietAt : Progress → Bool
  | .publishing _ | .ingested _ => false
  | .start | .draining _ | .applying _ _ | .beginning | .running _ _ | .writing _ _ _ | .ending | .finishing _ => true

theorem publishing_of_quietAt {s : State} (h : quietAt s.progress = true) : publishing s = false := by
  cases hp : s.progress <;> simp [hp, quietAt, publishing] at h ⊢

theorem ingesting_of_quietAt {s : State} (h : quietAt s.progress = true) : ingesting s = false := by
  cases hp : s.progress <;> simp [hp, quietAt, ingesting] at h ⊢

theorem quiet_of_quietAt {s t : State} (hs : quietAt s.progress = true) (ht : quietAt t.progress = true) : Quiet s t :=
  ⟨publishing_of_quietAt hs, fun hi => absurd ((ingesting_of_quietAt hs).symm.trans hi) Bool.false_ne_true,
    publishing_of_quietAt ht, ingesting_of_quietAt ht⟩

theorem quiet_of_idle {s t : State} (hb : s.busy = false) (ht : quietAt t.progress = true ∨ t.busy = false) :
    Quiet s t := by
  have hp : ∀ u : State, u.busy = false → publishing u = false := fun u hu => by simp [Machine.publishing, hu]
  have hi : ∀ u : State, u.busy = false → ingesting u = false := fun u hu => by simp [Machine.ingesting, hu]
  refine ⟨hp s hb, fun h => absurd ((hi s hb).symm.trans h) Bool.false_ne_true, ?_, ?_⟩
  · exact ht.elim publishing_of_quietAt (hp t)
  · exact ht.elim ingesting_of_quietAt (hi t)

/-! ## The parts -/

/-- `t` is `s` but for registers that are neither published by an analysis pass nor memory nor voices. -/
def onlyRegisters (s t : State) : Prop :=
  t = { s with
    prepared := t.prepared, progress := t.progress, illegalCount := t.illegalCount, cfgErrField := t.cfgErrField
    head := t.head, synActive := t.synActive, synSteals := t.synSteals, voiceStatus := t.voiceStatus
    voiceAge := t.voiceAge, synp := t.synp, eqg := t.eqg, eqb := t.eqb, eqc := t.eqc, eq := t.eq, draws := t.draws }

theorem onlyRegisters_reach {s t : State} (p : Progress) (h : onlyRegisters s t) : onlyRegisters s (reach p t) := by
  rw [onlyRegisters] at h
  rw [h]
  rfl

/-- What a part of a command is. -/
inductive PartStep (s t : State) : Prop
  /-- No more than registers change (rules R156, R202, R211, R267, R350, R351). -/
  | registers (h : onlyRegisters s t) (hq : Quiet s t)
  /-- An event is applied, or the voices of a frame are mixed (rules R250, R266). -/
  | render (j ej : Nat) (hb : s.busy = true) (hp : s.progress = .running j ej) (h : renderPart j ej s = .next t)
    (hq : Quiet s t)
  /-- A frame or sample of the buffer is written (rules R250, R350). -/
  | write (j ej : Nat) (w : Word) (hb : s.busy = true) (hp : s.progress = .writing j ej w)
    (hop : Cmd.op s.latched ≠ 0x04) (ht : t = reach (.running (j + 1) ej) (writeBody j w s))
  /-- A frame's mean is ingested (rule R451). -/
  | ingest (j ej : Nat) (w : Word) (hb : s.busy = true) (hp : s.progress = .writing j ej w)
    (hop : Cmd.op s.latched = 0x04) (ht : t = reach (.ingested (j + 1)) (ingestFrame w s))
  /-- The publication of a hop begins (rules R450, R472). -/
  | hop (j : Nat) (hb : s.busy = true) (hp : s.progress = .ingested j) (hdue : hopDue s = true)
    (ht : t = reach (.publishing j) (advanceSeq (clearPending s)))
  /-- A publication ends (rules R472, R655). -/
  | publish (j : Nat) (hb : s.busy = true) (hp : s.progress = .publishing j) (ht : t = publishPart j s)
  /-- A PREPARE latches its configuration (rule R203). -/
  | latch (hb : s.busy = true) (hp : s.progress = .start) (hop : Cmd.op s.latched = 0x01) (ht : t = prepareLatched s)

theorem beginBody_registers (s : State) : onlyRegisters s (beginBody s) := by
  simp only [beginBody]
  split
  · rw [eqBegin_frame]
    rfl
  · rfl

theorem endBody_registers (s : State) : onlyRegisters s (endBody s) := by
  simp only [endBody]
  split <;> rfl

theorem applyEntry_registers {w : Cmd} {s t : State} (h : applyEntry w s = .next t) : onlyRegisters s t := by
  obtain ⟨u, hu, hf⟩ := applyEntry_completes w s
  obtain rfl := Host.Outcome.next.inj (hu.symm.trans h)
  rw [onlyParams] at hf
  rw [hf]
  rfl

theorem writeBody_of_specProcess {j : Nat} {w : Word} {s : State} (hop : Cmd.op s.latched = 0x04) :
    writeBody j w s = ingestFrame w s := by
  simp only [writeBody, hop]
  rfl

/-- The first part of a command: registers alone, or a PREPARE's latch. -/
theorem beginCommand_partStep {s : State} (hb : s.busy = true) (hp : s.progress = .start) :
    PartStep s (beginCommand s) := by
  have hs : quietAt s.progress = true := by rw [hp]; rfl
  obtain ⟨c, e⟩ | ⟨-, c, f, -, e⟩ | ⟨hop, -, e⟩ | ⟨-, e⟩ := beginCommand_cases s <;> rw [e]
  · exact .registers rfl (quiet_of_quietAt hs rfl)
  · exact .registers rfl (quiet_of_quietAt hs rfl)
  · exact .latch hb hp hop rfl
  · exact .registers rfl (quiet_of_quietAt hs rfl)

/-- A part of a body reads for a render, for the equalizer or for the ingestion, or ends the body. -/
theorem bodyPart_partStep {j ej : Nat} {s t : State} (hb : s.busy = true) (hp : s.progress = .running j ej)
    (h : bodyPart j ej s = .next t) : PartStep s t := by
  have hq : Quiet s t := by
    obtain ⟨u, p, rfl, -, hbody⟩ := bodyPart_cases h
    refine quiet_of_quietAt (by rw [hp]; rfl) ?_
    obtain ⟨rfl, -⟩ | ⟨-, e, w, rfl⟩ | rfl := hbody <;> rfl
  simp only [bodyPart] at h
  split at h
  · exact .render j ej hb hp h hq
  · simp only [eqPart] at h
    split at h
    · obtain ⟨⟨v, s1⟩, h1, h⟩ := andThen_eq_next.1 h
      refine .registers ?_ hq
      rw [← Host.Outcome.next.inj h, sampleOut_frame h1]
      rfl
    · exact .registers (Host.Outcome.next.inj h ▸ rfl) hq
  · simp only [specPart] at h
    split at h
    · obtain ⟨m, -, h⟩ := andThen_eq_next.1 h
      exact .registers (Host.Outcome.next.inj h ▸ rfl) hq
    · exact .registers (Host.Outcome.next.inj h ▸ rfl) hq
  · exact .registers (Host.Outcome.next.inj h ▸ rfl) hq

theorem enginePart_partStep {s t : State} (h : enginePart s = .next t) : PartStep s t := by
  obtain ⟨hb, rfl⟩ | ⟨hb, h⟩ := enginePart_cases h
  · exact .registers rfl (quiet_of_idle hb (.inr hb))
  obtain ⟨hp, rfl⟩ | ⟨q, hp, rfl⟩ | ⟨q, w, hp, h⟩ | ⟨hp, rfl⟩ | ⟨j, ej, hp, h⟩ | ⟨j, ej, w, hp, rfl⟩ | ⟨j, hp, rfl⟩ |
    ⟨j, hp, rfl⟩ | ⟨hp, rfl⟩ | ⟨c, hp, he⟩ := h <;> have hs : quietAt s.progress = quietAt _ := congrArg quietAt hp
  · exact beginCommand_partStep hb hp
  · rw [drainPart]
    split <;> exact .registers rfl (quiet_of_quietAt hs rfl)
  · obtain ⟨u, hu, h⟩ := andThen_eq_next.1 h
    obtain rfl := Host.Outcome.next.inj h
    exact .registers (onlyRegisters_reach _ (applyEntry_registers hu)) (quiet_of_quietAt hs rfl)
  · exact .registers (onlyRegisters_reach _ (beginBody_registers s)) (quiet_of_quietAt hs rfl)
  · exact bodyPart_partStep hb hp h
  · by_cases hop : Cmd.op s.latched = 0x04
    · exact .ingest j ej w hb hp hop (by rw [writePart, if_pos hop, writeBody_of_specProcess hop])
    · exact .write j ej w hb hp hop (by rw [writePart, if_neg hop])
  · rw [hopPart]
    split
    · rename_i hdue
      exact .hop j hb hp hdue rfl
    · rename_i hdue
      exact .registers rfl ⟨by simp [publishing, hp], fun _ => by simpa using hdue, publishing_of_quietAt rfl,
        ingesting_of_quietAt rfl⟩
  · exact .publish j hb hp rfl
  · exact .registers (onlyRegisters_reach _ (endBody_registers s)) (quiet_of_quietAt hs rfl)
  · rw [he]
    exact .registers rfl (quiet_of_quietAt hs hs)

end Sys2Proof.Machine
end

section
/-! SUPPORT. The voices stay legal (rules R55, R261 to R264, R269): what the noise generator, the envelope and the note
events do to one voice, and with it what a part of a command does to all of them. -/

namespace Sys2Proof.Machine

/-! ## The noise generator never reaches 0 (rule R269) -/

theorem eq_zero_of_xor_shiftLeft {x : Word} {k : Nat} (hk : 0 < k) (h : x ^^^ x <<< k = 0) : x = 0 := by
  have hbit : ∀ i, i < 32 → x.getLsbD i = false := by
    intro i
    induction i using Nat.strong_induction_on with
    | _ i ih =>
      intro hi
      have hx : (x ^^^ x <<< k).getLsbD i = false := by simp [h]
      rw [BitVec.getLsbD_xor, BitVec.getLsbD_shiftLeft] at hx
      by_cases hik : i < k
      · simpa [hik] using hx
      · simpa [hi, hik, ih (i - k) (by omega) (by omega)] using hx
  exact BitVec.eq_of_getLsbD_eq fun i hi => by simp [hbit i hi]

theorem eq_zero_of_xor_shiftRight {x : Word} {k : Nat} (hk : 0 < k) (h : x ^^^ x >>> k = 0) : x = 0 := by
  have hbit : ∀ n i, i + n = 32 → x.getLsbD i = false := by
    intro n
    induction n using Nat.strong_induction_on with
    | _ n ih =>
      intro i hi
      have hx : (x ^^^ x >>> k).getLsbD i = false := by simp [h]
      rw [BitVec.getLsbD_xor, BitVec.getLsbD_ushiftRight] at hx
      by_cases hik : k + i < 32
      · simpa [ih (32 - (k + i)) (by omega) (k + i) (by omega)] using hx
      · simpa [BitVec.getLsbD_of_ge x (k + i) (by omega)] using hx
  exact BitVec.eq_of_getLsbD_eq fun i hi => by simp [hbit (32 - i) i (by omega)]

theorem xorshift32_ne_zero {x : Word} (h : x ≠ 0) : xorshift32 x ≠ 0 := fun h0 =>
  h (eq_zero_of_xor_shiftLeft (by decide) (eq_zero_of_xor_shiftRight (by decide)
    (eq_zero_of_xor_shiftLeft (by decide) h0)))

/-! ## One voice -/

/-- The oscillator changes a voice's triangle and noise state alone, and no noise state to 0 (rules R251, R269). -/
theorem oscillator_cases {s : State} {v w : Voice} {inc y : F32} (h : oscillator s v inc = .next (y, w))
    (hn : v.noise ≠ 0) : w = { v with tri := w.tri, noise := w.noise } ∧ w.noise ≠ 0 := by
  simp only [oscillator] at h
  split at h
  case h_4 =>
    obtain ⟨z, -, h⟩ := andThen_eq_next.1 h
    obtain ⟨-, rfl⟩ := Prod.mk.inj (Host.Outcome.next.inj h)
    exact ⟨rfl, hn⟩
  case h_5 =>
    obtain ⟨-, rfl⟩ := Prod.mk.inj (Host.Outcome.next.inj h)
    exact ⟨rfl, xorshift32_ne_zero hn⟩
  all_goals
    obtain ⟨-, rfl⟩ := Prod.mk.inj (Host.Outcome.next.inj h)
    exact ⟨rfl, hn⟩

/-- `w` is `v` but for its envelope. -/
def onlyEnvelope (v w : Voice) : Prop := w = { v with stage := w.stage, t := w.t, value := w.value }

theorem passStages_envelope (d : Durations) (fuel : Nat) (v : Voice) : onlyEnvelope v (passStages d fuel v) := by
  induction fuel generalizing v with
  | zero => rfl
  | succ fuel ih =>
    rw [passStages]
    split
    · rename_i len next _
      split
      · rw [onlyEnvelope, ih { v with stage := next, t := 0 }]
      · rfl
    · rfl

theorem advanceStage_envelope (d : Durations) (v : Voice) : onlyEnvelope v (advanceStage d v) := by
  rw [advanceStage]
  split
  · split <;> rfl
  · rfl

/-- An active voice's envelope step leaves it active exactly if its envelope is not Idle (rule R261). -/
theorem voiceLegal_envStep (s : State) {v : Voice} (ha : v.active = true) (h : voiceLegal v) :
    voiceLegal (envStep s v).2 := by
  obtain ⟨-, hnote, hvel, hpos, hnoise⟩ := h
  obtain ⟨w, hw, he⟩ : ∃ w, onlyEnvelope v w ∧
      (envStep s v).2 = if w.stage = .idle then { w with active := false } else w := by
    refine ⟨_, ?_, rfl⟩
    rw [onlyEnvelope, advanceStage_envelope, passStages_envelope]
  rw [onlyEnvelope] at hw
  rw [he]
  split
  · rename_i hi
    refine ⟨by simp [hi], ?_, ?_, fun h => Bool.noConfusion h, ?_⟩ <;> rw [hw] <;> assumption
  · rename_i hi
    have hact : w.active = true := by rw [hw]; exact ha
    refine ⟨by simp [hi, hact], ?_, ?_, fun _ => ?_, ?_⟩ <;> rw [hw]
    exacts [hnote, hvel, hpos ha, hnoise]

/-- A sample of an active voice keeps it legal (rule R251). -/
theorem voiceLegal_voiceSample {s : State} {v w : Voice} {y : F32} (ha : v.active = true) (h : voiceLegal v)
    (hs : voiceSample s v = .next (y, w)) : voiceLegal w := by
  obtain ⟨⟨o, v1⟩, ho, hs⟩ := andThen_eq_next.1 hs
  obtain ⟨h1, hn⟩ := oscillator_cases ho h.2.2.2.2
  obtain ⟨-, rfl⟩ := Prod.mk.inj (Host.Outcome.next.inj hs)
  refine voiceLegal_envStep s ?_ ?_
  · rw [h1]
    exact ha
  · rw [h1]
    exact ⟨h.1, h.2.1, h.2.2.1, h.2.2.2.1, hn⟩

/-- A note-off moves a held voice to Release, which is no Idle (rule R263). -/
theorem voiceLegal_releaseVoice (nt : BitVec 8) {v : Voice} (h : voiceLegal v) : voiceLegal (releaseVoice nt v) := by
  rw [releaseVoice]
  split
  · rename_i hv
    simp only [Bool.and_eq_true] at hv
    obtain ⟨-, hnote, hvel, hpos, hnoise⟩ := h
    exact ⟨by simp [hv.1.1.1], hnote, hvel, hpos, hnoise⟩
  · exact h

theorem voiceLegal_ageVoice {v : Voice} (h : voiceLegal v) : voiceLegal (ageVoice v) := by
  rw [ageVoice]
  split <;> exact h

/-- A new voice is legal (rule R264). -/
theorem voiceLegal_freshVoice {nt vl : BitVec 8} (v : Fin 32) (hn : nt.toNat ≤ 127) (hv : vl.toNat ≤ 127)
    (h0 : vl ≠ 0) :
    voiceLegal (freshVoice v.val nt vl) := by
  obtain ⟨-, -, -, -, hnoise⟩ := voiceLegal_idle v
  exact ⟨by simp [freshVoice], hn, hv, fun _ => Nat.pos_of_ne_zero fun h => h0 (BitVec.eq_of_toNat_eq h), hnoise⟩

/-! ## All voices -/

/-- Every voice is legal and only voices below ACT.V, of which there is one, are active. -/
structure VoicesWithin (V : Nat) (s : State) : Prop where
  actV : actV s = V
  pos : 0 < V
  legal : ∀ v : Fin 32, voiceLegal s.voices[v]
  inactive : ∀ v : Fin 32, V ≤ v.val → s.voices[v].active = false

theorem VoicesWithin.voicesLegal {V : Nat} {s : State} (h : VoicesWithin V s) : voicesLegal s :=
  ⟨h.legal, fun _ v hv => h.inactive v (h.actV ▸ hv)⟩

theorem VoicesWithin.setVoice {V : Nat} {s : State} (h : VoicesWithin V s) {u : Nat} {v : Voice}
    (hv : u < 32 → voiceLegal v) (hu : v.active = true → u < V) : VoicesWithin V (setVoice u v s) := by
  have hget : ∀ w : Fin 32, (Machine.setVoice u v s).voices[w] = if u = w.val then v else s.voices[w] := fun w => by
    simp [Vector.getElem_setIfInBounds]
  refine ⟨h.actV, h.pos, fun w => ?_, fun w hw => ?_⟩ <;> rw [hget] <;> split
  · rename_i he
    exact hv (he ▸ w.isLt)
  · exact h.legal w
  · rename_i he
    exact Bool.eq_false_iff.2 fun ha => Nat.not_lt.2 hw (he ▸ hu ha)
  · exact h.inactive w hw

theorem VoicesWithin.congr {V : Nat} {s t : State} (h : VoicesWithin V s) (hv : t.voices = s.voices)
    (ha : t.act = s.act) : VoicesWithin V t := by
  refine ⟨?_, h.pos, ?_, ?_⟩
  · rw [Machine.actV, ha]
    exact h.actV
  · rw [hv]
    exact h.legal
  · rw [hv]
    exact h.inactive

/-- An active voice is one of the file and below ACT.V. -/
theorem VoicesWithin.lt_of_isActive {V : Nat} {s : State} (h : VoicesWithin V s) {u : Nat} (hu : isActive s u = true) :
    u < 32 ∧ u < V := by
  by_cases h32 : u < 32
  · refine ⟨h32, Nat.lt_of_not_le fun hle => ?_⟩
    have hin := h.inactive ⟨u, h32⟩ hle
    rw [isActive, voiceAt_fin s ⟨u, h32⟩, hin] at hu
    exact Bool.noConfusion hu
  · simp [isActive, voiceAt, Vector.getD, h32, Voice.idle] at hu

/-- A sample of an active voice keeps the voices legal (rule R251). -/
theorem VoicesWithin.sample {V : Nat} {s : State} (h : VoicesWithin V s) {u : Nat} {y : F32} {v : Voice}
    (hu : isActive s u = true) (hs : voiceSample s (voiceAt s u) = .next (y, v)) :
    VoicesWithin V (Machine.setVoice u v s) := by
  obtain ⟨h32, hV⟩ := h.lt_of_isActive hu
  refine h.setVoice (fun _ => voiceLegal_voiceSample hu ?_ hs) fun _ => hV
  rw [voiceAt_fin s ⟨u, h32⟩]
  exact h.legal _

theorem VoicesWithin.setVoices {V : Nat} {s : State} (h : VoicesWithin V s) {vs : Vector Voice 32}
    (hlegal : ∀ v : Fin 32, voiceLegal vs[v]) (hinactive : ∀ v : Fin 32, V ≤ v.val → vs[v].active = false) :
    VoicesWithin V { s with voices := vs } := ⟨h.actV, h.pos, hlegal, hinactive⟩

/-- An update of the voices below ACT.V that frees and takes none keeps them legal. -/
theorem VoicesWithin.map {V : Nat} {s : State} (h : VoicesWithin V s) {f : Voice → Voice}
    (hf : ∀ v, voiceLegal v → voiceLegal (f v)) (ha : ∀ v, (f v).active = v.active) :
    VoicesWithin V { s with
      voices := Vector.ofFn fun u : Fin 32 => if u.val < Machine.actV s then f s.voices[u] else s.voices[u] } := by
  refine h.setVoices (fun v => ?_) (fun v hv => ?_) <;> simp only [Fin.getElem_fin, Vector.getElem_ofFn] <;> split
  · exact hf _ (h.legal v)
  · exact h.legal v
  · exact (ha _).trans (h.inactive v hv)
  · exact h.inactive v hv

theorem VoicesWithin.noteOff {V : Nat} {s : State} (h : VoicesWithin V s) (nt : BitVec 8) :
    VoicesWithin V (Machine.noteOff nt s) := by
  rw [noteOff_eq]
  exact h.map (f := releaseVoice nt) (fun _ => voiceLegal_releaseVoice nt) (releaseVoice_active nt)

theorem VoicesWithin.ageVoices {V : Nat} {s : State} (h : VoicesWithin V s) : VoicesWithin V (Machine.ageVoices s) := by
  rw [ageVoices_eq]
  exact h.map (f := ageVoice) (fun _ => voiceLegal_ageVoice) ageVoice_active

/-- A voice below ACT.V is taken, free or by a steal (rule R262). -/
theorem VoicesWithin.allocate {V : Nat} {s : State} (h : VoicesWithin V s) {nt vl : BitVec 8} (hn : nt.toNat ≤ 127)
    (hv : vl.toNat ≤ 127) (h0 : vl ≠ 0) : VoicesWithin V (Machine.allocate nt vl s) := by
  have hset : ∀ u (t : State), VoicesWithin V t → u < V → VoicesWithin V (Machine.setVoice u (freshVoice u nt vl) t) :=
    fun u t ht hu => ht.setVoice (fun h32 => voiceLegal_freshVoice ⟨u, h32⟩ hn hv h0) fun _ => hu
  rw [Machine.allocate]
  split
  · rename_i u hu
    exact hset u s h (h.actV ▸ List.mem_range.1 (List.mem_of_find?_eq_some hu))
  · exact hset _ _ (h.congr rfl rfl) (h.actV ▸ (oldestVoice_spec s (h.actV ▸ h.pos)).1)

/-- An event is ignored, a note-off or the taking of a voice (rules R262, R263, R266). -/
theorem applyEventWord_cases {w : Cmd} {s t : State} (h : applyEventWord w s = .next t) :
    t = countIllegal s ∨ (∃ nt, t = noteOff nt s) ∨
      ∃ nt vl, nt.toNat ≤ 127 ∧ vl.toNat ≤ 127 ∧ vl ≠ 0 ∧ t = allocate nt vl (ageVoices s) := by
  simp only [applyEventWord] at h
  split at h
  · rename_i note vel off _
    simp only [execNoteOn] at h
    split at h
    · exact .inr (.inl ⟨_, (Host.Outcome.next.inj h).symm⟩)
    · rename_i h0
      exact .inr (.inr ⟨_, _, midi7_le note, midi7_le vel, h0, (Host.Outcome.next.inj h).symm⟩)
  · exact .inr (.inl ⟨_, (Host.Outcome.next.inj h).symm⟩)
  · exact .inl (Host.Outcome.next.inj h).symm
  · exact .inl (Host.Outcome.next.inj h).symm

theorem VoicesWithin.event {V : Nat} {s t : State} {w : Cmd} (h : VoicesWithin V s)
    (hw : applyEventWord w s = .next t) :
    VoicesWithin V t := by
  obtain rfl | ⟨nt, rfl⟩ | ⟨nt, vl, hn, hv, h0, rfl⟩ := applyEventWord_cases hw
  · exact h.congr rfl rfl
  · exact h.noteOff nt
  · exact h.ageVoices.allocate hn hv h0

theorem VoicesWithin.renderPart {V : Nat} {j ej : Nat} {s t : State} (h : VoicesWithin V s)
    (hr : Machine.renderPart j ej s = .next t) : VoicesWithin V t := by
  have hdraw : ∀ s, VoicesWithin V s → VoicesWithin V (nextDraw s) := fun s hs => hs.congr rfl rfl
  have hevent : ∀ {e} {u : State} {p}, VoicesWithin V u →
      (andThen (applyEvent e u) fun v => .next (reach p v)) = .next t → VoicesWithin V t := fun hu he => by
    obtain ⟨v, hv, he⟩ := andThen_eq_next.1 he
    have hvoices := applyEvent_inv (fun _ _ _ hs hw => VoicesWithin.event hs hw) hu hv
    exact Host.Outcome.next.inj he ▸ hvoices.congr rfl rfl
  simp only [Machine.renderPart] at hr
  split at hr
  · obtain ⟨⟨due, s1⟩, h1, hr⟩ := andThen_eq_next.1 hr
    have hs1 := dueEvent_inv hdraw h h1
    cases due with
    | true => exact hevent hs1 hr
    | false =>
      obtain ⟨⟨out, s2⟩, h2, hr⟩ := andThen_eq_next.1 hr
      have hs2 := frameOut_inv (fun _ _ _ _ hs hu hv => VoicesWithin.sample hs hu hv) hdraw hs1 h2
      exact Host.Outcome.next.inj hr ▸ hs2.congr rfl rfl
  · split at hr
    · exact hevent h hr
    · exact Host.Outcome.next.inj hr ▸ h.congr rfl rfl

/-! ## The parts -/

theorem writeBody_voices (j : Nat) (w : Word) (s : State) : (writeBody j w s).voices = s.voices := by
  simp only [writeBody]
  split <;> rfl

theorem endPublication_voices (s : State) : (endPublication s).voices = s.voices := by
  simp only [endPublication]
  split
  · rfl
  · rw [onlySpec_trans (passWrites_frame s) (advanceSeq_frame _)]

/-- A part changes no voice, or it is a PREPARE's latch, which leaves them idle, or a part of a SYN_RENDER's body (rules
R203, R250). -/
theorem enginePart_voices {s t : State} (h : enginePart s = .next t) :
    t.voices = s.voices ∨ t.voices = idleVoices ∨
      ∃ j ej, s.busy = true ∧ s.progress = .running j ej ∧ renderPart j ej s = .next t := by
  cases enginePart_partStep h with
  | registers h =>
    rw [onlyRegisters] at h
    exact .inl (by rw [h])
  | render j ej hb hp h => exact .inr (.inr ⟨j, ej, hb, hp, h⟩)
  | write j ej w hb hp hop ht => exact .inl (ht ▸ writeBody_voices j w s)
  | ingest j ej w hb hp hop ht => exact .inl (ht ▸ rfl)
  | hop j hb hp hdue ht => exact .inl (ht ▸ rfl)
  | publish j hb hp ht => exact .inl (ht ▸ endPublication_voices s)
  | latch hb hp hop ht => exact .inr (.inl (ht ▸ rfl))

theorem voicesLegal_congr {s t : State} (h : voicesLegal s) (hv : t.voices = s.voices) (ha : t.act = s.act)
    (hc : configured t → configured s) : voicesLegal t := by
  obtain ⟨hlegal, hinactive⟩ := h
  refine ⟨fun v => ?_, fun ht v hle => ?_⟩ <;> rw [hv]
  · exact hlegal v
  · exact hinactive (hc ht) v (by rwa [actV, ← ha])

/-- A part keeps the voices legal (rules R55, R261 to R264). -/
theorem enginePart_voicesLegal {s t : State} (hc : configLegal s) (hl : commandLegal s) (hv : voicesLegal s)
    (h : enginePart s = .next t) : voicesLegal t := by
  obtain ⟨-, -, -, -, rfl⟩ | ⟨ha, hcfg⟩ := enginePart_configured hl h
  · exact voicesLegal_of_idleVoices rfl
  obtain he | he | ⟨j, ej, hb, hp, hr⟩ := enginePart_voices h
  · exact voicesLegal_congr hv he ha hcfg
  · exact voicesLegal_of_idleVoices he
  · have hl' := hl hb
    simp only [hp] at hl'
    have hconf : configured s := .inl hl'.2.2
    have hwithin : VoicesWithin (actV s) s := ⟨rfl, (hc hconf 3 (by decide)).1, hv.1, hv.2 hconf⟩
    exact (hwithin.renderPart hr).voicesLegal

/-- Settles O52: a SYN_RENDER's samples and events keep each voice legal, a PREPARE's latch leaves every voice idle, and
no other part, access or completion touches a voice. -/
theorem voicesStayLegal : Obligations.VoicesStayLegal := by
  unfold Obligations.VoicesStayLegal
  intro s t hc hl hv h
  obtain ht | ⟨u, rfl⟩ := step_keeps (P := voicesLegal) (fun _ _ hs => hs)
    (fun u v hu _ h => enginePart_voicesLegal hu.config hu.command hu.holds h)
    (fun u v c hu _ h => voicesLegal_congr hu (by rw [h]) (by rw [h]) (configured_of_completes h))
    (fun u v hu h => voicesLegal_congr hu (by rw [h.1]) (by rw [h.1]) (configured_of_host h)) ⟨hc, hl, hv⟩ h
  · exact ht.holds
  · exact voicesLegal_of_idleVoices rfl

end Sys2Proof.Machine
end

section
/-! SUPPORT. The publication of an analysis pass and its sequence lock (rules R46, R121, R450, R451, R471, R472, R655): the
parts that touch the published words, one by one, and what all others leave as it was. -/

namespace Sys2Proof.Machine

/-! ## The parts that publish -/

/-- The registers that a publication changes, and the engine's state with them, are as they were (rules R46, R47, R48),
and no publication begins or ends. -/
structure KeepsPublished (s t : State) : Prop extends Quiet s t where
  spec : t.spec = s.spec
  trackers : t.trackers = s.trackers
  mlVec : t.mlVec = s.mlVec
  specSeq : t.specSeq = s.specSeq

theorem keepsPublished_of_registers {s t : State} (h : onlyRegisters s t) (hq : Quiet s t) : KeepsPublished s t := by
  rw [onlyRegisters] at h
  exact ⟨hq, by rw [h], by rw [h], by rw [h], by rw [h]⟩

theorem keepsPublished_of_render {j ej : Nat} {s t : State} (h : renderPart j ej s = .next t) (hq : Quiet s t) :
    KeepsPublished s t := by
  obtain ⟨u, p, rfl, hu, -⟩ := renderPart_cases h
  rw [onlyReads] at hu
  refine ⟨hq, ?_, ?_, ?_, ?_⟩ <;> rw [hu] <;> rfl

theorem keepsPublished_of_write {j ej : Nat} {w : Word} {s : State} (hp : s.progress = .writing j ej w)
    (hop : Cmd.op s.latched ≠ 0x04) : KeepsPublished s (reach (.running (j + 1) ej) (writeBody j w s)) := by
  have hs : quietAt s.progress = true := by rw [hp]; rfl
  simp only [writeBody]
  split
  · exact ⟨quiet_of_quietAt hs rfl, rfl, rfl, rfl, rfl⟩
  · exact ⟨quiet_of_quietAt hs rfl, rfl, rfl, rfl, rfl⟩
  · rename_i h
    exact absurd (op_eq_of_toNat h) hop
  · exact ⟨quiet_of_quietAt hs rfl, rfl, rfl, rfl, rfl⟩

/-! ## SPEC_SEQ, SPEC_LATEST, SPEC_VALID and SPEC_PENDING -/

@[simp] theorem passWrites_latest (s : State) :
    (passWrites s).spec.latest = BitVec.ofNat 32 (s.spec.frame.toNat % 32) := by
  simp [passWrites]

@[simp] theorem passWrites_valid (s : State) : (passWrites s).spec.valid = nextValid s.spec.valid := by
  simp [passWrites]

@[simp] theorem passWrites_pending (s : State) : (passWrites s).spec.pending = s.spec.pending := by
  simp [passWrites]

@[simp] theorem endPublication_specSeq (s : State) : (endPublication s).specSeq = s.specSeq + 1 := by
  simp only [endPublication]
  split <;> rfl

theorem nextValid_le {v : Word} : (nextValid v).toNat ≤ 32 := by
  rw [nextValid]
  split
  · rename_i h
    simp only [Config.featureHistory] at h
    bv_omega
  · decide

/-- One publication's end: SPEC_LATEST a slot and SPEC_VALID a count of slots (rules R46, R655). -/
theorem endPublication_ranges (s : State) :
    (endPublication s).spec.latest.toNat < 32 ∧ (endPublication s).spec.valid.toNat ≤ 32 := by
  simp only [endPublication]
  split
  · exact ⟨Nat.zero_lt_succ _, Nat.zero_le _⟩
  · refine ⟨?_, ?_⟩
    · simp [advanceSeq]
      omega
    · simp [advanceSeq, nextValid_le]

theorem toggle_mod_two (x : Word) : (x + 1).toNat % 2 = 1 - x.toNat % 2 := by
  rw [BitVec.toNat_add]
  have : (1 : Word).toNat = 1 := rfl
  omega

theorem endPublication_pending (s : State) :
    (Cmd.op s.latched = 0x01 ∧ (endPublication s).spec.pending = 0) ∨
      (Cmd.op s.latched ≠ 0x01 ∧ (endPublication s).spec.pending = s.spec.pending) := by
  simp only [endPublication]
  split
  · rename_i hop
    exact .inl ⟨hop, rfl⟩
  · rename_i hop
    exact .inr ⟨hop, passWrites_pending s⟩

/-! ## Every part keeps the publication legal -/

theorem publishing_of_progress {s : State} {j : Nat} (hb : s.busy = true) (hp : s.progress = .publishing j) :
    publishing s = true ∧ ingesting s = false := by
  simp [publishing, ingesting, hb, hp]

/-- The pending samples of a block that neither publishes for a PREPARE nor has a hop due are fewer than a hop. -/
theorem pending_lt_of_quiet {s : State} (hp : publicationLegal s) (hpub : publishing s = false ∨ preparing s = false)
    (hing : ingesting s = true → hopDue s = false) (hc : configured s) : s.spec.pending.toNat < s.act.hop.toNat := by
  obtain ⟨-, -, -, h⟩ := hp
  obtain ⟨h1, h2⟩ | ⟨h1, h2⟩ | h := h hc
  · obtain h | h := hpub
    · exact absurd (h.symm.trans h1) Bool.false_ne_true
    · exact absurd (h.symm.trans h2) Bool.false_ne_true
  · exact absurd ((hing h1).symm.trans h2) Bool.false_ne_true
  · exact h

/-- The end of a publication (rules R472, R655). -/
theorem publishPart_publicationLegal {s : State} {j : Nat} (hc : configLegal s) (hs : publicationLegal s)
    (hb : s.busy = true) (hp : s.progress = .publishing j)
    (hcfg : configured (publishPart j s) → configured s) : publicationLegal (publishPart j s) := by
  obtain ⟨hpub, hing⟩ := publishing_of_progress hb hp
  obtain ⟨hlatest, hvalid⟩ := endPublication_ranges s
  have hout : publishing (publishPart j s) = false := by
    rw [publishPart]
    split <;> exact publishing_of_quietAt rfl
  have hact : (publishPart j s).act = s.act := act_of_work (onlyWork_reach _ (endPublication_work s))
  refine ⟨?_, hlatest, hvalid, fun ht => .inr (.inr ?_)⟩
  · have hseq := hs.1
    rw [hpub, if_pos rfl] at hseq
    rw [hout, publishPart, reach_specSeq, endPublication_specSeq, toggle_mod_two, hseq]
    rfl
  · rw [hact, publishPart, reach_spec]
    obtain ⟨-, h0⟩ | ⟨hop, h0⟩ := endPublication_pending s <;> rw [h0]
    · exact hop_pos (hc (hcfg ht))
    · refine pending_lt_of_quiet hs (.inr (not_preparing_of_op hop)) (fun hi => ?_) (hcfg ht)
      exact absurd (hing.symm.trans hi) Bool.false_ne_true

/-- The start of a hop's publication (rules R450, R451). -/
theorem hopPart_publicationLegal {s : State} {j : Nat} (hc : configLegal s) (hl : commandLegal s)
    (hs : publicationLegal s) (hb : s.busy = true) (hp : s.progress = .ingested j) :
    publicationLegal (reach (.publishing j) (advanceSeq (clearPending s))) := by
  have hl' := hl hb
  simp only [hp] at hl'
  obtain ⟨hseq, hlatest, hvalid, -⟩ := hs
  refine ⟨?_, hlatest, hvalid, fun _ => .inr (.inr (hop_pos (hc (.inl hl'.2.2.2))))⟩
  have hin : publishing s = false := by simp [publishing, hp]
  rw [hin] at hseq
  have hout : publishing (reach (.publishing j) (advanceSeq (clearPending s))) = true := by
    simp [publishing, hb, advanceSeq, clearPending]
  rw [hout, reach_specSeq, advanceSeq, toggle_mod_two]
  simp [clearPending, hseq]

/-- A PREPARE's latch opens the publication that clears the published words (rules R203, R655). -/
theorem prepareLatched_publicationLegal {s : State} (hs : publicationLegal s) (hb : s.busy = true)
    (hp : s.progress = .start) (hop : Cmd.op s.latched = 0x01) : publicationLegal (prepareLatched s) := by
  obtain ⟨hseq, hlatest, hvalid, -⟩ := hs
  have hin : publishing s = false := by simp [publishing, hp]
  rw [hin] at hseq
  have hpub : publishing (prepareLatched s) = true := by
    simp [publishing, prepareLatched, advanceSeq, prepareLatch, publishSynth, hb]
  have hprep : preparing (prepareLatched s) = true := by
    simp [preparing, prepareLatched, advanceSeq, prepareLatch, publishSynth, hb, hop]
  refine ⟨?_, hlatest, hvalid, fun _ => .inl ⟨hpub, hprep⟩⟩
  rw [hpub, prepareLatched, reach_specSeq, advanceSeq, toggle_mod_two]
  simp [prepareLatch, publishSynth, hseq]

/-- The ingestion of a frame's mean may complete a hop (rule R450). -/
theorem ingest_publicationLegal {s : State} {j ej : Nat} {w v : Word} (hl : commandLegal s) (hs : publicationLegal s)
    (hb : s.busy = true) (hp : s.progress = .writing j ej v) :
    publicationLegal (reach (.ingested (j + 1)) (ingestFrame w s)) := by
  have hl' := hl hb
  simp only [hp] at hl'
  have hin : publishing s = false := publishing_of_quietAt (by rw [hp]; rfl)
  have hing : ingesting s = false := ingesting_of_quietAt (by rw [hp]; rfl)
  have hlt := pending_lt_of_quiet hs (.inl hin) (fun hi => absurd (hing.symm.trans hi) Bool.false_ne_true)
    (.inl hl'.2.2.2)
  obtain ⟨hseq, hlatest, hvalid, -⟩ := hs
  refine ⟨?_, hlatest, hvalid, fun _ => .inr ?_⟩
  · rw [hin] at hseq
    rw [show publishing (reach (.ingested (j + 1)) (ingestFrame w s)) = false by simp [publishing]]
    exact hseq
  · have hnext : (s.spec.pending + 1).toNat = s.spec.pending.toNat + 1 := by bv_omega
    by_cases hdue : s.spec.pending + 1 = s.act.hop
    · exact .inl ⟨by simp [ingesting, ingestFrame, hb], by simpa [hopDue, ingestFrame, ingest] using hdue⟩
    · right
      change (s.spec.pending + 1).toNat < s.act.hop.toNat
      have hne : (s.spec.pending + 1).toNat ≠ s.act.hop.toNat := fun h => hdue (BitVec.eq_of_toNat_eq h)
      omega

/-- Outside publications and ingestions the published words and the pending samples stand (rule R121). -/
theorem KeepsPublished.publicationLegal {s t : State} (hq : KeepsPublished s t) (hs : publicationLegal s)
    (hact : t.act = s.act) (hcfg : configured t → configured s) : publicationLegal t := by
  refine ⟨?_, by rw [hq.spec]; exact hs.2.1, by rw [hq.spec]; exact hs.2.2.1, fun ht => .inr (.inr ?_)⟩
  · have hseq := hs.1
    rw [hq.outside] at hseq
    rw [hq.specSeq, hq.publishing, hseq]
  · rw [hq.spec, hact]
    exact pending_lt_of_quiet hs (.inl hq.outside) hq.noHop (hcfg ht)

theorem enginePart_publicationLegal {s t : State} (hc : configLegal s) (hl : commandLegal s) (hs : publicationLegal s)
    (h : enginePart s = .next t) : publicationLegal t := by
  obtain ⟨hb, h0, hop, -, rfl⟩ | ⟨hact, hcfg⟩ := enginePart_configured hl h
  · exact prepareLatched_publicationLegal hs hb h0 hop
  cases enginePart_partStep h with
  | registers h hq => exact (keepsPublished_of_registers h hq).publicationLegal hs hact hcfg
  | render j ej hb hp h hq => exact (keepsPublished_of_render h hq).publicationLegal hs hact hcfg
  | write j ej w hb hp hop ht =>
    subst ht
    exact (keepsPublished_of_write hp hop).publicationLegal hs hact hcfg
  | ingest j ej w hb hp hop ht => exact ht ▸ ingest_publicationLegal hl hs hb hp
  | hop j hb hp hdue ht => exact ht ▸ hopPart_publicationLegal hc hl hs hb hp
  | publish j hb hp ht =>
    subst ht
    exact publishPart_publicationLegal hc hs hb hp hcfg
  | latch hb hp hop ht => exact ht ▸ prepareLatched_publicationLegal hs hb hp hop

theorem publicationLegal_of_completes {s t : State} {c : ResultCode} (hs : publicationLegal s)
    (hp : s.progress = .finishing c) (h : onlyCompletes s t) : publicationLegal t := by
  have hstart : t.progress = .start := by rw [h]
  have hq : Quiet s t := quiet_of_quietAt (by rw [hp]; rfl) (by rw [hstart]; rfl)
  have hkept : KeepsPublished s t := ⟨hq, by rw [h], by rw [h], by rw [h], by rw [h]⟩
  exact hkept.publicationLegal hs (by rw [h]) (configured_of_completes h)

theorem publicationLegal_of_host {s t : State} (hs : publicationLegal s) (h : onlyHost s t) : publicationLegal t := by
  have hcfg := configured_of_host h
  obtain ⟨ht, ⟨hb, hlatched, hp⟩ | ⟨hidle, -, hp⟩⟩ := h
  · have hspec : t.spec = s.spec := by rw [ht]
    have hseq : t.specSeq = s.specSeq := by rw [ht]
    have hact : t.act = s.act := by rw [ht]
    have hprep : t.prepared = s.prepared := by rw [ht]
    have hpub : publishing t = publishing s := by rw [publishing, publishing, hb, hp]
    have hing : ingesting t = ingesting s := by rw [ingesting, ingesting, hb, hp]
    have hpre : preparing t = preparing s := by rw [preparing, preparing, hb, hp, hlatched]
    rw [publicationLegal, configured, hopDue, hspec, hseq, hact, hprep, hpub, hing, hpre]
    exact hs
  · have hq : Quiet s t := quiet_of_idle hidle (.inl (by rw [hp]; rfl))
    have hkept : KeepsPublished s t := ⟨hq, by rw [ht], by rw [ht], by rw [ht], by rw [ht]⟩
    exact hkept.publicationLegal hs (by rw [ht]) hcfg

/-- Settles O53: a publication is opened by a PREPARE's latch or by a due hop and closed by its own part, each of which
moves SPEC_SEQ by 1; a frame's mean makes at most a whole hop of the pending samples, and its next part clears them. -/
theorem publicationStaysLegal : Obligations.PublicationStaysLegal := by
  unfold Obligations.PublicationStaysLegal
  intro s t hc hl hs h
  obtain ht | ⟨u, rfl⟩ := step_keeps (P := publicationLegal) (fun _ _ hs => hs)
    (fun u v hu _ h => enginePart_publicationLegal hu.config hu.command hu.holds h)
    (fun u v c hu hp h => publicationLegal_of_completes hu hp h) (fun u v hu h => publicationLegal_of_host hu h)
    ⟨hc, hl, hs⟩ h
  · exact ht.holds
  · exact publicationLegal_reset

/-! ## The published memory -/

/-- The block of a legal configuration ends below the results (rules R43, R109). -/
theorem blockByte_lt {k : BitVec 8} {frames : Word} {s : State} (hc : cfgLegal s.act) (hk : k.toNat ≤ 1) {x : Nat}
    (h : blockByte k frames s x) : x < 0x20000 := by
  have hb : s.act.maxBlock.toNat ≤ 4096 := (hc 1 (by omega)).2
  have hch : actC s ≤ 2 := by
    obtain h | h : s.act.channels = 1 ∨ s.act.channels = 2 := hc 2 (by omega) <;> rw [actC, h] <;> decide
  have hn : frameCount frames s * actC s ≤ 4096 * 2 := Nat.mul_le_mul ((Nat.min_le_right _ _).trans hb) hch
  obtain ⟨-, h⟩ := h
  rw [bufBase] at h
  omega

/-- Outside a publication a part stores at most a frame or sample of its body (rules R250, R350). -/
theorem enginePart_mem {s t : State} (h : enginePart s = .next t) (hpub : publishing s = false) :
    t.mem = s.mem ∨ ∃ j ej w, s.busy = true ∧ s.progress = .writing j ej w ∧ t.mem = (writeBody j w s).mem := by
  cases enginePart_partStep h with
  | registers h =>
    rw [onlyRegisters] at h
    exact .inl (by rw [h])
  | render j ej hb hp h =>
    obtain ⟨u, p, rfl, hu, -⟩ := renderPart_cases h
    rw [onlyReads] at hu
    exact .inl (by rw [hu]; rfl)
  | write j ej w hb hp hop ht => exact .inr ⟨j, ej, w, hb, hp, ht ▸ rfl⟩
  | ingest j ej w hb hp hop ht => exact .inl (ht ▸ rfl)
  | hop j hb hp hdue ht => exact .inl (ht ▸ rfl)
  | publish j hb hp ht => exact absurd (hpub.symm.trans (publishing_of_progress hb hp).1) Bool.false_ne_true
  | latch hb hp hop ht => exact .inl (ht ▸ rfl)

/-- A body writes within its buffer or ingests, and neither changes a result (rules R109, R250, R350, R450). -/
theorem writeBody_results {s : State} {j ej : Nat} {w v : Word} (hc : configLegal s) (hl : commandLegal s)
    (hb : s.busy = true) (hp : s.progress = .writing j ej v) {a : Nat} (ha : resultByte a) :
    Memory.byte (writeBody j w s).mem a = Memory.byte s.mem a := by
  by_cases hop : Cmd.op s.latched = 0x04
  · rw [writeBody_of_specProcess hop]
    rfl
  have hl' := hl hb
  simp only [hp] at hl'
  obtain ⟨hj, -, hk, hprep⟩ := hl'
  refine (writeBody_advances j w s (A := bodyByte s) fun x hx => hx hj).mem.other a fun hbody => ?_
  obtain ⟨-, hblock⟩ | ⟨hop', -⟩ := hbody
  · have hlt := blockByte_lt (hc (.inl hprep)) hk hblock
    obtain ha | ha := ha <;> omega
  · exact hop hop'

/-- The data under the sequence lock and the results are as they were (rule R121). -/
structure KeepsLocked (s t : State) : Prop where
  trackers : t.trackers = s.trackers
  mlVec : t.mlVec = s.mlVec
  since : t.spec.since = s.spec.since
  onsets : t.spec.onsets = s.spec.onsets
  frame : t.spec.frame = s.spec.frame
  latest : t.spec.latest = s.spec.latest
  valid : t.spec.valid = s.spec.valid

theorem KeepsPublished.locked {s t : State} (h : KeepsPublished s t) :
    KeepsLocked s t ∧ t.specSeq = if Machine.publishing t then s.specSeq + 1 else s.specSeq := by
  refine ⟨⟨h.trackers, h.mlVec, congrArg (·.since) h.spec, congrArg (·.onsets) h.spec, congrArg (·.frame) h.spec,
    congrArg (·.latest) h.spec, congrArg (·.valid) h.spec⟩, ?_⟩
  rw [h.publishing, h.specSeq]
  rfl

/-- Outside a publication a part keeps the locked data, and moves SPEC_SEQ exactly if it begins one (rules R121, R472). -/
theorem enginePart_locked {s t : State} (h : enginePart s = .next t) (hpub : publishing s = false) :
    KeepsLocked s t ∧ t.specSeq = if publishing t then s.specSeq + 1 else s.specSeq := by
  cases enginePart_partStep h with
  | registers h hq => exact (keepsPublished_of_registers h hq).locked
  | render j ej hb hp h hq => exact (keepsPublished_of_render h hq).locked
  | write j ej w hb hp hop ht => exact ht ▸ (keepsPublished_of_write hp hop).locked
  | ingest j ej w hb hp hop ht =>
    have hout : publishing t = false := by simp [ht, publishing]
    subst ht
    exact ⟨⟨rfl, rfl, rfl, rfl, rfl, rfl, rfl⟩, by rw [hout]; rfl⟩
  | hop j hb hp hdue ht =>
    subst ht
    have hin := (publishing_of_progress (s := reach (.publishing j) (advanceSeq (clearPending s))) hb rfl).1
    exact ⟨⟨rfl, rfl, rfl, rfl, rfl, rfl, rfl⟩, by rw [hin]; rfl⟩
  | publish j hb hp ht => exact absurd (hpub.symm.trans (publishing_of_progress hb hp).1) Bool.false_ne_true
  | latch hb hp hop ht =>
    subst ht
    have hin := (publishing_of_progress (s := prepareLatched s) hb rfl).1
    exact ⟨⟨rfl, rfl, rfl, rfl, rfl, rfl, rfl⟩, by rw [hin]; rfl⟩

/-- Inside a publication the next part is its end (rule R472). -/
theorem enginePart_of_publishing {s t : State} (h : enginePart s = .next t) (hpub : publishing s = true) :
    ∃ j, t = publishPart j s := by
  cases enginePart_partStep h with
  | registers h hq => exact absurd (hq.outside.symm.trans hpub) Bool.false_ne_true
  | render j ej hb hp h hq => exact absurd (hq.outside.symm.trans hpub) Bool.false_ne_true
  | publish j hb hp ht => exact ⟨j, ht⟩
  | write j ej w hb hp | ingest j ej w hb hp | hop j hb hp | latch hb hp => simp [publishing, hp] at hpub

/-- Settles O46: outside a publication a part writes at most its block, and the latch or the due hop that opens one moves
SPEC_SEQ alone; the part inside a publication ends it. -/
theorem sequenceLockGuardsThePublication : Obligations.SequenceLockGuardsThePublication := by
  unfold Obligations.SequenceLockGuardsThePublication
  intro s t hc hl h
  refine ⟨fun hpub => ?_, fun hpub => ?_⟩
  · obtain ⟨hk, hseq⟩ := enginePart_locked h hpub
    refine ⟨hk.trackers, hk.mlVec, hk.since, hk.onsets, hk.frame, hk.latest, hk.valid, fun a ha => ?_, hseq⟩
    obtain he | ⟨j, ej, w, hb, hp, he⟩ := enginePart_mem h hpub <;> rw [he]
    exact writeBody_results hc hl hb hp ha
  · obtain ⟨j, rfl⟩ := enginePart_of_publishing h hpub
    refine ⟨?_, endPublication_specSeq s⟩
    rw [publishPart]
    split <;> exact publishing_of_quietAt rfl

end Sys2Proof.Machine
end

section
/-! SUPPORT. The register map (rules R33 to R54, R101 to R106): which word a CSR offset reads in each range of the map, and
what the host's accesses do to it. -/

namespace Sys2Proof.Machine

/-! ## A bank of words -/

theorem bankWord_toList {n : Nat} (v : Vector Word n) {i : Nat} (h : i < n) : bankWord v.toList i = v[i] := by
  rw [bankWord, List.getD_eq_getElem _ _ (by simpa using h)]
  simp

theorem bankWord_of_le {ws : List Word} {i : Nat} (h : ws.length ≤ i) : bankWord ws i = 0 :=
  List.getD_eq_default _ _ h

/-- The words of a bank are what its offsets read, if each reads its own. -/
theorem map_readCsr {s : State} {base : Nat} {ws : List Word}
    (h : ∀ i, i < ws.length → readCsr s (base + 4 * i) = bankWord ws i) :
    ((List.range ws.length).map fun i => readCsr s (base + 4 * i)) = ws := by
  refine List.ext_getElem (by simp) fun i h1 h2 => ?_
  rw [List.getElem_map, List.getElem_range, h i h2, bankWord, List.getD_eq_getElem _ _ h2]

/-! ## The ranges of the map (rule R34) -/

section
variable {s : State} {off : Nat}

theorem readCsr_control (h : off < 0x040) : readCsr s off = bankWord (controlWords s) (off / 4) := by
  rw [readCsr, if_pos h]

theorem readCsr_cfg (h1 : 0x040 ≤ off) (h2 : off < 0x0C0) :
    readCsr s off = bankWord (cfgWords s.cfg) ((off - 0x040) / 4) := by
  rw [readCsr]
  iterate 1 rw [if_neg (by omega)]
  exact if_pos h2

theorem readCsr_act (h1 : 0x0C0 ≤ off) (h2 : off < 0x110) :
    readCsr s off = bankWord (cfgWords s.act) ((off - 0x0C0) / 4) := by
  rw [readCsr]
  iterate 2 rw [if_neg (by omega)]
  exact if_pos h2

theorem readCsr_statistics (h1 : 0x110 ≤ off) (h2 : off < 0x120) :
    readCsr s off = bankWord [s.synActive, s.synSteals] ((off - 0x110) / 4) := by
  rw [readCsr]
  iterate 3 rw [if_neg (by omega)]
  exact if_pos h2

theorem readCsr_trackers (h1 : 0x140 ≤ off) (h2 : off < 0x180) :
    readCsr s off = bankWord (trackerWords s) ((off - 0x140) / 4) := by
  rw [readCsr]
  iterate 5 rw [if_neg (by omega)]
  exact if_pos h2

theorem readCsr_mlVec (h1 : 0x180 ≤ off) (h2 : off < 0x300) :
    readCsr s off = bankWord s.mlVec.toList ((off - 0x180) / 4) := by
  rw [readCsr]
  iterate 6 rw [if_neg (by omega)]
  exact if_pos h2

theorem readCsr_voiceStatus (h1 : 0x300 ≤ off) (h2 : off < 0x380) :
    readCsr s off = bankWord s.voiceStatus.toList ((off - 0x300) / 4) := by
  rw [readCsr]
  iterate 7 rw [if_neg (by omega)]
  exact if_pos h2

theorem readCsr_voiceAge (h1 : 0x380 ≤ off) (h2 : off < 0x400) :
    readCsr s off = bankWord s.voiceAge.toList ((off - 0x380) / 4) := by
  rw [readCsr]
  iterate 8 rw [if_neg (by omega)]
  exact if_pos h2

theorem readCsr_synp (h1 : 0x400 ≤ off) (h2 : off < 0x480) :
    readCsr s off = bankWord s.synp.toList ((off - 0x400) / 4) := by
  rw [readCsr]
  iterate 9 rw [if_neg (by omega)]
  exact if_pos h2

theorem readCsr_eqg (h1 : 0x480 ≤ off) (h2 : off < 0x500) :
    readCsr s off = bankWord s.eqg.toList ((off - 0x480) / 4) := by
  rw [readCsr]
  iterate 10 rw [if_neg (by omega)]
  exact if_pos h2

theorem readCsr_eqb (h1 : 0x500 ≤ off) (h2 : off < 0x700) :
    readCsr s off =
      bankWord (s.eqb.getD ((off - 0x500) / 0x40) (Vector.replicate 11 0)).toList ((off - 0x500) % 0x40 / 4) := by
  rw [readCsr]
  iterate 11 rw [if_neg (by omega)]
  exact if_pos h2

theorem readCsr_eqc (h1 : 0x700 ≤ off) (h2 : off < 0x800) :
    readCsr s off =
      bankWord (s.eqc.getD ((off - 0x700) / 0x20) (Vector.replicate 5 0)).toList ((off - 0x700) % 0x20 / 4) := by
  rw [readCsr]
  iterate 12 rw [if_neg (by omega)]
  exact if_pos h2

theorem readCsr_beyond (h : 0x800 ≤ off) : readCsr s off = 0 := by
  rw [readCsr]
  iterate 13 rw [if_neg (by omega)]

end

/-- Only the CFG_* registers read the pending configuration. -/
theorem readCsr_setCfg (c : CfgRegs) (s : State) {off : Nat} (h : off < 0x040 ∨ 0x0C0 ≤ off) :
    readCsr { s with cfg := c } off = readCsr s off := by
  obtain h | h := h
  · rw [readCsr_control h, readCsr_control h]
    rfl
  · simp only [readCsr, show ¬ off < 0x040 by omega, show ¬ off < 0x0C0 by omega, if_false]
    rfl

/-- A register of a band reads from the band's bank (rule R34). -/
theorem getD_vector {α : Type} {n : Nat} (v : Vector α n) (d : α) {i : Nat} (h : i < n) : v.getD i d = v[i] := by
  simp [Vector.getD, h]

/-- Every aligned offset that the map does not list reads 0, and so do the push words (rules R34, R54). -/
theorem readCsr_unlisted (s : State) {off : Nat} (ha : off % 4 = 0)
    (h : off = 0x02C ∨ off = 0x030 ∨ off = 0x034 ∨ (0x084 ≤ off ∧ off < 0x0C0) ∨ (0x104 ≤ off ∧ off < 0x110) ∨
      (0x118 ≤ off ∧ off < 0x120) ∨ off = 0x13C ∨ (0x168 ≤ off ∧ off < 0x180) ∨ (0x228 ≤ off ∧ off < 0x300) ∨
      (0x43C ≤ off ∧ off < 0x480) ∨ (0x490 ≤ off ∧ off < 0x500) ∨
      (0x500 ≤ off ∧ off < 0x700 ∧ 0x2C ≤ off % 0x40) ∨ (0x700 ≤ off ∧ off < 0x800 ∧ 0x14 ≤ off % 0x20) ∨
      0x800 ≤ off) : readCsr s off = 0 := by
  obtain rfl | rfl | rfl | ⟨h1, h2⟩ | ⟨h1, h2⟩ | ⟨h1, h2⟩ | rfl | ⟨h1, h2⟩ | ⟨h1, h2⟩ | ⟨h1, h2⟩ | ⟨h1, h2⟩ |
    ⟨h1, h2, h3⟩ | ⟨h1, h2, h3⟩ | h := h
  · rfl
  · rfl
  · rfl
  · rw [readCsr_cfg (by omega) h2]
    exact bankWord_of_le (show 17 ≤ _ by omega)
  · rw [readCsr_act (by omega) h2]
    exact bankWord_of_le (show 17 ≤ _ by omega)
  · rw [readCsr_statistics (by omega) h2]
    exact bankWord_of_le (show 2 ≤ _ by omega)
  · rfl
  · rw [readCsr_trackers (by omega) h2]
    exact bankWord_of_le (show 10 ≤ _ by omega)
  · rw [readCsr_mlVec (by omega) h2]
    exact bankWord_of_le (by rw [Vector.length_toList]; omega)
  · rw [readCsr_synp (by omega) h2]
    exact bankWord_of_le (by rw [Vector.length_toList]; omega)
  · rw [readCsr_eqg (by omega) h2]
    exact bankWord_of_le (by rw [Vector.length_toList]; omega)
  · rw [readCsr_eqb h1 h2]
    exact bankWord_of_le (by rw [Vector.length_toList]; omega)
  · rw [readCsr_eqc h1 h2]
    exact bankWord_of_le (by rw [Vector.length_toList]; omega)
  · exact readCsr_beyond h

/-- Settles O43: each range of the map reads its bank, which is the register list of rule R34, and an offset past the end
of a bank reads 0. -/
theorem registersReadAtTheirOffsets : Obligations.RegistersReadAtTheirOffsets := by
  unfold Obligations.RegistersReadAtTheirOffsets
  intro s
  refine ⟨rfl, fun r hr => ?_, rfl, rfl, rfl, rfl, fun i => ?_, fun v => ⟨?_, ?_⟩, fun i => ?_, fun i => ?_,
    fun b i => ?_, fun b k => ?_, fun off ha hoff => ?_⟩
  · simp only [List.mem_cons, List.not_mem_nil, or_false] at hr
    obtain rfl | rfl := hr
    · refine map_readCsr (ws := cfgWords s.cfg) fun i hi => ?_
      have hi : i < 17 := hi
      rw [readCsr_cfg (by omega) (by omega), show (0x040 + 4 * i - 0x040) / 4 = i by omega]
    · refine map_readCsr (ws := cfgWords s.act) fun i hi => ?_
      have hi : i < 17 := hi
      rw [readCsr_act (by omega) (by omega), show (0x0C0 + 4 * i - 0x0C0) / 4 = i by omega]
  · rw [readCsr_mlVec (by omega) (by omega), show (0x180 + 4 * i.val - 0x180) / 4 = i.val by omega]
    exact bankWord_toList _ i.isLt
  · rw [readCsr_voiceStatus (by omega) (by omega), show (0x300 + 4 * v.val - 0x300) / 4 = v.val by omega]
    exact bankWord_toList _ v.isLt
  · rw [readCsr_voiceAge (by omega) (by omega), show (0x380 + 4 * v.val - 0x380) / 4 = v.val by omega]
    exact bankWord_toList _ v.isLt
  · rw [readCsr_synp (by omega) (by omega), show (0x400 + 4 * i.val - 0x400) / 4 = i.val by omega]
    exact bankWord_toList _ i.isLt
  · rw [readCsr_eqg (by omega) (by omega), show (0x480 + 4 * i.val - 0x480) / 4 = i.val by omega]
    exact bankWord_toList _ i.isLt
  · rw [readCsr_eqb (by omega) (by omega), show (0x500 + 0x40 * b.val + 4 * i.val - 0x500) / 0x40 = b.val by omega,
      show (0x500 + 0x40 * b.val + 4 * i.val - 0x500) % 0x40 / 4 = i.val by omega, getD_vector _ _ b.isLt]
    exact bankWord_toList _ i.isLt
  · rw [readCsr_eqc (by omega) (by omega), show (0x700 + 0x20 * b.val + 4 * k.val - 0x700) / 0x20 = b.val by omega,
      show (0x700 + 0x20 * b.val + 4 * k.val - 0x700) % 0x20 / 4 = k.val by omega, getD_vector _ _ b.isLt]
    exact bankWord_toList _ k.isLt
  · exact readCsr_unlisted s ha hoff

/-- Settles O48: the map read in the reset state. -/
theorem resetRegisterValues : Obligations.ResetRegisterValues := by
  unfold Obligations.ResetRegisterValues
  refine ⟨?_, ?_, ?_, ?_, ?_, ?_, ?_, ?_, ?_⟩ <;> decide +kernel

/-! ## The host's writes -/

/-- Settles O7: the two writes are accesses of CMD_LO and CMD_HI, and a doorbell starts a command or is dropped. -/
theorem doorbellStartsOrDrops : Obligations.DoorbellStartsOrDrops := by
  unfold Obligations.DoorbellStartsOrDrops
  refine fun s h => ⟨rfl, ?_⟩
  have hdoor : access (.write 4 0x010 h) s = .next (ringDoorbell h s) := rfl
  rw [hdoor, ringDoorbell]
  split <;> rfl

theorem access_write_of_region {s : State} {off : Nat} {v : Word} {r : Region} (ha : off % 4 = 0)
    (hr : regionOf off = some r) : access (.write 4 off v) s = hostWrite r off v s := by
  rw [access, accessRegion_of_aligned ha, hr]

theorem regionOf_csr {off : Nat} (h : off < 0x1000) : regionOf off = some .csr := if_pos h

/-- Settles O41: the spectrum windows and the history are read-only regions, and a CSR write names its register or none. -/
theorem readOnlyWritesAreIgnored : Obligations.ReadOnlyWritesAreIgnored := by
  unfold Obligations.ReadOnlyWritesAreIgnored
  intro s off v ha h
  obtain h | h | ⟨hcsr, h1, h2, h3, h4, h5⟩ := h
  · rw [access_write_of_region (r := .hist) ha (regionOf_some.2 h)]
    rfl
  · obtain h | h | h : (0x30000 ≤ off ∧ off < 0x38000) ∨ (0x38000 ≤ off ∧ off < 0x40000) ∨
      (0x40000 ≤ off ∧ off < 0x48000) := by omega
    · rw [access_write_of_region (r := .mag) ha (regionOf_some.2 h)]
      rfl
    · rw [access_write_of_region (r := .phase) ha (regionOf_some.2 h)]
      rfl
    · rw [access_write_of_region (r := .power) ha (regionOf_some.2 h)]
      rfl
  · rw [access_write_of_region ha (regionOf_csr hcsr), hostWrite, writeCsr, if_neg h1, if_neg h2, if_neg h3, if_neg h4,
      if_neg (by omega)]

theorem setCfgWord_spec {i : Nat} (hi : i < 17) (v : Word) (c : CfgRegs) :
    cfgWords (setCfgWord i v c) = (cfgWords c).set i v := by
  interval_cases i <;> rfl

/-- Settles O42: a CFG_* write sets one word of its bank, which only the CFG_* registers read. -/
theorem configurationWritesReadBack : Obligations.ConfigurationWritesReadBack := by
  unfold Obligations.ConfigurationWritesReadBack
  intro s off v ha h1 h2
  have hw : access (.write 4 off v) s =
      if s.busy = true ∧ Cmd.op s.latched = 0x01 then .refused (.hostDuty off)
      else .next { s with cfg := setCfgWord ((off - 0x040) / 4) v s.cfg } := by
    rw [access_write_of_region ha (regionOf_csr (by omega)), hostWrite, writeCsr, if_neg (by omega), if_neg (by omega),
      if_neg (by omega), if_neg (by omega), if_pos ⟨h1, h2⟩]
  refine ⟨fun hb => by rw [hw, if_pos hb], fun hb => ⟨_, by rw [hw, if_neg hb], rfl, ?_, fun o ho hne => ?_⟩⟩
  · have hi : (off - 0x040) / 4 < ((cfgWords s.cfg).set ((off - 0x040) / 4) v).length := by
      rw [List.length_set]
      exact show _ < 17 by omega
    rw [readCsr_cfg h1 (by omega), setCfgWord_spec (by omega), bankWord, List.getD_eq_getElem _ _ hi,
      List.getElem_set_self]
  · by_cases hin : o < 0x040 ∨ 0x0C0 ≤ o
    · exact readCsr_setCfg _ s hin
    · rw [readCsr_cfg (by omega) (by omega), readCsr_cfg (by omega) (by omega)]
      rw [setCfgWord_spec (by omega), bankWord, bankWord, List.getD_eq_getElem?_getD, List.getElem?_set_ne (by omega),
        List.getD_eq_getElem?_getD]

/-! ## The agents (rule R682) -/

theorem takenByAnother_iff {role : Option Nat} {agent : Nat} :
    takenByAnother role agent = true ↔ ∃ b, role = some b ∧ b ≠ agent := by
  cases role <;> simp [takenByAnother]

theorem offsetOf_eq_none {addr : Nat} (h : addr < Config.blockBase ∨ Config.blockBase + 0x80000 ≤ addr) :
    offsetOf addr = none := by
  rw [offsetOf, if_neg (by omega)]

/-- Whether a 32-bit write breaks duty H1 or H2 (rule R682). -/
theorem breaksDuty_iff {agent off : Nat} {s : State} :
    breaksDuty agent off s = true ↔
      (off = 0x010 ∧ ∃ b, s.doorbellAgent = some b ∧ b ≠ agent) ∨
        ((off = 0x030 ∨ off = 0x034) ∧ ∃ b, s.producer = some b ∧ b ≠ agent) ∨ (off = 0x034 ∧ s.pushLow = false) := by
  rw [breaksDuty, ← takenByAnother_iff, ← takenByAnother_iff]
  split_ifs with h1 h2 h3
  · simp [h1]
  · simp [h2]
  · simp [h3]
  · simp [h1, h2, h3]

theorem noteAgent_eq (agent off : Nat) (s : State) :
    noteAgent agent off s = { s with
      doorbellAgent := if off = 0x010 then some agent else s.doorbellAgent
      producer := if off = 0x030 ∨ off = 0x034 then some agent else s.producer
      pushLow := if off = 0x030 then true else if off = 0x034 then false else s.pushLow } := by
  rw [noteAgent]
  by_cases h1 : off = 0x010
  · subst h1
    rfl
  by_cases h2 : off = 0x030
  · subst h2
    rfl
  by_cases h3 : off = 0x034
  · subst h3
    rfl
  · simp only [h1, h2, h3, if_false, or_self]

/-- Settles O47: an access is made at its address's offset in the window; a 32-bit write of one of the three words that an
agent owns is refused exactly if it breaks a duty. -/
theorem agentsOweTheirDuties : Obligations.AgentsOweTheirDuties := by
  unfold Obligations.AgentsOweTheirDuties
  refine ⟨fun s rest agent a ha => ?_, fun s agent width addr v h => ?_, fun s agent width off v hoff => ?_⟩
  · rw [step, nextTurn, ha]
    rfl
  · simp only [agentAccess, offsetOf_eq_none h, and_self]
  · have hoff : offsetOf (Config.blockBase + off) = some off := offsetOf_eq_some.2 ⟨rfl, hoff⟩
    simp only [agentAccess, hoff, ← noteAgent_eq]
    refine ⟨trivial, fun ⟨hw, h⟩ => if_pos ?_, fun h => if_neg fun hb => h ?_⟩
    · have hregion : (accessRegion width off).isSome = true := by
        obtain ⟨rfl, -⟩ | ⟨rfl | rfl, -⟩ | ⟨rfl, -⟩ := h <;> rw [hw] <;> rfl
      rw [hregion, breaksDuty_iff.2 h]
      rfl
    · obtain ⟨hsome, hduty⟩ := Bool.and_eq_true _ _ ▸ hb
      refine ⟨by_contra fun hw => ?_, breaksDuty_iff.1 hduty⟩
      rw [accessRegion_eq_none.2 (.inl hw)] at hsome
      exact Bool.noConfusion hsome

end Sys2Proof.Machine
end

section
/-! SUPPORT. The status words (rules R36, R42, R49), PREPARE's failures (rules R202, R601), the host's reads (rules R101,
R113), and the completion of a command wherever it has come (rules R38, R200). -/

namespace Sys2Proof.Machine

theorem getLsbD_of_toNat_lt {n k j : Nat} {w : BitVec n} (h : w.toNat < 2 ^ k) (hj : k ≤ j) : w.getLsbD j = false := by
  rw [← BitVec.testBit_toNat]
  exact Nat.testBit_lt_two_pow (h.trans_le (Nat.pow_le_pow_right (by decide) hj))

/-- The bits of STATUS (rule R36). -/
theorem statusWord_fields (s : State) :
    (statusWord s).getLsbD 0 = s.prepared ∧ (statusWord s).getLsbD 1 = s.busy ∧ (statusWord s).toNat < 2 ^ 2 := by
  rw [statusWord]
  cases s.prepared <;> cases s.busy <;> decide

/-- The bits of PQ_STATUS (rule R42). -/
theorem pqStatusWord_fields : ∀ (d : Fin 32) (ok full empty : Bool),
    let w := BitVec.ofNat 32 d.val ||| (if ok then 0x100#32 else 0#32) ||| (if full then 0x200#32 else 0#32) |||
      (if empty then 0x400#32 else 0#32)
    w.toNat % 64 = d.val ∧ w.getLsbD 6 = false ∧ w.getLsbD 7 = false ∧ w.getLsbD 8 = ok ∧ w.getLsbD 9 = full ∧
      w.getLsbD 10 = empty ∧ w.toNat < 2 ^ 11 := by
  decide +kernel

theorem queueEmpty_iff (s : State) : queueEmpty s = true ↔ queueDepth s = 0 := by
  rw [queueEmpty, beq_iff_eq, queueDepth_eq, Fin.ext_iff]
  omega

/-- Settles O15: the fields of the three words are disjoint, so each bit is that of one field. -/
theorem statusWordsHoldTheirFields : Obligations.StatusWordsHoldTheirFields := by
  unfold Obligations.StatusWordsHoldTheirFields
  refine ⟨fun s => ?_, fun v => ?_⟩
  · have hstatus : readCsr s 0x008 = statusWord s := rfl
    have hpq : readCsr s 0x038 = pqStatusWord s := rfl
    obtain ⟨h0, h1, hlt⟩ := statusWord_fields s
    obtain ⟨hd, h6, h7, h8, h9, h10, hlt'⟩ := pqStatusWord_fields ⟨queueDepth s, Nat.lt_succ_of_le (queueDepth_le s)⟩
      s.lastPushOk (queueFull s) (queueEmpty s)
    rw [hstatus, hpq, queued_length]
    refine ⟨h0, h1, fun j hj => getLsbD_of_toNat_lt hlt hj, hd, h8, ?_, ?_, fun j hj => ?_⟩
    · rw [← Bool.eq_iff_iff.2 (queueFull_iff s |>.trans decide_eq_true_iff.symm)]
      exact h9
    · rw [← Bool.eq_iff_iff.2 (queueEmpty_iff s |>.trans decide_eq_true_iff.symm)]
      exact h10
    · obtain ⟨h, h'⟩ | h := hj
      · obtain rfl | rfl : j = 6 ∨ j = 7 := by omega
        exacts [h6, h7]
      · exact getLsbD_of_toNat_lt hlt' h
  · have hactive : (voiceStatusWord v).getLsbD 0 = v.active := by
      rw [voiceStatusWord, BitVec.getLsbD_append, if_pos (by decide), BitVec.getLsbD_ofBool]
      simp
    refine ⟨hactive, ?_, ?_, ?_, ?_, ?_⟩ <;> rw [voiceStatusWord, BitVec.extractLsb'_append_eq_of_le (by decide)]
    · rw [BitVec.extractLsb'_append_eq_right]
      cases v.stage <;> rfl
    · rw [BitVec.extractLsb'_append_eq_of_le (by decide), BitVec.extractLsb'_append_eq_right]
      rfl
    · rw [BitVec.extractLsb'_append_eq_of_le (by decide), BitVec.extractLsb'_append_eq_of_le (by decide),
        BitVec.extractLsb'_append_eq_right]
    · iterate 3 rw [BitVec.extractLsb'_append_eq_of_le (by decide)]
      exact BitVec.extractLsb'_append_eq_right
    · iterate 3 rw [BitVec.extractLsb'_append_eq_of_le (by decide)]
      exact BitVec.extractLsb'_append_eq_left

theorem resultWord_fields (op : BitVec 8) (c : ResultCode) :
    (resultWord op c).extractLsb' 8 8 = op ∧ (resultWord op c).extractLsb' 0 8 = codeNumber c ∧
      (resultWord op c).extractLsb' 16 16 = 0 := by
  refine ⟨?_, BitVec.extractLsb'_append_eq_right, ?_⟩ <;> rw [resultWord, BitVec.extractLsb'_append_eq_of_le (by decide)]
  · exact BitVec.extractLsb'_append_eq_right
  · exact BitVec.extractLsb'_append_eq_left

/-! ## What every completion keeps -/

/-- `t` has the completions counted in `s`, and PREPARED if `s` has. -/
structure KeepsCount (s t : State) : Prop where
  latched : t.latched = s.latched
  cmdCount : t.cmdCount = s.cmdCount
  prepared : s.prepared = true → t.prepared = true

theorem KeepsCount.trans {s t u : State} (h1 : KeepsCount s t) (h2 : KeepsCount t u) : KeepsCount s u :=
  ⟨h2.latched.trans h1.latched, h2.cmdCount.trans h1.cmdCount, fun h => h2.prepared (h1.prepared h)⟩

theorem keepsCount_of_work {s t : State} (h : onlyWork s t) : KeepsCount s t := by
  have hp : t.prepared = s.prepared := by rw [h]
  exact ⟨by rw [h], by rw [h], fun hs => hp.trans hs⟩

theorem keepsCount_restOfBody {j ej : Nat} {s t : State} (h : restOfBody j ej s = .next t) : KeepsCount s t := by
  obtain ⟨-, rfl⟩ | ⟨-, hw⟩ := restOfBody_cases h
  · exact ⟨rfl, rfl, fun _ => rfl⟩
  · exact keepsCount_of_work hw

theorem keepsCount_endBody (s : State) : KeepsCount s (endBody s) := by
  obtain ⟨-, he⟩ | ⟨-, hw⟩ := endBody_cases s
  · rw [he]
    exact ⟨rfl, rfl, fun _ => rfl⟩
  · exact keepsCount_of_work hw

theorem keepsCount_beginCommand (s : State) : KeepsCount s (beginCommand s) ∧ (beginCommand s).progress ≠ .start := by
  obtain ⟨c, e⟩ | ⟨-, c, f, -, e⟩ | ⟨-, -, e⟩ | ⟨-, e⟩ := beginCommand_cases s <;> rw [e] <;>
    exact ⟨⟨rfl, rfl, id⟩, fun h => Progress.noConfusion h⟩

/-- The rest of a command that has begun completes it (rules R32, R38). -/
theorem restOfCommand_of_begun {i : Instr} {s t : State} (hp : s.progress ≠ .start) (h : restOfCommand i s = .next t) :
    ∃ c u, t = finish c (Cmd.op s.latched) u ∧ KeepsCount s u := by
  obtain ⟨h0, -⟩ | ⟨q, s1, u, -, h1, h2, rfl⟩ | ⟨q, w, s1, s2, u, -, h1, h2, h3, rfl⟩ | ⟨u, -, h1, rfl⟩ |
    ⟨j, ej, u, -, h1, rfl⟩ | ⟨j, ej, w, u, -, h1, rfl⟩ | ⟨j, u, -, h1, rfl⟩ | ⟨j, u, -, h1, rfl⟩ | ⟨-, rfl⟩ |
    ⟨c, -, rfl⟩ := restOfCommand_cases h
  · exact absurd h0 hp
  · exact ⟨_, u, rfl, (keepsCount_of_work (onlyWork_trans (drainTo_work h1) (beginBody_work s1))).trans
      (keepsCount_restOfBody h2)⟩
  · exact ⟨_, u, rfl, (keepsCount_of_work (onlyWork_trans (applyEntry_work h1)
      (onlyWork_trans (drainTo_work h2) (beginBody_work s2)))).trans (keepsCount_restOfBody h3)⟩
  · exact ⟨_, u, rfl, (keepsCount_of_work (beginBody_work s)).trans (keepsCount_restOfBody h1)⟩
  · exact ⟨_, u, rfl, keepsCount_restOfBody h1⟩
  · refine ⟨_, u, rfl, (keepsCount_of_work ?_).trans (keepsCount_restOfBody h1)⟩
    split
    · exact onlyWork_trans (writeBody_work j w s) (afterIngest_work _)
    · exact writeBody_work j w s
  · exact ⟨_, u, rfl, (keepsCount_of_work (afterIngest_work s)).trans (keepsCount_restOfBody h1)⟩
  · exact ⟨_, u, rfl, (keepsCount_of_work (endPublication_work s)).trans (keepsCount_restOfBody h1)⟩
  · exact ⟨_, _, rfl, keepsCount_endBody s⟩
  · exact ⟨c, s, rfl, ⟨rfl, rfl, id⟩⟩

/-- The engine's turn completes the command in progress (rules R32, R38, R200). -/
theorem engineTurn_completes {s t : State} (hb : s.busy = true) (h : engineTurn s = .next t) :
    ∃ c u, (t = finish c (Cmd.op s.latched) u ∨ t = settleRaces (finish c (Cmd.op s.latched) u)) ∧ KeepsCount s u := by
  obtain ⟨hb', -⟩ | ⟨-, i, u, hd, hu, rfl⟩ | ⟨-, -, rfl⟩ := engineTurn_cases h
  · exact absurd (hb'.symm.trans hb) Bool.false_ne_true
  · by_cases hp : s.progress = .start
    · obtain ⟨hk, hstart⟩ := keepsCount_beginCommand s
      rw [restOfCommand_start hp, exec_eq_rest_of_begin hd] at hu
      obtain ⟨c, v, rfl, hv⟩ := restOfCommand_of_begun hstart hu
      exact ⟨c, v, .inr (by rw [hk.latched]), hk.trans hv⟩
    · obtain ⟨c, v, rfl, hv⟩ := restOfCommand_of_begun hp hu
      exact ⟨c, v, .inr rfl, hv⟩
  · exact ⟨_, s, .inl rfl, ⟨rfl, rfl, id⟩⟩

/-! ## The commands that always answer -/

/-- Only the three process commands read memory in their bodies (rules R201, R203). -/
theorem restOfBody_answers {s : State} (hop : (Cmd.op s.latched).toNat ≤ 1) (j ej : Nat) :
    ∃ t, restOfBody j ej s = .next t := by
  simp only [restOfBody]
  split
  · exact ⟨_, rfl⟩
  · omega
  · omega
  · omega
  · exact ⟨_, rfl⟩

theorem completeBody_answers {s t : State} (h : onlyWork s t) (hop : (Cmd.op s.latched).toNat ≤ 1) (op : BitVec 8)
    (j ej : Nat) : ∃ u, completeBody op j ej t = .next u := by
  obtain ⟨u, hu⟩ := restOfBody_answers (s := t) (by rwa [op_of_work h]) j ej
  exact ⟨_, by rw [completeBody, hu, andThen_next]⟩

/-- The rest of a begun NOP or PREPARE answers, wherever the command has come. -/
theorem restOfCommand_answers {i : Instr} {s : State} (hp : s.progress ≠ .start) (hop : (Cmd.op s.latched).toNat ≤ 1) :
    ∃ t, restOfCommand i s = .next t := by
  cases h : s.progress with
  | start => exact absurd h hp
  | draining q =>
    obtain ⟨u, hu, -, -⟩ := drainTo_completes q 31 s
    rw [restOfCommand_draining h, hu, andThen_next]
    exact completeBody_answers (onlyWork_trans (drainTo_work hu) (beginBody_work u)) hop _ _ _
  | applying q w =>
    obtain ⟨u, hu, -⟩ := applyEntry_completes w s
    obtain ⟨v, hv, -, -⟩ := drainTo_completes q 31 u
    rw [restOfCommand_applying h, hu, andThen_next, hv, andThen_next]
    exact completeBody_answers
      (onlyWork_trans (applyEntry_work hu) (onlyWork_trans (drainTo_work hv) (beginBody_work v))) hop _ _ _
  | beginning =>
    rw [restOfCommand_beginning h]
    exact completeBody_answers (beginBody_work s) hop _ _ _
  | running j ej =>
    rw [restOfCommand_running h]
    exact completeBody_answers (onlyWork_refl s) hop _ _ _
  | writing j ej w =>
    have hne : Cmd.op s.latched ≠ 0x04 := fun h4 => by
      rw [h4] at hop
      exact absurd hop (by decide)
    rw [restOfCommand_writing h, if_neg hne]
    exact completeBody_answers (writeBody_work j w s) hop _ _ _
  | ingested j =>
    rw [restOfCommand_ingested h]
    exact completeBody_answers (afterIngest_work s) hop _ _ _
  | publishing j =>
    rw [restOfCommand_publishing h]
    exact completeBody_answers (endPublication_work s) hop _ _ _
  | ending => exact ⟨_, restOfCommand_ending h⟩
  | finishing c => exact ⟨_, restOfCommand_finishing h⟩

/-- The engine's turn of a NOP, a PREPARE or an illegal opcode answers (rules R200, R201, R203, R602). -/
theorem engineTurn_answers {s : State} (hb : s.busy = true)
    (hop : (Cmd.op s.latched).toNat ≤ 1 ∨ 4 < (Cmd.op s.latched).toNat) : ∃ t, engineTurn s = .next t := by
  cases hd : decodeWord .doorbell s.latched with
  | error e =>
    refine ⟨illegalDoorbell s, ?_⟩
    simp only [engineTurn, fetch, hb, hd, if_true]
  | ok i =>
    have hlow : (Cmd.op s.latched).toNat ≤ 1 := hop.resolve_right fun h => by
      obtain ⟨e, he⟩ := decodeDoorbell_error_iff.2 h
      exact absurd (hd.symm.trans he) nofun
    rw [engineTurn_of_rest hb hd]
    obtain ⟨u, hu⟩ : ∃ u, restOfCommand i s = .next u := by
      by_cases hp : s.progress = .start
      · obtain ⟨hk, hstart⟩ := keepsCount_beginCommand s
        rw [restOfCommand_start hp, exec_eq_rest_of_begin hd]
        exact restOfCommand_answers hstart (by rwa [hk.latched])
      · exact restOfCommand_answers hp hlow
    exact ⟨_, by rw [hu, andThen_next]⟩

/-- Settles O8: whatever the command has come to, the rest of it keeps the count, and the completion counts it once. -/
theorem commandsCompleteExactlyOnce : Obligations.CommandsCompleteExactlyOnce := by
  unfold Obligations.CommandsCompleteExactlyOnce
  refine ⟨fun s t hb h => ?_, fun s hb hop => ?_⟩
  · obtain ⟨c, u, ht, hu⟩ := engineTurn_completes hb h
    obtain ⟨hfop, hfcode, hfzero⟩ := resultWord_fields (Cmd.op s.latched) c
    have hresult : t.cmdResult = resultWord (Cmd.op s.latched) c := by obtain rfl | rfl := ht <;> rfl
    have hcount : t.cmdCount = s.cmdCount + 1 := by
      rw [← hu.cmdCount]
      obtain rfl | rfl := ht <;> rfl
    have hbusy : t.busy = false := by obtain rfl | rfl := ht <;> rfl
    rw [hresult]
    exact ⟨hbusy, hcount, hfop, hfcode ▸ codeNumber_le c, hfzero⟩
  · refine engineTurn_answers hb ?_
    obtain h | h | h := hop
    · exact .inl (by rw [h]; decide)
    · exact .inl (by rw [h]; decide)
    · exact .inr h

theorem enginePart_prepared {s t : State} (hs : s.prepared = true) (h : enginePart s = .next t) : t.prepared = true := by
  by_cases hp : s.progress = .start
  · obtain ⟨-, rfl⟩ | ⟨-, h⟩ := enginePart_cases h
    · exact hs
    · simp only [hp, reduceCtorEq, false_and, exists_false, or_false, true_and] at h
      exact h ▸ (keepsCount_beginCommand s).1.prepared hs
  · obtain hw | ⟨-, rfl⟩ := enginePart_work hp h
    · exact (keepsCount_of_work hw).prepared hs
    · rfl

theorem engineTurn_prepared {s t : State} (hs : s.prepared = true) (h : engineTurn s = .next t) : t.prepared = true := by
  cases hb : s.busy with
  | false =>
    rw [engineTurn, hb] at h
    exact Host.Outcome.next.inj h ▸ hs
  | true =>
    obtain ⟨c, u, rfl | rfl, hu⟩ := engineTurn_completes hb h
    · exact hu.prepared hs
    · exact hu.prepared hs

/-- Settles O56: a completion, a part and an access each keep PREPARED, and the reset turn is the hardware reset. -/
theorem preparedIsOnlyClearedByReset : Obligations.PreparedIsOnlyClearedByReset := by
  unfold Obligations.PreparedIsOnlyClearedByReset
  refine ⟨fun s t hs hreset h => ?_, fun s rest ha => ?_⟩
  · obtain ⟨-, h⟩ | ⟨turn, rest, ha, ⟨-, h⟩ | ⟨-, h⟩ | ⟨agent, a, -, h⟩ | ⟨rfl, -⟩⟩ := step_cases h
    · exact engineTurn_prepared hs h
    · exact engineTurn_prepared (s := { s with agenda := rest }) hs h
    · exact enginePart_prepared (s := { s with agenda := rest }) hs h
    · obtain ⟨ht, -⟩ := agentAccess_onlyHost h
      rw [ht]
      exact hs
    · exact absurd ha (hreset rest)
  · rw [step, nextTurn, ha]
    rfl

/-! ## The host's reads (rules R33, R101, R113) -/

theorem access_read_cases {width off : Nat} {s t : State} (h : access (.read width off) s = .next t) :
    ∃ r, accessRegion width off = some r ∧ t = hostRead r off s := by
  simp only [access] at h
  split at h
  · rename_i r hr
    exact ⟨r, hr, (Host.Outcome.next.inj h).symm⟩
  · exact absurd h nofun

theorem hostRead_idle {r : Region} {off : Nat} {s : State} (hb : s.busy = false) :
    (hostRead r off s).readData = plainRead r off s s.hostDraws := by
  simp only [hostRead, hb, Bool.false_eq_true, if_false]

theorem regionOf_of_accessRegion {width off : Nat} {r : Region} (h : accessRegion width off = some r) :
    regionOf off = some r := by
  rw [accessRegion] at h
  split at h
  · exact h
  · exact absurd h nofun

/-- A read of a CSR of an idle block (rule R33). -/
theorem readData_csr {off : Nat} {s t : State} (hb : s.busy = false) (hoff : off < 0x1000)
    (h : access (.read 4 off) s = .next t) : t.readData = readCsr s off := by
  obtain ⟨r, hr, rfl⟩ := access_read_cases h
  obtain rfl : r = .csr := by
    have h1 := regionOf_of_accessRegion hr
    rw [regionOf, if_pos hoff] at h1
    exact (Option.some.inj h1).symm
  exact hostRead_idle hb

/-- Settles O39: a read changes its own read data and draw counter alone, and an idle block reads its registers and
RAMs. -/
theorem readsHaveNoSideEffect : Obligations.ReadsHaveNoSideEffect := by
  unfold Obligations.ReadsHaveNoSideEffect
  refine ⟨fun s t width off h => ?_, fun s t off hb hoff h => readData_csr hb hoff h, fun s t u off hb hoff h1 h2 => ?_,
    fun s t off w hb hoff hw h => ?_⟩
  · obtain ⟨r, -, rfl⟩ := access_read_cases h
    rfl
  · obtain ⟨r, -, ht⟩ := access_read_cases h1
    have hbt : t.busy = false := by rw [ht]; exact hb
    have hsame : readCsr t off = readCsr s off := by rw [ht]; rfl
    rw [readData_csr hbt hoff h2, readData_csr hb hoff h1, hsame]
  · obtain ⟨r, hr, rfl⟩ := access_read_cases h
    have hram : r ≠ .csr := fun he => by
      have hcsr := regionOf_some.1 (regionOf_of_accessRegion (he ▸ hr))
      exact absurd (show off < 0x1000 from hcsr.2) (by omega)
    rw [hostRead_idle hb, plainRead_of_ram hram, hw, Option.getD_some]

/-! ## PREPARE's failures (rules R202, R601, R602) -/

theorem exec_prepare_of_error {s : State} {c : ResultCode} {e : Word} (h : prepareError s.cfg = some (c, e)) :
    ∃ t, exec .prepare s = .next t ∧ completedWith 0x01 (codeNumber c) { s with cfgErrField := e } t := by
  refine ⟨_, ?_, finish_completedWith c 0x01 _⟩
  simp only [exec, execPrepare, h]

theorem cfgChecks_field {c : CfgRegs} {i : Nat} (hi : i < 17) :
    (cfgChecks c)[i].1 = BitVec.ofNat 32 (0x040 + 4 * i) := by
  interval_cases i <;> rfl

/-- The first illegal register is the one the range check reports. -/
theorem firstIllegal_eq_some {c : CfgRegs} {i : Nat} (hi : i < 17) (hbad : ¬ cfgRegLegal c i)
    (hgood : ∀ j, j < i → cfgRegLegal c j) : firstIllegal c = some (BitVec.ofNat 32 (0x040 + 4 * i)) := by
  have hfind : (cfgChecks c).find? (fun oc => !oc.2) = some (cfgChecks c)[i] := by
    rw [List.find?_eq_some_iff_getElem]
    refine ⟨?_, i, hi, rfl, fun j hj => ?_⟩
    · rwa [Bool.not_eq_true', ← Bool.not_eq_true, cfgChecks_iff c hi]
    · rw [Bool.not_not]
      exact (cfgChecks_iff c (by omega)).2 (hgood j hj)
  rw [firstIllegal, hfind, Option.map_some, cfgChecks_field hi]

/-- Settles O10: PREPARE's three checks in their order. -/
theorem prepareFailuresAreOrderedAndPrecise : Obligations.PrepareFailuresAreOrderedAndPrecise := by
  unfold Obligations.PrepareFailuresAreOrderedAndPrecise
  refine fun s => ⟨fun h0 => ?_, fun h0 hp => ?_, fun i h0 hp hi hbad hgood => ?_⟩
  · exact exec_prepare_of_error (c := .zeroSampleRate) (by rw [prepareError, if_pos h0])
  · have hpow : isPow2 s.cfg.fftSize = false := Bool.eq_false_iff.2 fun h => by
      obtain ⟨e, he⟩ := isPow2_iff.1 h
      exact hp e he
    exact exec_prepare_of_error (c := .fftNotPow2) (by rw [prepareError, if_neg h0, if_pos hpow])
  · have hpow : ¬ isPow2 s.cfg.fftSize = false := by rw [isPow2_iff.2 hp]; decide
    refine exec_prepare_of_error (c := .range) ?_
    rw [prepareError, if_neg h0, if_neg hpow, firstIllegal_eq_some hi hbad hgood, Option.map_some]

end Sys2Proof.Machine
end

section
/-! SUPPORT. The bodies of SYN_RENDER and EQ_PROCESS after the drain (rules R250, R267, R350 to R352): when a render
completes and what it publishes, and which bands' state an equalizer run touches. -/

namespace Sys2Proof.Machine

/-! ## SYN_RENDER (rules R250, R267) -/

/-- After the drain the render reads what it needs: the events, and the wavetable where a voice may play it. -/
theorem renderReady_of_drained {e : BitVec 16} {s s1 : State} (hd : drain s = .next s1)
    (he : readableWords s 0x01000 (2 * min e.toNat 256) = true)
    (hw : readableWords s 0x02000 2048 = true ∨ (s.head = s.tail ∧ s.synp[0] ≠ 3)) : renderReady (eventCount e) s1 := by
  have hmem : s1.mem = s.mem := onlyDrained_mem (drain_frame hd).1
  refine ⟨hmem ▸ readableWords_iff.1 he, ?_⟩
  obtain hw | ⟨hq, hwave⟩ := hw
  · exact .inr (hmem ▸ readableWords_iff.1 hw)
  · obtain rfl := Host.Outcome.next.inj ((drain_empty s hq).symm.trans hd)
    exact .inl fun h => hwave (BitVec.eq_of_toNat_eq h)

theorem publishSynth_voice (s : State) (v : Fin 32) :
    (publishSynth s).voiceStatus[v] = (if v.val < actV s then voiceStatusWord s.voices[v] else 0) ∧
      (publishSynth s).voiceAge[v] = if v.val < actV s then s.voices[v].age else 0 := by
  simp only [publishSynth, Fin.getElem_fin, Vector.getElem_ofFn, publishedStatus, publishedAge, voiceAt_fin, and_self]

/-- Settles O24: the drained block reads what it needs, and the publication is the body's last. -/
theorem synRenderCompletes : Obligations.SynRenderCompletes := by
  unfold Obligations.SynRenderCompletes
  intro s k e frames hp hk he hw
  obtain ⟨s1, hd, hdrained, hhead⟩ := drain_completes s
  obtain ⟨u, ⟨hu, -⟩, hbody⟩ := renderBlock_completes k e frames s1 (renderReady_of_drained hd he hw)
  refine ⟨finish .ok 0x02 (publishSynth u), ?_, rfl, ?_, rfl, ?_, rfl, rfl, publishSynth_voice u⟩
  · rw [exec_synRender, processCommand_completes hp hk hd hbody]
  · rw [finish_cmdCount]
    have : u.cmdCount = s.cmdCount := by rw [hu, hdrained]
    exact congrArg (· + 1) this
  · have : u.head = s1.head := by rw [hu]
    exact this.trans hhead

/-! ## The histories of the bands (rules R53, R354, R355) -/

theorem setHist_hist_ne {b c : Nat} (hc : c < 8) (hne : b ≠ c) (sec ch : Nat) (h : Hist) (e : EqEngine) :
    (setHist b sec ch h e).hist[c] = e.hist[c] := by
  simp only [setHist]
  exact Vector.getElem_setIfInBounds_ne hc hne

theorem cascade_hist_ne {b c : Nat} (hc : c < 8) (hne : b ≠ c) (coef : Vector F32 5) (ch : Nat) (secs : List Nat)
    (x : F32) (e : EqEngine) : (cascade coef b ch secs x e).2.hist[c] = e.hist[c] := by
  induction secs generalizing x e with
  | nil => rfl
  | cons sec secs ih =>
    rw [cascade]
    exact (ih _ _).trans (setHist_hist_ne hc hne ..)

theorem analogOut_hist (s : State) (ch : Nat) (x : F32) (e : EqEngine) : (analogOut s ch x e).2.hist = e.hist := by
  simp only [analogOut, setAnalog]

/-- The analog stage touches no history (rules R354, R410). -/
theorem path_bands (s : State) (ch : Nat) (x : F32) (e : EqEngine) :
    (path s ch x e).2.hist = (bandsOut s ch (List.range 8) x e).2.hist := by
  simp only [path]
  split
  · rfl
  · exact analogOut_hist ..

section
variable {s : State} {c : Nat} (hc : c < 8) (hskip : bandProcesses s c = false)
include hskip

theorem bandsOut_hist (ch : Nat) (bs : List Nat) (x : F32) (e : EqEngine) :
    (bandsOut s ch bs x e).2.hist[c] = e.hist[c] := by
  induction bs generalizing x e with
  | nil => rfl
  | cons b bs ih =>
    rw [bandsOut]
    split
    · rename_i hb
      have hne : b ≠ c := fun he => absurd (hskip.symm.trans (he ▸ hb)) Bool.false_ne_true
      exact (ih _ _).trans (cascade_hist_ne hc hne ..)
    · exact ih _ _

theorem path_hist (ch : Nat) (x : F32) (e : EqEngine) : (path s ch x e).2.hist[c] = e.hist[c] :=
  (congrArg (·[c]) (path_bands s ch x e)).trans (bandsOut_hist hc hskip ch (List.range 8) x e)

theorem oversample_hist (ch : Nat) (x : F32) (e : EqEngine) : (oversample s ch x e).2.hist[c] = e.hist[c] :=
  (path_hist hc hskip ch _ _).trans (path_hist hc hskip ch _ e)

theorem eqSample_hist (ch : Nat) (x : F32) : (eqSample s ch x).2.hist[c] = s.eq.hist[c] := by
  rw [eqSample]
  split
  · exact oversample_hist hc hskip ch x s.eq
  · exact path_hist hc hskip ch x s.eq

theorem sampleOut_hist {base j : Nat} {w : Word} {t : State} (h : sampleOut base j s = .next (w, t)) :
    t.eq.hist[c] = s.eq.hist[c] := by
  obtain ⟨v, -, h⟩ := andThen_eq_next.1 h
  obtain ⟨-, rfl⟩ := Prod.mk.inj (Host.Outcome.next.inj h)
  exact eqSample_hist hc hskip _ _

end

/-- The sample loop keeps the histories of a band that does not process (rule R350). -/
theorem eqSamples_hist {c : Nat} (hc : c < 8) {base : Nat} {js : List Nat} {s t : State}
    (hskip : bandProcesses s c = false) (h : eqSamples base js s = .next t) : t.eq.hist[c] = s.eq.hist[c] := by
  induction js generalizing s with
  | nil => exact Host.Outcome.next.inj h ▸ rfl
  | cons j js ih =>
    obtain ⟨⟨v, s1⟩, h1, h⟩ := andThen_eq_next.1 h
    have hsame : SameEqualizer s (writeWord s1 (base + 4 * j) v) := by
      rw [sampleOut_frame h1]
      exact ⟨rfl, rfl, rfl⟩
    have hs1 : s1.eq.hist[c] = s.eq.hist[c] := sampleOut_hist hc hskip h1
    exact (ih (by rw [hsame.bandProcesses]; exact hskip) h).trans hs1

theorem SameEqualizer.designBand {s t : State} (h : SameEqualizer s t) (b : Nat) :
    Machine.designBand t b = Machine.designBand s b := by
  simp only [Machine.designBand, bandFreq, bandQ, bandParam, freqTop, fsEff, actFs, h.act, h.eqb]

/-- Settles O33: after the drain the coefficients of the enabled bands alone are designed anew, and the sample loop
touches the histories of the processing bands alone. -/
theorem eqSkippedBandsStayFrozen : Obligations.EqSkippedBandsStayFrozen := by
  unfold Obligations.EqSkippedBandsStayFrozen
  intro s t k frames hp hk h b
  obtain ⟨hp', -⟩ | ⟨-, hk', -⟩ | ⟨-, -, s1, s2, h1, h2, rfl⟩ := processCommand_cases h
  · exact absurd (hp'.symm.trans hp) Bool.false_ne_true
  · omega
  obtain ⟨hd, -⟩ := drain_frame h1
  have heq : s1.eq = s.eq := by rw [hd]
  have heqc : s1.eqc = s.eqc := by rw [hd]
  by_cases hby : s1.eqg[3] = 1
  · obtain rfl := Host.Outcome.next.inj ((eqBlock_of_bypass k frames hby).symm.trans h2)
    exact ⟨fun _ => congrArg (·.hist[b]) heq, fun _ => congrArg (·[b]) heqc, fun hne => absurd hby hne⟩
  · rw [eqBlock, eqBegin_of_processing hby] at h2
    have hf := (eqFrom_frame h2).1
    have hsame : SameEqualizer s1 (finish .ok 0x03 s2) := by
      rw [hf]
      exact ⟨rfl, rfl, rfl⟩
    have hcoef : (finish .ok 0x03 s2).eqc[b] = if s1.eqb[b][8] = 1 then designBand s1 b.val else s1.eqc[b] := by
      rw [hf]
      simp
    refine ⟨fun hskip => ?_, fun hen => ?_, fun _ hen => ?_⟩
    · rw [hsame.bandProcesses] at hskip
      have hhist := eqSamples_hist b.isLt (by exact hskip) h2
      exact hhist.trans (congrArg (·.hist[b]) heq)
    · rw [hcoef, ← hsame.eqb, if_neg hen, heqc]
    · rw [hcoef, ← hsame.eqb, if_pos hen, hsame.designBand]

end Sys2Proof.Machine
end

section
/-! SUPPORT. What an analysis pass publishes (rules R464, R470 to R474, R560): its snapshot words masked by the feature
enables, and where memory, the trackers and the ML vector hold them. -/

namespace Sys2Proof.Machine

/-! ## The snapshot of a pass (rules R470, R471) -/

/-- The spectra of the pass that a state's analysis frame gives (rules R463, R464). -/
def spectraAt (s : State) : Spectra :=
  spectraOf (windowedFrame s.spec (analysisFrame s.spec (actN s)) (actN s)) (actK s)

/-- The pass whose features are extracted (rule R472). -/
def passAt (s : State) : Pass := passOf s (analysisFrame s.spec (actN s)) (spectraAt s)

/-- Whether the pass finds an onset (rule R546). -/
def onsetAt (s : State) : Bool := isOnset s.spec s.act.onsetLambda s.act.onsetRefract (flux (passAt s))

/-- The spectral engine after the onset and tempo steps of the pass (rules R546, R552). -/
def engineAt (s : State) : SpecEngine :=
  tempoStep s.act (actFs s) (onsetStep s.spec (onsetAt s) (flux (passAt s)))

/-- The snapshot before masking: the fixed part of rule R470, then three words for each peak. -/
def layoutAt (s : State) : List Word :=
  let p := passAt s
  let pitch := yinPitch p s.act.pitchMin s.act.pitchMax s.act.yinThresh
  [s.spec.frame, s.spec.samples.extractLsb' 0 32, s.spec.samples.extractLsb' 32 32, centroid p, spread p, flatness p,
    BitVec.ofNat 32 (rolloff p (decimal 85 2)), BitVec.ofNat 32 (rolloff p (decimal 95 2)), flux p, slope p] ++
  mfcc p ++ chroma p ++ contrast p ++ tonnetz (chroma p) ++
  [pitch.1, pitchConfidence p pitch.2, flux p, if onsetAt s then 1 else 0, (engineAt s).tempo, (engineAt s).tempoConf,
    (harmPerc p).1, (harmPerc p).2, BitVec.ofNat 32 (peaks p).length] ++ peakWords p (peaks p)

/-- The words that the pass publishes: its snapshot, masked (rule R474). -/
def wordsAt (s : State) : List Word :=
  maskFrom s.act.featureEn 0 (snapshotWords s.act (engineAt s) (passAt s) (onsetAt s))

theorem length_wordsAt (s : State) : (wordsAt s).length = 128 := by
  rw [wordsAt, maskFrom_length, snapshotWords_length]

theorem engineAt_frame (s : State) : (engineAt s).frame = s.spec.frame := by
  rw [engineAt, tempoStep_frame, onsetStep_frame]

theorem engineAt_samples (s : State) : (engineAt s).samples = s.spec.samples := by
  rw [engineAt, tempoStep_samples, onsetStep_samples]

theorem passWrites_eq (s : State) :
    passWrites s = { s with
      mem := publishPass s.mem (actK s) ((engineAt s).frame.toNat % 32) (spectraAt s) (wordsAt s)
      trackers := trackersOf (wordsAt s)
      mlVec := mlVector (wordsAt s)
      spec := (passWrites s).spec } := rfl

/-- The pass is that of the state before SPEC_SEQ's step. -/
theorem wordsAt_advanceSeq (s : State) : wordsAt (advanceSeq s) = wordsAt s := rfl

theorem spectraAt_advanceSeq (s : State) : spectraAt (advanceSeq s) = spectraAt s := rfl

theorem analysisPass_published (s : State) :
    (analysisPass s).mem = publishPass s.mem (actK s) (s.spec.frame.toNat % 32) (spectraAt s) (wordsAt s) ∧
      (analysisPass s).trackers = trackersOf (wordsAt s) ∧ (analysisPass s).mlVec = mlVector (wordsAt s) := by
  have hp := passWrites_eq (advanceSeq s)
  rw [engineAt_frame, wordsAt_advanceSeq, spectraAt_advanceSeq] at hp
  rw [analysisPass, advanceSeq_mem, advanceSeq_trackers, advanceSeq_mlVec, hp]
  refine ⟨?_, ?_, ?_⟩
  · dsimp only
    rw [advanceSeq_mem, advanceSeq_spec]
    rfl
  · rfl
  · rfl

/-! ## Lists padded with zeros -/

theorem getD_append_zeros (ws : List Word) (n j : Nat) : (ws ++ List.replicate n 0).getD j 0 = ws.getD j 0 := by
  by_cases hj : j < ws.length
  · exact List.getD_append _ _ _ _ hj
  · rw [List.getD_append_right _ _ _ _ (Nat.le_of_not_lt hj), List.getD_eq_default ws _ (Nat.le_of_not_lt hj)]
    simp

theorem padTo_of_le {n : Nat} {ws : List Word} (h : ws.length ≤ n) :
    padTo n ws = ws ++ List.replicate (n - ws.length) 0 := by
  rw [padTo, List.take_append, List.take_of_length_le h, List.take_replicate, Nat.min_eq_left (Nat.sub_le _ _)]

theorem length_peakWords_le (p : Pass) : (peakWords p (peaks p)).length ≤ 48 := by
  have hlen : (peaks p).length ≤ 16 := by
    rw [peaks, List.length_take]
    exact Nat.min_le_left _ _
  have hwords : ∀ ps : List Nat, (peakWords p ps).length = 3 * ps.length := fun ps => by
    simp [peakWords, List.length_flatMap, Nat.mul_comm]
  rw [hwords]
  omega

/-- The snapshot is its layout and zeros (rule R470). -/
theorem snapshot_getD (s : State) (j : Nat) :
    (snapshotWords s.act (engineAt s) (passAt s) (onsetAt s)).getD j 0 = (layoutAt s).getD j 0 := by
  simp only [snapshotWords, engineAt_frame, engineAt_samples, padTo_of_le (length_peakWords_le (passAt s))]
  rw [getD_append_zeros, ← List.append_assoc, getD_append_zeros]
  rfl

theorem length_layoutAt_le (s : State) : (layoutAt s).length ≤ 104 := by
  have h := length_peakWords_le (passAt s)
  simp only [layoutAt, List.length_append, mfcc, chroma, contrast, tonnetz, List.length_map, List.length_range,
    Config.nMfcc, List.length_cons, List.length_nil]
  omega

/-! ## The words in memory (rule R471) -/

/-- Each published word: one of the layout where its feature, if it has one, is enabled, and 0 elsewhere (rule R474). -/
theorem wordsAt_getD (s : State) {j : Nat} (hj : j < 128) :
    (wordsAt s).getD j 0 = maskWord s.act.featureEn j ((layoutAt s).getD j 0) := by
  have h := maskFrom_getElem s.act.featureEn 0 (snapshotWords s.act (engineAt s) (passAt s) (onsetAt s)) j
    (by rw [maskFrom_length, snapshotWords_length]; exact hj) (by rw [snapshotWords_length]; exact hj)
  rw [Nat.zero_add] at h
  rw [← snapshot_getD, wordsAt, List.getD_eq_getElem _ _ (by rw [maskFrom_length, snapshotWords_length]; exact hj), h,
    List.getD_eq_getElem _ _ (by rw [snapshotWords_length]; exact hj)]

theorem held_eq (s : State) {j : Nat} (hj : j < 128) :
    Memory.word (analysisPass s).mem (0x20000 + 0x200 * (s.spec.frame.toNat % 32) + 4 * j) =
      some ((wordsAt s).getD j 0) := by
  have hlen : j < (wordsAt s).length := by rwa [length_wordsAt]
  rw [(analysisPass_published s).1, publishPass, List.getD_eq_getElem _ _ hlen]
  exact word_setWords (wordsAt s) _ (histBase _) j hlen

/-- The words of a feature (rule R474). -/
theorem featureBit_eq {r : Nat × Nat × Nat}
    (hr : r ∈ [(0, 3, 9), (1, 10, 22), (2, 23, 34), (3, 35, 40), (4, 41, 46), (5, 47, 48), (6, 49, 50), (7, 51, 52),
      (8, 53, 54), (9, 55, 103)]) {j : Nat} (h1 : r.2.1 ≤ j) (h2 : j ≤ r.2.2) : featureBit j = some r.1 := by
  simp only [List.mem_cons, List.not_mem_nil, or_false] at hr
  obtain rfl | rfl | rfl | rfl | rfl | rfl | rfl | rfl | rfl | rfl := hr <;> interval_cases j <;> rfl

theorem lt_of_featureBit {j b : Nat} (h : featureBit j = some b) : j < 104 := by
  by_contra hj
  simp [featureBit, show ¬ j < 3 by omega, show ¬ j < 10 by omega, show ¬ j < 23 by omega, show ¬ j < 35 by omega,
    show ¬ j < 41 by omega, show ¬ j < 47 by omega, show ¬ j < 49 by omega, show ¬ j < 51 by omega,
    show ¬ j < 53 by omega, show ¬ j < 55 by omega, hj] at h

/-- Past the peaks a snapshot is 0 (rule R470). -/
theorem wordsAt_past (s : State) {j : Nat} (h1 : 104 ≤ j) (h2 : j < 128) : (wordsAt s).getD j 0 = 0 := by
  have hnone : featureBit j = none := by interval_cases j <;> rfl
  rw [wordsAt_getD s h2, maskWord, hnone]
  exact List.getD_eq_default _ _ ((length_layoutAt_le s).trans h1)

/-- The words of a feature, which its enable bit masks (rule R474). -/
theorem wordsAt_feature (s : State) {b j : Nat} (hj : j < 128) (h : featureBit j = some b) :
    (wordsAt s).getD j 0 = if s.act.featureEn.getLsbD b then (layoutAt s).getD j 0 else 0 := by
  rw [wordsAt_getD s hj, maskWord, h]

/-! ## The spectra in memory (rules R111, R464) -/

theorem actK_le {s : State} (hc : cfgLegal s.act) : actK s ≤ 4097 := by
  obtain ⟨e, -, he, hN⟩ : ∃ e, 6 ≤ e ∧ e ≤ 13 ∧ s.act.fftSize.toNat = 2 ^ e := hc 4 (by omega)
  have : 2 ^ e ≤ 2 ^ 13 := Nat.pow_le_pow_right (by omega) he
  rw [actK, actN, hN]
  omega

theorem word_binWords {K k : Nat} (hk : k < K) (m : List Host.Cell) (base : Nat) (a : Array F32) :
    Memory.word (Memory.setWords m base (binWords K a)) (base + 4 * k) = some (tab a k) := by
  rw [word_setWords _ _ _ _ (by simpa [binWords] using hk)]
  simp [binWords]

/-- A spectrum's words lie apart from the other spectra and from the history. -/
theorem publishPass_spectra {K slot k : Nat} (hK : K ≤ 4097) (hk : k < K) (hslot : slot < 32) (m : List Host.Cell)
    (sp : Spectra) {ws : List Word} (hws : ws.length = 128) :
    Memory.word (publishPass m K slot sp ws) (0x30000 + 4 * k) = some (tab sp.M k) ∧
      Memory.word (publishPass m K slot sp ws) (0x38000 + 4 * k) = some (tab sp.Φ k) ∧
      Memory.word (publishPass m K slot sp ws) (0x40000 + 4 * k) = some (tab sp.P k) := by
  have hlen : ∀ a, (binWords K a).length = K := fun a => by simp [binWords]
  have hhist : ∀ b m, 0x30000 ≤ b → Memory.word (Memory.setWords m (histBase slot) ws) b = Memory.word m b :=
    fun b m hb => word_setWords_other _ _ _ _ (.inr (by rw [hws, histBase]; omega))
  refine ⟨?_, ?_, ?_⟩ <;> rw [publishPass, hhist _ _ (by omega)]
  · rw [word_setWords_other _ _ _ _ (.inl (by simp only [powerBase]; omega)),
      word_setWords_other _ _ _ _ (.inl (by simp only [phaseBase]; omega))]
    exact word_binWords hk m magBase sp.M
  · rw [word_setWords_other _ _ _ _ (.inl (by simp only [powerBase]; omega))]
    exact word_binWords hk _ phaseBase sp.Φ
  · exact word_binWords hk _ powerBase sp.P

theorem nextValid_toNat {v : Word} (h : v.toNat ≤ 32) : (nextValid v).toNat = min (v.toNat + 1) 32 := by
  rw [nextValid]
  simp only [Config.featureHistory]
  split
  · rw [Nat.min_eq_left (by assumption)]
    bv_omega
  · rw [Nat.min_eq_right (by omega)]
    rfl

/-- The ML vector's entries by their words (rule R560). -/
theorem mlVector_getElem (ws : List Word) (i : Fin 42) :
    (mlVector ws)[i] =
      if i.val = 3 then f32OfNat (ws.getD 6 0).toNat else if i.val = 4 then f32OfNat (ws.getD 7 0).toNat
      else if i.val < 32 then ws.getD (i.val + 3) 0 else if i.val < 38 then ws.getD (i.val + 9) 0
      else if i.val < 41 then ws.getD (i.val + 9) 0 else ws.getD 51 0 := by
  simp only [mlVector, Fin.getElem_fin, Vector.getElem_ofFn]
  fin_cases i <;> rfl

/-- Settles O36: the published words are the masked snapshot, and the trackers and the ML vector are made of them. -/
theorem passPublishesItsSnapshot : Obligations.PassPublishesItsSnapshot := by
  unfold Obligations.PassPublishesItsSnapshot
  intro s slot held word x sp p onset e pitch layout features
  obtain ⟨hmem, htrackers, hml⟩ := analysisPass_published s
  have hheld : ∀ j, j < 128 → held j = some ((wordsAt s).getD j 0) := fun j hj => held_eq s hj
  have hword : ∀ j, j < 128 → word j = (wordsAt s).getD j 0 := fun j hj => by
    change (held j).getD 0 = _
    rw [hheld j hj, Option.getD_some]
  have hfixed : ∀ j, j < 3 → held j = some ((layoutAt s).getD j 0) := fun j hj => by
    have hnone : featureBit j = none := by interval_cases j <;> rfl
    rw [hheld j (by omega), wordsAt_getD s (by omega), maskWord, hnone]
  refine ⟨hfixed 0 (by decide), hfixed 1 (by decide), hfixed 2 (by decide), fun j hj => ?_, fun j h1 h2 => ?_, ?_,
    fun hv => ?_, analysisPass_frameNumber s, ?_, fun hc k hk => ?_, fun r hr j h1 h2 => ?_, ?_, ?_, fun i => ?_⟩
  · rw [hheld j hj]
    rfl
  · rw [hheld j h2, wordsAt_past s h1 h2]
  · rw [analysisPass_latest, BitVec.toNat_ofNat]
    exact Nat.mod_eq_of_lt (by omega)
  · rw [analysisPass_valid, nextValid_toNat hv]
  · rw [analysisPass_specSeq]
    bv_omega
  · rw [hmem]
    exact publishPass_spectra (actK_le hc) hk (Nat.mod_lt _ (by decide)) s.mem _ (length_wordsAt s)
  · have hbit := featureBit_eq hr h1 h2
    have hj : j < 128 := (lt_of_featureBit hbit).trans (by decide)
    rw [hheld j hj, wordsAt_feature s hj hbit]
    rfl
  · rw [htrackers, hword 47 (by decide), hword 48 (by decide), hword 49 (by decide), hword 50 (by decide),
      hword 51 (by decide), hword 52 (by decide), hword 53 (by decide), hword 54 (by decide)]
    rfl
  · intro c hc
    simp only [List.mem_cons, List.not_mem_nil, or_false] at hc
    obtain rfl | rfl := hc
    · exact pitchConfidence_mem p pitch.2
    · exact tempoStep_conf_mem _ _ _
  · rw [hml, mlVector_getElem, hword 6 (by decide), hword 7 (by decide), hword 51 (by decide),
      hword (i.val + 3) (by omega), hword (i.val + 9) (by omega)]

end Sys2Proof.Machine
end

section
/-! SUPPORT. What a host read finds while a command is in progress (rules R33, R114 to R121, R670): the part that a read
may find early does not depend on the racing writes, keeps BUSY and every readable word, and every read is of the state as
it is, as it was before the command, or as that part leaves it. -/

namespace Sys2Proof.Machine

/-! ## The next part and the racing writes -/

/-- The block with other host writes racing. -/
def setRaced (ws : List (Nat × Word)) (s : State) : State := { s with raced := ws }

theorem reach_setRaced (p : Progress) (ws : List (Nat × Word)) (s : State) :
    reach p (setRaced ws s) = setRaced ws (reach p s) := rfl

theorem isEntryEffect_setRaced {f : State → State} (hf : isEntryEffect f) (ws : List (Nat × Word)) (s : State) :
    f (setRaced ws s) = setRaced ws (f s) := by
  obtain rfl | ⟨r, v, rfl⟩ := hf
  · rfl
  · cases r <;> rfl

theorem beginCommand_setRaced (ws : List (Nat × Word)) (s : State) :
    beginCommand (setRaced ws s) = setRaced ws (beginCommand s) := by
  have hprologue : prologueError (runBuffer s) (setRaced ws s) = prologueError (runBuffer s) s := rfl
  have hcfg : (setRaced ws s).cfg = s.cfg := rfl
  have hrun : runBuffer (setRaced ws s) = runBuffer s := rfl
  have hl : (setRaced ws s).latched = s.latched := rfl
  simp only [beginCommand, hl, hrun, hprologue, hcfg]
  split
  · rfl
  · split <;> rfl
  · split <;> rfl
  · split <;> rfl
  · split <;> rfl
  · rfl

theorem beginBody_setRaced (ws : List (Nat × Word)) (s : State) :
    beginBody (setRaced ws s) = setRaced ws (beginBody s) := by
  have hl : (setRaced ws s).latched = s.latched := rfl
  have hg : (setRaced ws s).eqg = s.eqg := rfl
  simp only [beginBody, eqBegin, hl, hg]
  split
  · split <;> rfl
  · rfl

theorem writeBody_setRaced (j : Nat) (w : Word) (ws : List (Nat × Word)) (s : State) :
    writeBody j w (setRaced ws s) = setRaced ws (writeBody j w s) := by
  have hl : (setRaced ws s).latched = s.latched := rfl
  simp only [writeBody, hl]
  split <;> rfl

theorem passWrites_setRaced (ws : List (Nat × Word)) (s : State) :
    passWrites (setRaced ws s) = setRaced ws (passWrites s) := by
  have hN : actN (setRaced ws s) = actN s := rfl
  have hK : actK (setRaced ws s) = actK s := rfl
  have hf : actFs (setRaced ws s) = actFs s := rfl
  have hp : ∀ x sp, passOf (setRaced ws s) x sp = passOf s x sp := fun _ _ => rfl
  have hspec : (setRaced ws s).spec = s.spec := rfl
  have hact : (setRaced ws s).act = s.act := rfl
  have hmem : (setRaced ws s).mem = s.mem := rfl
  simp only [passWrites, hN, hK, hf, hp, hspec, hact, hmem]
  simp only [setRaced]

theorem endPublication_setRaced (ws : List (Nat × Word)) (s : State) :
    endPublication (setRaced ws s) = setRaced ws (endPublication s) := by
  have hl : (setRaced ws s).latched = s.latched := rfl
  simp only [endPublication, hl, passWrites_setRaced]
  split <;> rfl

theorem endBody_setRaced (ws : List (Nat × Word)) (s : State) : endBody (setRaced ws s) = setRaced ws (endBody s) := by
  have hl : (setRaced ws s).latched = s.latched := rfl
  simp only [endBody, hl]
  split <;> rfl

/-- The part that a read may find early does not depend on the racing writes (rules R114, R670). -/
theorem enginePart_setRaced {s t : State} (ws : List (Nat × Word)) (hb : s.busy = true)
    (hq : ∀ q, s.progress ≠ .draining q) (hr : ∀ j ej, s.progress ≠ .running j ej) (h : enginePart s = .next t) :
    enginePart (setRaced ws s) = .next (setRaced ws t) := by
  have hb' : (setRaced ws s).busy = true := hb
  have hp' : (setRaced ws s).progress = s.progress := rfl
  rw [enginePart, if_pos hb', hp']
  rw [enginePart, if_pos hb] at h
  cases hp : s.progress <;> simp only [hp] at h ⊢
  case start => rw [← Host.Outcome.next.inj h, beginCommand_setRaced]
  case draining q => exact absurd hp (hq q)
  case applying q w =>
    obtain ⟨f, hf, happly⟩ := applyEntry_effect w
    rw [applyPart, happly, andThen_next] at h
    rw [applyPart, happly, andThen_next, isEntryEffect_setRaced hf, ← Host.Outcome.next.inj h, reach_setRaced]
  case beginning => rw [← Host.Outcome.next.inj h, beginBody_setRaced, reach_setRaced]
  case running j ej => exact absurd hp (hr j ej)
  case writing j ej w =>
    rw [← Host.Outcome.next.inj h, writePart, writeBody_setRaced, reach_setRaced]
    rfl
  case ingested j =>
    have hdue : hopDue (setRaced ws s) = hopDue s := rfl
    rw [← Host.Outcome.next.inj h, hopPart, hopPart, hdue]
    split <;> rfl
  case publishing j =>
    rw [← Host.Outcome.next.inj h, publishPart, endPublication_setRaced, reach_setRaced]
    rfl
  case ending => rw [← Host.Outcome.next.inj h, endBody_setRaced, reach_setRaced]
  case finishing c => rw [← Host.Outcome.next.inj h]

/-- What a read may find early: nothing, or the completion but for BUSY, or a part that does not depend on the racing
writes (rules R118, R200, R670). -/
theorem upcoming_cases (s : State) :
    upcoming s = s ∨ (∃ c, s.progress = .finishing c ∧ upcoming s = { finish c (Cmd.op s.latched) s with busy := true }) ∨
      (enginePart s = .next (upcoming s) ∧ (∀ q, s.progress ≠ .draining q) ∧ (∀ j ej, s.progress ≠ .running j ej)) := by
  cases hp : s.progress with
  | draining q => exact .inl (by simp only [upcoming, hp])
  | running j ej => exact .inl (by simp only [upcoming, hp])
  | finishing c => exact .inr (.inl ⟨c, rfl, by simp only [upcoming, hp]⟩)
  | _ =>
    cases he : enginePart s with
    | next t => exact .inr (.inr ⟨by simp only [upcoming, hp, he], nofun, nofun⟩)
    | fault e => exact .inl (by simp only [upcoming, hp, he])
    | refused e => exact .inl (by simp only [upcoming, hp, he])

/-! ## What the next part keeps -/

theorem upcoming_busy {s : State} (hb : s.busy = true) : (upcoming s).busy = true := by
  obtain h | ⟨c, -, h⟩ | ⟨h, -⟩ := upcoming_cases s
  · rw [h, hb]
  · rw [h]
  · rw [(enginePart_sameCommand h).busy, hb]

theorem upcoming_raced (s : State) : (upcoming s).raced = s.raced := by
  obtain h | ⟨c, -, h⟩ | ⟨h, -⟩ := upcoming_cases s
  · rw [h]
  · rw [h]
    rfl
  · exact (enginePart_stores h).raced

theorem keepsReadable_refl (m : List Host.Cell) : keepsReadable m m := fun _ h => h

/-- A PREPARE's clearing leaves 0 in every result (rule R655). -/
theorem clearResults_keepsReadable (m : List Host.Cell) : keepsReadable m (clearResults m) := by
  have hbyte : ∀ x, (Memory.byte m x).isSome = true → (Memory.byte (clearResults m) x).isSome = true := fun x hx => by
    rw [byte_clearResults]
    split
    · rfl
    · exact hx
  intro a h
  rw [word_isSome] at h ⊢
  obtain ⟨h0, h1, h2, h3⟩ := h
  exact ⟨hbyte _ h0, hbyte _ h1, hbyte _ h2, hbyte _ h3⟩

theorem endPublication_keepsReadable (s : State) : keepsReadable s.mem (endPublication s).mem := by
  simp only [endPublication]
  split
  · exact clearResults_keepsReadable s.mem
  · intro a h
    obtain ⟨sp, ws, -, hmem⟩ := passWrites_mem s
    rw [advanceSeq_mem, hmem]
    exact publishPass_keepsReadable _ _ _ _ _ _ h

theorem writeBody_keepsReadable (j : Nat) (w : Word) (s : State) : keepsReadable s.mem (writeBody j w s).mem := by
  intro a h
  simp only [writeBody]
  split
  · exact word_setWords_isSome _ _ _ _ h
  · exact word_setWord_isSome _ _ _ _ h
  · exact h
  · exact h

/-- A part leaves every readable word readable (rule R112). -/
theorem enginePart_keepsReadable {s t : State} (h : enginePart s = .next t) : keepsReadable s.mem t.mem := by
  cases hpub : publishing s with
  | false =>
    obtain he | ⟨j, ej, w, -, -, he⟩ := enginePart_mem h hpub <;> rw [he]
    · exact keepsReadable_refl _
    · exact writeBody_keepsReadable j w s
  | true =>
    obtain ⟨j, rfl⟩ := enginePart_of_publishing h hpub
    exact endPublication_keepsReadable s

theorem upcoming_keepsReadable (s : State) : keepsReadable s.mem (upcoming s).mem := by
  obtain h | ⟨c, -, h⟩ | ⟨h, -⟩ := upcoming_cases s
  · rw [h]
    exact keepsReadable_refl _
  · rw [h]
    exact keepsReadable_refl _
  · exact enginePart_keepsReadable h

/-! ## A register of the completed command (rules R36, R38) -/

/-- BUSY is read in STATUS alone, and no register reads a RAM. -/
theorem readCsr_setBusy {s : State} (b : Bool) (m : List Host.Cell) (ws : List (Nat × Word)) {off : Nat}
    (ha : off % 4 = 0) (hne : off ≠ 0x008) :
    readCsr { s with busy := b, mem := m, raced := ws } off = readCsr s off := by
  by_cases hoff : off < 0x040
  · rw [readCsr_control hoff, readCsr_control hoff]
    have hk : off / 4 < 16 := by omega
    have hk2 : off / 4 ≠ 2 := by omega
    generalize off / 4 = k at hk hk2
    obtain hlt | hgt := Nat.lt_or_gt_of_ne hk2
    · interval_cases k <;> rfl
    · interval_cases k <;> rfl
  · simp only [readCsr, hoff, if_false]
    rfl

/-- The completion of a command of the table leaves every register but STATUS as a read may find it early. -/
theorem readCsr_completion {s t : State} {c : ResultCode} {ws : List (Nat × Word)} (hb : s.busy = true)
    (hp : s.progress = .finishing c) (hop : (Cmd.op s.latched).toNat ≤ 4) (h : engineTurn (setRaced ws s) = .next t)
    {off : Nat} (ha : off % 4 = 0) (hne : off ≠ 0x008) : readCsr t off = readCsr (upcoming s) off := by
  have hup : upcoming s = { finish c (Cmd.op s.latched) s with busy := true } := by simp only [upcoming, hp]
  obtain ⟨hb', -⟩ | ⟨-, i, u, -, hu, rfl⟩ | ⟨-, he, -⟩ := engineTurn_cases h
  · exact absurd (hb'.symm.trans hb) Bool.false_ne_true
  · have hp' : (setRaced ws s).progress = .finishing c := hp
    rw [restOfCommand_finishing hp'] at hu
    rw [← Host.Outcome.next.inj hu, hup]
    have h1 := readCsr_setBusy (s := finish c (Cmd.op s.latched) s) false
      (settleRaces (finish c (Cmd.op s.latched) (setRaced ws s))).mem [] ha hne
    have h2 := readCsr_setBusy (s := finish c (Cmd.op s.latched) s) true s.mem s.raced ha hne
    exact h1.trans h2.symm
  · have hlt : 4 < (Cmd.op s.latched).toNat := decodeDoorbell_error_iff.1 he
    omega

/-! ## A RAM word that racing writes may have changed (rules R115, R670) -/

/-- A word after aligned writes: as it was, or one that was written to it. -/
theorem word_foldl_setWord {off : Nat} (ho : off % 4 = 0) (ws : List (Nat × Word)) (m : List Host.Cell)
    (hw : ∀ w ∈ ws, w.1 % 4 = 0) :
    Memory.word (ws.foldl (fun m r => Memory.setWord m r.1 r.2) m) off = Memory.word m off ∨
      ∃ v, (off, v) ∈ ws ∧ Memory.word (ws.foldl (fun m r => Memory.setWord m r.1 r.2) m) off = some v := by
  induction ws generalizing m with
  | nil => exact .inl rfl
  | cons w ws ih =>
    have hws : ∀ w ∈ ws, w.1 % 4 = 0 := fun v hv => hw v (List.mem_cons_of_mem _ hv)
    obtain h | ⟨v, hv, h⟩ := ih (Memory.setWord m w.1 w.2) hws
    · by_cases he : w.1 = off
      · refine .inr ⟨w.2, he ▸ List.mem_cons_self, ?_⟩
        rw [List.foldl_cons, h, he, word_setWord_same]
      · left
        have ha := hw w List.mem_cons_self
        rw [List.foldl_cons, h, word_setWord_other _ _ _ _ (by omega)]
    · exact .inr ⟨v, List.mem_cons_of_mem _ hv, h⟩

/-- A readable RAM word as the host sees it: as memory holds it, or as a racing write gave it. -/
theorem plainRead_hostView {r : Region} (hr : r ≠ .csr) {off : Nat} (ho : off % 4 = 0) {s : State}
    (hw : ∀ w ∈ s.raced, w.1 % 4 = 0) (hsome : Memory.word s.mem off ≠ none) (draw : Nat) :
    some (plainRead r off (hostView s) draw) = Memory.word s.mem off ∨
      (off, plainRead r off (hostView s) draw) ∈ s.raced := by
  rw [plainRead_of_ram hr]
  obtain h | ⟨v, hv, h⟩ := word_foldl_setWord ho s.raced s.mem hw
  · left
    obtain ⟨w, hw⟩ := Option.ne_none_iff_exists'.1 hsome
    rw [hostView, h, hw, Option.getD_some]
  · right
    rw [hostView, h, Option.getD_some]
    exact hv

theorem wordAt_ram {r : Region} (hr : r ≠ .csr) {off : Nat} (ho : off % 4 = 0) {s : State}
    (hw : ∀ w ∈ s.raced, w.1 % 4 = 0) (hsome : Memory.word s.mem off ≠ none) (draw : Nat) :
    some (wordAt r off s draw) = Memory.word s.mem off ∨ (off, wordAt r off s draw) ∈ s.raced := by
  rw [wordAt]
  split
  · obtain ⟨w, hw⟩ := Option.ne_none_iff_exists'.1 hsome
    rw [plainRead_of_ram hr, hw, Option.getD_some]
    exact .inl rfl
  · exact plainRead_hostView hr ho hw hsome draw

theorem wordAt_csr (off : Nat) (s : State) (draw : Nat) : wordAt .csr off s draw = readCsr s off := by
  rw [wordAt]
  split <;> rfl

/-! ## What a read of a busy block finds -/

/-- A CSR that does not race with the command reads as it is (rules R33, R121). -/
theorem busyRead_csr_quiet {off : Nat} {s : State} (h : readRaces .csr off s = false) :
    busyRead .csr off s = readCsr s off := by
  obtain ⟨hr, -⟩ | he | he := busyRead_cases .csr off s
  · exact absurd (h.symm.trans hr) Bool.false_ne_true
  · exact he
  · exact he.trans (wordAt_csr off s _)

/-- A CSR reads as it is, as the next part leaves it, or as it was (rules R118, R670). -/
theorem busyRead_csr (off : Nat) (s : State) :
    busyRead .csr off s = readCsr s off ∨ busyRead .csr off s = readCsr (upcoming s) off ∨
      busyRead .csr off s = if off = 0x008 then bankWord s.oldCsrs (off / 4) ||| 2 else bankWord s.oldCsrs (off / 4) := by
  obtain ⟨-, he | he⟩ | he | he := busyRead_cases .csr off s
  · exact .inr (.inr he)
  · exact .inr (.inl (he.trans (wordAt_csr off (upcoming s) _)))
  · exact .inl he
  · exact .inl (he.trans (wordAt_csr off s _))

/-- A CSR that races with the command reads freely as one of three words (rules R118, R670). -/
theorem busyRead_csr_races {off : Nat} {s : State} (h : readRaces .csr off s = true) (hne : off ≠ 0x008) :
    busyRead .csr off s =
      if Config.raceSeesOld s.hostDraws then bankWord s.oldCsrs (off / 4)
      else if Config.raceSeesNew s.hostDraws then readCsr (upcoming s) off else readCsr s off := by
  simp only [busyRead, h, Bool.true_and, wordBefore, if_true, if_neg hne, wordAt_csr]
  have hview : plainRead .csr off (hostView s) s.hostDraws = readCsr s off := rfl
  rw [hview, ite_self]

/-- A RAM word of the engine reads as memory holds it, as the next part leaves it, as it was, or as a racing write gave it
(rules R115, R118, R670). -/
theorem busyRead_ram {r : Region} {off : Nat} (hr : r ≠ .csr) (ho : off % 4 = 0) {s : State}
    (hw : ∀ w ∈ s.raced, w.1 % 4 = 0) (hsome : Memory.word s.mem off ≠ none) :
    some (busyRead r off s) = Memory.word s.mem off ∨ (off, busyRead r off s) ∈ s.raced ∨
      (readRaces r off s = true ∧ (some (busyRead r off s) = Memory.word (upcoming s).mem off ∨
        some (busyRead r off s) = Memory.word s.oldMem off ∨ Memory.word s.oldMem off = none)) := by
  obtain ⟨hrace, he | he⟩ | he | he := busyRead_cases r off s <;> rw [he]
  · rw [wordBefore, if_neg hr]
    by_cases hold : Memory.word s.oldMem off = none
    · exact .inr (.inr ⟨hrace, .inr (.inr hold)⟩)
    · obtain h | h := plainRead_hostView (s := { s with mem := s.oldMem }) hr ho hw hold s.hostDraws
      · exact .inr (.inr ⟨hrace, .inr (.inl h)⟩)
      · exact .inr (.inl h)
  · have hup : Memory.word (upcoming s).mem off ≠ none := fun hnone => by
      have hkept := upcoming_keepsReadable s off (Option.isSome_iff_ne_none.2 hsome)
      exact absurd hnone (Option.isSome_iff_ne_none.1 hkept)
    obtain h | h := wordAt_ram hr ho (by rwa [upcoming_raced]) hup s.hostDraws
    · exact .inr (.inr ⟨hrace, .inl h⟩)
    · exact .inr (.inl (upcoming_raced s ▸ h))
  · exact (plainRead_hostView hr ho hw hsome _).imp_right .inl
  · exact (wordAt_ram hr ho hw hsome _).imp_right .inl

/-- Outside EVT and WT the engine's words race (rule R670). -/
theorem le_of_readRaces {r : Region} {off : Nat} {s : State} (hr : regionOf off = some r) (hram : r ≠ .csr)
    (h : readRaces r off s = true) : 0x10000 ≤ off := by
  have hwin := (regionOf_some.1 hr).1
  cases r with
  | csr => exact absurd rfl hram
  | evt | wt => simp [readRaces, engineMayWrite] at h
  | buf k =>
    simp only [windowOf, bufBase] at hwin
    omega
  | hist | mag | phase | power =>
    simp only [windowOf] at hwin
    omega

/-- STATUS reads BUSY while a command runs (rules R36, R116). -/
theorem busyRead_status {s : State} (hb : s.busy = true) : (busyRead .csr 0x008 s).getLsbD 1 = true := by
  have hstatus : ∀ t : State, t.busy = true → (readCsr t 0x008).getLsbD 1 = true := fun t ht => by
    have hword : readCsr t 0x008 = statusWord t := rfl
    rw [hword, statusWord, ht]
    cases t.prepared <;> rfl
  obtain h | h | h := busyRead_csr 0x008 s <;> rw [h]
  · exact hstatus s hb
  · exact hstatus _ (upcoming_busy hb)
  · rw [if_pos rfl, BitVec.getLsbD_or]
    exact Bool.or_true _

theorem access_read_aligned {off : Nat} {s t : State} (hb : s.busy = true) (h : access (.read 4 off) s = .next t) :
    ∃ r, off % 4 = 0 ∧ regionOf off = some r ∧ t.readData = busyRead r off s := by
  obtain ⟨r, hr, rfl⟩ := access_read_cases h
  refine ⟨r, ?_, regionOf_of_accessRegion hr, by simp only [hostRead, hb, if_true]⟩
  by_contra hne
  rw [accessRegion_eq_none.2 (.inr (.inl hne))] at hr
  exact absurd hr nofun

theorem readRaces_hostCsr {off : Nat} (s : State)
    (h : off = 0x00C ∨ off = 0x010 ∨ off = 0x01C ∨ off = 0x03C ∨ (0x040 ≤ off ∧ off ≤ 0x080)) :
    readRaces .csr off s = false := by
  have hengine : engineCsr off = false := by
    rw [engineCsr, decide_eq_false_iff_not]
    omega
  simp only [readRaces, engineMayWrite, hengine, Bool.false_and]

theorem readRaces_statistic {off : Nat} (s : State)
    (h : (0x110 ≤ off ∧ off ≤ 0x114) ∨ (0x130 ≤ off ∧ off ≤ 0x138) ∨ (0x300 ≤ off ∧ off ≤ 0x3FC) ∨
      (0x400 ≤ off ∧ off ≤ 0x438)) : readRaces .csr off s = true := by
  have hengine : engineCsr off = true := by
    rw [engineCsr, decide_eq_true_eq]
    omega
  have hfree : isSpectral .csr off = false := by
    rw [isSpectral, decide_eq_false_iff_not]
    omega
  simp only [readRaces, engineMayWrite, hengine, hfree, Bool.not_false, Bool.true_or, Bool.and_true]

/-- Outside a publication, data under the sequence lock does not race (rule R121). -/
theorem readRaces_locked {r : Region} {off : Nat} {s : State} (hpub : publishing s = false) (h : isSpectral r off = true) :
    readRaces r off s = false := by
  simp only [readRaces, hpub, h, Bool.not_true, Bool.false_and, Bool.or_false, Bool.and_false]

/-- HIST, MAG, PHASE and POWER are under the sequence lock, and no host write races for their words. -/
theorem isSpectral_result {r : Region} {off : Nat} (hr : regionOf off = some r)
    (h : (0x20000 ≤ off ∧ off < 0x24000) ∨ (0x30000 ≤ off ∧ off < 0x48000)) : isSpectral r off = true := by
  have hwin := regionOf_some.1 hr
  cases r with
  | csr | evt | wt =>
    simp only [windowOf] at hwin
    omega
  | buf k =>
    simp only [windowOf, bufBase] at hwin
    omega
  | hist | mag | phase | power => rfl

theorem region_ne_csr {r : Region} {off : Nat} (hr : regionOf off = some r) (hoff : 0x1000 ≤ off) : r ≠ .csr := fun he => by
  have hlt : off < 0x1000 := (regionOf_some.1 (he ▸ hr)).2
  omega

/-- Settles O44: the early part commutes with the racing writes, and each read is one of the cases of rule R118. -/
theorem busyReadsAreOldOrNew : Obligations.BusyReadsAreOldOrNew := by
  unfold Obligations.BusyReadsAreOldOrNew
  refine ⟨fun s racing hb => ⟨fun hne hf => ?_, fun c t hp hop h off ha hoff => readCsr_completion hb hp hop h ha hoff⟩,
    fun s t off hb hmap h => ?_⟩
  · obtain h | ⟨c, hp, -⟩ | ⟨h, hq, hr⟩ := upcoming_cases s
    · exact absurd h hne
    · exact absurd hp (hf c)
    · exact enginePart_setRaced racing hb hq hr h
  · obtain ⟨r, ha, hr, hdata⟩ := access_read_aligned hb h
    have haligned : ∀ w ∈ s.raced, w.1 % 4 = 0 := fun w hw => (hmap.2 w hw).1
    have hcsr : off < 0x1000 → t.readData = busyRead .csr off s := fun hoff => by
      rw [regionOf_csr hoff] at hr
      rw [hdata, ← Option.some.inj hr]
    refine ⟨fun hoff => ?_, fun he => ?_, fun he => ?_, fun he => ?_, fun he => ?_, fun hoff hsome => ?_,
      fun hpub => ⟨fun hoff => ?_, fun hoff hsome => ?_⟩⟩
    · rw [hcsr hoff]
      exact busyRead_csr off s
    · subst he
      rw [hcsr (by decide)]
      exact busyRead_status hb
    · subst he
      rw [hcsr (by decide), busyRead_csr_quiet (by simp [readRaces, isSpectral])]
      rfl
    · rw [hcsr (by omega), busyRead_csr_quiet (readRaces_hostCsr s he)]
    · rw [hcsr (by omega), busyRead_csr_races (readRaces_statistic s he) (by omega)]
      rfl
    · have hram := region_ne_csr hr hoff
      rw [hdata]
      exact (busyRead_ram hram ha haligned hsome).imp_right
        (Or.imp_right fun ⟨hrace, hval⟩ => ⟨le_of_readRaces hr hram hrace, hval⟩)
    · have hlock : isSpectral .csr off = true := by
        rw [isSpectral, decide_eq_true_eq]
        omega
      rw [hcsr (by omega), busyRead_csr_quiet (readRaces_locked hpub hlock)]
    · have hquiet := readRaces_locked hpub (isSpectral_result hr hoff)
      rw [hdata]
      obtain he | he | ⟨hrace, -⟩ := busyRead_ram (region_ne_csr hr (by omega)) ha haligned hsome
      · exact he
      · obtain ⟨-, hwin⟩ := hmap.2 _ he
        simp only at hwin
        omega
      · exact absurd (hquiet.symm.trans hrace) Bool.false_ne_true

end Sys2Proof.Machine
end
